-- ==== Sys2Proof/Word.lean ====
section
/-! DEFINITION. The word types of the TZ8 (00 R1, R2, R6) and the sparse finite map that registers, tiles and
memory are held in. A sparse map lists keys strictly rising and never a value equal to the default, so that equal
maps are equal data. -/

namespace Sys2Proof

abbrev Byte := BitVec 8
abbrev W32 := BitVec 32
abbrev W64 := BitVec 64
abbrev W128 := BitVec 128

/-- A finite map from natural keys: keys strictly rising, no entry equal to the default its reader uses. -/
abbrev Sparse (α : Type) := List (Nat × α)

/-- What key `k` holds, `d` where the map lists nothing. -/
def Sparse.get {α : Type} (d : α) : Sparse α → Nat → α
  | [], _ => d
  | (k, v) :: m, i => if i = k then v else Sparse.get d m i

/-- Key `i` taken out. -/
def Sparse.erase {α : Type} : Sparse α → Nat → Sparse α
  | [], _ => []
  | (k, v) :: m, i => if i = k then Sparse.erase m i else (k, v) :: Sparse.erase m i

/-- Key `i` made to hold `w`, listed whatever `w` is. -/
def Sparse.insert {α : Type} : Sparse α → Nat → α → Sparse α
  | [], i, w => [(i, w)]
  | (k, v) :: m, i, w =>
    if i = k then (i, w) :: m
    else if i < k then (i, w) :: (k, v) :: m
    else (k, v) :: Sparse.insert m i w

/-- Key `i` made to hold `w`; writing the default `d` removes the entry. -/
def Sparse.set {α : Type} [DecidableEq α] (d : α) (m : Sparse α) (i : Nat) (w : α) : Sparse α :=
  if w = d then m.erase i else m.insert i w

/-- The canonical form: keys strictly rising from `lo` on, no entry equal to the default. -/
def Sparse.wfFrom {α : Type} [DecidableEq α] (d : α) : Nat → Sparse α → Bool
  | _, [] => true
  | lo, (k, v) :: m => decide (lo ≤ k) && decide (v ≠ d) && Sparse.wfFrom d (k + 1) m

/-- The canonical form of a sparse map with default `d`. -/
def Sparse.wf {α : Type} [DecidableEq α] (d : α) (m : Sparse α) : Bool := Sparse.wfFrom d 0 m

end Sys2Proof
end

