-- ==== Sys2Proof/Syntax.lean ====
section
/-! DEFINITION. The instruction set and the device's own steps as syntax: operand codes (02 R32), the fixed words
(02 R34, 09 R246, 12 R313, 13 R346) and `Instr`, one constructor for each row of spec/opcode_table.json. -/

namespace Sys2Proof

/-- Identity operands, codes 0xE5 to 0xEE (02 R32). -/
inductive Ident where
  | lane | slice | thread | gang | team | core | cluster | depth | popix | cycle
  deriving DecidableEq, Repr

/-- A source operand code with its immediate words (02 R32, R33). -/
inductive Src where
  | v (n : BitVec 7)
  | x (n : BitVec 5)
  | s (n : BitVec 6)
  | lat (n : BitVec 2)
  | zero
  | id (c : Ident)
  | imm (w : W32)
  | imm64 (w : W64)
  deriving DecidableEq, Repr

/-- A destination operand code (02 R32): 0xE0 names latch L0 only, 0xE4 discards. -/
inductive Dst where
  | v (n : BitVec 7)
  | x (n : BitVec 5)
  | s (n : BitVec 6)
  | l0
  | zero
  deriving DecidableEq, Repr

/-- The access word of the memory instructions (09 R246). -/
structure AccWord where
  disp : BitVec 16
  order : BitVec 3
  scope : BitVec 3
  cache : BitVec 2
  size : BitVec 3
  ext : BitVec 2
  deriving DecidableEq, Repr

/-- The command word of the engine commands (12 R313). -/
structure CmdWord where
  scope : BitVec 3
  cache : BitVec 2
  lcen : BitVec 1
  lcreg : BitVec 6
  doff : BitVec 6
  soff : BitVec 6
  xtra : BitVec 8
  deriving DecidableEq, Repr

/-- The modifier word of MMA and MMAG (13 R346). -/
structure ModWord where
  fmta : BitVec 4
  fmtb : BitVec 4
  shape : BitVec 3
  nega : BitVec 1
  negb : BitVec 1
  accoff : BitVec 1
  reuse : BitVec 1
  deriving DecidableEq, Repr

/-- What an uncorrectable error strikes (10 R267, 18 R454). -/
inductive EccTarget where
  | hbm (pa : Nat)
  | cache (pa : Nat)
  | scratch (team line : Nat)
  | row (gang code : Nat)
  | tile (gang tile : Nat)
  | tree (gang file : Nat)
  | keys (gang half : Nat)
  | near (gang thread line : Nat)
  | corrected (die k : Nat)
  deriving DecidableEq, Repr

/-- What waits for a reply from another member or the host: a strand, by a slice of it, or an accepted engine command (18 R446). -/
inductive Waiter where
  | strand (slice : Nat)
  | command (id : Nat)
  deriving DecidableEq, Repr

/-- One access that another member makes at its home slice here (18 R445). -/
inductive RemoteOp where
  | read (pa : Nat) (cached : Bool)
  | write (pa : Nat) (data : List Byte)
  | add (pa : Nat) (bytes : Nat) (value : Nat)
  deriving DecidableEq, Repr

/-- The steps of the TZ8, one constructor for each row of the table of operations. Those from `firmwareMeasure` on are
the device's and the outside's own steps (95): they have no instruction word and carry the data the outside gives. -/
inductive Instr where
  -- row 0x00
  | nop
  | mode (ty : BitVec 4) (rnd : BitVec 3) (sat : BitVec 1) (guard : BitVec 4) (ftz : BitVec 1)
  | fpctl (a : Src) (op : BitVec 2)
  | getsr (d : Dst) (n : BitVec 8)
  | setsr (a : Src) (n : BitVec 8)
  | trap (a : Src)
  | resume (again : BitVec 1)
  | twr (a : Src) (elem : BitVec 3)
  | brk (code : BitVec 16)
  | sysc (d : Dst) (a : Src) (svc : BitVec 8)
  | fence (scope : BitVec 3) (order : BitVec 3)
  | fencei
  | ipf (lines : BitVec 25) (count : BitVec 4)
  -- row 0x10
  | br (off : W32)
  | beq (a b : Src) (off : W32)
  | bne (a b : Src) (off : W32)
  | blt (a b : Src) (off : W32)
  | bge (a b : Src) (off : W32)
  | bltu (a b : Src) (off : W32)
  | bgeu (a b : Src) (off : W32)
  | bp (sel : BitVec 4) (off : W32)
  | join
  | call (off : W32)
  | ret
  | jmpi (a : Src)
  | exit
  | yield
  | sleep (a : Src)
  | passpri (rel : BitVec 1) (g : BitVec 5)
  -- rows 0x20 and 0x30
  | add (d : Dst) (a b : Src)
  | sub (d : Dst) (a b : Src)
  | mul (d : Dst) (a b : Src)
  | mulh (d : Dst) (a b : Src)
  | mad (d : Dst) (a b : Src)
  | min (d : Dst) (a b : Src)
  | max (d : Dst) (a b : Src)
  | shl (d : Dst) (a b : Src)
  | shr (d : Dst) (a b : Src)
  | sar (d : Dst) (a b : Src)
  | and (d : Dst) (a b : Src)
  | or (d : Dst) (a b : Src)
  | xor (d : Dst) (a b : Src)
  | div (d : Dst) (a b : Src)
  | rem (d : Dst) (a b : Src)
  | clamp (d : Dst) (a b : Src)
  | cmp (cond : BitVec 4) (p : BitVec 3) (a b : Src)
  | seli (d : Dst) (a b : Src)
  | widen (d : Dst) (a b : Src)
  | rimeget (d : Dst) (a b : Src)
  | narrow (d : Dst) (a b : Src)
  | clz (d : Dst) (a : Src)
  | popc (d : Dst) (a : Src)
  | brev (d : Dst) (a : Src)
  | bfx (d : Dst) (a b : Src)
  | bfi (d : Dst) (a b : Src)
  | abs (d : Dst) (a : Src)
  | not (d : Dst) (a : Src)
  | lea (d : Dst) (a b : Src)
  -- rows 0x40 and 0x50
  | fadd (d : Dst) (a b : Src)
  | fsub (d : Dst) (a b : Src)
  | fmul (d : Dst) (a b : Src)
  | ffma (d : Dst) (a b : Src)
  | ffma3 (d : Dst) (a b : Src) (c : Src) (negp negc : BitVec 1)
  | fmin (d : Dst) (a b : Src)
  | fmax (d : Dst) (a b : Src)
  | fneg (d : Dst) (a : Src)
  | fabs (d : Dst) (a : Src)
  | fcmp (cond : BitVec 4) (p : BitVec 3) (a b : Src)
  | fsel (d : Dst) (a b : Src)
  | frcp (d : Dst) (a : Src)
  | frsq (d : Dst) (a : Src)
  | fsqrt (d : Dst) (a : Src)
  | fdiv (d : Dst) (a b : Src)
  | fexp2 (d : Dst) (a : Src)
  | flog2 (d : Dst) (a : Src)
  | fsin (d : Dst) (a : Src)
  | fcos (d : Dst) (a : Src)
  | ftanh (d : Dst) (a : Src)
  | fclass (d : Dst) (a : Src)
  | fround (d : Dst) (a : Src) (m : BitVec 3)
  | fscale (d : Dst) (a b : Src)
  | fdot2 (d : Dst) (a b : Src)
  | cvt (d : Dst) (a : Src) (sel : BitVec 2) (src : BitVec 4)
  | req (d : Dst) (a b : Src)
  | pack (d : Dst) (a b : Src)
  | unpack (d : Dst) (a : Src) (sel : BitVec 2)
  | iadd (d : Dst) (a b : Src)
  | isub (d : Dst) (a b : Src)
  | imul (d : Dst) (a b : Src)
  | imad (d : Dst) (a b : Src)
  -- row 0x60
  | imin (d : Dst) (a b : Src)
  | imax (d : Dst) (a b : Src)
  | ishl (d : Dst) (a b : Src)
  | ishr (d : Dst) (a b : Src)
  | iand (d : Dst) (a b : Src)
  | ior (d : Dst) (a b : Src)
  | ixor (d : Dst) (a b : Src)
  | icmp (cond : BitVec 4) (p : BitVec 3) (a b : Src)
  | shfl (d : Dst) (a b : Src)
  | vote (d : Dst) (a b : Src)
  | gred (d : Dst) (a b : Src)
  | gscan (d : Dst) (a b : Src)
  | bcast (d : Dst) (a b : Src)
  -- row 0x70
  | mov (d : Dst) (a : Src)
  | pand (p : BitVec 3) (a b : BitVec 4)
  | por (p : BitVec 3) (a b : BitVec 4)
  | pxor (p : BitVec 3) (a b : BitVec 4)
  | pnot (p : BitVec 3) (a : BitVec 4)
  | pmov (p : BitVec 3) (a : BitVec 4) (imm value : BitVec 1)
  | pget (d : Dst) (single : BitVec 1) (sel : BitVec 4)
  | sel (d : Dst) (a b : Src)
  | aset (n : BitVec 4) (a : Src) (half : BitVec 1)
  | aget (d : Dst) (n : BitVec 4) (half : BitVec 1)
  | hset (n : BitVec 3) (a : Src) (half : BitVec 1)
  | hget (d : Dst) (n : BitVec 3) (half : BitVec 1)
  | park (first : BitVec 8) (count : BitVec 5)
  | unpark (first : BitVec 8) (count : BitVec 5)
  -- row 0x80
  | ld (d : Dst) (a : Src) (arr : BitVec 4) (w : AccWord)
  | st (d : Src) (a : Src) (arr : BitVec 4) (w : AccWord)
  | femark (land : BitVec 1) (a : Src) (arr : BitVec 4) (w : AccWord)
  | feprobe (d : Dst) (a : Src) (arr : BitVec 4) (w : AccWord)
  | zprobe (d : Dst) (a : Src) (arr : BitVec 4) (w : AccWord)
  | atom (d : Dst) (func : BitVec 4) (a : Src) (arr : BitVec 4) (w : AccWord)
  | cas (d : Dst) (a : Src) (arr : BitVec 4) (w : AccWord)
  | ldx (d : Dst) (a : Src) (arr : BitVec 4) (w : AccWord)
  | stx (d : Src) (p : BitVec 3) (a : Src) (arr : BitVec 4) (w : AccWord)
  | prf (a : Src) (arr : BitVec 4) (w : AccWord)
  | ldrc (d : Dst) (a : Src) (arr : BitVec 4) (w : AccWord)
  | strc (d : Src) (count : BitVec 4) (a : Src) (arr : BitVec 4) (w : AccWord)
  | cctl (op : BitVec 4) (a : Src) (arr : BitVec 4) (w : AccWord)
  -- row 0xA0
  | cpy (a : Src) (darr sarr : BitVec 4) (w : CmdWord)
  | cpym (d : Dst) (a : Src) (darr sarr : BitVec 4) (w : CmdWord)
  | kvcpy (a : Src) (darr sarr : BitVec 4) (w : CmdWord)
  | waitc (path : BitVec 3) (n : BitVec 8)
  | waitz (a : Src)
  | cpst (a : Src) (w : CmdWord)
  | frame (a : Src) (engine : BitVec 3) (w : CmdWord)
  | sread (a : Src) (drive : BitVec 5) (w : CmdWord)
  -- row 0xB0
  | mma (t : BitVec 5) (a b : Src) (w : ModWord)
  | mmag (t : BitVec 5) (a b : Src) (w : ModWord)
  | mxfence
  | mxdrainReg (t : BitVec 5) (n : BitVec 7) (z : BitVec 1) (f : BitVec 4)
  | mxdrainScratch (t : BitVec 5) (hs he : BitVec 3) (z : BitVec 1) (f : BitVec 4)
  | mxzero (t : BitVec 5)
  | mxv (a : Src) (arr : BitVec 4)
  | mxload (t : BitVec 5) (h : BitVec 3) (off : BitVec 8)
  | mxscale (t : BitVec 5) (a : Src) (m : BitVec 2)
  -- row 0xC0
  | akeys (a : Src) (k : BitVec 2)
  | aclass (d : Dst) (sr : BitVec 6) (k : BitVec 2)
  | amask (t : BitVec 5) (sr : BitVec 6) (tree : BitVec 1) (k : BitVec 2)
  | asoft (st : BitVec 5) (o : BitVec 5) (noo first : BitVec 1) (t : BitVec 5)
  | ttset (g : BitVec 2) (a : Src) (n : BitVec 2)
  | ttmask (d : Dst) (sr : BitVec 6) (n : BitVec 2)
  | ttpos (d : Dst) (a : Src) (sr : BitVec 6) (n : BitVec 2)
  | prune (d : Dst) (a : Src) (n : BitVec 2) (sr : BitVec 6)
  | heat (t : BitVec 5) (a : Src) (arr : BitVec 4)
  | evsel (mark : BitVec 1) (a : Src) (harr larr : BitVec 4)
  -- row 0xD0
  | gath (tarr : BitVec 4) (a : Src) (darr larr : BitVec 4) (w : CmdWord)
  | gath2 (tarr iarr : BitVec 4) (a : Src) (darr larr : BitVec 4) (w : CmdWord)
  | gath3 (tarr iarr : BitVec 4) (a : Src) (darr larr : BitVec 4) (w : CmdWord)
  | scat (tarr : BitVec 4) (a : Src) (sarr larr : BitVec 4) (w : CmdWord)
  | scata (tarr : BitVec 4) (a : Src) (sarr larr : BitVec 4) (w : CmdWord)
  | nzscan (a : Src) (larr varr : BitVec 4) (w : CmdWord)
  -- row 0xE0
  | bar (count : BitVec 6) (b : BitVec 4)
  | bara (count : BitVec 6) (b : BitVec 4)
  | barw (b : BitVec 4)
  | cbar (b : BitVec 4)
  | launch (d : Dst) (a b : Src)
  | waitch (n : BitVec 8)
  | resample (d : Dst) (a b : Src)
  | pstat (d : Dst) (f : BitVec 4)
  | rng (d : Dst) (a b : Src)
  | gbar
  | coll (a : Src) (kind : BitVec 2)
  | ring (a : Src)
  -- the device's own steps: start (18 R453)
  | firmwareMeasure (image : List Byte)
  -- launch and admission (05)
  | launchStore (source : Nat) (offset : Nat) (data : List Byte)
  | copyLaunch (source : Nat) (offset : Nat) (data : List Byte)
  | bulkCopyComplete (id : Nat)
  | gateEvaluate (id : Nat)
  | gateRecheck (id : Nat)
  | teamReadmit (record : Nat)
  -- gangs and the partition scheduler
  | gangRelease (gang : Nat)
  | swapOut (gang : Nat)
  | parkComplete (gang : Nat)
  | swapIn (gang : Nat)
  | swapEligible (gang : Nat)
  | forcedSwap (gang : Nat)
  | starvationPick (gang slice : Nat)
  | fairnessSwitch (gang slice : Nat)
  | latchHoldExpiry (gang slice : Nat)
  | sleepExpiry (gang slice : Nat)
  | watchdogLimit (gang : Nat)
  | emptyTimeout (gang slice : Nat)
  | spillAccepted (gang reg : Nat)
  | fillReturn (gang reg : Nat)
  -- engines
  | commandAccept (gang slice : Nat)
  | lineLanding (gang cmd line : Nat)
  | commandComplete (gang cmd : Nat)
  | accessPerformed (gang id : Nat)
  | commandReplayComplete (gang cmd : Nat)
  | tileOpComplete (gang id : Nat)
  | batchComplete (gang id : Nat)
  | heatAdd (gang id : Nat)
  -- memory
  | pageWalkComplete (core asid va : Nat)
  | lineFill (core pa : Nat)
  | mscCountedDrop (line : Nat)
  | eccError (target : EccTarget)
  | remoteAccess (member : Nat) (op : RemoteOp)
  | remoteAccessTimeout (gang : Nat) (who : Waiter)
  -- faults and pre-emption
  | replyReplay (seq : Nat)
  | replyAbort (seq : Nat)
  | replyContinue (seq : Nat)
  | preemptHalt (grid : Nat)
  | preemptEvict (grid : Nat)
  | preemptRelease (grid : Nat)
  | gangHalted (gang : Nat)
  | teamSave (team : Nat)
  -- populations and translation
  | resampleRelease (gang : Nat)
  | poolPush (stack : Nat) (value : W64)
  | tinvPage (asid : Nat)
  | tinvAsid (asid : Nat)
  -- attestation, links, rings, storage, power
  | attestationRequest (data : List Byte)
  | eccstatClear (die k : Nat)
  | linkRetrain (port : Nat)
  | linkTrained (port : Nat)
  | flitCrcFail (port : Nat) (again : Bool)
  | laneLockLoss (port : Nat)
  | ringTileArrival (ring rev stp : Nat) (data : List Byte)
  | ringAckArrival (ring rev stp : Nat)
  | ringStepComplete (ring : Nat)
  | ringTimeout (ring : Nat)
  | breakReceived (ring rev : Nat)
  | collectiveComplete (ring : Nat)
  | nvmeCompletion (gang cmd : Nat) (ok : Bool) (data : List Byte)
  | storageTimeout (gang cmd : Nat)
  | powerRun (cap : Nat)
  | powerHold (cap : Nat)
  | powerLow (cap : Nat)
  | clockStep (die : Nat) (up : Bool)
  | registerWrite (offset : Nat) (value : W64)
  | collectiveChunkArrival (ring chunk : Nat) (params : Nat) (data : List Byte)
  | remoteCopyInvalidate (line : Nat)
  | measurementExtend (k : Nat) (data : List Byte)
  | bootReady (code : Nat)
  -- the events that carry nothing (constructors this far down may hold no field in compiled code)
  | coldReset
  | warmReset
  | teamAdmit
  | clusterGroupAdmit
  | coreReserve
  | distributorPreempt
  | faultRecordPost
  | tinvAll
  | tinvDone
  | quoteComplete
  | lowPowerEntry
  deriving DecidableEq, Repr

end Sys2Proof
end

