-- ==== Sys2Proof/Machine/Accept.lean ====
section
/-! DEFINITION. Which operand classes and field values each instruction's entry accepts, as far as the words alone
decide it. What an entry does not accept raises ENCODING (02 R42); the meanings test these predicates first, and
`Instr.wf` is made of them. Checks that read the state (VREGS, XREGS, ACCS, TREES, TYPE) stand in the meanings. -/

namespace Sys2Proof.Accept

open Sys2Proof

/-- Identity codes 0xE8–0xEC and 0xEE, the only ones a 64-bit operand accepts (06 R166, 07 R179). -/
def ident64 : Ident → Bool
  | .gang | .team | .core | .cluster | .depth | .cycle => true
  | .lane | .slice | .thread | .popix => false

def isV : Src → Bool
  | .v _ => true
  | _ => false

def isS : Src → Bool
  | .s _ => true
  | _ => false

/-- Sources of the 32-bit index arithmetic and of memory indices: x, s, latches, 0xE4, identity codes, F0 (07 R179, 09 R249). -/
def src32 : Src → Bool
  | .x _ | .s _ | .lat _ | .zero | .id _ | .imm _ => true
  | .v _ | .imm64 _ => false

/-- Sources of the 64-bit index arithmetic (07 R179). -/
def src64 : Src → Bool
  | .s _ | .zero | .imm _ | .imm64 _ => true
  | .id c => ident64 c
  | .v _ | .x _ | .lat _ => false

/-- Sources of compare-and-branch and CMP (04 R100, 07 R184). -/
def srcCmp : Src → Bool
  | .v _ => false
  | _ => true

/-- Sources of the vector instructions, SEL and TTPOS (08 R202, 06 R167). -/
def srcVec : Src → Bool
  | .imm64 _ => false
  | _ => true

/-- s, 0xE4, F0. -/
def srcSZ : Src → Bool
  | .s _ | .zero | .imm _ => true
  | _ => false

/-- s, 0xE4, F0, F1. -/
def srcSZ64 : Src → Bool
  | .s _ | .zero | .imm _ | .imm64 _ => true
  | _ => false

/-- s, F0. -/
def srcSI : Src → Bool
  | .s _ | .imm _ => true
  | _ => false

/-- s, F1. -/
def srcS64 : Src → Bool
  | .s _ | .imm64 _ => true
  | _ => false

def dstIsV : Dst → Bool
  | .v _ => true
  | _ => false

def dstIsS : Dst → Bool
  | .s _ => true
  | _ => false

/-- v, 0xE0, 0xE4: a floating-point destination (08 R202). -/
def dstF : Dst → Bool
  | .v _ | .l0 | .zero => true
  | .x _ | .s _ => false

/-- v, x, 0xE0, 0xE4. -/
def dstVX : Dst → Bool
  | .s _ => false
  | _ => true

/-- v, x: a destination that is read as a source too (08 R202: IMAD, SHFL.idx). -/
def dstVXonly : Dst → Bool
  | .v _ | .x _ => true
  | _ => false

/-- x, s, 0xE0, 0xE4: the index arithmetic (07 R179). -/
def dstIdx : Dst → Bool
  | .v _ => false
  | _ => true

/-- x, s: an index destination that is read as a source too (07 R179). -/
def dstXS : Dst → Bool
  | .x _ | .s _ => true
  | _ => false

/-- s, 0xE4. -/
def dstSZ : Dst → Bool
  | .s _ | .zero => true
  | _ => false

/-- A source of the index arithmetic at the width its destination sets (07 R179). -/
def srcIdx (d : Dst) (a : Src) : Bool := if dstIsS d then src64 a else src32 a

def idx3 (d : Dst) (a b : Src) : Bool := dstIdx d && srcIdx d a && srcIdx d b
def idx3r (d : Dst) (a b : Src) : Bool := dstXS d && srcIdx d a && srcIdx d b
def idx2 (d : Dst) (a : Src) : Bool := dstIdx d && srcIdx d a

/-- MODE payload (02 R37, R40). -/
def modeFields (ty : BitVec 4) (rnd : BitVec 3) : Bool := decide (ty.toNat ≤ 10) && decide (rnd.toNat ≤ 5)

/-- Offset words have bits 1:0 zero (02 R34). -/
def offset (off : W32) : Bool := decide (off.toNat % 4 = 0)

def fence (scope order : BitVec 3) : Bool :=
  decide (scope.toNat ≤ 4) && decide (1 ≤ order.toNat) && decide (order.toNat ≤ 4)

def passpri (rel : BitVec 1) (g : BitVec 5) : Bool := decide (rel = 0) || decide (g = 0)

/-- Special registers a SETSR may write (06 R163). -/
def writableSr (n : BitVec 8) : Bool :=
  match n.toNat with
  | 1 | 2 | 3 | 4 | 10 | 11 | 12 => true
  | _ => false

/-- GETSR's destination (06 R173). -/
def getsr (d : Dst) (n : BitVec 8) : Bool :=
  if n = 0x0E ∨ n = 0x0F then
    match d with
    | .v k => decide (k.toNat ≤ 126)
    | _ => false
  else dstIsS d

def mov (d : Dst) (a : Src) : Bool := if dstIsS d then src64 a else srcVec a

def rimeget (d : Dst) (a b : Src) : Bool :=
  (match d with
   | .s n => decide (n.toNat ≤ 62)
   | _ => false) &&
  (match a, b with
   | .x _, .zero => true
   | .x _, .imm k => decide (k.toNat ≤ 15)
   | .s _, .zero => true
   | _, _ => false)

def bounds (d : Dst) (a b : Src) : Bool := dstXS d && srcSZ64 a && srcSZ64 b

/-- The fields of an access word that no entry narrows (09 R246). -/
def access (w : AccWord) : Bool :=
  decide (w.order.toNat ≤ 4) && decide (w.scope.toNat ≤ 4) && decide (w.size.toNat ≤ 5) &&
  decide (w.ext.toNat ≤ 1) && (decide (w.ext = 0) || decide (w.size.toNat ≤ 1))

def orderLoad (w : AccWord) : Bool := decide (w.order.toNat ≤ 2)
def orderStore (w : AccWord) : Bool := decide (w.order = 0) || decide (w.order = 1) || decide (w.order = 3)

/-- Registers of a v range that starts at n and holds k registers exist (v0 to v127). -/
def vRange (n : BitVec 7) (k : Nat) : Bool := decide (n.toNat + k ≤ 128)

/-- How many registers `2^size` bytes take, at least one. -/
def regsOf (size : BitVec 3) : Nat := if size.toNat ≤ 2 then 1 else 2 ^ (size.toNat - 2)

/-- Destination of LD, LDX, LDRC (09 R250). -/
def dstLoad (d : Dst) (size : BitVec 3) : Bool :=
  match d with
  | .v n => vRange n (regsOf size)
  | .x _ | .l0 | .zero => decide (size.toNat ≤ 2)
  | .s _ => false

/-- Data source of ST, STX, STRC (09 R251). -/
def srcStore (d : Src) (size : BitVec 3) : Bool :=
  match d with
  | .v n => vRange n (regsOf size)
  | .x _ | .lat _ => decide (size.toNat ≤ 2)
  | .s _ => decide (size.toNat ≤ 3)
  | .zero => true
  | .id _ | .imm _ | .imm64 _ => false

def ld (d : Dst) (a : Src) (w : AccWord) : Bool := access w && src32 a && orderLoad w && dstLoad d w.size

def st (d : Src) (a : Src) (w : AccWord) : Bool :=
  access w && src32 a && orderStore w && decide (w.ext = 0) && srcStore d w.size

def plain (w : AccWord) : Bool := access w && decide (w.size = 0) && decide (w.ext = 0)

def femark (a : Src) (w : AccWord) : Bool := plain w && src32 a && decide (w.order = 0)
def feprobe (d : Dst) (a : Src) (w : AccWord) : Bool :=
  plain w && src32 a && dstVX d && (decide (w.order = 0) || decide (w.order = 2))
def zprobe (d : Dst) (a : Src) (w : AccWord) : Bool := plain w && src32 a && dstVX d && decide (w.order = 0)

def size23 (w : AccWord) : Bool := decide (w.size = 2) || decide (w.size = 3)

def atom (d : Dst) (func : BitVec 4) (a : Src) (w : AccWord) : Bool :=
  access w && src32 a && decide (w.ext = 0) && size23 w && decide (func ≠ 15) &&
  (decide (func.toNat ≤ 10) || decide (w.size = 2)) &&
  (match d with
   | .v n => vRange n (regsOf w.size)
   | .x _ => decide (w.size = 2)
   | _ => false)

def cas (d : Dst) (a : Src) (w : AccWord) : Bool :=
  access w && src32 a && decide (w.ext = 0) && size23 w &&
  (match d with
   | .v n => vRange n (2 * regsOf w.size)
   | _ => false)

def ldx (d : Dst) (a : Src) (w : AccWord) : Bool := ld d a w && size23 w
def stx (d : Src) (a : Src) (w : AccWord) : Bool := st d a w && size23 w
def prf (a : Src) (w : AccWord) : Bool := access w && src32 a && decide (w.order = 0) && decide (w.ext = 0)
def cctl (op : BitVec 4) (a : Src) (w : AccWord) : Bool :=
  plain w && src32 a && decide (w.order = 0) && decide (op.toNat ≤ 4)

/-- The fields of a command word that no entry narrows (12 R313). -/
def cmd (w : CmdWord) : Bool := decide (w.scope.toNat ≤ 4) && (decide (w.lcen = 1) || decide (w.lcreg = 0))

def cpy (a : Src) (w : CmdWord) : Bool := cmd w && srcSI a && decide (w.xtra = 0)
def cpym (d : Dst) (a : Src) (w : CmdWord) : Bool := cpy a w && dstIsS d
def kvcpy (a : Src) (w : CmdWord) : Bool :=
  cmd w && isV a && decide (w.soff = 0) && decide (w.xtra.toNat / 16 ≤ 9) &&
  decide ((w.xtra.toNat / 2) % 8 + 4 ≤ w.xtra.toNat / 16 + 7)
def cpst (a : Src) (w : CmdWord) : Bool := cmd w && srcSZ a && decide (w.xtra = 0)
def frame (a : Src) (w : CmdWord) : Bool :=
  cmd w && isS a && decide (w.doff = 0) && decide (w.soff = 0) && decide (w.xtra = 0)
def sread (a : Src) (w : CmdWord) : Bool := cmd w && srcS64 a && decide (w.xtra.toNat < 16)

/-- The group of an MMA format (13 R345): 1 the 16-bit, 2 the 8-bit float, 3 INT8, 4 the 4-bit; 0 none. -/
def mmaGroup (f : BitVec 4) : Nat :=
  match f.toNat with
  | 1 | 2 => 1
  | 3 | 4 | 6 => 2
  | 5 => 3
  | 7 | 8 | 11 => 4
  | _ => 0

def blockFmt (f : BitVec 4) : Bool := decide (f = 6) || decide (f = 7) || decide (f = 8)

/-- A registers of an MMA (13 R345). -/
def mmaRegs (f : BitVec 4) : Nat :=
  if f = 6 ∨ f = 7 then 9 else if f = 8 then 10 else 8

def mma (a b : Src) (w : ModWord) : Bool :=
  decide (mmaGroup w.fmta ≠ 0) && decide (mmaGroup w.fmta = mmaGroup w.fmtb) && srcSZ b &&
  (match a with
   | .v n => vRange n (mmaRegs w.fmta)
   | _ => false)

def mmag (a b : Src) (w : ModWord) : Bool := mma a b w && !blockFmt w.fmtb

def drainRegs (f : BitVec 4) : Nat := if f = 0 then 8 else 4

def mxdrainReg (n : BitVec 7) (f : BitVec 4) : Bool := decide (f.toNat ≤ 2) && vRange n (drainRegs f)
def mxdrainScratch (f : BitVec 4) : Bool := decide (f.toNat ≤ 2) || blockFmt f

def mxscale (a : Src) (m : BitVec 2) : Bool :=
  if m = 2 then srcSI a else decide (m.toNat ≤ 1) && isV a

def asoft (st o : BitVec 5) (noo : BitVec 1) (t : BitVec 5) : Bool :=
  decide (st ≠ t) && (if noo = 1 then decide (o = 0) else decide (o ≠ st) && decide (o ≠ t))

def akeys (a : Src) : Bool :=
  match a with
  | .v n => vRange n 4
  | _ => false

def evsel (a : Src) : Bool :=
  match a with
  | .s n => decide (n.toNat ≤ 62)
  | _ => false

/-- The common fields of the gather family (15 R381). -/
def gathCommon (a : Src) (larr : BitVec 4) (w : CmdWord) : Bool :=
  cmd w && decide (2 ≤ w.xtra.toNat % 16) && decide (w.xtra.toNat % 16 ≤ 11) &&
  (match a with
   | .x _ => decide (larr = 0) && decide (w.soff = 0)
   | .s _ | .imm _ => true
   | _ => false)

def gath (a : Src) (larr : BitVec 4) (w : CmdWord) : Bool := gathCommon a larr w && decide (w.xtra.toNat < 16)
def gath3 (a : Src) (larr : BitVec 4) (w : CmdWord) : Bool := gathCommon a larr w
def scat (a : Src) (larr : BitVec 4) (w : CmdWord) : Bool := gath a larr w && decide (w.lcen = 0)
def scata (a : Src) (larr : BitVec 4) (w : CmdWord) : Bool :=
  gathCommon a larr w && decide (w.xtra.toNat / 16 ≤ 1) && decide (w.lcen = 0)
def nzscan (a : Src) (w : CmdWord) : Bool := cmd w && srcSI a && decide (w.xtra.toNat ≤ 1)

def launch (d : Dst) (a b : Src) : Bool := dstSZ d && srcSI a && isS b
def resample (d : Dst) (a b : Src) : Bool :=
  (match d with
   | .v _ | .x _ | .zero => true
   | _ => false) && isV a &&
  (match b with
   | .s _ | .imm _ | .imm64 _ => true
   | _ => false)

def twr (a : Src) : Bool :=
  match a with
  | .v _ | .x _ | .s _ | .zero | .imm _ => true
  | _ => false

def ffma3 (d : Dst) (a b c : Src) : Bool :=
  dstF d && srcVec a && srcVec b &&
  (match c with
   | .imm _ | .imm64 _ => false
   | _ => true)

def gang (a b : Src) : Bool := srcVec a && srcSZ64 b

end Sys2Proof.Accept
end

