-- ==== Sys2Proof/Config.lean ====
section
/-! DEFINITION. What the TZ8-1536M fixes and what the manual leaves open (01 R10, R11; DESIGN CHOICE, log entries 6, 8, 14, 30, 31). The
opaque constants are the free values: nothing can be proved of which value they take. -/

namespace Sys2Proof.Config

/-- The free value number `n`: drawn by the counter `State.free` (DESIGN CHOICE, log 6). -/
opaque freeValue : Nat → Nat

/-- The bits that the device returns for a transcendental whose result is not exact (08 R213): operation, number of the
format, FTZ, SAT, operand code. Used only where they lie within R213's bound (DESIGN CHOICE, log 8). -/
opaque transBits : Nat → Nat → Bool → Bool → Nat → Nat

/-- A sample of the picture that a session of units releases (12 R331: the decoding is outside standards): units with
codec and flags, plane (0 luma, 1 Cb, 2 Cr), column, row (DESIGN CHOICE, log 30). -/
opaque frameSample : List (Nat × List Byte) → Nat → Nat → Nat → Nat

/-- What a decoder finds in a session of units: status code (0 picture, 1 none, 2 corrupt, 3 unsupported), bit depth,
coded width and height, cropped width and height (DESIGN CHOICE, log 30). -/
opaque frameParse : List (Nat × List Byte) → Nat × Nat × Nat × Nat × Nat × Nat

/-- Signature and identity bytes that the attestation logic makes with a key nothing else holds (18 R454, DESIGN CHOICE, log 31). -/
opaque attestByte : List Byte → Nat → Byte

/-- The data-store set of a near line by its physical address (09 R234 names no set; DESIGN CHOICE, log 14). -/
opaque nearSet : Nat → Nat

/-- The instruction-cache set of a line by its physical address (02 R28 names no set; DESIGN CHOICE, log 13). -/
opaque codeSet : Nat → Nat

/-! The package (01 R10, R11). -/

def computeDies : Nat := 8
def coresPerDie : Nat := 192
def coresPerCluster : Nat := 16
def clusters : Nat := 96
def cores : Nat := 1536
def partitions : Nat := 8
def hbmStacks : Nat := 12
def baseDies : Nat := 4
def linkPorts : Nat := 18
def frameEngines : Nat := 8
def launchQueues : Nat := 64
def localHbm : Nat := 768 * 2 ^ 30

end Sys2Proof.Config
end

