-- ==== Sys2Proof/Decode.lean ====
section
/-! DEFINITION. Words to instructions and back (02 R31 to R36, R41, R42). Decoding is total: it answers an
instruction or names why the words are none. Operand classes are each entry's business (Machine/Accept.lean). -/

namespace Sys2Proof

/-- Why words are no instruction; executing such words raises ENCODING (02 R42). `truncated` names words that end
before the decoded length does, which no well-formed line holds (02 R23). -/
inductive DecodeError where
  | reservedOpcode | reservedCode | reservedBits | tooLong | truncated
  deriving DecidableEq, Repr

/-- An instruction's words taken apart by the lengths of R34: main-word fields, fixed word (0 where the opcode has
none), immediate words of A and of B. -/
structure Raw where
  op : BitVec 8
  d : BitVec 8
  a : BitVec 8
  b : BitVec 8
  ext : W32
  immA : List W32
  immB : List W32
  deriving DecidableEq, Repr

/-- Opcodes with a fixed extension word (02 R34). -/
def hasFixed (op : BitVec 8) : Bool :=
  match op.toNat with
  | 0x0C | 0x10 | 0x11 | 0x12 | 0x13 | 0x14 | 0x15 | 0x16 | 0x17 | 0x19 | 0x44
  | 0x80 | 0x81 | 0x82 | 0x83 | 0x84 | 0x85 | 0x86 | 0x87 | 0x88 | 0x89 | 0x8A | 0x8B | 0x8C
  | 0xA0 | 0xA1 | 0xA2 | 0xA5 | 0xA6 | 0xA7 | 0xB0 | 0xB1
  | 0xD0 | 0xD1 | 0xD2 | 0xD3 | 0xD4 | 0xD5 => true
  | _ => false

/-- Opcodes whose A slot is a subfield (02 R35). -/
def subA (op : BitVec 8) : Bool :=
  match op.toNat with
  | 0x00 | 0x01 | 0x03 | 0x06 | 0x08 | 0x0A | 0x0B | 0x0C | 0x10 | 0x17 | 0x18 | 0x19 | 0x1A | 0x1C | 0x1D | 0x1F
  | 0x71 | 0x72 | 0x73 | 0x74 | 0x75 | 0x76 | 0x79 | 0x7B | 0x7C | 0x7D | 0xA3 | 0xB2 | 0xB3 | 0xB4 | 0xB6
  | 0xC1 | 0xC2 | 0xC3 | 0xC5 | 0xE0 | 0xE1 | 0xE2 | 0xE3 | 0xE5 | 0xE7 | 0xE9 => true
  | _ => false

/-- Opcodes whose A slot is an operand code and whose B slot is a subfield (02 R35). -/
def subBonly (op : BitVec 8) : Bool :=
  match op.toNat with
  | 0x02 | 0x04 | 0x05 | 0x07 | 0x09 | 0x1B | 0x1E | 0x35 | 0x36 | 0x37 | 0x3A | 0x3B
  | 0x47 | 0x48 | 0x4B | 0x4C | 0x4D | 0x4F | 0x50 | 0x51 | 0x52 | 0x53 | 0x54 | 0x55 | 0x58 | 0x5B
  | 0x70 | 0x78 | 0x7A
  | 0x80 | 0x81 | 0x82 | 0x83 | 0x84 | 0x85 | 0x86 | 0x87 | 0x88 | 0x89 | 0x8A | 0x8B | 0x8C
  | 0xA0 | 0xA1 | 0xA2 | 0xA4 | 0xA5 | 0xA6 | 0xA7 | 0xB5 | 0xB7
  | 0xC0 | 0xC4 | 0xC6 | 0xC7 | 0xC8 | 0xC9 | 0xD0 | 0xD1 | 0xD2 | 0xD3 | 0xD4 | 0xD5 | 0xEA | 0xEB => true
  | _ => false

/-- The reserved opcodes (02 R41). -/
def reservedOp (op : BitVec 8) : Bool :=
  let n := op.toNat
  decide (0x0D ≤ n ∧ n ≤ 0x0F) || decide (0x3D ≤ n ∧ n ≤ 0x3F) || decide (0x6D ≤ n ∧ n ≤ 0x6F) ||
  decide (0x7E ≤ n ∧ n ≤ 0x7F) || decide (0x8D ≤ n ∧ n ≤ 0x9F) || decide (0xA8 ≤ n ∧ n ≤ 0xAF) ||
  decide (0xB8 ≤ n ∧ n ≤ 0xBF) || decide (0xCA ≤ n ∧ n ≤ 0xCF) || decide (0xD6 ≤ n ∧ n ≤ 0xDF) ||
  decide (0xEC ≤ n)

/-- Whether A holds an operand code; in a reserved opcode it does (02 R35). -/
def codeA (op : BitVec 8) : Bool := !subA op

/-- Whether B holds an operand code. -/
def codeB (op : BitVec 8) : Bool := !(subA op || subBonly op)

/-- Immediate words that a code adds in an operand-code slot (02 R34). -/
def immWords (isCode : Bool) (c : BitVec 8) : Nat :=
  if isCode then (if c = 0xF0 then 1 else if c = 0xF1 then 2 else 0) else 0

/-- Bits l+n−1 down to l. -/
abbrev bitsAt {w : Nat} (l n : Nat) (x : BitVec w) : BitVec n := x.extractLsb' l n

/-- The decoded length in words of an instruction that begins with main word `m` (02 R35). -/
def lengthOf (m : W32) : Nat :=
  let op := bitsAt 24 8 m
  1 + (if hasFixed op then 1 else 0) + immWords (codeA op) (bitsAt 8 8 m) + immWords (codeB op) (bitsAt 0 8 m)

/-- The words of an instruction, in the order of R34. -/
def Raw.words (r : Raw) : List W32 :=
  (r.op ++ r.d ++ r.a ++ r.b : W32) :: ((if hasFixed r.op then [r.ext] else []) ++ r.immA ++ r.immB)

/-- An instruction's words taken apart; words beyond its length are ignored. -/
def Raw.split : List W32 → Except DecodeError Raw
  | [] => .error .truncated
  | m :: rest =>
    let op := bitsAt 24 8 m
    let f := if hasFixed op then 1 else 0
    let na := immWords (codeA op) (bitsAt 8 8 m)
    let nb := immWords (codeB op) (bitsAt 0 8 m)
    if 4 < 1 + f + na + nb then .error .tooLong
    else if rest.length < f + na + nb then .error .truncated
    else .ok
      { op := op, d := bitsAt 16 8 m, a := bitsAt 8 8 m, b := bitsAt 0 8 m
        ext := if hasFixed op then rest.headD 0 else 0
        immA := (rest.drop f).take na
        immB := (rest.drop (f + na)).take nb }

/-! Operand codes (02 R32). -/

def Ident.code : Ident → BitVec 8
  | .lane => 0xE5 | .slice => 0xE6 | .thread => 0xE7 | .gang => 0xE8 | .team => 0xE9
  | .core => 0xEA | .cluster => 0xEB | .depth => 0xEC | .popix => 0xED | .cycle => 0xEE

def Ident.ofCode (c : BitVec 8) : Option Ident :=
  match c.toNat with
  | 0xE5 => some .lane | 0xE6 => some .slice | 0xE7 => some .thread | 0xE8 => some .gang | 0xE9 => some .team
  | 0xEA => some .core | 0xEB => some .cluster | 0xEC => some .depth | 0xED => some .popix | 0xEE => some .cycle
  | _ => none

def Src.code : Src → BitVec 8
  | .v n => 0#1 ++ n
  | .x n => 0b100#3 ++ n
  | .s n => 0xA0#8 + (0#2 ++ n)
  | .lat n => 0b111000#6 ++ n
  | .zero => 0xE4
  | .id c => c.code
  | .imm _ => 0xF0
  | .imm64 _ => 0xF1

/-- The immediate words of a source. -/
def Src.imms : Src → List W32
  | .imm w => [w]
  | .imm64 w => [bitsAt 0 32 w, bitsAt 32 32 w]
  | _ => []

/-- A source code that carries no immediate. -/
def Src.ofPlain (c : BitVec 8) : Option Src :=
  let n := c.toNat
  if n < 0x80 then some (.v (bitsAt 0 7 c))
  else if n < 0xA0 then some (.x (bitsAt 0 5 c))
  else if n < 0xE0 then some (.s (bitsAt 0 6 (c - 0xA0#8)))
  else if n < 0xE4 then some (.lat (bitsAt 0 2 c))
  else if n = 0xE4 then some .zero
  else (Ident.ofCode c).map .id

def Src.ofCode (c : BitVec 8) : List W32 → Except DecodeError Src
  | [] => match Src.ofPlain c with
    | some a => .ok a
    | none => .error .reservedCode
  | [w] => if c = 0xF0 then .ok (.imm w) else .error .reservedCode
  | [lo, hi] => if c = 0xF1 then .ok (.imm64 (hi ++ lo)) else .error .reservedCode
  | _ => .error .reservedCode

def Dst.code : Dst → BitVec 8
  | .v n => 0#1 ++ n
  | .x n => 0b100#3 ++ n
  | .s n => 0xA0#8 + (0#2 ++ n)
  | .l0 => 0xE0
  | .zero => 0xE4

def Dst.ofCode (c : BitVec 8) : Except DecodeError Dst :=
  let n := c.toNat
  if n < 0x80 then .ok (.v (bitsAt 0 7 c))
  else if n < 0xA0 then .ok (.x (bitsAt 0 5 c))
  else if n < 0xE0 then .ok (.s (bitsAt 0 6 (c - 0xA0#8)))
  else if n = 0xE0 then .ok .l0
  else if n = 0xE4 then .ok .zero
  else .error .reservedCode

/-! Fixed words. -/

def AccWord.word (w : AccWord) : W32 := w.disp ++ w.order ++ w.scope ++ w.cache ++ w.size ++ w.ext ++ 0#3

def AccWord.of (e : W32) : Except DecodeError AccWord :=
  if bitsAt 0 3 e = 0 then
    .ok { disp := bitsAt 16 16 e, order := bitsAt 13 3 e, scope := bitsAt 10 3 e, cache := bitsAt 8 2 e
          size := bitsAt 5 3 e, ext := bitsAt 3 2 e }
  else .error .reservedBits

def CmdWord.word (w : CmdWord) : W32 := w.scope ++ w.cache ++ w.lcen ++ w.lcreg ++ w.doff ++ w.soff ++ w.xtra

def CmdWord.of (e : W32) : CmdWord :=
  { scope := bitsAt 29 3 e, cache := bitsAt 27 2 e, lcen := bitsAt 26 1 e, lcreg := bitsAt 20 6 e
    doff := bitsAt 14 6 e, soff := bitsAt 8 6 e, xtra := bitsAt 0 8 e }

def ModWord.word (w : ModWord) : W32 :=
  w.fmta ++ w.fmtb ++ w.shape ++ w.nega ++ w.negb ++ w.accoff ++ w.reuse ++ 0#17

def ModWord.of (e : W32) : Except DecodeError ModWord :=
  if bitsAt 0 17 e = 0 then
    .ok { fmta := bitsAt 28 4 e, fmtb := bitsAt 24 4 e, shape := bitsAt 21 3 e, nega := bitsAt 20 1 e
          negb := bitsAt 19 1 e, accoff := bitsAt 18 1 e, reuse := bitsAt 17 1 e }
  else .error .reservedBits

/-! The opcode map (02 R41): building an instruction from its parts. -/

/-- Goes on where the reserved bits `x` are zero. -/
def resv {w : Nat} {α : Type} (x : BitVec w) (k : Except DecodeError α) : Except DecodeError α :=
  if x = 0 then k else .error .reservedBits

def Raw.A (r : Raw) (k : Src → Except DecodeError Instr) : Except DecodeError Instr :=
  match Src.ofCode r.a r.immA with
  | .ok a => k a
  | .error e => .error e

def Raw.B (r : Raw) (k : Src → Except DecodeError Instr) : Except DecodeError Instr :=
  match Src.ofCode r.b r.immB with
  | .ok a => k a
  | .error e => .error e

def Raw.D (r : Raw) (k : Dst → Except DecodeError Instr) : Except DecodeError Instr :=
  match Dst.ofCode r.d with
  | .ok d => k d
  | .error e => .error e

/-- D as a data source (09 R251). -/
def Raw.DS (r : Raw) (k : Src → Except DecodeError Instr) : Except DecodeError Instr :=
  match Src.ofCode r.d [] with
  | .ok d => k d
  | .error e => .error e

def Raw.acc (r : Raw) (k : AccWord → Except DecodeError Instr) : Except DecodeError Instr :=
  match AccWord.of r.ext with
  | .ok w => k w
  | .error e => .error e

def Raw.modw (r : Raw) (k : ModWord → Except DecodeError Instr) : Except DecodeError Instr :=
  match ModWord.of r.ext with
  | .ok w => k w
  | .error e => .error e

def Raw.dab (r : Raw) (f : Dst → Src → Src → Instr) : Except DecodeError Instr :=
  r.D fun d => r.A fun a => r.B fun b => .ok (f d a b)

def Raw.da (r : Raw) (f : Dst → Src → Instr) : Except DecodeError Instr :=
  r.D fun d => r.A fun a => resv r.b (.ok (f d a))

def Raw.ab (r : Raw) (f : Src → Src → Instr) : Except DecodeError Instr :=
  r.A fun a => r.B fun b => .ok (f a b)

/-- Only the opcode: D, A and B are zero. -/
def Raw.bare (r : Raw) (i : Instr) : Except DecodeError Instr := resv r.d (resv r.a (resv r.b (.ok i)))

/-- Only the A operand: D and B are zero. -/
def Raw.onlyA (r : Raw) (f : Src → Instr) : Except DecodeError Instr :=
  resv r.d (r.A fun a => resv r.b (.ok (f a)))

/-- Compare-and-branch: offset word, D zero. -/
def Raw.branch (r : Raw) (f : Src → Src → W32 → Instr) : Except DecodeError Instr :=
  resv r.d (r.A fun a => r.B fun b => .ok (f a b r.ext))

/-- A compare: D holds COND 7:4, bit 3 zero, the predicate 2:0 (07 R184, 08 R212, R216). -/
def Raw.cond (r : Raw) (f : BitVec 4 → BitVec 3 → Src → Src → Instr) : Except DecodeError Instr :=
  resv (bitsAt 3 1 r.d) (r.A fun a => r.B fun b => .ok (f (bitsAt 4 4 r.d) (bitsAt 0 3 r.d) a b))

def row00 (r : Raw) (lo : Nat) : Except DecodeError Instr :=
  match lo with
  | 0x0 => r.bare .nop
  | 0x1 => resv (bitsAt 0 3 r.a) (resv r.b
      (.ok (.mode (bitsAt 4 4 r.d) (bitsAt 1 3 r.d) (bitsAt 0 1 r.d) (bitsAt 4 4 r.a) (bitsAt 3 1 r.a))))
  | 0x2 => resv r.d (r.A fun a => resv (bitsAt 2 6 r.b) (.ok (.fpctl a (bitsAt 0 2 r.b))))
  | 0x3 => r.D fun d => resv r.a (.ok (.getsr d r.b))
  | 0x4 => resv r.d (r.A fun a => .ok (.setsr a r.b))
  | 0x5 => r.onlyA .trap
  | 0x6 => resv r.d (resv r.a (resv (bitsAt 1 7 r.b) (.ok (.resume (bitsAt 0 1 r.b)))))
  | 0x7 => resv r.d (r.A fun a => resv (bitsAt 3 5 r.b) (.ok (.twr a (bitsAt 0 3 r.b))))
  | 0x8 => resv r.d (.ok (.brk (r.a ++ r.b)))
  | 0x9 => r.D fun d => r.A fun a => .ok (.sysc d a r.b)
  | 0xA => resv r.d (resv (bitsAt 3 5 r.a) (resv (bitsAt 3 5 r.b) (.ok (.fence (bitsAt 0 3 r.a) (bitsAt 0 3 r.b)))))
  | 0xB => r.bare .fencei
  | 0xC => resv (bitsAt 4 3 r.ext) (r.bare (.ipf (bitsAt 7 25 r.ext) (bitsAt 0 4 r.ext)))
  | _ => .error .reservedOpcode

def row10 (r : Raw) (lo : Nat) : Except DecodeError Instr :=
  match lo with
  | 0x0 => r.bare (.br r.ext)
  | 0x1 => r.branch .beq
  | 0x2 => r.branch .bne
  | 0x3 => r.branch .blt
  | 0x4 => r.branch .bge
  | 0x5 => r.branch .bltu
  | 0x6 => r.branch .bgeu
  | 0x7 => resv (bitsAt 4 4 r.d) (resv r.a (resv r.b (.ok (.bp (bitsAt 0 4 r.d) r.ext))))
  | 0x8 => r.bare .join
  | 0x9 => r.bare (.call r.ext)
  | 0xA => r.bare .ret
  | 0xB => r.onlyA .jmpi
  | 0xC => r.bare .exit
  | 0xD => r.bare .yield
  | 0xE => r.onlyA .sleep
  | 0xF => resv r.d (resv (bitsAt 1 7 r.a) (resv (bitsAt 5 3 r.b) (.ok (.passpri (bitsAt 0 1 r.a) (bitsAt 0 5 r.b)))))
  | _ => .error .reservedOpcode

def row20 (r : Raw) (lo : Nat) : Except DecodeError Instr :=
  match lo with
  | 0x0 => r.dab .add
  | 0x1 => r.dab .sub
  | 0x2 => r.dab .mul
  | 0x3 => r.dab .mulh
  | 0x4 => r.dab .mad
  | 0x5 => r.dab .min
  | 0x6 => r.dab .max
  | 0x7 => r.dab .shl
  | 0x8 => r.dab .shr
  | 0x9 => r.dab .sar
  | 0xA => r.dab .and
  | 0xB => r.dab .or
  | 0xC => r.dab .xor
  | 0xD => r.dab .div
  | 0xE => r.dab .rem
  | 0xF => r.dab .clamp
  | _ => .error .reservedOpcode

def row30 (r : Raw) (lo : Nat) : Except DecodeError Instr :=
  match lo with
  | 0x0 => r.cond .cmp
  | 0x1 => r.dab .seli
  | 0x2 => r.dab .widen
  | 0x3 => r.dab .rimeget
  | 0x4 => r.dab .narrow
  | 0x5 => r.da .clz
  | 0x6 => r.da .popc
  | 0x7 => r.da .brev
  | 0x8 => r.dab .bfx
  | 0x9 => r.dab .bfi
  | 0xA => r.da .abs
  | 0xB => r.da .not
  | 0xC => r.dab .lea
  | _ => .error .reservedOpcode

def row40 (r : Raw) (lo : Nat) : Except DecodeError Instr :=
  match lo with
  | 0x0 => r.dab .fadd
  | 0x1 => r.dab .fsub
  | 0x2 => r.dab .fmul
  | 0x3 => r.dab .ffma
  | 0x4 => resv (bitsAt 10 22 r.ext) (
      match Src.ofCode (bitsAt 0 8 r.ext) [] with
      | .ok c => r.dab fun d a b => .ffma3 d a b c (bitsAt 9 1 r.ext) (bitsAt 8 1 r.ext)
      | .error e => .error e)
  | 0x5 => r.dab .fmin
  | 0x6 => r.dab .fmax
  | 0x7 => r.da .fneg
  | 0x8 => r.da .fabs
  | 0x9 => r.cond .fcmp
  | 0xA => r.dab .fsel
  | 0xB => r.da .frcp
  | 0xC => r.da .frsq
  | 0xD => r.da .fsqrt
  | 0xE => r.dab .fdiv
  | 0xF => r.da .fexp2
  | _ => .error .reservedOpcode

def row50 (r : Raw) (lo : Nat) : Except DecodeError Instr :=
  match lo with
  | 0x0 => r.da .flog2
  | 0x1 => r.da .fsin
  | 0x2 => r.da .fcos
  | 0x3 => r.da .ftanh
  | 0x4 => r.da .fclass
  | 0x5 => r.D fun d => r.A fun a => resv (bitsAt 3 5 r.b) (.ok (.fround d a (bitsAt 0 3 r.b)))
  | 0x6 => r.dab .fscale
  | 0x7 => r.dab .fdot2
  | 0x8 => r.D fun d => r.A fun a => resv (bitsAt 6 2 r.b) (.ok (.cvt d a (bitsAt 4 2 r.b) (bitsAt 0 4 r.b)))
  | 0x9 => r.dab .req
  | 0xA => r.dab .pack
  | 0xB => r.D fun d => r.A fun a => resv (bitsAt 2 6 r.b) (.ok (.unpack d a (bitsAt 0 2 r.b)))
  | 0xC => r.dab .iadd
  | 0xD => r.dab .isub
  | 0xE => r.dab .imul
  | 0xF => r.dab .imad
  | _ => .error .reservedOpcode

def row60 (r : Raw) (lo : Nat) : Except DecodeError Instr :=
  match lo with
  | 0x0 => r.dab .imin
  | 0x1 => r.dab .imax
  | 0x2 => r.dab .ishl
  | 0x3 => r.dab .ishr
  | 0x4 => r.dab .iand
  | 0x5 => r.dab .ior
  | 0x6 => r.dab .ixor
  | 0x7 => r.cond .icmp
  | 0x8 => r.dab .shfl
  | 0x9 => r.dab .vote
  | 0xA => r.dab .gred
  | 0xB => r.dab .gscan
  | 0xC => r.dab .bcast
  | _ => .error .reservedOpcode

/-- Predicate logic: D bits 2:0 the destination, A and B bits 3:0 the selections (06 R168). -/
def Raw.pred (r : Raw) (k : BitVec 3 → BitVec 4 → Except DecodeError Instr) : Except DecodeError Instr :=
  resv (bitsAt 3 5 r.d) (resv (bitsAt 4 4 r.a) (k (bitsAt 0 3 r.d) (bitsAt 0 4 r.a)))

def Raw.pred2 (r : Raw) (f : BitVec 3 → BitVec 4 → BitVec 4 → Instr) : Except DecodeError Instr :=
  r.pred fun p a => resv (bitsAt 4 4 r.b) (.ok (f p a (bitsAt 0 4 r.b)))

def row70 (r : Raw) (lo : Nat) : Except DecodeError Instr :=
  match lo with
  | 0x0 => r.da .mov
  | 0x1 => r.pred2 .pand
  | 0x2 => r.pred2 .por
  | 0x3 => r.pred2 .pxor
  | 0x4 => r.pred fun p a => resv r.b (.ok (.pnot p a))
  | 0x5 => r.pred fun p a => resv (bitsAt 2 6 r.b) (.ok (.pmov p a (bitsAt 1 1 r.b) (bitsAt 0 1 r.b)))
  | 0x6 => r.D fun d => resv (bitsAt 1 7 r.a) (resv (bitsAt 4 4 r.b) (.ok (.pget d (bitsAt 0 1 r.a) (bitsAt 0 4 r.b))))
  | 0x7 => r.dab .sel
  | 0x8 => resv (bitsAt 4 4 r.d) (r.A fun a => resv (bitsAt 1 7 r.b) (.ok (.aset (bitsAt 0 4 r.d) a (bitsAt 0 1 r.b))))
  | 0x9 => r.D fun d => resv (bitsAt 4 4 r.a) (resv (bitsAt 1 7 r.b) (.ok (.aget d (bitsAt 0 4 r.a) (bitsAt 0 1 r.b))))
  | 0xA => resv (bitsAt 3 5 r.d) (r.A fun a => resv (bitsAt 1 7 r.b) (.ok (.hset (bitsAt 0 3 r.d) a (bitsAt 0 1 r.b))))
  | 0xB => r.D fun d => resv (bitsAt 3 5 r.a) (resv (bitsAt 1 7 r.b) (.ok (.hget d (bitsAt 0 3 r.a) (bitsAt 0 1 r.b))))
  | 0xC => resv r.d (resv (bitsAt 5 3 r.b) (.ok (.park r.a (bitsAt 0 5 r.b))))
  | 0xD => resv r.d (resv (bitsAt 5 3 r.b) (.ok (.unpark r.a (bitsAt 0 5 r.b))))
  | _ => .error .reservedOpcode

/-- A load-like access: destination, index, array; B bits 3:0 zero. -/
def Raw.load (r : Raw) (f : Dst → Src → BitVec 4 → AccWord → Instr) : Except DecodeError Instr :=
  r.D fun d => r.A fun a => resv (bitsAt 0 4 r.b) (r.acc fun w => .ok (f d a (bitsAt 4 4 r.b) w))

def row80 (r : Raw) (lo : Nat) : Except DecodeError Instr :=
  match lo with
  | 0x0 => r.load .ld
  | 0x1 => r.DS fun d => r.A fun a => resv (bitsAt 0 4 r.b) (r.acc fun w => .ok (.st d a (bitsAt 4 4 r.b) w))
  | 0x2 => resv r.d (r.A fun a => resv (bitsAt 1 3 r.b) (r.acc fun w => .ok (.femark (bitsAt 0 1 r.b) a (bitsAt 4 4 r.b) w)))
  | 0x3 => r.load .feprobe
  | 0x4 => r.load .zprobe
  | 0x5 => r.D fun d => r.A fun a => r.acc fun w => .ok (.atom d (bitsAt 0 4 r.b) a (bitsAt 4 4 r.b) w)
  | 0x6 => r.load .cas
  | 0x7 => r.load .ldx
  | 0x8 => r.DS fun d => r.A fun a => resv (bitsAt 3 1 r.b) (r.acc fun w =>
      .ok (.stx d (bitsAt 0 3 r.b) a (bitsAt 4 4 r.b) w))
  | 0x9 => resv r.d (r.A fun a => resv (bitsAt 0 4 r.b) (r.acc fun w => .ok (.prf a (bitsAt 4 4 r.b) w)))
  | 0xA => r.load .ldrc
  | 0xB => r.DS fun d => r.A fun a => r.acc fun w => .ok (.strc d (bitsAt 0 4 r.b) a (bitsAt 4 4 r.b) w)
  | 0xC => resv r.d (r.A fun a => r.acc fun w => .ok (.cctl (bitsAt 0 4 r.b) a (bitsAt 4 4 r.b) w))
  | _ => .error .reservedOpcode

def rowA0 (r : Raw) (lo : Nat) : Except DecodeError Instr :=
  match lo with
  | 0x0 => resv r.d (r.A fun a => .ok (.cpy a (bitsAt 4 4 r.b) (bitsAt 0 4 r.b) (CmdWord.of r.ext)))
  | 0x1 => r.D fun d => r.A fun a => .ok (.cpym d a (bitsAt 4 4 r.b) (bitsAt 0 4 r.b) (CmdWord.of r.ext))
  | 0x2 => resv r.d (r.A fun a => .ok (.kvcpy a (bitsAt 4 4 r.b) (bitsAt 0 4 r.b) (CmdWord.of r.ext)))
  | 0x3 => resv r.d (resv (bitsAt 3 5 r.a) (.ok (.waitc (bitsAt 0 3 r.a) r.b)))
  | 0x4 => r.onlyA .waitz
  | 0x5 => r.onlyA fun a => .cpst a (CmdWord.of r.ext)
  | 0x6 => resv r.d (r.A fun a => resv (bitsAt 3 5 r.b) (.ok (.frame a (bitsAt 0 3 r.b) (CmdWord.of r.ext))))
  | 0x7 => resv r.d (r.A fun a => resv (bitsAt 5 3 r.b) (.ok (.sread a (bitsAt 0 5 r.b) (CmdWord.of r.ext))))
  | _ => .error .reservedOpcode

/-- A tile number in D bits 4:0. -/
def Raw.tile (r : Raw) (k : BitVec 5 → Except DecodeError Instr) : Except DecodeError Instr :=
  resv (bitsAt 5 3 r.d) (k (bitsAt 0 5 r.d))

def rowB0 (r : Raw) (lo : Nat) : Except DecodeError Instr :=
  match lo with
  | 0x0 => r.tile fun t => r.A fun a => r.B fun b => r.modw fun w => .ok (.mma t a b w)
  | 0x1 => r.tile fun t => r.A fun a => r.B fun b => r.modw fun w => .ok (.mmag t a b w)
  | 0x2 => r.bare .mxfence
  | 0x3 => r.tile fun t => resv (bitsAt 5 3 r.b) (
      if bitsAt 7 1 r.a = 0 then .ok (.mxdrainReg t (bitsAt 0 7 r.a) (bitsAt 4 1 r.b) (bitsAt 0 4 r.b))
      else resv (bitsAt 3 1 r.a)
        (.ok (.mxdrainScratch t (bitsAt 4 3 r.a) (bitsAt 0 3 r.a) (bitsAt 4 1 r.b) (bitsAt 0 4 r.b))))
  | 0x4 => r.tile fun t => resv r.a (resv r.b (.ok (.mxzero t)))
  | 0x5 => resv r.d (r.A fun a => resv (bitsAt 0 4 r.b) (.ok (.mxv a (bitsAt 4 4 r.b))))
  | 0x6 => r.tile fun t => resv (bitsAt 3 5 r.a) (.ok (.mxload t (bitsAt 0 3 r.a) r.b))
  | 0x7 => r.tile fun t => r.A fun a => resv (bitsAt 2 6 r.b) (.ok (.mxscale t a (bitsAt 0 2 r.b)))
  | _ => .error .reservedOpcode

def rowC0 (r : Raw) (lo : Nat) : Except DecodeError Instr :=
  match lo with
  | 0x0 => resv r.d (r.A fun a => resv (bitsAt 2 6 r.b) (.ok (.akeys a (bitsAt 0 2 r.b))))
  | 0x1 => r.D fun d => resv (bitsAt 6 2 r.a) (resv (bitsAt 2 6 r.b) (.ok (.aclass d (bitsAt 0 6 r.a) (bitsAt 0 2 r.b))))
  | 0x2 => r.tile fun t => resv (bitsAt 6 2 r.a) (resv (bitsAt 2 5 r.b)
      (.ok (.amask t (bitsAt 0 6 r.a) (bitsAt 7 1 r.b) (bitsAt 0 2 r.b))))
  | 0x3 => r.tile fun t => resv (bitsAt 5 3 r.a) (resv (bitsAt 7 1 r.b)
      (.ok (.asoft t (bitsAt 0 5 r.a) (bitsAt 6 1 r.b) (bitsAt 5 1 r.b) (bitsAt 0 5 r.b))))
  | 0x4 => resv (bitsAt 2 6 r.d) (r.A fun a => resv (bitsAt 2 6 r.b) (.ok (.ttset (bitsAt 0 2 r.d) a (bitsAt 0 2 r.b))))
  | 0x5 => r.D fun d => resv (bitsAt 6 2 r.a) (resv (bitsAt 2 6 r.b) (.ok (.ttmask d (bitsAt 0 6 r.a) (bitsAt 0 2 r.b))))
  | 0x6 => r.D fun d => r.A fun a => .ok (.ttpos d a (bitsAt 2 6 r.b) (bitsAt 0 2 r.b))
  | 0x7 => r.D fun d => r.A fun a => .ok (.prune d a (bitsAt 6 2 r.b) (bitsAt 0 6 r.b))
  | 0x8 => r.tile fun t => r.A fun a => resv (bitsAt 0 4 r.b) (.ok (.heat t a (bitsAt 4 4 r.b)))
  | 0x9 => resv (bitsAt 1 7 r.d) (r.A fun a => .ok (.evsel (bitsAt 0 1 r.d) a (bitsAt 4 4 r.b) (bitsAt 0 4 r.b)))
  | _ => .error .reservedOpcode

def rowD0 (r : Raw) (lo : Nat) : Except DecodeError Instr :=
  let t := bitsAt 4 4 r.d
  let w := CmdWord.of r.ext
  match lo with
  | 0x0 => resv (bitsAt 0 4 r.d) (r.A fun a => .ok (.gath t a (bitsAt 4 4 r.b) (bitsAt 0 4 r.b) w))
  | 0x1 => r.A fun a => .ok (.gath2 t (bitsAt 0 4 r.d) a (bitsAt 4 4 r.b) (bitsAt 0 4 r.b) w)
  | 0x2 => r.A fun a => .ok (.gath3 t (bitsAt 0 4 r.d) a (bitsAt 4 4 r.b) (bitsAt 0 4 r.b) w)
  | 0x3 => resv (bitsAt 0 4 r.d) (r.A fun a => .ok (.scat t a (bitsAt 4 4 r.b) (bitsAt 0 4 r.b) w))
  | 0x4 => resv (bitsAt 0 4 r.d) (r.A fun a => .ok (.scata t a (bitsAt 4 4 r.b) (bitsAt 0 4 r.b) w))
  | 0x5 => resv r.d (r.A fun a => .ok (.nzscan a (bitsAt 4 4 r.b) (bitsAt 0 4 r.b) w))
  | _ => .error .reservedOpcode

/-- COUNT and BARRIER of a team barrier (04 R111). -/
def Raw.barrier (r : Raw) (f : BitVec 6 → BitVec 4 → Instr) : Except DecodeError Instr :=
  resv r.d (resv (bitsAt 6 2 r.a) (resv (bitsAt 4 4 r.b) (.ok (f (bitsAt 0 6 r.a) (bitsAt 0 4 r.b)))))

def rowE0 (r : Raw) (lo : Nat) : Except DecodeError Instr :=
  match lo with
  | 0x0 => r.barrier .bar
  | 0x1 => r.barrier .bara
  | 0x2 => resv r.d (resv r.a (resv (bitsAt 4 4 r.b) (.ok (.barw (bitsAt 0 4 r.b)))))
  | 0x3 => resv r.d (resv r.a (resv (bitsAt 4 4 r.b) (.ok (.cbar (bitsAt 0 4 r.b)))))
  | 0x4 => r.dab .launch
  | 0x5 => resv r.d (resv r.a (.ok (.waitch r.b)))
  | 0x6 => r.dab .resample
  | 0x7 => r.D fun d => resv (bitsAt 4 4 r.a) (resv r.b (.ok (.pstat d (bitsAt 0 4 r.a))))
  | 0x8 => r.dab .rng
  | 0x9 => r.bare .gbar
  | 0xA => resv r.d (r.A fun a => resv (bitsAt 2 6 r.b) (.ok (.coll a (bitsAt 0 2 r.b))))
  | 0xB => r.onlyA .ring
  | _ => .error .reservedOpcode

/-- The instruction that an instruction's parts stand for. -/
def build (r : Raw) : Except DecodeError Instr :=
  let lo := (bitsAt 0 4 r.op).toNat
  match (bitsAt 4 4 r.op).toNat with
  | 0x0 => row00 r lo
  | 0x1 => row10 r lo
  | 0x2 => row20 r lo
  | 0x3 => row30 r lo
  | 0x4 => row40 r lo
  | 0x5 => row50 r lo
  | 0x6 => row60 r lo
  | 0x7 => row70 r lo
  | 0x8 => row80 r lo
  | 0xA => rowA0 r lo
  | 0xB => rowB0 r lo
  | 0xC => rowC0 r lo
  | 0xD => rowD0 r lo
  | 0xE => rowE0 r lo
  | _ => .error .reservedOpcode

/-- The instruction at the head of `ws`, or why there is none. -/
def decode (ws : List W32) : Except DecodeError Instr :=
  match Raw.split ws with
  | .ok r => build r
  | .error e => .error e

/-! The encoder, written from the same tables. -/

def Raw.of (op : BitVec 8) (d a b : BitVec 8) (ext : W32) (immA immB : List W32) : Raw := ⟨op, d, a, b, ext, immA, immB⟩

def encDAB (op : BitVec 8) (d : Dst) (a b : Src) : Option Raw := some (Raw.of op d.code a.code b.code 0 a.imms b.imms)
def encDA (op : BitVec 8) (d : Dst) (a : Src) (b : BitVec 8) : Option Raw := some (Raw.of op d.code a.code b 0 a.imms [])
def encA (op d : BitVec 8) (a : Src) (b : BitVec 8) (ext : W32) : Option Raw := some (Raw.of op d a.code b ext a.imms [])
def encAB (op d : BitVec 8) (a b : Src) (ext : W32) : Option Raw := some (Raw.of op d a.code b.code ext a.imms b.imms)
def encF (op d a b : BitVec 8) (ext : W32) : Option Raw := some (Raw.of op d a b ext [] [])

/-- The parts of an instruction; none for the device's own steps, which have no words. -/
def Instr.raw : Instr → Option Raw
  | .nop => encF 0x00 0 0 0 0
  | .mode ty rnd sat g ftz => encF 0x01 (ty ++ rnd ++ sat) (g ++ ftz ++ 0#3) 0 0
  | .fpctl a op => encA 0x02 0 a (0#6 ++ op) 0
  | .getsr d n => encF 0x03 d.code 0 n 0
  | .setsr a n => encA 0x04 0 a n 0
  | .trap a => encA 0x05 0 a 0 0
  | .resume g => encF 0x06 0 0 (0#7 ++ g) 0
  | .twr a e => encA 0x07 0 a (0#5 ++ e) 0
  | .brk c => encF 0x08 0 (bitsAt 8 8 c) (bitsAt 0 8 c) 0
  | .sysc d a svc => encDA 0x09 d a svc
  | .fence sc o => encF 0x0A 0 (0#5 ++ sc) (0#5 ++ o) 0
  | .fencei => encF 0x0B 0 0 0 0
  | .ipf l c => encF 0x0C 0 0 0 (l ++ 0#3 ++ c)
  | .br off => encF 0x10 0 0 0 off
  | .beq a b off => encAB 0x11 0 a b off
  | .bne a b off => encAB 0x12 0 a b off
  | .blt a b off => encAB 0x13 0 a b off
  | .bge a b off => encAB 0x14 0 a b off
  | .bltu a b off => encAB 0x15 0 a b off
  | .bgeu a b off => encAB 0x16 0 a b off
  | .bp p off => encF 0x17 (0#4 ++ p) 0 0 off
  | .join => encF 0x18 0 0 0 0
  | .call off => encF 0x19 0 0 0 off
  | .ret => encF 0x1A 0 0 0 0
  | .jmpi a => encA 0x1B 0 a 0 0
  | .exit => encF 0x1C 0 0 0 0
  | .yield => encF 0x1D 0 0 0 0
  | .sleep a => encA 0x1E 0 a 0 0
  | .passpri r g => encF 0x1F 0 (0#7 ++ r) (0#3 ++ g) 0
  | .add d a b => encDAB 0x20 d a b
  | .sub d a b => encDAB 0x21 d a b
  | .mul d a b => encDAB 0x22 d a b
  | .mulh d a b => encDAB 0x23 d a b
  | .mad d a b => encDAB 0x24 d a b
  | .min d a b => encDAB 0x25 d a b
  | .max d a b => encDAB 0x26 d a b
  | .shl d a b => encDAB 0x27 d a b
  | .shr d a b => encDAB 0x28 d a b
  | .sar d a b => encDAB 0x29 d a b
  | .and d a b => encDAB 0x2A d a b
  | .or d a b => encDAB 0x2B d a b
  | .xor d a b => encDAB 0x2C d a b
  | .div d a b => encDAB 0x2D d a b
  | .rem d a b => encDAB 0x2E d a b
  | .clamp d a b => encDAB 0x2F d a b
  | .cmp c p a b => encAB 0x30 (c ++ 0#1 ++ p) a b 0
  | .seli d a b => encDAB 0x31 d a b
  | .widen d a b => encDAB 0x32 d a b
  | .rimeget d a b => encDAB 0x33 d a b
  | .narrow d a b => encDAB 0x34 d a b
  | .clz d a => encDA 0x35 d a 0
  | .popc d a => encDA 0x36 d a 0
  | .brev d a => encDA 0x37 d a 0
  | .bfx d a b => encDAB 0x38 d a b
  | .bfi d a b => encDAB 0x39 d a b
  | .abs d a => encDA 0x3A d a 0
  | .not d a => encDA 0x3B d a 0
  | .lea d a b => encDAB 0x3C d a b
  | .fadd d a b => encDAB 0x40 d a b
  | .fsub d a b => encDAB 0x41 d a b
  | .fmul d a b => encDAB 0x42 d a b
  | .ffma d a b => encDAB 0x43 d a b
  | .ffma3 d a b c p n => some (Raw.of 0x44 d.code a.code b.code (0#22 ++ p ++ n ++ c.code) a.imms b.imms)
  | .fmin d a b => encDAB 0x45 d a b
  | .fmax d a b => encDAB 0x46 d a b
  | .fneg d a => encDA 0x47 d a 0
  | .fabs d a => encDA 0x48 d a 0
  | .fcmp c p a b => encAB 0x49 (c ++ 0#1 ++ p) a b 0
  | .fsel d a b => encDAB 0x4A d a b
  | .frcp d a => encDA 0x4B d a 0
  | .frsq d a => encDA 0x4C d a 0
  | .fsqrt d a => encDA 0x4D d a 0
  | .fdiv d a b => encDAB 0x4E d a b
  | .fexp2 d a => encDA 0x4F d a 0
  | .flog2 d a => encDA 0x50 d a 0
  | .fsin d a => encDA 0x51 d a 0
  | .fcos d a => encDA 0x52 d a 0
  | .ftanh d a => encDA 0x53 d a 0
  | .fclass d a => encDA 0x54 d a 0
  | .fround d a m => encDA 0x55 d a (0#5 ++ m)
  | .fscale d a b => encDAB 0x56 d a b
  | .fdot2 d a b => encDAB 0x57 d a b
  | .cvt d a l s => encDA 0x58 d a (0#2 ++ l ++ s)
  | .req d a b => encDAB 0x59 d a b
  | .pack d a b => encDAB 0x5A d a b
  | .unpack d a s => encDA 0x5B d a (0#6 ++ s)
  | .iadd d a b => encDAB 0x5C d a b
  | .isub d a b => encDAB 0x5D d a b
  | .imul d a b => encDAB 0x5E d a b
  | .imad d a b => encDAB 0x5F d a b
  | .imin d a b => encDAB 0x60 d a b
  | .imax d a b => encDAB 0x61 d a b
  | .ishl d a b => encDAB 0x62 d a b
  | .ishr d a b => encDAB 0x63 d a b
  | .iand d a b => encDAB 0x64 d a b
  | .ior d a b => encDAB 0x65 d a b
  | .ixor d a b => encDAB 0x66 d a b
  | .icmp c p a b => encAB 0x67 (c ++ 0#1 ++ p) a b 0
  | .shfl d a b => encDAB 0x68 d a b
  | .vote d a b => encDAB 0x69 d a b
  | .gred d a b => encDAB 0x6A d a b
  | .gscan d a b => encDAB 0x6B d a b
  | .bcast d a b => encDAB 0x6C d a b
  | .mov d a => encDA 0x70 d a 0
  | .pand p a b => encF 0x71 (0#5 ++ p) (0#4 ++ a) (0#4 ++ b) 0
  | .por p a b => encF 0x72 (0#5 ++ p) (0#4 ++ a) (0#4 ++ b) 0
  | .pxor p a b => encF 0x73 (0#5 ++ p) (0#4 ++ a) (0#4 ++ b) 0
  | .pnot p a => encF 0x74 (0#5 ++ p) (0#4 ++ a) 0 0
  | .pmov p a i v => encF 0x75 (0#5 ++ p) (0#4 ++ a) (0#6 ++ i ++ v) 0
  | .pget d g s => encF 0x76 d.code (0#7 ++ g) (0#4 ++ s) 0
  | .sel d a b => encDAB 0x77 d a b
  | .aset n a h => encA 0x78 (0#4 ++ n) a (0#7 ++ h) 0
  | .aget d n h => encF 0x79 d.code (0#4 ++ n) (0#7 ++ h) 0
  | .hset n a h => encA 0x7A (0#5 ++ n) a (0#7 ++ h) 0
  | .hget d n h => encF 0x7B d.code (0#5 ++ n) (0#7 ++ h) 0
  | .park r c => encF 0x7C 0 r (0#3 ++ c) 0
  | .unpark r c => encF 0x7D 0 r (0#3 ++ c) 0
  | .ld d a n w => encA 0x80 d.code a (n ++ 0#4) w.word
  | .st d a n w => encA 0x81 d.code a (n ++ 0#4) w.word
  | .femark l a n w => encA 0x82 0 a (n ++ 0#3 ++ l) w.word
  | .feprobe d a n w => encA 0x83 d.code a (n ++ 0#4) w.word
  | .zprobe d a n w => encA 0x84 d.code a (n ++ 0#4) w.word
  | .atom d f a n w => encA 0x85 d.code a (n ++ f) w.word
  | .cas d a n w => encA 0x86 d.code a (n ++ 0#4) w.word
  | .ldx d a n w => encA 0x87 d.code a (n ++ 0#4) w.word
  | .stx d p a n w => encA 0x88 d.code a (n ++ 0#1 ++ p) w.word
  | .prf a n w => encA 0x89 0 a (n ++ 0#4) w.word
  | .ldrc d a n w => encA 0x8A d.code a (n ++ 0#4) w.word
  | .strc d c a n w => encA 0x8B d.code a (n ++ c) w.word
  | .cctl o a n w => encA 0x8C 0 a (n ++ o) w.word
  | .cpy a t s w => encA 0xA0 0 a (t ++ s) w.word
  | .cpym d a t s w => encA 0xA1 d.code a (t ++ s) w.word
  | .kvcpy a t s w => encA 0xA2 0 a (t ++ s) w.word
  | .waitc p n => encF 0xA3 0 (0#5 ++ p) n 0
  | .waitz a => encA 0xA4 0 a 0 0
  | .cpst a w => encA 0xA5 0 a 0 w.word
  | .frame a e w => encA 0xA6 0 a (0#5 ++ e) w.word
  | .sread a n w => encA 0xA7 0 a (0#3 ++ n) w.word
  | .mma t a b w => encAB 0xB0 (0#3 ++ t) a b w.word
  | .mmag t a b w => encAB 0xB1 (0#3 ++ t) a b w.word
  | .mxfence => encF 0xB2 0 0 0 0
  | .mxdrainReg t n z f => encF 0xB3 (0#3 ++ t) (0#1 ++ n) (0#3 ++ z ++ f) 0
  | .mxdrainScratch t hs he z f => encF 0xB3 (0#3 ++ t) (1#1 ++ hs ++ 0#1 ++ he) (0#3 ++ z ++ f) 0
  | .mxzero t => encF 0xB4 (0#3 ++ t) 0 0 0
  | .mxv a n => encA 0xB5 0 a (n ++ 0#4) 0
  | .mxload t h o => encF 0xB6 (0#3 ++ t) (0#5 ++ h) o 0
  | .mxscale t a m => encA 0xB7 (0#3 ++ t) a (0#6 ++ m) 0
  | .akeys a k => encA 0xC0 0 a (0#6 ++ k) 0
  | .aclass d s k => encF 0xC1 d.code (0#2 ++ s) (0#6 ++ k) 0
  | .amask t s x k => encF 0xC2 (0#3 ++ t) (0#2 ++ s) (x ++ 0#5 ++ k) 0
  | .asoft s o n f t => encF 0xC3 (0#3 ++ s) (0#3 ++ o) (0#1 ++ n ++ f ++ t) 0
  | .ttset g a n => encA 0xC4 (0#6 ++ g) a (0#6 ++ n) 0
  | .ttmask d s n => encF 0xC5 d.code (0#2 ++ s) (0#6 ++ n) 0
  | .ttpos d a s n => encDA 0xC6 d a (s ++ n)
  | .prune d a n s => encDA 0xC7 d a (n ++ s)
  | .heat t a n => encA 0xC8 (0#3 ++ t) a (n ++ 0#4) 0
  | .evsel m a h l => encA 0xC9 (0#7 ++ m) a (h ++ l) 0
  | .gath t a d l w => encA 0xD0 (t ++ 0#4) a (d ++ l) w.word
  | .gath2 t i a d l w => encA 0xD1 (t ++ i) a (d ++ l) w.word
  | .gath3 t i a d l w => encA 0xD2 (t ++ i) a (d ++ l) w.word
  | .scat t a s l w => encA 0xD3 (t ++ 0#4) a (s ++ l) w.word
  | .scata t a s l w => encA 0xD4 (t ++ 0#4) a (s ++ l) w.word
  | .nzscan a l v w => encA 0xD5 0 a (l ++ v) w.word
  | .bar c b => encF 0xE0 0 (0#2 ++ c) (0#4 ++ b) 0
  | .bara c b => encF 0xE1 0 (0#2 ++ c) (0#4 ++ b) 0
  | .barw b => encF 0xE2 0 0 (0#4 ++ b) 0
  | .cbar b => encF 0xE3 0 0 (0#4 ++ b) 0
  | .launch d a b => encDAB 0xE4 d a b
  | .waitch n => encF 0xE5 0 0 n 0
  | .resample d a b => encDAB 0xE6 d a b
  | .pstat d f => encF 0xE7 d.code (0#4 ++ f) 0 0
  | .rng d a b => encDAB 0xE8 d a b
  | .gbar => encF 0xE9 0 0 0 0
  | .coll a k => encA 0xEA 0 a (0#6 ++ k) 0
  | .ring a => encA 0xEB 0 a 0 0
  | _ => none

/-- The words of an instruction; the device's own steps have none. -/
def encode (i : Instr) : List W32 :=
  match i.raw with
  | some r => r.words
  | none => []

/-- The instruction that the decoder reads from the table's bits `w`: word 0 in bits 31:0, later words above. -/
def decodeTableWord (nbits w : Nat) : Option Instr :=
  let x := w % 2 ^ nbits
  match decode ((List.range 4).map fun k => BitVec.ofNat 32 (x / 2 ^ (32 * k))) with
  | .ok i => some i
  | .error _ => none

end Sys2Proof
end

