-- ==== Sys2Proof/Machine/Bits.lean ====
section
/-! DEFINITION. Bit-field, sign-extension, byte-order and arithmetic helpers (00 R1, R2). -/

namespace Sys2Proof.Machine

/-- Bits h:l of a natural number, both inclusive (00 R1). -/
def field (x h l : Nat) : Nat := (x / 2 ^ l) % 2 ^ (h + 1 - l)

/-- Bit k. -/
def bitOf (x k : Nat) : Bool := x / 2 ^ k % 2 = 1

def b2n (b : Bool) : Nat := if b then 1 else 0

/-- The low `w` bits read as two's complement. -/
def sintOf (w x : Nat) : Int :=
  let y := x % 2 ^ w
  if y < 2 ^ (w - 1) then (y : Int) else (y : Int) - (2 ^ w : Nat)

/-- An integer wrapped to `w` bits, as its unsigned image (03 R53). -/
def wrapTo (w : Nat) (x : Int) : Nat := (x % ((2 ^ w : Nat) : Int)).toNat

/-- Sign extension of the low `w` bits to 64 bits, as an unsigned image. -/
def sext64 (w x : Nat) : Nat := wrapTo 64 (sintOf w x)

/-- Little-endian bytes of the low `8 n` bits of `x` (00 R2). -/
def leBytes : Nat → Nat → List Byte
  | 0, _ => []
  | n + 1, x => BitVec.ofNat 8 x :: leBytes n (x / 256)

/-- The number that little-endian bytes hold (00 R2). -/
def ofLe : List Byte → Nat
  | [] => 0
  | b :: bs => b.toNat + 256 * ofLe bs

/-- Integer base-2 logarithm; 0 for 0. -/
def ilog2 (n : Nat) : Nat := Nat.log2 n

/-- Floor square root by fixing bits from `2^(k-1)` down. -/
def isqrtGo : Nat → Nat → Nat → Nat
  | 0, _, r => r
  | k + 1, n, r => if (r + 2 ^ k) * (r + 2 ^ k) ≤ n then isqrtGo k n (r + 2 ^ k) else isqrtGo k n r

def isqrt (n : Nat) : Nat := isqrtGo (ilog2 n / 2 + 1) n 0

/-- Ones among the low `w` bits. -/
def popcount (w x : Nat) : Nat := ((List.range w).filter (bitOf x)).length

/-- Bits k of the list, bit 0 first, as a number. -/
def ofBits : List Bool → Nat
  | [] => 0
  | b :: bs => b2n b + 2 * ofBits bs

/-- Leading zeros of a `w`-bit image. -/
def leadingZeros (w x : Nat) : Nat := if x = 0 then w else w - 1 - ilog2 x

/-- The `w`-bit image with its bits reversed. -/
def reverseBits (w x : Nat) : Nat := ofBits ((List.range w).map fun k => bitOf x (w - 1 - k))

/-- Floor division and remainder of the dyadic-scaled fraction n/d · 2^k: quotient, remainder, divisor. -/
def quot (n d : Nat) (k : Int) : Nat × Nat × Nat :=
  if 0 ≤ k then
    let a := n * 2 ^ k.toNat
    (a / d, a % d, d)
  else
    let b := d * 2 ^ (-k).toNat
    (n / b, n % b, b)

/-- ⌊log2 (n/d)⌋ for n, d > 0. -/
def flog2 (n d : Nat) : Int :=
  let k : Int := (ilog2 n : Int) - (ilog2 d : Int)
  let ge := if 0 ≤ k then decide (d * 2 ^ k.toNat ≤ n) else decide (d ≤ n * 2 ^ (-k).toNat)
  if ge then k else k - 1

/-- The exclusive or of the selected bits of two numbers, bit by bit. -/
def xorNat (a b : Nat) : Nat := a ^^^ b

/-- First element of `l` that meets `p`, with its position counted from `n`. -/
def findIdx {α : Type} (p : α → Bool) : Nat → List α → Option Nat
  | _, [] => none
  | n, a :: l => if p a then some n else findIdx p (n + 1) l

/-- Element `k` replaced by `f` of it. -/
def modifyAt {α : Type} (f : α → α) : Nat → List α → List α
  | _, [] => []
  | 0, a :: l => f a :: l
  | k + 1, a :: l => a :: modifyAt f k l

/-- Every element that meets `p` replaced by `f` of it. -/
def modifyWhere {α : Type} (p : α → Bool) (f : α → α) (l : List α) : List α := l.map fun a => if p a then f a else a

/-- Each element replaced by a function of its place, places counted from `n`. -/
def mapI {α β : Type} (f : Nat → α → β) : Nat → List α → List β
  | _, [] => []
  | n, a :: l => f n a :: mapI f (n + 1) l

end Sys2Proof.Machine
end

