-- ==== Sys2Proof/Machine/Philox.lean ====
section
/-! DEFINITION. Philox4x32-10, the generator behind stochastic rounding, RNG and RESAMPLE (03 R65, 16 R402, R411),
and Keccak with SHAKE256 for the measurement registers (18 R453, R454). Both are public algorithms (PRESUMED, log 10). -/

namespace Sys2Proof.Machine

/-- A Philox block: four 32-bit words. -/
abbrev Block4 := Nat × Nat × Nat × Nat

def philoxRound (k0 k1 : Nat) : Block4 → Block4
  | (c0, c1, c2, c3) =>
    let p0 := 0xD2511F53 * c0
    let p1 := 0xCD9E8D57 * c2
    (xorNat (xorNat (p1 / 2 ^ 32) c1) k0, p1 % 2 ^ 32, xorNat (xorNat (p0 / 2 ^ 32) c3) k1, p0 % 2 ^ 32)

def philoxGo : Nat → Nat → Nat → Block4 → Block4
  | 0, _, _, c => c
  | n + 1, k0, k1, c => philoxGo n ((k0 + 0x9E3779B9) % 2 ^ 32) ((k1 + 0xBB67AE85) % 2 ^ 32) (philoxRound k0 k1 c)

/-- Philox4x32-10 of a 64-bit key and a counter. -/
def philox (key : Nat) (c : Block4) : Block4 := philoxGo 10 (key % 2 ^ 32) (key / 2 ^ 32 % 2 ^ 32) c

def Block4.word (b : Block4) (k : Nat) : Nat :=
  match k % 4 with
  | 0 => b.1
  | 1 => b.2.1
  | 2 => b.2.2.1
  | _ => b.2.2.2

/-- Word n of the stream with key `seed` and counters (g, q low, q high, tag) (03 R65). -/
def streamWord (seed g tag n : Nat) : Nat :=
  let q := n / 4
  (philox seed (g % 2 ^ 32, q % 2 ^ 32, q / 2 ^ 32 % 2 ^ 32, tag)).word n

/-! The permutation behind SHAKE256 on 25 words of 64 bits, its places numbered 0 to 24 in rows of five. Neither its
turns nor its round words are tables: a turn is a triangular number along one walk over the places, a round word is
seven steps of a feedback register of eight bits. -/

def rotl64 (r x : Nat) : Nat := (x * 2 ^ r % 2 ^ 64) ||| (x / 2 ^ (64 - r))

/-- The word `k` places further in the row of place `i`. -/
def inRow (s : List Nat) (i k : Nat) : Nat := s.getD (i / 5 * 5 + (i + k) % 5) 0

/-- The exclusive or of a column. -/
def column (s : List Nat) (x : Nat) : Nat := [0, 5, 10, 15, 20].foldl (fun a y => xorNat a (s.getD (x + y) 0)) 0

/-- Every word with the column before it and the turned column after it. -/
def mixColumns (s : List Nat) : List Nat :=
  mapI (fun i w => xorNat w (xorNat (column s ((i + 4) % 5)) (rotl64 1 (column s ((i + 1) % 5))))) 0 s

/-- Where the walk goes from a place: the column becomes the row. -/
def walkOn (i : Nat) : Nat := i / 5 + 5 * ((2 * (i % 5) + 3 * (i / 5)) % 5)

/-- Each word moved one step along the walk and turned; `left` steps remain, the next is number `n`. Place 0 stays. -/
def turnAlong (s : List Nat) : Nat → Nat → Nat → List Nat → List Nat
  | 0, _, _, out => out
  | left + 1, n, i, out =>
    turnAlong s left (n + 1) (walkOn i) (out.set (walkOn i) (rotl64 (n * (n + 1) / 2 % 64) (s.getD i 0)))

/-- Each word with the two that follow it in its row. -/
def mixRows (s : List Nat) : List Nat :=
  mapI (fun i w => xorNat w ((2 ^ 64 - 1 - inRow s i 1) &&& inRow s i 2)) 0 s

/-- One step of the feedback register x^8 + x^6 + x^5 + x^4 + 1. -/
def feed (r : Nat) : Nat := if r < 128 then 2 * r else xorNat (2 * r) 0x171

/-- The round word: the low bit of step j stands at bit 2^j - 1. Answers the register after it, too. -/
def roundWord : Nat → Nat → Nat → Nat × Nat
  | 0, _, r => (0, r)
  | left + 1, j, r =>
    let next := roundWord left (j + 1) (feed r)
    (r % 2 * 2 ^ (2 ^ j - 1) + next.1, next.2)

def permute : Nat → Nat → List Nat → List Nat
  | 0, _, s => s
  | left + 1, r, s =>
    let w := roundWord 7 0 r
    let m := mixColumns s
    permute left w.2 (modifyAt (xorNat w.1) 0 (mixRows (turnAlong m 24 1 1 m)))

def keccakF (s : List Nat) : List Nat := permute 24 1 s

/-- A message's words of 136 bytes at a time taken in. -/
def takeIn : Nat → List Nat → List Byte → List Nat
  | 0, s, _ => s
  | n + 1, s, bs => takeIn n (keccakF (mapI (fun i w => if i < 17 then xorNat w (ofLe ((bs.drop (8 * i)).take 8)) else w) 0 s)) (bs.drop 136)

/-- The first `n` bytes of SHAKE256 of a message, n at most 136. The message ends with 0x1F, zeros and a top bit. -/
def shake256 (msg : List Byte) (n : Nat) : List Byte :=
  let blocks := msg.length / 136 + 1
  let whole := msg ++ [0x1F] ++ List.replicate (136 * blocks - msg.length - 1) 0
  let ended := modifyAt (fun b => b ||| 0x80) (136 * blocks - 1) whole
  ((takeIn blocks (List.replicate 25 0) ended).flatMap (leBytes 8)).take n

end Sys2Proof.Machine
end

