-- ==== Sys2Proof/Machine/State.lean ====
section
/-! DEFINITION. The state of the package as plain data, the reasons a step stops, and the state after reset. -/

namespace Sys2Proof.Machine

open Sys2Proof

/-! ## Gangs (04, 06, 07, 17) -/

/-- A rime: an interval that holds the register's values, or TOP (07 R174). -/
inductive Rime where
  | top
  | iv (lo hi : Int)
  deriving DecidableEq, Repr

/-- One byte's place: physical memory, a team's scratchpad (team key, byte offset), a near line of a thread (gang,
thread, offset in its window), chip scratch (byte address on the base dies). -/
inductive Place where
  | phys (pa : Nat)
  | scratch (team off : Nat)
  | near (gang thread off : Nat)
  | chip (addr : Nat)
  deriving DecidableEq, Repr

/-- A thread's own state (04 R80, R82, R86; 06 R146, R163; 03 R65). -/
structure Thread where
  live : Bool
  v : Sparse W32
  x : Sparse W32
  p : BitVec 8
  l0 : W32
  l1 : W32
  l2 : W32
  l3 : W32
  draws : Nat
  rngs : Nat
  popix : Nat
  lineage : Nat
  reservation : Option Place
  deriving DecidableEq, Repr

/-- A mask-stack entry (04 R89): `reconv` false is KIND PEND. -/
structure MaskEntry where
  reconv : Bool
  pc : Nat
  pm : BitVec 4
  fm : BitVec 4
  depth : Nat
  deriving DecidableEq, Repr

/-- A register's class in the width table of a slice (06 R148). -/
inductive RegClass where
  | zero | n8z | n8s | n16z | n16s | w32 | spilled
  deriving DecidableEq, Repr

/-- A slice: four threads, active mask, mask stack (top first) with the number of its bottom entries that stand in
firn, rimes of the x registers, how many of the latches are valid, and the width table by operand code (04 R80, R87,
R89; 06 R148). -/
structure Slice where
  threads : List Thread
  mask : BitVec 4
  stack : List MaskEntry
  below : Nat
  xr : Sparse Rime
  latValid : Nat
  classes : Sparse RegClass
  deriving DecidableEq, Repr

/-- What a strand waits for. The waiting instruction stays at the strand's pc and issues again (04 R94, R110; 17 R434).
`meet` and `resume` wait at a meeting point; `met` has met there and its instruction's effect comes next.
`next` is where a wait goes on when an event of its own ends it. -/
inductive Wait where
  | none
  | meet
  | met
  | resume
  | barrier (n : Nat)
  | cluster (n : Nat)
  | gridBarrier
  | sleep (deadline next : Nat)
  | paths
  | children
  | fence
  | empty
  | accept
  | remote
  | lost
  | homeReset
  | resample
  | spill
  | other
  deriving DecidableEq, Repr

/-- A strand (04 R80, R92): slices, pc, mode register, return stack (top first) with the number of its bottom entries
that stand in firn, what it waits for and since when, held by a trap handler (17 R417), the beats of R93 and R122 (the
turns issued while another strand was ready, the last issue, since when it has been ready without issuing), the latch
hold of R123, a turn given up by YIELD (R107), when a load of it first found a line empty and which lines it waits for
(09 R244), the gang whose engine context its command waits for (12 R318), and the
exception flags of the gang that other strands have raised and that it need not see yet (03 R73). -/
structure Strand where
  slices : List Nat
  pc : Nat
  mode : BitVec 24
  ret : List Nat
  below : Nat
  wait : Wait
  since : Nat
  held : Bool
  fair : Nat
  lastIssue : Nat
  readySince : Option Nat
  hold : Option Nat
  yielded : Bool
  emptySince : Option Nat
  emptyAt : List Place
  behind : Option Nat
  unseen : BitVec 5
  deriving DecidableEq, Repr

/-- The trap registers (17 R414, 02 R43). -/
structure TrapRegs where
  tvec : W64
  tcause : W64
  tpc : W64
  tmask : W64
  tword : W64
  topa : W64
  topb : W64
  topd : W64
  taddr : W64
  deriving DecidableEq, Repr

/-- What trap entry saves of one slice (17 R416): latches as (l0, l1, l2, l3) for each thread. -/
structure SavedSlice where
  slice : Nat
  mask : BitVec 4
  depth : Nat
  latches : List (W32 × W32 × W32 × W32)
  latValid : Nat
  deriving DecidableEq, Repr

/-- The handler context (17 R416): saved mode, return-stack depth and slices; whether the trapped instruction
shifted the latches. -/
structure HandlerCtx where
  mode : BitVec 24
  retDepth : Nat
  saved : List SavedSlice
  shifted : Bool
  deriving DecidableEq, Repr

/-- The fields of a fault record that its raiser fixes (17 R429), and the address that TADDR takes. -/
structure FaultInfo where
  kind : Nat
  reason : Nat
  flags : Nat
  pc : Nat
  addr : Nat
  va : Nat
  word : Nat
  arg : Nat
  deriving DecidableEq, Repr

/-- A gang's fault: its record, its place in the arbiter's order, the index it was posted at, a reply kept back while the
gang is halted, the s register that a CONTINUE reply writes, a slice of the strand that faulted and where it goes on
after CONTINUE, and the faulted command that a replay runs again (17 R428, R431; 12 R311). -/
structure GangFault where
  info : FaultInfo
  order : Nat
  seq : Option Nat
  reply : Option Nat
  sd : Option Nat
  slice : Nat
  next : Nat
  cmd : Option (Nat × Nat)
  deriving DecidableEq, Repr

/-- Where a gang stands in a pre-emption (17 R435). -/
inductive Halt where
  | running | halting (evict : Bool) | halted (evict : Bool)
  deriving DecidableEq, Repr

/-! ## Asynchronous work (09, 10, 12, 13, 14, 15) -/

/-- A byte to be written and the thread of its gang that writes it (4·slice + lane). -/
structure Write where
  place : Place
  byte : Byte
  thread : Nat
  deriving DecidableEq, Repr

/-- An access of a gang that counts on a path and is not performed yet (09 R250, R251): its writes, the slices that
issued it, its scope, whether it is a load. `seen` is the scope whose instance already reads its writes, which a release
of that scope has put before itself (11 R293, R295); `counted` is the reader count a STRC sets (10 R286). -/
structure Access where
  id : Nat
  load : Bool
  slices : List Nat
  scope : Nat
  release : Bool
  seen : Option Nat
  writes : List Write
  counted : Nat
  deriving DecidableEq, Repr

/-- What a command writes into one destination byte: a byte read when the line lands (a place, a virtual address, byte
`k` of row `r` of a gather), a byte already computed, or nothing. -/
inductive ByteSrc where
  | place (p : Place)
  | virt (va : Nat)
  | row (r k : Nat)
  | lit (b : Byte)
  | hole
  deriving DecidableEq, Repr

/-- One destination line of an engine command: its number, its first byte or, in device space, that byte's virtual
address, what each byte takes, the landing-count register it lowers (gang, register), whether the line was armed,
has landed, and has been written in this run; `raced` lists its bytes that another command has written since this one was
accepted (11 R303). -/
structure Landing where
  id : Nat
  dst : Place
  virt : Option Nat
  bytes : List ByteSrc
  lc : Option (Nat × Nat)
  armed : Bool
  landed : Bool
  written : Bool
  raced : List Nat
  deriving DecidableEq, Repr

/-- A row of a gather-family command: an entry still to be looked up, or the row's bytes. -/
inductive RowState where
  | entry (j : Int)
  | done (bytes : List Byte)
  deriving DecidableEq, Repr

/-- The kinds of engine command (12, 13, 14, 15, 18). -/
inductive CmdKind where
  | cpy | cpym | kvcpy | cpst | frame | sread | drain | mxv | gath | scat | scata | nzscan | evsel | coll | ring
  deriving DecidableEq, Repr

/-- The paths that are counted (12 R307): LD, ST, CP, MX, GX, CL. -/
inductive Path where
  | ld | st | cp | mx | gx | cl
  deriving DecidableEq, Repr

/-- The status of a command that meets a fault (12 R310): its number, REASON of the record, the faulting address, ADDR of
the record, TOPA. -/
structure Status where
  code : Nat
  reason : Nat
  addr : Nat
  shown : Nat
  topa : Nat
  deriving DecidableEq, Repr

/-- An accepted engine command: kind, path, scope, cache policy, landing-count register, lines and rows, the words it
was issued with and where, captured operands, whether its lists have been read (`built`) and whether it is replayed,
the fault it met and a BOUNDS status (15 R385). `order` is its place among the commands that the package has accepted
(12 R318; 15 R392; 18 R448), `born` the base cycle count then. -/
structure Cmd where
  id : Nat
  order : Nat
  kind : CmdKind
  path : Path
  scope : Nat
  cache : Nat
  lcreg : Option Nat
  lines : List Landing
  rows : List RowState
  pc : Nat
  word : Nat
  params : List Nat
  entries : List (Nat × Int)
  built : Bool
  replay : Bool
  fault : Option Status
  bounded : Option Status
  born : Nat
  deriving DecidableEq, Repr

/-- Status POISON (12 R310). -/
def Status.poison : Status := { code := 3, reason := 0, addr := 0, shown := 0, topa := 0 }

/-- What the gather unit of an L2 slice holds of one gang's work: the gather commands of the gang that have reached the slice;
where the gang waits for a context there, the gang whose context must drain first (15 R392). -/
structure GatherCtx where
  slice : Nat
  gang : Nat
  cmds : List Nat
  behind : Option Nat
  deriving DecidableEq, Repr

/-- The tile operations (13, 14). -/
inductive TileKind where
  | mma | mmag | mxv | mxscale | mxzero | mxload | drainReg | drainScratch | amask | asoft | heat
  deriving DecidableEq, Repr

/-- A tile operation that has issued (13 R341): kind, tiles it touches, parameters, captured operand words, the scratch
lines it reads and what they held before a later store of the gang, whether it is open (R343) and complete, flags it
raised, its fault. The tiles of the second half of a width-64 pair are numbered from 32 on. -/
structure TileOp where
  id : Nat
  kind : TileKind
  tiles : List Nat
  params : List Nat
  data : List W32
  lines : List Nat
  snap : Sparse (List Byte)
  isOpen : Bool
  done : Bool
  flags : BitVec 5
  fault : Option Status
  pc : Nat
  word : Nat
  deriving DecidableEq, Repr

/-- A batch of matrix operations that an MXFENCE closed (13 R343). -/
structure Batch where
  id : Nat
  ops : List Nat
  pc : Nat
  word : Nat
  deriving DecidableEq, Repr

/-- An item of a path, in issue order; path counters are the numbers of items (12 R307, R308). -/
structure PathItem where
  path : Path
  id : Nat
  deriving DecidableEq, Repr

/-- A completion record that faulted: the command, whether it has surfaced and awaits a reply, how many commands of
its path were issued after it (12 R310, R311). -/
structure Completion where
  cmd : Cmd
  reported : Bool
  after : Nat
  deriving DecidableEq, Repr

/-- A tree file: PRESENT and PARENT of nodes 0 to 127 as (node, parent); node 0 is present (14 R363). -/
abbrev TreeFile := Sparse Nat

/-- Four key intervals of one row (14 R360). -/
abbrev KeyRow := List (W32 × W32)

/-- A counter addition of HEAT that has left the softmax unit (14 R376, R377). -/
structure HeatAdd where
  id : Nat
  va : Nat
  place : Option Place
  value : Nat
  deriving DecidableEq, Repr

/-- A gang's state. `turn` is the package's count of issues at its last one (05 R122). `latches` keeps how many latches of each slice were valid at a pre-emption's halt (R87). `images`
keeps, by operand code, the cells that the spill engine wrote for a register, and at 256 plus the half the cells of
uniform state of a parked gang. `pends` lists the pending landing-count registers, one entry for each command that still has bytes to land. -/
structure Gang where
  gid : Nat
  grid : Nat
  team : Nat
  g : Nat
  core : Nat
  part : Nat
  active : Bool
  released : Bool
  slot : Nat
  frames : List Nat
  slotSince : Nat
  readySince : Option Nat
  eligible : Bool
  parking : Bool
  slices : List Slice
  strands : List Strand
  s : Sparse W64
  sr : Sparse Rime
  a : Sparse W128
  h : Sparse W128
  fpflags : BitVec 5
  fptrap : BitVec 5
  trap : TrapRegs
  handler : Option HandlerCtx
  tiles : Sparse (Sparse W32)
  keys : Sparse (List KeyRow)
  trees : Sparse TreeFile
  paths : List PathItem
  accesses : List Access
  cmds : List Cmd
  records : List Completion
  pends : List Nat
  tileOps : List TileOp
  batches : List Batch
  heats : List HeatAdd
  nextId : Nat
  children : Nat
  fault : Option GangFault
  halt : Halt
  latches : List Nat
  watchdog : Nat
  limitRaised : Bool
  recency : Sparse Nat
  issues : Nat
  turn : Nat
  parkQ : List Nat
  images : Sparse (List (Nat × Byte))
  deriving DecidableEq, Repr

/-! ## Teams and grids (04, 05, 09, 16) -/

/-- A barrier (04 R109): `m` lists who has arrived, `e` the next phase each waits for (1 where unlisted). -/
structure Barrier where
  c : Nat
  arr : Nat
  m : List Nat
  k : Nat
  e : Sparse Nat
  deriving DecidableEq, Repr

/-- A team: core, partition offset, slot, group position, size of its scratchpad, the place of each 4 KiB block
(pinned way or spill block), its bytes, P of each line, barriers (04 R109, 05 R117, 09 R235, R236, R240). -/
structure Team where
  key : Nat
  grid : Nat
  idx : Nat
  core : Nat
  offset : Nat
  slot : Nat
  group : Nat
  pos : Nat
  blocks : List Nat
  scratch : Sparse Byte
  pending : Sparse Nat
  barriers : Sparse Barrier
  seq : Nat
  retired : Bool
  deriving DecidableEq, Repr

/-- A launch or copy template's fields as read when the launch was accepted (05 R136). -/
structure Template where
  entry : Nat
  asid : Nat
  gangs : Nat
  vregs : Nat
  xregs : Nat
  pack : Nat
  accs : Nat
  trees : Nat
  scratch : Nat
  chip : Nat
  width : Nat
  tflags : Nat
  clteams : Nat
  deriving DecidableEq, Repr

/-- A launch record (05 R134). -/
structure LaunchRec where
  template : Nat
  flags : Nat
  prio : Nat
  teams : Nat
  gaddr : Nat
  gval : Nat
  saddr : Nat
  seed : Nat
  arg0 : Nat
  arg1 : Nat
  arg2 : Nat
  deriving DecidableEq, Repr

/-- Where a population's round stands (16 R408). -/
inductive Round where
  | idle | gathering | counting | committed
  deriving DecidableEq, Repr

/-- The instruction a strand issues (the model's own, DESIGN CHOICE, log 7): gang, a slice of the strand, address, fall-through
address, words. -/
structure Issue where
  gang : Nat
  slice : Nat
  pc : Nat
  fall : Nat
  words : List W32
  deriving DecidableEq, Repr

/-- A gang's arrival in a round (16 R401): the RESAMPLE, its destination, N, and thread and weight of its live threads. -/
structure Arrival where
  issue : Issue
  dst : Dst
  n : Nat
  weights : List (Nat × Nat)
  deriving DecidableEq, Repr

/-- A population (16 R394 to R410): slots, round counter, N, parents with offspring and W (times 2^149) of the last
commit, arrivals, the gangs of a committed round that are not released yet, the stacks whose pools hold too few pages for
a round that waits. -/
structure Population where
  slots : Nat
  round : Nat
  phase : Round
  lastN : Nat
  lastParents : Nat
  lastW : Nat
  arrivals : List Arrival
  releasing : List Nat
  short : List Nat
  deriving DecidableEq, Repr

/-- A grid that has started (05 R116, R138, R141; 16; 17 R432). -/
structure Grid where
  serial : Nat
  order : Nat
  tmpl : Template
  launch : LaunchRec
  queue : Option Nat
  depth : Nat
  prio : Nat
  preempt : Bool
  parent : Option Nat
  parentGrid : Nat
  admitted : Nat
  retired : Nat
  chip : List Nat
  gridrec : W64
  cpytab : W64
  status : Option Nat
  pop : Option Population
  barrier : Barrier
  clusters : Sparse Barrier
  nextTeam : Nat
  deriving DecidableEq, Repr

/-- A launch that is accepted and not started (05 R133 to R138): its place in arbiter order, queue or parent gang,
template and record, gate seen open and when it was read, since when it has waited unadmitted. -/
structure Pending where
  id : Nat
  queue : Option Nat
  tmpl : Template
  launch : LaunchRec
  depth : Nat
  prio : Nat
  preempt : Bool
  parent : Option Nat
  parentGrid : Nat
  gateOpen : Bool
  gateChecked : Nat
  since : Nat
  deriving DecidableEq, Repr

/-- A launch queue (05 R131, R132). -/
structure Queue where
  enable : Bool
  preempt : Bool
  prio : Nat
  started : Nat
  deriving DecidableEq, Repr

/-- A team saved in a save record, with its gangs (17 R436, R437). -/
structure SavedTeam where
  record : Nat
  team : Team
  gangs : List Gang
  prio : Nat
  deriving DecidableEq, Repr

/-! ## Memory, caches, faults, links (02, 10, 12, 17, 18) -/

/-- A translation-cache entry (10 R274, R275): where it is held (a core, or 4096 + base die), ASID, page number and
size, leaf entry, the physical address of that entry, and the touch bits it has set (R274). -/
structure TlbEntry where
  holder : Nat
  asid : Nat
  page : Nat
  big : Bool
  leaf : Nat
  entry : Nat
  touched : Nat
  deriving DecidableEq, Repr

/-- A line of a core's instruction cache, or of the instruction buffer of one of its partitions (02 R28, R29); `grids` is
how many grids had started when it was filled. -/
structure CodeLine where
  core : Nat
  part : Option Nat
  pa : Nat
  grids : Nat
  words : List W32
  deriving DecidableEq, Repr

/-- An outstanding fill of a core (02 R30). -/
structure Fill where
  core : Nat
  pa : Nat
  discard : Bool
  deriving DecidableEq, Repr

/-- A reader-counted line (10 R261): readers left and the bytes it had before the counted store. -/
structure Counted where
  count : Nat
  pre : List Byte
  deriving DecidableEq, Repr

/-- The format-region registers of a base die as they stood before a write, its 16 registers as 256-bit numbers: a line
that L2 filled then may carry the scales they gave (10 R264). -/
structure OldRegions where
  die : Nat
  regs : List Nat
  deriving DecidableEq, Repr

/-- A near line: physical line, its bytes as they were filled or written, which of them its thread has written, and
whether an uncorrectable error has spoilt those it has not (09 R234; 18 R454). -/
structure NearLine where
  pa : Nat
  written : List Nat
  spoilt : Bool
  data : List Byte
  deriving DecidableEq, Repr

/-- A posted record that awaits a reply (17 R431). -/
structure Posted where
  seq : Nat
  gang : Nat
  deriving DecidableEq, Repr

/-- A record that waits in the arbiter and awaits no reply: its place in the order, partition, core, address space and,
for the fault of a gang whose grid is aborted, grid, team and gang (17 R429, R430). -/
structure Report where
  info : FaultInfo
  order : Nat
  part : Nat
  core : Nat
  asid : Nat
  grid : Nat
  team : Nat
  gang : Nat
  deriving DecidableEq, Repr

/-- What a frame-engine session has decoded (12 R331 to R337): whether a unit was corrupt, pictures put out, every unit
decoded since RESET with its codec and flags, oldest first. -/
structure Decoding where
  corrupt : Bool
  count : Nat
  units : List (Nat × List Byte)
  deriving DecidableEq, Repr

/-- A frame-engine session (12 R331 to R337): its area, the engine whose context holds it, whether that context has read the
area, the bytes that an engine last wrote there, what it has decoded, and the last command that decoded into it with what
it found. -/
structure Session where
  base : Nat
  engine : Nat
  loaded : Bool
  area : List Byte
  now : Decoding
  last : Nat
  before : Decoding
  deriving DecidableEq, Repr

/-- A host copy launch (12 R328): its place in arbiter order, queue, whether it has left the queue, the base die whose bulk
copy engine performs it, its template. -/
structure BulkCopy where
  id : Nat
  queue : Nat
  started : Bool
  die : Nat
  asid : Nat
  rows : Nat
  rowBytes : Nat
  src : Nat
  dst : Nat
  sstride : Nat
  dstride : Nat
  stat : Bool
  saddr : Nat
  deriving DecidableEq, Repr

/-- A ring's state (18 R446 to R450). -/
structure RingState where
  ready : Bool
  rev : Nat
  lastStep : Nat
  staged : List (Nat × List Byte)
  chunks : List (Nat × List Byte)
  deriving DecidableEq, Repr

/-- A link port (18 R438, R444). -/
structure Link where
  up : Bool
  training : Bool
  replays : Nat
  failed : Nat
  deriving DecidableEq, Repr

/-- An attestation request (18 R454). -/
structure Quote where
  nonce : List Byte
  dest : Nat
  done : Nat
  deriving DecidableEq, Repr

/-- The management registers that software writes and that hold what was written, by byte offset of the
management space (18 R443). -/
abbrev MgmtRegs := Sparse W64

/-- What moves next (the model's own, DESIGN CHOICE, log 1): a strand issues, an event of the table happens, a clock ticks. -/
inductive Move where
  | issue (gang slice : Nat)
  | event (i : Instr)
  | tick (die cycles : Nat)
  | baseTick (cycles : Nat)
  deriving DecidableEq, Repr

/-- The whole package. `regions` are older sets of the format-region registers and `joins` the set that each line's fill took
(10 R264; log 62); `gathers` the contexts of the gather units (15 R392; log 111); `pushed` the stacks onto whose pools the
present move pushed pages (16 R404); `near` is kept least recently used first; `pipes` names each lane pipe's owner (04 R86);
`spare` the cycle of a partition's beat whose first instruction has issued and the pipes it leaves to a second (04 R84, 05
R122); `turns` counts issues; `token`, `first` and `opLatch` hold, by partition, the priority token (05 R128), the strand
that STARVATION_PICK has put first (05 R122) and the operand latch (13 R349); `reserved` and `head` are those of 05 R120 (log
90); `arrived` is the event that the package event arbiter took last (01 R20; log 110). -/
structure State where
  -- the model's own fields
  agenda : List Move
  free : Nat
  issue : Option Issue
  -- clocks (06 R163, 01 R13, 18 R455)
  cycles : List Nat
  base : Nat
  mhz : List Nat
  seq : Nat
  nextGid : Nat
  -- memory
  mem : List Host.Cell
  poison : List Nat
  damaged : List EccTarget
  windowQ : List (Nat × Nat × List Byte)
  counted : Sparse Counted
  regions : List OldRegions
  joins : Sparse Nat
  gathers : List GatherCtx
  copies : List (Nat × Nat)
  tlb : List TlbEntry
  icache : List CodeLine
  fills : List Fill
  pushed : List Nat
  near : List ((Nat × Nat × Nat) × NearLine)
  chipOwner : Sparse Nat
  chip : Sparse Byte
  pipes : Sparse Nat
  spare : Sparse (Nat × Nat)
  turns : Nat
  token : Sparse Nat
  first : Sparse (Nat × Nat)
  opLatch : Sparse (Nat × Nat)
  -- work
  gangs : List Gang
  teams : List Team
  grids : List Grid
  pendings : List Pending
  queues : List Queue
  started : Nat
  saved : List SavedTeam
  reserved : List (Nat × Nat)
  head : Option (Nat × Nat × Nat)
  arrived : Nat × Nat × Nat
  -- management (18 R443)
  mgmt : MgmtRegs
  tinv : List (Nat × Nat × Nat)
  power : Nat
  preemptReq : Nat × Nat
  haltTargets : List Nat
  fqprod : Nat
  fqlost : Nat
  reports : List Report
  posted : List Posted
  meas : List (List Byte)
  boot : Nat × Nat
  coldStart : Bool
  links : List Link
  rings : List RingState
  sessions : List Session
  bulk : List BulkCopy
  quotes : List Quote
  deriving DecidableEq, Repr

/-- Why a step stops. -/
inductive Fault where
  /-- An instruction was executed though no strand issues it (`State.issue` is none, or names no strand). Raised by
  every instruction's meaning; no step does it. Safe: the machine stops where it has no next state to give. -/
  | noIssue
  deriving DecidableEq, Repr

/-- Why an instruction has no meaning here. -/
inductive Refusal where
  /-- The instruction of this mnemonic has no meaning yet. Raised by `exec`'s arms only. Safe. -/
  | notModelled (mnemonic : String)
  deriving DecidableEq, Repr

def Status.none : Status := { code := 0, reason := 0, addr := 0, shown := 0, topa := 0 }

def Barrier.fresh : Barrier := { c := 0, arr := 0, m := [], k := 0, e := [] }

def Queue.fresh : Queue := { enable := false, preempt := false, prio := 0, started := 0 }

def RingState.fresh : RingState :=
  { ready := false, rev := 0, lastStep := 0xFFFF, staged := [], chunks := [] }

def Link.fresh : Link := { up := false, training := false, replays := 0, failed := 0 }

/-- The package after a cold reset (18 R453) (DESIGN CHOICE, log 2). -/
def State.reset : State :=
  { agenda := [], free := 0, issue := none, cycles := List.replicate 8 0, base := 0, mhz := List.replicate 8 4000, seq := 0, nextGid := 0
    mem := [], poison := [], damaged := [], windowQ := [], counted := [], regions := [], joins := [], gathers := [], copies := [], tlb := [], icache := [], fills := [], pushed := [], near := []
    chipOwner := [], chip := [], pipes := [], spare := [], turns := 0, token := [], first := [], opLatch := []
    gangs := [], teams := [], grids := [], pendings := [], queues := List.replicate 64 Queue.fresh, started := 0
    saved := [], reserved := [], head := none, arrived := (0, 0, 0)
    mgmt := [], tinv := [], power := 0, preemptReq := (0, 0), haltTargets := [], fqprod := 0, fqlost := 0, reports := [], posted := []
    meas := List.replicate 8 (List.replicate 64 0), boot := (0, 0), coldStart := true
    links := List.replicate 18 Link.fresh, rings := List.replicate 8 RingState.fresh, sessions := [], bulk := [], quotes := [] }

end Sys2Proof.Machine
end

