-- ==== Sys2Proof/Machine/Rime.lean ====
section
/-! DEFINITION. Rimes: intervals, their normal form, and what each index instruction makes of them (07 R174 to R192). -/

namespace Sys2Proof.Machine

/-- The range of a signed `w`-bit register. -/
def rangeLo (w : Nat) : Int := -(2 ^ (w - 1) : Nat)
def rangeHi (w : Nat) : Int := (2 ^ (w - 1) : Nat) - 1

/-- An interval as it is held in a `w`-bit register: the whole range, an interval that leaves the range and an empty
one are TOP (07 R174, R177). -/
def Rime.mk (w : Nat) (lo hi : Int) : Rime :=
  if hi < lo ∨ lo < rangeLo w ∨ rangeHi w < hi ∨ (lo = rangeLo w ∧ hi = rangeHi w) then .top else .iv lo hi

/-- A rime as an interval: TOP enters every formula as the whole range (07 R175). -/
def Rime.bounds (w : Nat) : Rime → Int × Int
  | .top => (rangeLo w, rangeHi w)
  | .iv lo hi => (lo, hi)

/-- The smallest interval that contains both; TOP if either is (07 R175). -/
def Rime.hull : Rime → Rime → Rime
  | .iv a b, .iv c d => .iv (min a c) (max b d)
  | _, _ => .top

/-- Hull, held in a `w`-bit register. -/
def Rime.hullW (w : Nat) (a b : Rime) : Rime :=
  match a.hull b with
  | .iv lo hi => Rime.mk w lo hi
  | .top => .top

def Rime.single? : Rime → Option Int
  | .iv a b => if a = b then some a else none
  | .top => none

/-- The exact hull of a list of values; TOP of none. -/
def hullOf (w : Nat) : List Int → Rime
  | [] => .top
  | x :: xs => let r := xs.foldl (fun (p : Int × Int) y => (min p.1 y, max p.2 y)) (x, x); Rime.mk w r.1 r.2

/-- Whether a value lies in a rime (07 R175). -/
def Rime.holds (r : Rime) (x : Int) : Bool :=
  match r with
  | .top => true
  | .iv lo hi => decide (lo ≤ x) && decide (x ≤ hi)

/-- A rime as the 128 bits of a firn record: TOP is lower 1, upper 0 (06 R155). -/
def Rime.record : Rime → Nat × Nat
  | .top => (1, 0)
  | .iv lo hi => (wrapTo 64 lo, wrapTo 64 hi)

/-! ## Interval rules (07 R180 to R183). `none` is TOP. -/

abbrev Iv := Int × Int

/-- The hull of a list of numbers, first element given. -/
def hullInts (x : Int) (xs : List Int) : Iv := xs.foldl (fun p y => (min p.1 y, max p.2 y)) (x, x)

def prodIv (p q : Iv) : Iv := hullInts (p.1 * q.1) [p.1 * q.2, p.2 * q.1, p.2 * q.2]

def addIv (p q : Iv) : Iv := (p.1 + q.1, p.2 + q.2)

/-- BitLen (07 R180). -/
def bitLen (n : Int) : Nat := if n ≤ 0 then 0 else ilog2 n.toNat + 1

def within? (b : Iv) (lo hi : Int) : Bool := decide (lo ≤ b.1) && decide (b.2 ≤ hi)

/-- Division truncating towards zero (07 R181). -/
def tdiv (a b : Int) : Int := if b = 0 then -1 else Int.tdiv a b
def tmod (a b : Int) : Int := if b = 0 then a else a - b * Int.tdiv a b

/-- The operations of rows 0x20 and 0x30 that have a value and a rime rule (07 R180 to R183). -/
inductive IdxOp where
  | add | sub | mul | mulh | mad | min | max | shl | shr | sar | and | or | xor | div | rem | clamp | lea
  | clz | popc | brev | abs | not | bfx | bfi
  deriving DecidableEq, Repr

/-- Control value of BFX and BFI: effective width, offset, SIGNED (07 R183). -/
def bfControl (w : Nat) (b : Int) : Nat × Nat × Bool :=
  let x := wrapTo 64 b
  (Nat.min (field x 14 8) w, field x 6 0, bitOf x 15)

def bfxVal (w : Nat) (a b : Int) : Int :=
  let (v, off, sg) := bfControl w b
  let f := wrapTo w a / 2 ^ off % 2 ^ v
  if v = 0 then 0 else if sg then sintOf v f else (f : Int)

def bfiVal (w : Nat) (d a b : Int) : Int :=
  let (v, off, _) := bfControl w b
  if w ≤ off then d
  else
    let n := Nat.min v (w - off)
    let old := wrapTo w d
    let m := (2 ^ n - 1) * 2 ^ off
    sintOf w ((old &&& (2 ^ w - 1 - m)) ||| (wrapTo w a % 2 ^ n * 2 ^ off))

/-- Bitwise operation on two's complement images. -/
def bitwise (w : Nat) (f : Nat → Nat → Nat) (a b : Int) : Int := sintOf w (f (wrapTo w a) (wrapTo w b))

/-- The exact result on operand values a, b and the old destination d (07 R180 to R183); the register takes it
modulo 2^w. -/
def IdxOp.exact (op : IdxOp) (w : Nat) (a b d : Int) : Int :=
  let c := (b % (w : Int)).toNat
  match op with
  | .add => a + b
  | .sub => a - b
  | .mul => a * b
  | .mulh => a * b / (2 ^ w : Nat)
  | .mad => a * b + d
  | .min => Min.min a b
  | .max => Max.max a b
  | .shl => a * (2 ^ c : Nat)
  | .shr => ((wrapTo w a / 2 ^ c : Nat) : Int)
  | .sar => a / (2 ^ c : Nat)
  | .and => bitwise w (· &&& ·) a b
  | .or => bitwise w (· ||| ·) a b
  | .xor => bitwise w (· ^^^ ·) a b
  | .div => tdiv a b
  | .rem => tmod a b
  | .clamp => Min.min (Max.max d a) b
  | .lea => d * a + b
  | .clz => (leadingZeros w (wrapTo w a) : Nat)
  | .popc => (popcount w (wrapTo w a) : Nat)
  | .brev => sintOf w (reverseBits w (wrapTo w a))
  | .abs => if a < 0 then -a else a
  | .not => -a - 1
  | .bfx => bfxVal w a b
  | .bfi => bfiVal w d a b

/-- The interval rule of an operation (07 R180 to R183); the single-value rule of R177 is applied before it. -/
def IdxOp.rule (op : IdxOp) (w : Nat) (A B D : Iv) : Option Iv :=
  let shiftOk := within? B 0 (w - 1)
  let nb := B.1.toNat
  let mb := B.2.toNat
  match op with
  | .add => some (addIv A B)
  | .sub => some (A.1 - B.2, A.2 - B.1)
  | .mul => some (prodIv A B)
  | .mulh => let p := prodIv A B; some (p.1 / (2 ^ w : Nat), p.2 / (2 ^ w : Nat))
  | .mad => some (addIv (prodIv A B) D)
  | .min => some (Min.min A.1 B.1, Min.min A.2 B.2)
  | .max => some (Max.max A.1 B.1, Max.max A.2 B.2)
  | .shl =>
    if shiftOk then
      some (hullInts (A.1 * (2 ^ nb : Nat)) [A.1 * (2 ^ mb : Nat), A.2 * (2 ^ nb : Nat), A.2 * (2 ^ mb : Nat)])
    else none
  | .shr =>
    if shiftOk && decide (0 ≤ A.1) then some (A.1 / (2 ^ mb : Nat), A.2 / (2 ^ nb : Nat))
    else if within? B 1 (w - 1) && decide (A.1 < 0) then some (0, (((2 ^ w - 1) / 2 ^ nb : Nat) : Int))
    else none
  | .sar =>
    if shiftOk then
      some (Min.min (A.1 / (2 ^ nb : Nat)) (A.1 / (2 ^ mb : Nat)), Max.max (A.2 / (2 ^ nb : Nat)) (A.2 / (2 ^ mb : Nat)))
    else none
  | .and =>
    if 0 ≤ A.1 ∧ 0 ≤ B.1 then some (0, Min.min A.2 B.2)
    else if 0 ≤ A.1 then some (0, A.2)
    else if 0 ≤ B.1 then some (0, B.2)
    else none
  | .or =>
    if 0 ≤ A.1 ∧ 0 ≤ B.1 then some (Max.max A.1 B.1, (2 ^ bitLen (Max.max A.2 B.2) : Nat) - 1) else none
  | .xor => if 0 ≤ A.1 ∧ 0 ≤ B.1 then some (0, (2 ^ bitLen (Max.max A.2 B.2) : Nat) - 1) else none
  | .div =>
    if B.2 < 0 ∨ 0 < B.1 then
      some (hullInts (tdiv A.1 B.1) [tdiv A.1 B.2, tdiv A.2 B.1, tdiv A.2 B.2])
    else
      let k : Int := Max.max A.1.natAbs A.2.natAbs
      some (Min.min (-k) (-1), Max.max k (-1))
  | .rem =>
    let z : Iv := (Min.min A.1 0, Max.max A.2 0)
    if B.2 < 0 ∨ 0 < B.1 then
      let m : Int := Max.max B.1.natAbs B.2.natAbs
      some (Max.max z.1 (-(m - 1)), Min.min z.2 (m - 1))
    else some z
  | .clamp => some (Min.min (Max.max D.1 A.1) B.1, Min.min (Max.max D.2 A.2) B.2)
  | .lea => some (addIv (prodIv D A) B)
  | .clz =>
    if A.2 < 0 then some (0, 0)
    else if 1 ≤ A.1 then some ((w : Int) - bitLen A.2, (w : Int) - bitLen A.1)
    else if A.1 = 0 then some ((w : Int) - bitLen A.2, w)
    else some (0, w)
  | .popc => if 0 ≤ A.1 then some (0, bitLen A.2) else some (0, w)
  | .brev => none
  | .abs =>
    if 0 ≤ A.1 then some A else if A.2 ≤ 0 then some (-A.2, -A.1) else some (0, Max.max (-A.1) A.2)
  | .not => some (-A.2 - 1, -A.1 - 1)
  | .bfx =>
    if B.1 = B.2 then
      let (v, off, sg) := bfControl w B.1
      if v = 0 then some (0, 0)
      else if sg then some (-(2 ^ (v - 1) : Nat), (2 ^ (v - 1) : Nat) - 1)
      else if off = 0 ∧ 0 ≤ A.1 ∧ A.2 < (2 ^ v : Nat) then some A
      else some (0, (2 ^ v : Nat) - 1)
    else none
  | .bfi => none

/-- Which operands an operation reads: a always, b, and the old destination. -/
def IdxOp.readsB : IdxOp → Bool
  | .clz | .popc | .brev | .abs | .not => false
  | _ => true

def IdxOp.readsD : IdxOp → Bool
  | .mad | .clamp | .lea | .bfi => true
  | _ => false

/-- The result rime (07 R177): exact when every source is a single value, else the operation's rule; TOP where the
result leaves the range of the destination. -/
def IdxOp.rime (op : IdxOp) (w : Nat) (ra rb rd : Rime) : Rime :=
  let single : Option Int :=
    match ra.single?, (if op.readsB then rb.single? else some 0), (if op.readsD then rd.single? else some 0) with
    | some a, some b, some d => some (op.exact w a b d)
    | _, _, _ => none
  match single with
  | some x => Rime.mk w x x
  | none =>
    match op.rule w (ra.bounds w) (rb.bounds w) (rd.bounds w) with
    | some (lo, hi) => Rime.mk w lo hi
    | none => .top

/-! ## Narrowing at branches (07 R186, R187) -/

/-- The relation that a path establishes. -/
inductive Rel where
  | eq | ne | lt | ge | ltu | geu
  deriving DecidableEq, Repr

def Rel.not : Rel → Rel
  | .eq => .ne | .ne => .eq | .lt => .ge | .ge => .lt | .ltu => .geu | .geu => .ltu

/-- A less its endpoint k. -/
def dropEnd (A : Iv) (b : Iv) : Iv :=
  if b.1 = b.2 then
    if b.1 = A.1 then (A.1 + 1, A.2) else if b.1 = A.2 then (A.1, A.2 - 1) else A
  else A

/-- The new intervals of a and of b on the path where the relation holds. -/
def Rel.narrow (r : Rel) (A B : Iv) : Iv × Iv :=
  let both := decide (0 ≤ A.1) && decide (0 ≤ B.1)
  let lt : Iv × Iv := ((A.1, min A.2 (B.2 - 1)), (max B.1 (A.1 + 1), B.2))
  let ge : Iv × Iv := ((max A.1 B.1, A.2), (B.1, min B.2 A.2))
  match r with
  | .eq => let i : Iv := (max A.1 B.1, min A.2 B.2); (i, i)
  | .ne => (dropEnd A B, dropEnd B A)
  | .lt => lt
  | .ge => ge
  | .ltu => if both then lt else (if 0 ≤ B.1 then (0, min A.2 (B.2 - 1)) else A, B)
  | .geu => if both then ge else (A, B)

end Sys2Proof.Machine
end

