-- ==== Sys2Proof/Machine/Ops.lean ====
section
/-! DEFINITION. The named operations over gangs, registers, latches, strands and traps that every meaning uses, and
taking an exception (17 R416, R428) with the return from it beside it (R425). -/

namespace Sys2Proof.Machine

open Sys2Proof

/-! ## Looking things up and putting them back -/

def State.gang? (s : State) (gid : Nat) : Option Gang := s.gangs.find? fun h => decide (h.gid = gid)

def State.setGang (s : State) (g : Gang) : State :=
  { s with gangs := s.gangs.map fun h => if h.gid = g.gid then g else h }

def State.grid? (s : State) (serial : Nat) : Option Grid := s.grids.find? fun h => decide (h.serial = serial)

def State.setGrid (s : State) (g : Grid) : State :=
  { s with grids := s.grids.map fun h => if h.serial = g.serial then g else h }

def State.team? (s : State) (grid idx : Nat) : Option Team :=
  s.teams.find? fun h => decide (h.grid = grid) && decide (h.idx = idx)

def State.teamByKey? (s : State) (key : Nat) : Option Team := s.teams.find? fun h => decide (h.key = key)

def State.setTeam (s : State) (t : Team) : State :=
  { s with teams := s.teams.map fun h => if h.key = t.key then t else h }

def Gang.strand? (g : Gang) (k : Nat) : Option Strand := g.strands.find? fun st => st.slices.contains k

def Gang.setStrand (g : Gang) (st : Strand) : Gang :=
  { g with strands := g.strands.map fun h => if h.slices = st.slices then st else h }

/-- A template with every field zero: what a gang of no known grid declares. -/
def Template.none : Template :=
  { entry := 0, asid := 0, gangs := 0, vregs := 0, xregs := 0, pack := 0, accs := 0, trees := 0, scratch := 0
    chip := 0, width := 0, tflags := 0, clteams := 0 }

def State.tmplOf (s : State) (g : Gang) : Template :=
  match s.grid? g.grid with
  | some G => G.tmpl
  | Option.none => Template.none

/-- Threads of a declared gang (05 R143). -/
def Template.threads (t : Template) : Nat := if t.width = 1 then 16 else if t.width = 3 then 64 else 32

/-- Slices of a declared gang: a width-64 pair counts as one gang of sixteen (05 R143). -/
def Template.nslices (t : Template) : Nat := t.threads / 4

/-- The core cycle count of a core: one clock per compute die (06 R163, 18 R455). -/
def State.cycleOf (s : State) (core : Nat) : Nat := s.cycles.getD (core / Config.coresPerDie) 0

def Thread.dead : Thread :=
  { live := false, v := [], x := [], p := 0x80, l0 := 0, l1 := 0, l2 := 0, l3 := 0, draws := 0, rngs := 0, popix := 0, lineage := 0
    reservation := Option.none }

/-- A thread at gang start: live, every register zero (06 R146). -/
def Thread.fresh : Thread := { Thread.dead with live := true }

def Slice.none : Slice := { threads := [], mask := 0, stack := [], below := 0, xr := [], latValid := 0, classes := [] }

def Gang.slice (g : Gang) (k : Nat) : Slice := g.slices.getD k Slice.none
def Slice.thread (sl : Slice) (j : Nat) : Thread := sl.threads.getD j Thread.dead
def Gang.thread (g : Gang) (k j : Nat) : Thread := (g.slice k).thread j

/-- The slices in `ks` changed by `f`. -/
def Gang.mapSlices (g : Gang) (ks : List Nat) (f : Nat → Slice → Slice) : Gang :=
  { g with slices := mapI (fun k sl => if ks.contains k then f k sl else sl) 0 g.slices }

def Slice.mapThreads (sl : Slice) (f : Nat → Thread → Thread) : Slice := { sl with threads := mapI f 0 sl.threads }

/-- The threads of the slices in `ks` changed by `f` of slice and lane. -/
def Gang.mapThreads (g : Gang) (ks : List Nat) (f : Nat → Nat → Thread → Thread) : Gang :=
  g.mapSlices ks fun k sl => sl.mapThreads (f k)

/-! ## Lanes (04 R82, 02 R38) -/

def lanes4 : List Nat := [0, 1, 2, 3]

def Slice.maskBit (sl : Slice) (j : Nat) : Bool := sl.mask.getLsbD j

/-- Enabled: live and in the active mask (04 R82). -/
def Slice.enabled (sl : Slice) (j : Nat) : Bool := (sl.thread j).live && sl.maskBit j

def Slice.isLive (sl : Slice) : Bool := sl.threads.any fun t => t.live
def Gang.isLive (g : Gang) : Bool := g.slices.any Slice.isLive

/-- The slices of the gang that hold a live thread. -/
def Gang.liveSlices (g : Gang) : List Nat := (List.range g.slices.length).filter fun k => (g.slice k).isLive

/-- The value a 4-bit predicate selection reads (02 R37): 0–7 pN, 8–15 its complement; p7 reads true. -/
def predSel (p : BitVec 8) (sel : Nat) : Bool :=
  let b := decide (sel % 8 = 7) || p.getLsbD (sel % 8)
  if sel < 8 then b else !b

def modeType (m : BitVec 24) : Nat := (bitsAt 20 4 m).toNat
def modeRound (m : BitVec 24) : Nat := (bitsAt 17 3 m).toNat
def modeSat (m : BitVec 24) : Bool := m.getLsbD 16
def modeGuard (m : BitVec 24) : Nat := (bitsAt 12 4 m).toNat
def modeFtz (m : BitVec 24) : Bool := m.getLsbD 11

/-- The mode a gang, a handler and a kernel entry start with (02 R37). -/
def resetMode : BitVec 24 := 0x007000

/-- (slice, lane) pairs of the slices in `ks` that meet `p`. -/
def lanesWhere (ks : List Nat) (p : Nat → Nat → Bool) : List (Nat × Nat) :=
  ks.flatMap fun k => (lanes4.filter (p k)).map fun j => (k, j)

/-- Bits 4·slice + lane. -/
def maskOf (l : List (Nat × Nat)) : Nat := l.foldl (fun m kj => m ||| 2 ^ (4 * kj.1 + kj.2)) 0

/-- A strand of no slices. -/
def Strand.none : Strand :=
  { slices := [], pc := 0, mode := resetMode, ret := [], below := 0, wait := .none, since := 0, held := false, fair := 0
    lastIssue := 0, readySince := Option.none, hold := Option.none, yielded := false, emptySince := Option.none, emptyAt := [], behind := Option.none, unseen := 0 }

/-- An empty-line stall ended with no effect; its count starts anew when the instruction issues again (09 R244). -/
def Strand.endEmpty (st : Strand) : Strand :=
  { st with wait := (if st.wait = Wait.empty then Wait.none else st.wait), emptySince := Option.none, emptyAt := [] }

/-! ## The context of an issuing instruction -/

/-- What a meaning sees: the issue record, its gang and its strand. -/
structure Ctx where
  is : Issue
  g : Gang
  st : Strand
  deriving DecidableEq, Repr

def State.ctx (s : State) : Option Ctx :=
  match s.issue with
  | Option.none => Option.none
  | some i =>
    match s.gang? i.gang with
    | Option.none => Option.none
    | some g =>
      match g.strand? i.slice with
      | Option.none => Option.none
      | some st => some ⟨i, g, st⟩

/-- The outcome of an instruction: its effect on the strand that issues it, or the stop `noIssue`. -/
def run (s : State) (k : Ctx → State) : Host.Outcome State Fault Refusal :=
  match s.ctx with
  | Option.none => .fault .noIssue
  | some c => .next (k c)

def Ctx.enabled (c : Ctx) (k j : Nat) : Bool := (c.g.slice k).enabled j

/-- Active: enabled with a true guard (02 R38, 04 R82). -/
def Ctx.active (c : Ctx) (k j : Nat) : Bool := c.enabled k j && predSel (c.g.thread k j).p (modeGuard c.st.mode)

def Ctx.activeLanes (c : Ctx) : List (Nat × Nat) := lanesWhere c.st.slices c.active
def Ctx.enabledLanes (c : Ctx) : List (Nat × Nat) := lanesWhere c.st.slices c.enabled
def Ctx.liveLanes (c : Ctx) : List (Nat × Nat) := lanesWhere c.st.slices fun k j => (c.g.thread k j).live

/-- The gate of gang-uniform effects (02 R38): some live active thread of the issuing slices. -/
def Ctx.gate (c : Ctx) : Bool := !c.activeLanes.isEmpty

/-- The default TMASK (17 R413). -/
def Ctx.tmask (c : Ctx) : Nat := maskOf c.activeLanes

/-! ## Registers -/

def Thread.vreg (t : Thread) (n : Nat) : W32 := Sparse.get 0 t.v n
def Thread.xreg (t : Thread) (n : Nat) : W32 := Sparse.get 0 t.x n
def Thread.setV (t : Thread) (n : Nat) (w : W32) : Thread := { t with v := Sparse.set 0 t.v n w }
def Thread.setX (t : Thread) (n : Nat) (w : W32) : Thread := { t with x := Sparse.set 0 t.x n w }
def Thread.latch (t : Thread) (n : Nat) : W32 :=
  match n with
  | 0 => t.l0
  | 1 => t.l1
  | 2 => t.l2
  | _ => t.l3

/-- A write to a predicate; p7 ignores it and always holds true (00 R6, 06 R168). -/
def Thread.setP (t : Thread) (n : Nat) (b : Bool) : Thread :=
  if n = 7 then t else { t with p := if b then t.p ||| BitVec.ofNat 8 (2 ^ n) else t.p &&& ~~~BitVec.ofNat 8 (2 ^ n) }

/-- The rime of a register that was never written (06 R146). -/
def Rime.zero : Rime := .iv 0 0

def Slice.rime (sl : Slice) (n : Nat) : Rime := Sparse.get Rime.zero sl.xr n
def Slice.setRime (sl : Slice) (n : Nat) (r : Rime) : Slice := { sl with xr := Sparse.set Rime.zero sl.xr n r }

def Gang.sreg (g : Gang) (n : Nat) : W64 := Sparse.get 0 g.s n
def Gang.srime (g : Gang) (n : Nat) : Rime := Sparse.get Rime.zero g.sr n
def Gang.areg (g : Gang) (n : Nat) : W128 := Sparse.get 0 g.a n
def Gang.hreg (g : Gang) (n : Nat) : W128 := Sparse.get 0 g.h n

/-- Whether an s register is pending: some command names it whose bytes have not all landed (12 R316) (DEDUCED, log 25). -/
def Gang.sPending (g : Gang) (n : Nat) : Bool := g.pends.contains n

/-- A write of an s register; a pending register keeps rime TOP (12 R316). -/
def Gang.setS (g : Gang) (n : Nat) (v : W64) (r : Rime) : Gang :=
  { g with s := Sparse.set 0 g.s n v, sr := Sparse.set Rime.zero g.sr n (if g.sPending n then .top else r) }

/-- A new rime for an s register, its value kept. -/
def Gang.setSRime (g : Gang) (n : Nat) (r : Rime) : Gang :=
  { g with sr := Sparse.set Rime.zero g.sr n (if g.sPending n then .top else r) }

def Gang.setA (g : Gang) (n : Nat) (v : W128) : Gang := { g with a := Sparse.set 0 g.a n v }
def Gang.setH (g : Gang) (n : Nat) (v : W128) : Gang := { g with h := Sparse.set 0 g.h n v }

/-- The rime of an exact value in a `w`-bit register. -/
def exactRime (w : Nat) (x : Int) : Rime := Rime.mk w x x

/-- The rime of a 64-bit image. -/
def exact64 (v : W64) : Rime := exactRime 64 v.toInt

/-! ## Narrow packing: the class a register takes (06 R148) -/

def classOfValues (vs : List W32) : RegClass :=
  let fits (w : Nat) (sg : Bool) : Bool :=
    vs.all fun v => if sg then decide (v.toInt = sintOf w v.toNat) else decide (v.toNat < 2 ^ w)
  if vs.all fun v => decide (v = 0) then .zero
  else if fits 8 false then .n8z
  else if fits 8 true then .n8s
  else if fits 16 false then .n16z
  else if fits 16 true then .n16s
  else .w32

def RegClass.quarters : RegClass → Nat
  | .zero | .spilled => 0
  | .n8z | .n8s => 1
  | .n16z | .n16s => 2
  | .w32 => 4

/-- A v or x register by its operand code. -/
def Thread.byCode (t : Thread) (code : Nat) : W32 := if code < 0x80 then t.vreg code else t.xreg (code - 0x80)

/-- The class of register `code` set from the values of every live thread. -/
def Slice.reclass (sl : Slice) (code : Nat) : Slice :=
  let vs := (sl.threads.filter fun t => t.live).map fun t => t.byCode code
  { sl with classes := Sparse.set .zero sl.classes code (classOfValues vs) }

/-! ## Latches and destinations (04 R86, 02 R38) -/

/-- One shift of a slice's latches; `f` gives what enters L0 of each lane. -/
def Slice.shift (sl : Slice) (f : Nat → Thread → W32) : Slice :=
  { sl.mapThreads fun j t => { t with l3 := t.l2, l2 := t.l1, l1 := t.l0, l0 := f j t } with
    latValid := min 4 (sl.latValid + 1) }

/-- What L0 takes in a lane that does not write: the destination's unchanged value, for L0 alone the earlier L0 (02 R38). -/
def Slice.keptL0 (sl : Slice) (d : Dst) (t : Thread) : W32 :=
  match d with
  | .v n => t.vreg n.toNat
  | .x n => t.xreg n.toNat
  | _ => if 0 < sl.latValid then t.l0 else 0

/-- The per-thread results of an instruction: what each writing lane gets. -/
abbrev LaneFn := Nat → Nat → Option W32

/-- The rime of an x register after a write: the written rime, or its hull with the old one when some live thread of
the slice does not write; unchanged when no lane writes (06 R165). -/
def Slice.writtenRime (sl : Slice) (n : Nat) (writes : Nat → Bool) (r : Rime) : Rime :=
  if lanes4.all fun j => !writes j then sl.rime n
  else if lanes4.all fun j => writes j || !(sl.thread j).live then r
  else Rime.hullW 32 (sl.rime n) r

/-- Writes `f` to the v register `n` of the slices `ks`, no latch shift. -/
def Gang.writeV (g : Gang) (ks : List Nat) (n : Nat) (f : LaneFn) : Gang :=
  g.mapSlices ks fun k sl =>
    (sl.mapThreads fun j t => match f k j with
      | some w => t.setV n w
      | Option.none => t).reclass n

/-- Writes `f` to the x register `n` of the slices `ks`, with the rime `r` of what each slice gets. -/
def Gang.writeX (g : Gang) (ks : List Nat) (n : Nat) (f : LaneFn) (r : Nat → Rime) : Gang :=
  g.mapSlices ks fun k sl =>
    ((sl.mapThreads fun j t => match f k j with
      | some w => t.setX n w
      | Option.none => t).setRime n (sl.writtenRime n (fun j => (f k j).isSome) (r k))).reclass (0x80 + n)

/-- A write to a v, x, L0-only or discarding destination, with the latch shift it makes (04 R86). -/
def Gang.writeVX (g : Gang) (ks : List Nat) (d : Dst) (f : LaneFn) (r : Nat → Rime) : Gang :=
  let shifted := g.mapSlices ks fun k sl => sl.shift fun j t => (f k j).getD (sl.keptL0 d t)
  match d with
  | .v n => shifted.writeV ks n.toNat f
  | .x n => shifted.writeX ks n.toNat f r
  | .l0 => shifted
  | .s _ | .zero => g

/-! ## Ending an instruction -/

/-- The strand changed and the gang put back. -/
def State.put (s : State) (g : Gang) (st : Strand) : State := s.setGang (g.setStrand st)

/-- The instruction is done: the strand goes on at its fall-through address. -/
def State.done (s : State) (c : Ctx) (g : Gang) : State := s.put g { c.st with pc := c.is.fall, wait := .none }

/-- Nothing but going on. -/
def State.skip (s : State) (c : Ctx) : State := s.done c c.g

/-- The strand waits at the instruction, which issues again (17 R434); its fairness timer restarts (04 R93). A wait that is
already of this kind keeps its start. -/
def State.block (s : State) (c : Ctx) (g : Gang) (w : Wait) : State :=
  s.put g { c.st with wait := w, fair := 0, since := if c.st.wait = w then c.st.since else s.cycleOf g.core }

/-- The strand's instruction stalls on empty lines, its count kept from the first cycle that found one (09 R244). -/
def State.blockEmpty (s : State) (c : Ctx) (g : Gang) (ps : List Place) : State :=
  s.block { c with st := { c.st with emptySince := some (c.st.emptySince.getD (s.cycleOf g.core)), emptyAt := ps } } g .empty

/-- Cycles after which a stall on an empty line raises EMPTY_TIMEOUT (09 R244). -/
def emptyLimit : Nat := 2 ^ 24

/-- Whether the strand has stalled on an empty line for as long. -/
def State.emptyOver (s : State) (g : Gang) (st : Strand) : Bool :=
  match st.emptySince with
  | some t => decide (t + emptyLimit ≤ s.cycleOf g.core)
  | Option.none => false

/-! ## Exception flags of a parted gang (03 R73) -/

/-- What the raising of flags by a strand leaves another strand free not to see: those it did not see before. -/
def Strand.hide (y : Strand) (old f : BitVec 5) : Strand := { y with unseen := y.unseen ||| (f &&& ~~~(old &&& ~~~y.unseen)) }

/-- Flags `f` that a strand has raised or that a completion shows it: it sees them. -/
def Strand.see (y : Strand) (f : BitVec 5) : Strand := { y with unseen := y.unseen &&& ~~~f }

/-- Flags `f` that the strand of `slices` raises: it sees them, the others need not. -/
def Gang.raiseFlags (g : Gang) (slices : List Nat) (f : BitVec 5) : Gang :=
  { g with
    fpflags := g.fpflags ||| f
    strands := g.strands.map fun y => if y.slices = slices then y.see f else y.hide g.fpflags f }

/-- Flags that a completion raises: every strand sees them (13 R343). -/
def Gang.showFlags (g : Gang) (f : BitVec 5) : Gang :=
  { g with fpflags := g.fpflags ||| f, strands := g.strands.map fun y => y.see f }

/-! ## Decoded fields for handlers (02 R43) -/

/-- TWORD, TOPA, TOPB, TOPD of an instruction's words. -/
def trapWords (ws : List W32) : Nat × Nat × Nat × Nat :=
  match ws with
  | [] => (0, 0, 0, 0)
  | m :: rest =>
    let op := bitsAt 24 8 m
    let fx := hasFixed op
    let a := bitsAt 8 8 m
    let b := bitsAt 0 8 m
    let na := immWords (codeA op) a
    let imms := if fx then rest.drop 1 else rest
    let get (isCode : Bool) (c : BitVec 8) (l : List W32) : Nat :=
      match immWords isCode c, l with
      | 1, w :: _ => w.toNat
      | 2, w :: h :: _ => w.toNat + 2 ^ 32 * h.toNat
      | _, _ => c.toNat
    (m.toNat + 2 ^ 32 * (if fx then (rest.headD 0).toNat else 0), get (codeA op) a imms,
      get (codeB op) b (imms.drop na), (bitsAt 16 8 m).toNat)

def w64 (x : Nat) : W64 := BitVec.ofNat 64 x

/-! ## Ceasing to be live (04 R96, R97, R110) -/

/-- Everything a dead gang still holds stops moving: strands, accesses, commands, tile operations (17 R432). -/
def Gang.killed (g : Gang) : Gang :=
  { g with
    strands := [], handler := Option.none, fault := Option.none, halt := .running, parking := false
    slices := g.slices.map fun sl =>
      { sl with threads := sl.threads.map fun t => { t with live := false, reservation := Option.none }, stack := [] }
    paths := [], accesses := [], cmds := [], records := [], pends := [], tileOps := [], batches := [], heats := []
    children := g.children }

/-- Whether a grid is the given one or descends from it, following parents up to the greatest depth. -/
def State.descends (s : State) (top : Nat) : Nat → Nat → Bool
  | 0, _ => false
  | fuel + 1, serial =>
    decide (serial = top) ||
      (match s.grid? serial with
       | some G => decide (G.parentGrid ≠ 0) && s.descends top fuel G.parentGrid
       | Option.none => false)

/-- A record of the arbiter that names the gang (17 R429). -/
def Gang.named (g : Gang) (info : FaultInfo) (asid order : Nat) : Report :=
  { info := info, order := order, part := g.part, core := g.core, asid := asid, grid := g.grid, team := g.team, gang := g.g }

/-- A report tied to the gang's core that names no gang. -/
def Gang.unnamed (g : Gang) (info : FaultInfo) (asid : Nat) : Report :=
  { info := info, order := 0, part := g.part, core := g.core, asid := asid, grid := 0, team := 0, gang := 0 }

/-- Reports that the arbiter holds; those of gang faults whose grid is aborted are never lost (DEDUCED, log 94). -/
def State.report (s : State) (r : Report) : State :=
  if (s.reports.filter fun x => decide (16 ≤ x.info.kind)).length < 64 then
    { s with seq := s.seq + 1, reports := s.reports ++ [{ r with order := s.seq }] }
  else { s with fqlost := (s.fqlost + 1) % 2 ^ 32 }

/-- The status that a record takes: a fault before BOUNDS (15 R385, R386). -/
def Cmd.status (k : Cmd) : Option Status := k.fault.or k.bounded

/-- A report of an engine fault, or a BOUNDS status, that has not surfaced when its gang ends (12 R312; 15 R385). -/
def engineReport (g : Gang) (asid : Nat) (c : Completion) : Report :=
  let st := c.cmd.status.getD Status.none
  g.unnamed { kind := 0x11, reason := st.code, flags := 4, pc := 0, addr := st.shown, va := 0, word := c.cmd.word, arg := c.cmd.pc } asid

/-- The report of a matrix operation that faulted and was never fenced (13 R343). -/
def openReport (g : Gang) (asid : Nat) (o : TileOp) : Option Report :=
  (if o.isOpen then o.fault else none).map fun st =>
    g.unnamed { kind := 0x11, reason := st.code, flags := 4, pc := 0, addr := st.shown, va := 0, word := o.word, arg := o.pc } asid

/-- What a gang's end reports: engine faults and faults of matrix operations that have not surfaced (12 R312, 13 R343). -/
def Gang.lastReports (g : Gang) (asid : Nat) : List Report :=
  (g.records.filter fun c => !c.reported).map (engineReport g asid) ++ g.tileOps.filterMap (openReport g asid)

/-- The record of a gang's fault that has not been posted when its grid is aborted: it awaits no reply (DEDUCED, log 94). -/
def State.abortedRecord (s : State) (g : Gang) : Option Report :=
  match g.fault with
  | some f =>
    if f.seq.isSome then Option.none
    else some (g.named { f.info with flags := f.info.flags / 4 * 4 + 2 } (s.tmplOf g).asid f.order)
  | Option.none => Option.none

/-- A grid is aborted (17 R432): its gangs and its descendants' gangs die, with what they had armed; no further team is
admitted; each grid completes with status 9 once its resources are released, children that have not started with it
(05 R137). Faults that have not surfaced are reported (12 R312), near lines dropped (09 R234). -/
def State.abortGrid (s : State) (serial : Nat) : State :=
  let hit (x : Nat) : Bool := s.descends serial 12 x
  let dying := (s.gangs ++ s.saved.flatMap fun v => v.gangs).filter fun g => hit g.grid
  (dying.flatMap fun g => g.lastReports (s.tmplOf g).asid).foldl State.report { s with
    reports := s.reports ++ dying.filterMap s.abortedRecord
    near := s.near.filter fun n => !dying.any fun g => decide (g.gid = n.1.1)
    teams := s.teams.map fun t => if hit t.grid then { t with pending := [] } else t
    gangs := s.gangs.map fun g => if hit g.grid then g.killed else g
    grids := s.grids.map fun G =>
      if hit G.serial then { G with status := some 9, admitted := G.launch.teams,
                                    retired := G.retired + (G.launch.teams - G.admitted) +
                                      (s.saved.filter fun v => decide (v.team.grid = G.serial)).length } else G
    token := s.token.filter fun t => !(s.gangs.any fun g => decide (g.gid + 1 = t.2) && hit g.grid)
    saved := s.saved.filter fun v => !hit v.team.grid
    posted := s.posted.filter fun r => match s.gang? r.gang with
      | some g => !hit g.grid
      | Option.none => true }

/-! ## Faults that suspend a gang (17 R427, R428) -/

def Gang.clearReservations (g : Gang) : Gang :=
  { g with slices := g.slices.map fun sl => sl.mapThreads fun _ t => { t with reservation := Option.none } }

/-- A gang fault at the strand's instruction: the gang is suspended, TPC, TADDR and TWORD are loaded, TCAUSE stays;
the record waits to be posted. The strand stays at the instruction, which issues again on REPLAY; the gang's empty-line
stalls end as for a halt. -/
def State.gangFault (s : State) (c : Ctx) (g : Gang) (f : FaultInfo) (sd : Option Nat) (cmd : Option (Nat × Nat)) : State :=
  let tr := { g.trap with tpc := w64 f.pc, taddr := w64 f.va, tword := w64 f.word }
  let fault : GangFault :=
    { info := f, order := s.seq, seq := Option.none, reply := Option.none, sd := sd, slice := c.is.slice, next := c.is.fall, cmd := cmd }
  let s := { s with seq := s.seq + 1 }
  s.setGang { g with trap := tr, fault := some fault, strands := g.strands.map Strand.endEmpty }

/-- The fault info of an instruction: its address and TWORD; TADDR takes the instruction's own address (17 R413). -/
def Ctx.info (c : Ctx) (kind reason addr arg : Nat) : FaultInfo :=
  { kind := kind, reason := reason, flags := 0, pc := c.is.pc, addr := addr, va := c.is.pc, word := (trapWords c.is.words).1, arg := arg }

/-- A gang fault whose grid is aborted at once; its record is a report that names the gang (17 R416, R420, R432) (DEDUCED, log 89). -/
def State.fatalFault (s : State) (c : Ctx) (kind reason addr : Nat) : State :=
  let r : Report := c.g.named { c.info kind reason addr 0 with flags := 2 } (s.tmplOf c.g).asid s.seq
  let s := s.abortGrid c.g.grid
  { s with seq := s.seq + 1, reports := s.reports ++ [r] }

/-! ## User traps (17 R413 to R420) -/

/-- What a user trap carries; `words` overrides TWORD, TOPA and TOPB where the raising rule sets them (R311, R385). -/
structure TrapArgs where
  cause : Nat
  tmask : Nat
  taddr : Nat
  engine : Bool := false
  words : Option (Nat × Nat × Nat) := none
  shifted : Bool := false

def Slice.save (k : Nat) (sl : Slice) : SavedSlice :=
  { slice := k, mask := sl.mask, depth := sl.stack.length, latValid := sl.latValid
    latches := sl.threads.map fun t => (t.l0, t.l1, t.l2, t.l3) }

/-- TCAUSE with HANDLER set (17 R414). -/
def tcauseOf (cause : Nat) (engine : Bool) : W64 := w64 (2 ^ 63 + (if engine then 256 else 0) + cause)

/-- Trap entry (17 R416): `g` is the gang as the trap leaves it, an FP trap's other lanes written. A held strand's
empty-line stall ends (09 R244). -/
def State.userTrap (s : State) (c : Ctx) (g : Gang) (t : TrapArgs) : State :=
  if g.trap.tcause.getLsbD 63 then (s.setGang g).fatalFault c 7 t.cause 0
  else if !g.trap.tvec.getLsbD 0 then (s.setGang g).fatalFault c 8 t.cause 0
  else
    let (w, a, b, d) := trapWords c.is.words
    let tr : TrapRegs :=
      { g.trap with
        tcause := tcauseOf t.cause t.engine, tpc := w64 c.is.pc, tmask := w64 t.tmask, taddr := w64 t.taddr
        tword := w64 (match t.words with
          | some p => p.1
          | Option.none => w)
        topa := w64 (match t.words with
          | some p => p.2.1
          | Option.none => a)
        topb := w64 (match t.words with
          | some p => p.2.2
          | Option.none => b)
        topd := w64 d }
    let h : HandlerCtx :=
      { mode := c.st.mode, retDepth := c.st.ret.length, shifted := t.shifted
        saved := c.st.slices.map fun k => (g.slice k).save k }
    let g := { g with trap := tr, handler := some h }.clearReservations
    let g := g.mapSlices c.st.slices fun _ sl => { sl with latValid := 0 }
    let g := { g with strands := g.strands.map fun (x : Strand) =>
      if x.slices = c.st.slices then
        { x with pc := (tr.tvec.toNat % 2 ^ 57) / 4 * 4, mode := resetMode, wait := .none, hold := Option.none, emptySince := Option.none }
      else { x.endEmpty with held := true } }
    let s := { s with opLatch := s.opLatch.filter fun e => e.2.1 ≠ g.gid + 1 }
    s.setGang g

/-- A user trap with the default TMASK and TADDR (17 R413). -/
def State.trapDefault (s : State) (c : Ctx) (cause : Nat) : State :=
  s.userTrap c c.g { cause := cause, tmask := c.tmask, taddr := c.is.pc }

/-- ENCODING (02 R42). -/
def State.encoding (s : State) (c : Ctx) : State := s.trapDefault c 1

/-! ## Return from a trap handler (17 R418, R425) -/

def Slice.liveMask (sl : Slice) : BitVec 4 := BitVec.ofNat 4 (ofBits (lanes4.map fun j => (sl.thread j).live))

/-- The oldest `k` entries of a stack whose top stands first. -/
def keepDepth {α : Type} (l : List α) (k : Nat) : List α := l.drop (l.length - k)

/-- The handler ended: HANDLER falls and the held strands are released (17 R418). -/
def Gang.endHandler (g : Gang) : Gang :=
  { g with
    handler := Option.none
    trap := { g.trap with tcause := g.trap.tcause &&& w64 (2 ^ 63 - 1) }
    strands := g.strands.map fun st => { st with held := false } }

/-- What RESUME restores of one slice: stack depth, active mask among its live threads, latches and their validity. -/
def SavedSlice.restore (v : SavedSlice) (sl : Slice) : Slice :=
  if sl.isLive then
    { sl with
      stack := keepDepth sl.stack v.depth
      mask := v.mask &&& sl.liveMask
      latValid := v.latValid
      threads := mapI (fun j t =>
        let q := v.latches.getD j (t.l0, t.l1, t.l2, t.l3)
        { t with l0 := q.1, l1 := q.2.1, l2 := q.2.2.1, l3 := q.2.2.2 }) 0 sl.threads }
  else sl

/-- The return from a trap handler for strand `st`, which goes on at `pc` (17 R425). -/
def State.trapReturn (s : State) (g : Gang) (st : Strand) (h : HandlerCtx) (pc : Nat) : State :=
  let restored := g.mapSlices (h.saved.map fun v => v.slice) fun k sl =>
    match h.saved.find? fun v => decide (v.slice = k) with
    | some v => v.restore sl
    | Option.none => sl
  s.setGang (restored.setStrand
    { st with pc := pc, mode := h.mode, ret := keepDepth st.ret h.retDepth, wait := .none, hold := Option.none }).endHandler

/-! ## The checks every entry makes first (02 R42, 06 R145, 04 R87) -/

/-- Registers the gang's declaration gives it (06 R145). -/
def Ctx.vOk (s : State) (c : Ctx) (n k : Nat) : Bool := decide (n + k ≤ (s.tmplOf c.g).vregs)
def Ctx.xOk (s : State) (c : Ctx) (n : Nat) : Bool := decide (n < (s.tmplOf c.g).xregs)

def Ctx.srcOk (s : State) (c : Ctx) : Src → Bool
  | .v n => c.vOk s n.toNat 1
  | .x n => c.xOk s n.toNat
  | _ => true

def Ctx.dstOk (s : State) (c : Ctx) : Dst → Bool
  | .v n => c.vOk s n.toNat 1
  | .x n => c.xOk s n.toNat
  | _ => true

/-- The first latch among the sources that some issuing slice holds invalid (04 R87). -/
def Ctx.badLatch (c : Ctx) : List Src → Option Nat
  | [] => Option.none
  | .lat n :: l =>
    if c.st.slices.any fun k => decide ((c.g.slice k).latValid ≤ n.toNat) then some n.toNat else c.badLatch l
  | _ :: l => c.badLatch l

/-- An instruction that its entry accepts runs; one it does not raises ENCODING; an invalid latch raises LATCH. -/
def instr (s : State) (ok : Ctx → Bool) (ds : List Dst) (srcs : List Src) (k : Ctx → State) :
    Host.Outcome State Fault Refusal :=
  run s fun c =>
    if !(ok c && ds.all (c.dstOk s) && srcs.all (c.srcOk s)) then s.encoding c
    else
      match c.badLatch srcs with
      | some n => s.userTrap c c.g { cause := 6, tmask := c.tmask, taddr := n }
      | Option.none => k c

end Sys2Proof.Machine
end

