-- ==== Sys2Proof/Machine/Operands.lean ====
section
/-! DEFINITION. Operand forms: what each source code reads, at 32 and at 64 bits, and the rime it brings
(02 R32, R33; 07 R176). -/

namespace Sys2Proof.Machine

open Sys2Proof

/-- Index of a thread in its team (02 R32, 05 R143): thread t = 4·slice + lane of gang g. -/
def Ctx.threadIdx (s : State) (c : Ctx) (k j : Nat) : Nat := c.g.g * (s.tmplOf c.g).threads + 4 * k + j

/-- An identity operand as its 32-bit value in a lane (02 R32). -/
def Ctx.ident (s : State) (c : Ctx) (i : Ident) (k j : Nat) : Nat :=
  match i with
  | .lane => j
  | .slice => k % 8
  | .thread => c.threadIdx s k j
  | .gang => c.g.g
  | .team => c.g.team
  | .core => c.g.core
  | .cluster => c.g.core / Config.coresPerCluster
  | .depth => match s.grid? c.g.grid with
    | some G => G.depth
    | none => 0
  | .popix => (c.g.thread k j).popix % 2 ^ 32
  | .cycle => s.cycleOf c.g.core % 2 ^ 32

/-- A source at 32 bits in a lane. -/
def Ctx.val (s : State) (c : Ctx) (a : Src) (k j : Nat) : W32 :=
  let t := c.g.thread k j
  match a with
  | .v n => t.vreg n.toNat
  | .x n => t.xreg n.toNat
  | .s n => bitsAt 0 32 (c.g.sreg n.toNat)
  | .lat n => t.latch n.toNat
  | .zero => 0
  | .id i => BitVec.ofNat 32 (c.ident s i k j)
  | .imm w => w
  | .imm64 w => bitsAt 0 32 w

/-- A gang-uniform source at 64 bits: F0 sign-extends, identity values zero-extend (02 R33, 07 R179). -/
def Ctx.val64 (s : State) (c : Ctx) (a : Src) : W64 :=
  match a with
  | .s n => c.g.sreg n.toNat
  | .id .cycle => w64 (s.cycleOf c.g.core % 2 ^ 32)
  | .id i => w64 (c.ident s i (c.st.slices.headD 0) 0)
  | .imm w => w.signExtend 64
  | .imm64 w => w
  | _ => 0

/-- The rime a source brings to a slice's computation at width `w` (07 R176). -/
def Ctx.rimeOf (s : State) (c : Ctx) (w : Nat) (a : Src) (k : Nat) : Rime :=
  match a with
  | .x n => (c.g.slice k).rime n.toNat
  | .s n =>
    let r := c.g.srime n.toNat
    if w = 64 then r
    else match r with
      | .iv lo hi => if rangeLo 32 ≤ lo ∧ hi ≤ rangeHi 32 then Rime.mk 32 lo hi else .top
      | .top => .top
  | .zero => .iv 0 0
  | .imm v => exactRime w v.toInt
  | .imm64 v => exactRime w v.toInt
  | .id i =>
    if w = 64 then exact64 (c.val64 s (.id i))
    else hullOf 32 ((lanes4.filter fun j => (c.g.thread k j).live).map fun j => (BitVec.ofNat 32 (c.ident s i k j)).toInt)
  | .v _ | .lat _ => .top

/-- The signed value of a source in a lane. -/
def Ctx.sval (s : State) (c : Ctx) (a : Src) (k j : Nat) : Int := (c.val s a k j).toInt

/-! ## Comparison width (04 R100, 07 R184) -/

def wide : Src → Bool
  | .s _ | .imm64 _ => true
  | _ => false

/-- A source in a comparison: 32-bit, or 64-bit with an x or latch operand extended as the condition asks. -/
def Ctx.cmpVal (s : State) (c : Ctx) (w64bit unsigned : Bool) (a : Src) (k j : Nat) : Int :=
  if w64bit then
    match a with
    | .x _ | .lat _ => if unsigned then ((c.val s a k j).toNat : Int) else (c.val s a k j).toInt
    | .id _ => ((c.val s a k j).toNat : Int)
    | _ => if unsigned then ((c.val64 s a).toNat : Int) else (c.val64 s a).toInt
  else if unsigned then ((c.val s a k j).toNat : Int) else (c.val s a k j).toInt

/-! ## Old destination as a source -/

def dstAsSrc : Dst → Src
  | .v n => .v n
  | .x n => .x n
  | .s n => .s n
  | .l0 => .zero
  | .zero => .zero

/-! ## Which v and x registers an instruction names (06 R145, R150) -/

/-- Operand codes of a v range. -/
def vCodes (n k : Nat) : List Nat := (List.range k).map (n + ·)

def srcCodes : Src → List Nat
  | .v n => [n.toNat]
  | .x n => [0x80 + n.toNat]
  | _ => []

def dstCodes : Dst → List Nat
  | .v n => [n.toNat]
  | .x n => [0x80 + n.toNat]
  | _ => []

/-- A destination or source that starts a range of `k` v registers. -/
def dstRange (d : Dst) (k : Nat) : List Nat :=
  match d with
  | .v n => vCodes n.toNat k
  | d => dstCodes d

def srcRange (a : Src) (k : Nat) : List Nat :=
  match a with
  | .v n => vCodes n.toNat k
  | a => srcCodes a

/-- The v and x registers that an instruction's words name in operand-code slots, one register each; the ranges are
added by `namesOf`. -/
def rawNamed (r : Raw) : List Nat :=
  let one (c : BitVec 8) : List Nat := if c.toNat < 0xA0 then [c.toNat] else []
  (if codeA r.op then one r.a else []) ++ (if codeB r.op then one r.b else [])

/-- The v and x registers an instruction writes, ranges included. -/
def writesOf (i : Instr) : List Nat :=
  match i with
  | .ld d _ _ w | .ldx d _ _ w | .ldrc d _ _ w => dstRange d (Accept.regsOf w.size)
  | .atom d _ _ _ w => dstRange d (Accept.regsOf w.size)
  | .cas d _ _ w => dstRange d (Accept.regsOf w.size)
  | .feprobe d _ _ _ | .zprobe d _ _ _ => dstCodes d
  | .mxdrainReg _ n _ f => vCodes n.toNat (Accept.drainRegs f)
  | .req d _ _ => dstRange d 2
  | .getsr d n => if n = 0x0E ∨ n = 0x0F then dstRange d 2 else dstCodes d
  | .ffma3 d _ _ _ _ _ => dstCodes d
  | .add d _ _ | .sub d _ _ | .mul d _ _ | .mulh d _ _ | .mad d _ _ | .min d _ _ | .max d _ _ | .shl d _ _
  | .shr d _ _ | .sar d _ _ | .and d _ _ | .or d _ _ | .xor d _ _ | .div d _ _ | .rem d _ _ | .clamp d _ _
  | .seli d _ _ | .widen d _ _ | .narrow d _ _ | .rimeget d _ _ | .bfx d _ _ | .bfi d _ _ | .lea d _ _
  | .fadd d _ _ | .fsub d _ _ | .fmul d _ _ | .ffma d _ _ | .fmin d _ _ | .fmax d _ _ | .fsel d _ _ | .fdiv d _ _
  | .fscale d _ _ | .fdot2 d _ _ | .pack d _ _ | .iadd d _ _ | .isub d _ _ | .imul d _ _ | .imad d _ _
  | .imin d _ _ | .imax d _ _ | .ishl d _ _ | .ishr d _ _ | .iand d _ _ | .ior d _ _ | .ixor d _ _ | .shfl d _ _
  | .vote d _ _ | .gred d _ _ | .gscan d _ _ | .bcast d _ _ | .sel d _ _ | .resample d _ _ | .rng d _ _ => dstCodes d
  | .clz d _ | .popc d _ | .brev d _ | .abs d _ | .not d _ | .fneg d _ | .fabs d _ | .frcp d _ | .frsq d _
  | .fsqrt d _ | .fexp2 d _ | .flog2 d _ | .fsin d _ | .fcos d _ | .ftanh d _ | .fclass d _ | .mov d _ => dstCodes d
  | .fround d _ _ | .unpack d _ _ => dstCodes d
  | .cvt d _ _ _ => dstCodes d
  | .pget d _ _ | .ttmask d _ _ => dstCodes d
  | .ttpos d _ _ _ => dstCodes d
  | _ => []

/-- The v and x registers an instruction reads, ranges included; an old destination apart. -/
def readsOf (i : Instr) : List Nat :=
  let base := match i.raw with
    | some r => rawNamed r
    | none => []
  base ++
  match i with
  | .st d _ _ w | .stx d _ _ _ w | .strc d _ _ _ w => srcRange d (Accept.regsOf w.size)
  | .cas d _ _ w => dstRange d (2 * Accept.regsOf w.size)
  | .mma _ a _ w | .mmag _ a _ w => srcRange a (Accept.mmaRegs w.fmta)
  | .akeys a _ => srcRange a 4
  | .ffma3 _ _ _ c _ _ => srcCodes c
  | _ => []

/-- Every v and x register an instruction names (06 R145). -/
def namesOf (i : Instr) : List Nat := readsOf i ++ writesOf i

end Sys2Proof.Machine
end

