-- ==== Sys2Proof/Machine/Index.lean ====
section
/-! DEFINITION. Rows 0x20 and 0x30: index arithmetic and rimes (07). -/

namespace Sys2Proof.Machine

open Sys2Proof

/-- The integer results of a 32-bit index operation in each active lane, wrapped (07 R179). -/
def Ctx.idxLane (s : State) (c : Ctx) (op : IdxOp) (d : Dst) (a b : Src) : LaneFn := fun k j =>
  if c.active k j then
    some (BitVec.ofInt 32 (op.exact 32 (c.sval s a k j) (c.sval s b k j) (c.sval s (dstAsSrc d) k j)))
  else none

/-- The result rime in slice k at width w. -/
def Ctx.idxRime (s : State) (c : Ctx) (op : IdxOp) (w : Nat) (d : Dst) (a b : Src) (k : Nat) : Rime :=
  op.rime w (c.rimeOf s w a k) (c.rimeOf s w b k) (c.rimeOf s w (dstAsSrc d) k)

/-- The effect of an index operation (07 R177, R179): per active thread into x or L0, gang-uniform into s. -/
def Ctx.index (s : State) (c : Ctx) (op : IdxOp) (d : Dst) (a b : Src) : State :=
  match d with
  | .s n =>
    if c.gate then
      let v := BitVec.ofInt 64 (op.exact 64 (c.val64 s a).toInt (c.val64 s b).toInt (c.g.sreg n.toNat).toInt)
      s.done c (c.g.setS n.toNat v (c.idxRime s op 64 d a b 0))
    else s.skip c
  | d => s.done c (c.g.writeVX c.st.slices d (c.idxLane s op d a b) (c.idxRime s op 32 d a b))

/-- An instruction of the common form (07 R179). -/
def idx (s : State) (op : IdxOp) (d : Dst) (a b : Src) : Host.Outcome State Fault Refusal :=
  instr s (fun _ => if op.readsD then Accept.idx3r d a b else Accept.idx3 d a b) [d] [a, b] fun c => c.index s op d a b

/-- The unary instructions read A only (07 R182). -/
def idx1 (s : State) (op : IdxOp) (d : Dst) (a : Src) : Host.Outcome State Fault Refusal :=
  instr s (fun _ => Accept.idx2 d a) [d] [a] fun c => c.index s op d a .zero

def execAdd (d : Dst) (a b : Src) (s : State) := idx s .add d a b
def execSub (d : Dst) (a b : Src) (s : State) := idx s .sub d a b
def execMul (d : Dst) (a b : Src) (s : State) := idx s .mul d a b
def execMulh (d : Dst) (a b : Src) (s : State) := idx s .mulh d a b
def execMad (d : Dst) (a b : Src) (s : State) := idx s .mad d a b
def execMin (d : Dst) (a b : Src) (s : State) := idx s .min d a b
def execMax (d : Dst) (a b : Src) (s : State) := idx s .max d a b
def execShl (d : Dst) (a b : Src) (s : State) := idx s .shl d a b
def execShr (d : Dst) (a b : Src) (s : State) := idx s .shr d a b
def execSar (d : Dst) (a b : Src) (s : State) := idx s .sar d a b
def execAnd (d : Dst) (a b : Src) (s : State) := idx s .and d a b
def execOr (d : Dst) (a b : Src) (s : State) := idx s .or d a b
def execXor (d : Dst) (a b : Src) (s : State) := idx s .xor d a b
def execDiv (d : Dst) (a b : Src) (s : State) := idx s .div d a b
def execRem (d : Dst) (a b : Src) (s : State) := idx s .rem d a b
def execClamp (d : Dst) (a b : Src) (s : State) := idx s .clamp d a b
def execLea (d : Dst) (a b : Src) (s : State) := idx s .lea d a b
def execBfx (d : Dst) (a b : Src) (s : State) := idx s .bfx d a b
def execBfi (d : Dst) (a b : Src) (s : State) := idx s .bfi d a b
def execClz (d : Dst) (a : Src) (s : State) := idx1 s .clz d a
def execPopc (d : Dst) (a : Src) (s : State) := idx1 s .popc d a
def execBrev (d : Dst) (a : Src) (s : State) := idx1 s .brev d a
def execAbs (d : Dst) (a : Src) (s : State) := idx1 s .abs d a
def execNot (d : Dst) (a : Src) (s : State) := idx1 s .not d a

/-- SELI's rime (07 R185): decided from the old destination's rime. -/
def seliRime (w : Nat) (ra rb rd : Rime) : Rime :=
  match rd with
  | .iv 0 0 => rb
  | .iv lo hi => if lo ≤ 0 ∧ 0 ≤ hi then Rime.hullW w ra rb else ra
  | .top => Rime.hullW w ra rb

/-- SELI: a where the destination's old value is not zero, else b (07 R185). -/
def execSeli (d : Dst) (a b : Src) (s : State) : Host.Outcome State Fault Refusal :=
  instr s (fun _ => Accept.idx3r d a b) [d] [a, b] fun c =>
    match d with
    | .s n =>
      if c.gate then
        s.done c (c.g.setS n.toNat (if c.g.sreg n.toNat = 0 then c.val64 s b else c.val64 s a)
          (seliRime 64 (c.rimeOf s 64 a 0) (c.rimeOf s 64 b 0) (c.rimeOf s 64 (.s n) 0)))
      else s.skip c
    | d =>
      s.done c (c.g.writeVX c.st.slices d
        (fun k j => if c.active k j then
            some (if c.val s (dstAsSrc d) k j = 0 then c.val s b k j else c.val s a k j) else none)
        fun k => seliRime 32 (c.rimeOf s 32 a k) (c.rimeOf s 32 b k) (c.rimeOf s 32 (dstAsSrc d) k))

/-- The condition numbered as CMP numbers it (07 R184). -/
def cmpCond (cond : Nat) (a b : Int) : Bool :=
  match cond with
  | 0 => decide (a = b)
  | 1 => decide (a ≠ b)
  | 2 | 6 => decide (a < b)
  | 3 | 7 => decide (b ≤ a)
  | 4 | 8 => decide (a ≤ b)
  | _ => decide (b < a)

def cmpUnsigned (cond : Nat) : Bool := decide (6 ≤ cond)

/-- CMP: a predicate from a comparison (07 R184). -/
def execCmp (cond : BitVec 4) (p : BitVec 3) (a b : Src) (s : State) : Host.Outcome State Fault Refusal :=
  instr s (fun _ => decide (cond.toNat ≤ 9) && Accept.srcCmp a && Accept.srcCmp b) [] [a, b] fun c =>
    let w := wide a || wide b
    let u := cmpUnsigned cond.toNat
    s.done c (c.g.mapThreads c.st.slices fun k j t =>
      if c.active k j then t.setP p.toNat (cmpCond cond.toNat (c.cmpVal s w u a k j) (c.cmpVal s w u b k j)) else t)

/-- The bounds of WIDEN and NARROW clamped to the register's range (07 R190, R191). -/
def Ctx.bounds (s : State) (c : Ctx) (w : Nat) (a b : Src) : Int × Int :=
  let cl (x : Int) : Int := max (rangeLo w) (min (rangeHi w) x)
  (cl (c.val64 s a).toInt, cl (c.val64 s b).toInt)

def widened (w : Nat) (b : Int × Int) (r : Rime) : Rime :=
  match r with
  | .iv lo hi => if b.1 ≤ b.2 ∧ b.1 ≤ lo ∧ hi ≤ b.2 then Rime.mk w b.1 b.2 else .top
  | .top => .top

/-- WIDEN: a rime replaced by a stated interval that contains it, else TOP; ignores the guard (07 R190). -/
def execWiden (d : Dst) (a b : Src) (s : State) : Host.Outcome State Fault Refusal :=
  instr s (fun _ => Accept.bounds d a b) [d] [] fun c =>
    match d with
    | .s n => s.done c (c.g.setSRime n.toNat (widened 64 (c.bounds s 64 a b) (c.g.srime n.toNat)))
    | .x n =>
      s.done c (c.g.mapSlices c.st.slices fun _ sl =>
        if sl.isLive then sl.setRime n.toNat (widened 32 (c.bounds s 32 a b) (sl.rime n.toNat)) else sl)
    | _ => s.encoding c

def narrowed (w : Nat) (b : Int × Int) (r : Rime) : Rime :=
  let (lo, hi) := r.bounds w
  Rime.mk w (max lo b.1) (min hi b.2)

/-- NARROW: values checked against bounds, RIME for those outside, else the rime narrowed; ignores the guard (07 R191). -/
def execNarrow (d : Dst) (a b : Src) (s : State) : Host.Outcome State Fault Refusal :=
  instr s (fun _ => Accept.bounds d a b) [d] [] fun c =>
    let out (bd : Int × Int) (x : Int) : Bool := decide (bd.2 < bd.1 ∨ x < bd.1 ∨ bd.2 < x)
    match d with
    | .s n =>
      let bd := c.bounds s 64 a b
      let v := c.g.sreg n.toNat
      if out bd v.toInt then s.userTrap c c.g { cause := 4, tmask := maskOf c.liveLanes, taddr := v.toNat }
      else s.done c (c.g.setSRime n.toNat (narrowed 64 bd (c.g.srime n.toNat)))
    | .x n =>
      let bd := c.bounds s 32 a b
      let bad := c.liveLanes.filter fun kj => out bd ((c.g.thread kj.1 kj.2).xreg n.toNat).toInt
      match bad with
      | kj :: _ =>
        s.userTrap c c.g { cause := 4, tmask := maskOf bad, taddr := sext64 32 ((c.g.thread kj.1 kj.2).xreg n.toNat).toNat }
      | [] =>
        s.done c (c.g.mapSlices c.st.slices fun _ sl =>
          if sl.isLive then sl.setRime n.toNat (narrowed 32 bd (sl.rime n.toNat)) else sl)
    | _ => s.encoding c

/-- The hull of a list of rimes; TOP of none. -/
def hullRimes : List Rime → Rime
  | [] => .top
  | r :: rs => rs.foldl Rime.hull r

/-- RIMEGET: a rime into two s registers (07 R192). Slices 8 to 15 exist in a width-64 pair only. -/
def execRimeget (d : Dst) (a b : Src) (s : State) : Host.Outcome State Fault Refusal :=
  instr s (fun c => Accept.rimeget d a b &&
      (match b with
       | .imm k => decide (k.toNat < 8) || decide ((s.tmplOf c.g).width = 3)
       | _ => true)) [d] [a] fun c =>
    if c.gate then
      let r : Rime :=
        match a, b with
        | .s n, _ => c.g.srime n.toNat
        | .x n, .imm k => if (c.g.slice k.toNat).isLive then (c.g.slice k.toNat).rime n.toNat else .top
        | .x n, _ => hullRimes ((c.st.slices.filter fun k => (c.g.slice k).isLive).map fun k => (c.g.slice k).rime n.toNat)
        | _, _ => .top
      let (lo, hi) := r.record
      match d with
      | .s n => s.done c ((c.g.setS n.toNat (w64 lo) (exact64 (w64 lo))).setS (n.toNat + 1) (w64 hi) (exact64 (w64 hi)))
      | _ => s.encoding c
    else s.skip c

end Sys2Proof.Machine
end

