-- ==== Sys2Proof/Machine/Mem.lean ====
section
/-! DEFINITION. Memory: the physical map, management registers, bytes of every space, writes and what they undo,
page walks and translation caches, copy-on-write, page pools, near lines, a gang's accesses in flight
(09, 10, 11, 16 R397 to R399). -/

namespace Sys2Proof.Machine

open Sys2Proof

/-- Threads a state through a list, stopping at the first failure. -/
def foldE {σ α β ε : Type} (f : σ → α → Except ε (σ × β)) : σ → List α → Except ε (σ × List β)
  | s, [] => .ok (s, [])
  | s, a :: l =>
    match f s a with
    | .error e => .error e
    | .ok (s', b) =>
      match foldE f s' l with
      | .error e => .error e
      | .ok (s'', bs) => .ok (s'', b :: bs)

/-- The same, keeping the state that the failing step found. -/
def foldTry {σ α β ε : Type} (f : σ → α → Except ε (σ × β)) : σ → List α → σ × Except ε (List β)
  | s, [] => (s, .ok [])
  | s, a :: l =>
    match f s a with
    | .error e => (s, .error e)
    | .ok (s', b) =>
      match foldTry f s' l with
      | (s'', .error e) => (s'', .error e)
      | (s'', .ok bs) => (s'', .ok (b :: bs))

/-! ## Management registers (18 R443, R444) -/

namespace Mgmt
def astbase : Nat := 0x1000
def tinvaddr : Nat := 0x1008
def tinvctl : Nat := 0x1010
def lttbase : Nat := 0x1018
def cttbase : Nat := 0x1020
def fqbase : Nat := 0x1040
def fqcons : Nat := 0x1050
def fqrval : Nat := 0x1060
def savebase : Nat := 0x1090
def groupcfg : Nat := 0x1100
def ringtmo : Nat := 0x1108
def ringcfg (r : Nat) : Nat := 0x1140 + 8 * r
def linkmap (g : Nat) : Nat := 0x1200 + 8 * g
def drvtab (n : Nat) : Nat := 0x1400 + 32 * n
def powerctl : Nat := 0x1A00
def fr (d i : Nat) : Nat := 0x100000 * d + 32 * i
def ppbase (h : Nat) : Nat := 0x100000 * (h / 3) + 0x200 + 0x20 * (h % 3)
def ppcount (h : Nat) : Nat := ppbase h + 8
def eccstat (d k : Nat) : Nat := 0x100000 * d + 0x300 + 8 * k
def firnbase (c : Nat) : Nat := 0x400000 + 0x1000 * c
def spillbase (c : Nat) : Nat := firnbase c + 8
def wdlimit (c : Nat) : Nat := firnbase c + 16
end Mgmt

/-- Reset value of a management register (R444): RINGTMO 2^24, LINKMAP no port, all others zero (DESIGN CHOICE, log 4). -/
def mgmtReset (off : Nat) : W64 :=
  if off = Mgmt.ringtmo then 0x1000000 else if 0x1200 ≤ off ∧ off < 0x1400 then 0x1F else 0

def State.mg (s : State) (off : Nat) : Nat := (Sparse.get (mgmtReset off) s.mgmt off).toNat

def State.setMg (s : State) (off : Nat) (v : Nat) : State :=
  { s with mgmt := Sparse.set (mgmtReset off) s.mgmt off (w64 v) }

/-! ## The physical map (10 R256, 18 R439) -/

inductive Region where
  | hbm (pa : Nat)
  | window (off : Nat)
  | remote (member off : Nat)
  | host
  | reserved
  deriving DecidableEq, Repr

def State.member (s : State) : Nat := s.mg Mgmt.groupcfg % 64

def State.region (s : State) (pa : Nat) : Region :=
  if pa < Config.localHbm then .hbm pa
  else if pa < 2 ^ 46 then .reserved
  else if pa < 2 ^ 47 then
    let g := (pa - 2 ^ 46) / 2 ^ 40
    let off := pa % 2 ^ 40
    if g = s.member then (if off < Config.localHbm then .hbm off else .window off) else .remote g off
  else if pa < 2 ^ 50 then .reserved
  else if pa < 2 ^ 51 then .host
  else .reserved

/-- A physical address with the alias of local HBM taken away (R256). -/
def State.norm (s : State) (pa : Nat) : Nat :=
  match s.region pa with
  | .hbm p => p
  | _ => pa

/-- Whether the port that LINKMAP names for a member is up (18 R438) (DESIGN CHOICE, log 40). -/
def State.reachable (s : State) (member : Nat) : Bool :=
  let p := s.mg (Mgmt.linkmap member) % 32
  match s.links[p]? with
  | some l => l.up
  | none => false

/-! ## The launch window as memory (05 R130 to R132) -/

/-- Launches of queue q that are accepted and not started. -/
def State.pendingOf (s : State) (q : Nat) : Nat :=
  (s.pendings.filter fun p => decide (p.queue = some q)).length +
    (s.bulk.filter fun b => decide (b.queue = q) && !b.started).length

def Queue.cfg (q : Queue) : Nat := q.prio + (if q.preempt then 64 else 0) + (if q.enable then 128 else 0)

/-- LQCFG and LQSTAT of queue q. -/
def State.lqcfg (s : State) (q : Nat) : Nat := (s.queues.getD q Queue.fresh).cfg
def State.lqstat (s : State) (q : Nat) : Nat := (s.queues.getD q Queue.fresh).started % 2 ^ 32 * 2 ^ 32 + s.pendingOf q

def State.setLqcfg (s : State) (q v : Nat) : State :=
  { s with queues := modifyAt (fun x => { x with enable := bitOf v 7, preempt := bitOf v 6, prio := v % 4 }) q s.queues }

/-- A byte of this package's own window at or above 0xC0_0000_0000 (18 R439). -/
def State.windowByte (s : State) (off : Nat) : Byte :=
  let o := off - 0xFF00000000
  if off < 0xFF00002000 ∨ 0xFF00002400 ≤ off then 0
  else
    let r := (o - 0x2000) / 8
    let v := if r < 64 then s.lqcfg r else s.lqstat (r - 64)
    BitVec.ofNat 8 (v / 2 ^ (8 * (o % 8)))

/-! ## Bytes -/

/-- What an unlisted byte of memory reads as (DESIGN CHOICE, log 3). -/
def memDefault : Byte := 0

/-- Memory's canonical form: addresses strictly rising, no cell equal to what an unlisted address reads as. -/
def Memory.wf (m : List Host.Cell) : Bool := Sparse.wf memDefault m

def State.physByte (s : State) (pa : Nat) : Byte :=
  match s.region pa with
  | .window off => s.windowByte off
  | .remote _ off => if off < Config.localHbm then Sparse.get memDefault s.mem pa else 0
  | _ => Sparse.get memDefault s.mem (s.norm pa)

def Team.byte (t : Team) (off : Nat) : Byte := Sparse.get 0 t.scratch off

/-- A byte of a near line that its thread has written; any other byte of it is the backing's (09 R234). -/
def NearLine.own (n : NearLine) (i : Nat) : Option Byte := if n.written.contains i then n.data[i]? else none

/-- Where a byte of a near line that its thread has not written stands. -/
def State.nearBacking (s : State) (gang thread off : Nat) : Place :=
  match s.near.find? fun n => decide (n.1 = (gang, thread, off / 128)) with
  | some n => if (n.2.own (off % 128)).isSome then .near gang thread off else .phys (n.2.pa + off % 128)
  | none => .near gang thread off

def State.nearByte (s : State) (gang thread off : Nat) : Byte :=
  match s.near.find? fun n => decide (n.1 = (gang, thread, off / 128)) with
  | some n => (n.2.own (off % 128)).getD (s.physByte (n.2.pa + off % 128))
  | none => 0

def State.byteAt (s : State) : Place → Byte
  | .phys pa => s.physByte pa
  | .scratch t off =>
    match s.teamByKey? t with
    | some tm => tm.byte off
    | none => 0
  | .near g t off => s.nearByte g t off
  | .chip a => Sparse.get 0 s.chip a

def State.setByte (s : State) (p : Place) (b : Byte) : State :=
  match p with
  | .phys pa =>
    match s.region pa with
    | .remote _ off => if off < Config.localHbm then { s with mem := Sparse.set memDefault s.mem pa b } else s
    | _ => { s with mem := Sparse.set memDefault s.mem (s.norm pa) b }
  | .scratch t off =>
    { s with teams := s.teams.map fun tm => if tm.key = t then { tm with scratch := Sparse.set 0 tm.scratch off b } else tm }
  | .near g t off =>
    { s with near := s.near.map fun n =>
        if n.1 = (g, t, off / 128) then
          (n.1, { n.2 with written := if n.2.written.contains (off % 128) then n.2.written else n.2.written ++ [off % 128]
                           data := modifyAt (fun _ => b) (off % 128) n.2.data })
        else n }
  | .chip a => { s with chip := Sparse.set 0 s.chip a b }

/-- `n` bytes of physical memory, little-endian. -/
def State.readPhys (s : State) (pa n : Nat) : Nat := ofLe ((List.range n).map fun i => s.physByte (pa + i))

/-- Plain bytes put into physical memory with no other effect: device tables, records the hardware itself keeps. -/
def State.pokePhys (s : State) (pa : Nat) (bs : List Byte) : State :=
  (mapI (fun i b => (i, b)) 0 bs).foldl (fun s ib => s.setByte (.phys (pa + ib.1)) ib.2) s

/-! ## Lines -/

/-- The first byte of the 128-byte line of a place. -/
def Place.line : Place → Place
  | .phys pa => .phys (pa / 128 * 128)
  | .scratch t off => .scratch t (off / 128 * 128)
  | .near g t off => .near g t (off / 128 * 128)
  | .chip a => .chip (a / 128 * 128)

def Place.plus : Place → Nat → Place
  | .phys pa, n => .phys (pa + n)
  | .scratch t off, n => .scratch t (off + n)
  | .near g t off, n => .near g t (off + n)
  | .chip a, n => .chip (a + n)

def State.lineBytes (s : State) (p : Place) : List Byte := (List.range 128).map fun i => s.byteAt (p.line.plus i)

/-- The Z flag of a line: every byte is zero (09 R240, R242). -/
def State.lineZ (s : State) (p : Place) : Bool := (s.lineBytes p).all fun b => decide (b = 0)

/-- Pending writers of a scratch line (09 R240). -/
def State.lineP (s : State) (p : Place) : Nat :=
  match p with
  | .scratch t off =>
    match s.teamByKey? t with
    | some tm => Sparse.get 0 tm.pending (off / 128)
    | none => 0
  | _ => 0

/-- Full exactly when no writer is pending (09 R240). -/
def State.lineF (s : State) (p : Place) : Bool := decide (s.lineP p = 0)

def State.setLineP (s : State) (p : Place) (n : Nat) : State :=
  match p with
  | .scratch t off =>
    { s with teams := s.teams.map fun tm =>
        if tm.key = t then { tm with pending := Sparse.set 0 tm.pending (off / 128) n } else tm }
  | _ => s

def State.armLine (s : State) (p : Place) : State := s.setLineP p (s.lineP p + 1)
def State.landLine (s : State) (p : Place) : State := s.setLineP p (s.lineP p - 1)

/-! ## Reports (17 R429, R430) -/

/-- A report not tied to a core. -/
def packageReport (kind reason addr arg asid : Nat) : Report :=
  { info := { kind := kind, reason := reason, flags := 0, pc := 0, addr := addr, va := 0, word := 0, arg := arg }
    order := 0, part := 0, core := 0xFFFF, asid := asid, grid := 0, team := 0, gang := 0 }

/-- A discarded aperture store (05 R133, 18 R439). -/
def State.apertureReport (s : State) (off : Nat) : State := s.report (packageReport 0x10 0 (off % 2 ^ 40) 0 0)

/-- A store from inside the package to its own window: one of exactly 64 bytes to a launch line, a copy-template line or
the attestation line goes to the package event arbiter; LQCFG takes 8-byte stores; LQSTAT and the reserved offsets
ignore them, and so does LQCFG a store of another width (DESIGN CHOICE, log 104); everything else is an APERTURE report
(05 R130, R133; 18 R439). -/
def State.windowStore (s : State) (die off : Nat) (bs : List Byte) : State :=
  let o := off - 0xFF00000000
  if 0xFF00000000 ≤ off ∧ (o < 0x2000 ∨ o = 0x4000) ∧ o % 64 = 0 ∧ bs.length = 64 then { s with windowQ := s.windowQ ++ [(die, off, bs)] }
  else if off < 0xFF00002000 ∨ 0xFF00004000 ≤ off then s.apertureReport off
  else if o < 0x2200 ∧ o % 8 = 0 ∧ bs.length = 8 then s.setLqcfg ((o - 0x2000) / 8) (ofLe bs)
  else s

/-! ## Writes and what they undo (10 R258, R261, R267, R282) -/

/-- Whether `t` lists a place of the line `l` written by another than `keep`. -/
def clears (ws : List Write) (l : Place) (keep : Option Nat) : Bool :=
  ws.any fun w => decide (w.place.line = l) && (match keep with
    | some k => decide (w.thread ≠ k)
    | none => true)

/-- Reservations lost to writes: another agent's, another strand's or another thread's (10 R282). -/
def State.loseReservations (s : State) (gid : Option Nat) (ws : List Write) : State :=
  { s with gangs := s.gangs.map fun g =>
      g.mapThreads (List.range g.slices.length) fun k j t =>
        match t.reservation with
        | none => t
        | some l =>
          if clears ws l (if gid = some g.gid then some (4 * k + j) else none) then { t with reservation := none } else t }

def linesOf (ws : List Write) : List Place := (ws.map fun w => w.place.line).eraseDups

/-- Whether the writes cover the whole line. -/
def coversLine (ws : List Write) (l : Place) : Bool :=
  (List.range 128).all fun i => ws.any fun w => decide (w.place = l.plus i)

/-- A write at the home slice: a counted line becomes ordinary, a poisoned line written whole is clean, copies that
other members hold are invalidated (DEDUCED, log 35). -/
def State.touchLine (s : State) (ws : List Write) (l : Place) : State :=
  match l with
  | .phys pa =>
    let n := s.norm pa / 128
    { s with
      counted := s.counted.erase n
      poison := if coversLine ws l then s.poison.filter (fun x => x ≠ n) else s.poison
      copies := s.copies.filter fun c => c.1 ≠ n }
  | .scratch t off =>
    if coversLine ws l then { s with damaged := s.damaged.filter (fun d => d ≠ .scratch t (off / 128)) } else s
  | _ => s

/-- Whether a byte lies in a scratch line that an uncorrectable error has spoilt (18 R454). -/
def State.spoilt (s : State) (p : Place) : Bool :=
  match p with
  | .scratch t off => s.damaged.contains (.scratch t (off / 128))
  | _ => false

/-- The stores among `ws` that go to the own package's window: each thread's run of bytes is one store (DEDUCED, log 76). -/
def State.windowRuns (s : State) : List Write → List (Nat × Nat × List Byte)
  | [] => []
  | w :: l =>
    match w.place with
    | .phys pa =>
      match s.region pa with
      | .window off =>
        match s.windowRuns l with
        | (th, o, bs) :: rest =>
          if th = w.thread ∧ o = off + 1 then (th, off, w.byte :: bs) :: rest else (w.thread, off, [w.byte]) :: (th, o, bs) :: rest
        | [] => [(w.thread, off, [w.byte])]
      | _ => s.windowRuns l
    | _ => s.windowRuns l

def State.isWindow (s : State) (p : Place) : Bool :=
  match p with
  | .phys pa =>
    match s.region pa with
    | .window _ => true
    | _ => false
  | _ => false

/-- Writes performed: bytes, lines, reservations. `gid` is the gang whose threads write, none for an engine, the host
or a peer. -/
def State.performWrites (s : State) (gid : Option Nat) (ws : List Write) : State :=
  let plain := ws.filter fun w => !s.isWindow w.place
  let die := match gid.bind s.gang? with
    | some g => g.core / 384
    | none => 0
  let s1 := (s.windowRuns ws).foldl (fun s r => s.windowStore die r.2.1 r.2.2) s
  let s2 := (linesOf plain).foldl (fun s l => s.touchLine plain l) s1
  let s3 := plain.foldl (fun s w => s.setByte w.place w.byte) s2
  s3.loseReservations gid plain

/-- Bytes as writes of no thread. -/
def physWrites (pa : Nat) (bs : List Byte) : List Write :=
  mapI (fun i b => { place := .phys (pa + i), byte := b, thread := 0 }) 0 bs

/-- What a write of the hardware's own to whole or partial lines undoes: counted lines become ordinary, copies of other
members and reservations go, poison goes from the lines in `whole` (10 R258, R261, R267, R282; 18 R445). -/
def State.wroteLines (s : State) (lines whole : List Nat) : State :=
  let hit (r : Option Place) : Bool := match r with
    | some (.phys pa) => lines.contains (pa / 128)
    | _ => false
  { s with
    counted := s.counted.filter fun c => !lines.contains c.1
    copies := s.copies.filter fun c => !lines.contains c.1
    poison := s.poison.filter fun l => !whole.contains l
    gangs := s.gangs.map fun g =>
      if g.slices.any fun sl => sl.threads.any fun t => hit t.reservation then
        g.mapThreads (List.range g.slices.length) fun _ _ t => if hit t.reservation then { t with reservation := none } else t
      else g }

/-- Bytes that the hardware writes into a table or a list in local HBM, within one line. -/
def State.writePhys (s : State) (pa : Nat) (bs : List Byte) : State := (s.wroteLines [s.norm pa / 128] []).pokePhys pa bs

/-- A counted line dropped: a write of its pre-image (10 R261, 11 R290). -/
def State.dropCounted (s : State) (line : Nat) : State :=
  match s.counted.find? fun c => decide (c.1 = line) with
  | none => s
  | some (_, c) => (s.wroteLines [line] [line]).pokePhys (128 * line) c.pre

/-- The lines of a STRC counted, with the pre-image they had (10 R261, R286). -/
def State.countLines (s : State) (gid n : Nat) (ws : List Write) (pre : List (Nat × List Byte)) : State :=
  pre.foldl (fun s lp => { s with counted := s.counted.insert lp.1 { count := n, pre := lp.2 } }) (s.performWrites (some gid) ws)

/-! ## Page tables (10 R268 to R271) -/

def State.astRecord (s : State) (asid : Nat) : Nat := s.mg Mgmt.astbase + 64 * asid

/-- A valid address-space record (10 R268). One whose reserved bytes or ROOT bits 4:0 are not zero counts as invalid, for the
choice of a launch's address space too (DESIGN CHOICE, log 103). -/
def State.astOk (s : State) (asid : Nat) : Bool :=
  let a := s.astRecord asid
  decide (s.readPhys (a + 16) 1 = 1) && decide (s.readPhys a 8 % 32 = 0) && decide (s.readPhys (a + 17) 47 = 0)

def State.privbase (s : State) (asid : Nat) : Nat := s.readPhys (s.astRecord asid + 8) 8

def leafOk (e : Nat) : Bool :=
  decide (field e 53 52 = 0) && decide (field e 11 8 = 0) && (decide (field e 15 12 < 12) || decide (field e 15 12 = 15))

/-- A walk: entry address, leaf entry, whether the page is of 512 MiB; none where it meets no valid entry. -/
def State.walk (s : State) (asid va : Nat) : Option (Nat × Nat × Bool) :=
  if !s.astOk asid then none
  else
    let a0 := s.readPhys (s.astRecord asid) 8 + 8 * field va 56 55
    let e0 := s.readPhys a0 8
    if !bitOf e0 0 || bitOf e0 7 then none
    else
      let a1 := field e0 51 16 * 2 ^ 16 + 8 * field va 54 42
      let e1 := s.readPhys a1 8
      if !bitOf e1 0 || bitOf e1 7 then none
      else
        let a2 := field e1 51 16 * 2 ^ 16 + 8 * field va 41 29
        let e2 := s.readPhys a2 8
        if !bitOf e2 0 then none
        else if bitOf e2 7 then
          if field e2 28 16 = 0 ∧ leafOk e2 = true then some (a2, e2, true) else none
        else
          let a3 := field e2 51 16 * 2 ^ 16 + 8 * field va 28 16
          let e3 := s.readPhys a3 8
          if bitOf e3 0 && leafOk e3 then some (a3, e3, false) else none

/-! ## Translation caches (10 R274 to R276) -/

def pageOf (big : Bool) (va : Nat) : Nat := if big then va / 2 ^ 29 else va / 2 ^ 16

def TlbEntry.hits (e : TlbEntry) (holder asid va : Nat) : Bool :=
  decide (e.holder = holder) && (decide (e.asid = asid) || bitOf e.leaf 5) && decide (e.page = pageOf e.big va)

/-- The physical address that a leaf maps `va` to. -/
def leafPa (big : Bool) (leaf va : Nat) : Nat :=
  if big then field leaf 51 29 * 2 ^ 29 + va % 2 ^ 29 else field leaf 51 16 * 2 ^ 16 + va % 2 ^ 16

/-- Physical address of `va` through the entry. -/
def TlbEntry.pa (e : TlbEntry) (va : Nat) : Nat := leafPa e.big e.leaf va

/-- The holder number of a core's base-die cache. -/
def baseHolder (core : Nat) : Nat := 4096 + core / 384

/-- Entry put into a cache; the oldest of a full cache leaves it (DESIGN CHOICE, log 13). -/
def State.tlbAdd (s : State) (e : TlbEntry) : State :=
  let cap := if e.holder < 4096 then 256 else 16384
  let mine := s.tlb.filter fun x => x.holder = e.holder
  let tlb := if mine.length < cap then s.tlb else
    match mine with
    | [] => s.tlb
    | old :: _ => s.tlb.erase old
  { s with tlb := tlb ++ [e] }

/-- The translation an access of `core` uses: its own cache, its base die's, a walk that fills both. -/
def State.translate (s : State) (core asid va : Nat) : Option (TlbEntry × State) :=
  match s.tlb.find? fun e => e.hits core asid va with
  | some e => some (e, s)
  | none =>
    match s.tlb.find? fun e => e.hits (baseHolder core) asid va with
    | some e => let e' := { e with holder := core }; some (e', s.tlbAdd e')
    | none =>
      match s.walk asid va with
      | none => none
      | some (a, leaf, big) =>
        let e : TlbEntry :=
          { holder := core, asid := asid, page := pageOf big va, big := big, leaf := leaf, entry := a, touched := field leaf 57 54 }
        some (e, (s.tlbAdd { e with holder := baseHolder core }).tlbAdd e)

/-- The touch bit of the core's base die set in the page's entry, once for as long as it is cached (07 R199, R274) (DEDUCED, log 93). -/
def State.touch (s : State) (core asid va : Nat) (e : TlbEntry) : State :=
  let d := core / 384
  if bitOf e.touched d then s
  else
    let old := s.readPhys e.entry 8
    let s := s.writePhys e.entry (leBytes 8 (old ||| 2 ^ (54 + d)))
    { s with tlb := s.tlb.map fun x =>
        if x.hits core asid va || x.hits (baseHolder core) asid va then { x with touched := x.touched ||| 2 ^ d } else x }

def State.dropTranslation (s : State) (asid va : Nat) : State :=
  { s with tlb := s.tlb.filter fun e => !(e.hits e.holder asid va) }

/-! ## Page pools and page copies (16 R398, R399) -/

/-- DEDUCED, log 44. -/
def State.poolValid (s : State) (h : Nat) : Bool := bitOf (s.mg (Mgmt.ppbase h)) 0
def State.poolBase (s : State) (h : Nat) : Nat := field (s.mg (Mgmt.ppbase h)) 51 16 * 2 ^ 16
def State.poolCount (s : State) (h : Nat) : Nat := s.mg (Mgmt.ppcount h)

def State.poolPop (s : State) (h : Nat) : Option (Nat × State) :=
  let n := s.poolCount h
  if s.poolValid h && decide (0 < n) then
    some (s.readPhys (s.poolBase h + 8 * (n - 1)) 8, s.setMg (Mgmt.ppcount h) (n - 1))
  else none

def State.notePush (s : State) (h : Nat) : State := { s with pushed := if s.pushed.contains h then s.pushed else s.pushed ++ [h] }

/-- A page pushed onto the pool of stack h, which the rounds that wait for that pool will see; a POOL report where it
cannot be. -/
def State.poolPush (s : State) (h page : Nat) : State :=
  let n := s.poolCount h
  if s.poolValid h && decide (n < 2 ^ 20) && decide (page / 2 ^ 36 = h) && decide (page % 2 ^ 16 = 0) then
    (s.writePhys (s.poolBase h + 8 * n) (leBytes 8 page)).setMg (Mgmt.ppcount h) (n + 1) |>.notePush h
  else s.report (packageReport 0x12 0 page 0 0)

/-- The stack whose pool serves a copy of the page of a leaf (10 R274, 16 R398). -/
def leafStack (leaf : Nat) : Nat := if field leaf 15 12 = 15 then field leaf 51 36 else field leaf 15 12

/-- 64 KiB copied from page to page, poison with it. -/
def State.copyPage (s : State) (src dst : Nat) : State :=
  let moved := (s.mem.filter fun c => decide (src ≤ c.1 ∧ c.1 < src + 65536)).map fun c => (c.1 - src + dst, c.2)
  let kept := s.mem.filter fun c => !decide (dst ≤ c.1 ∧ c.1 < dst + 65536)
  let lines := (List.range 512).map (dst / 128 + ·)
  let s := s.wroteLines lines lines
  { s with
    mem := moved.foldl (fun (m : Sparse Byte) c => Sparse.insert m c.1 c.2) kept
    poison := s.poison ++ (s.poison.filter fun l => l / 512 = src / 65536).map fun l => l - src / 128 + dst / 128 }

/-- The population grid whose window leaf maps `va` under `asid`, and its slots (10 R273, 16 R397) (DEDUCED, log 43). -/
def State.windowGrid (s : State) (asid va : Nat) : Option Nat :=
  (s.grids.filterMap fun G =>
    match G.pop with
    | some P =>
      if G.tmpl.asid = asid ∧ s.privbase asid ≤ va ∧ va < s.privbase asid + 65536 * P.slots then some P.slots else none
    | none => none).head?

/-- A leaf's page, COW and REFS changed. -/
def withPage (leaf page : Nat) (cow : Bool) (refs : Nat) : Nat :=
  let e := leaf - field leaf 51 16 * 2 ^ 16 - field leaf 63 58 * 2 ^ 58 - (if bitOf leaf 6 then 64 else 0)
  e + page / 2 ^ 16 * 2 ^ 16 + (if cow then 64 else 0) + refs % 64 * 2 ^ 58

def pageAddr (leaf : Nat) : Nat := field leaf 51 16 * 2 ^ 16

/-- The window leaves, of slots below `slots`, that map `page` with COW = 1: entry address and entry. -/
def State.sharers (s : State) (asid slots page : Nat) : List (Nat × Nat) :=
  (List.range slots).filterMap fun p =>
    match s.walk asid (s.privbase asid + 65536 * p) with
    | some (a, e, false) => if bitOf e 6 && decide (pageAddr e = page) then some (a, e) else none
    | _ => none

/-- One window leaf fewer maps `page`: REFS falls in those that remain; a last one owns the page (16 R399 step 3). -/
def State.lowerRefs (s : State) (asid slots page : Nat) : State :=
  let l := s.sharers asid slots page
  l.foldl (fun s ae =>
    let e' := if l.length = 1 then withPage ae.2 page false 0 else withPage ae.2 page true (field ae.2 63 58 - 1)
    s.writePhys ae.1 (leBytes 8 e')) s

/-- What a failing access says: KIND and REASON of its record, the virtual address, and what ADDR of the record shows
(17 R427, R429). -/
structure Fail where
  kind : Nat
  reason : Nat
  addr : Nat
  shown : Nat
  deriving DecidableEq, Repr

/-- The fault record's fields for a failing access of an instruction. -/
def Ctx.failInfo (c : Ctx) (f : Fail) : FaultInfo := { c.info f.kind f.reason f.shown 0 with va := f.addr }

/-- Copy-on-write resolved for a write to `va` (16 R399), one indivisible step. -/
def State.cowResolve (s : State) (asid va slots : Nat) : Except Fail State :=
  match s.walk asid va with
  | some (a, leaf, _) =>
    if !bitOf leaf 6 then .ok (s.dropTranslation asid va)
    else
      match s.poolPop (leafStack leaf) with
      | none => .error ⟨1, 1, va, va⟩
      | some (page, s) =>
        let s := s.copyPage (pageAddr leaf) page
        let s := s.writePhys a (leBytes 8 (withPage leaf page false 0))
        .ok ((s.lowerRefs asid slots (pageAddr leaf)).dropTranslation asid va)
  | none => .error ⟨1, 0, va, va⟩

/-! ## One access of device memory (10 R256, R267, R269, R272, R273) -/

/-- The checks a physical address meets: reserved ranges, unreachable members, poison (DESIGN CHOICE, log 36). -/
def State.physOk (s : State) (rd : Bool) (va pa : Nat) : Except Fail Unit :=
  match s.region pa with
  | .reserved => .error ⟨2, 0, va, va⟩
  | .remote g _ => if s.reachable g then .ok () else .error ⟨4, 2, va, va⟩
  | .hbm p => if rd && s.poison.contains (p / 128) then .error ⟨5, 0, va, p / 128 * 128⟩ else .ok ()
  | _ => .ok ()

/-- The home L2 slice of a line of local HBM (10 R257). -/
def homeSlice (p : Nat) : Nat :=
  64 * (p / 2 ^ 36 / 3) + xorNat (field p 12 7) (xorNat (field p 18 13) (xorNat (field p 24 19) (xorNat (field p 30 25) (field p 35 31))))

/-- The physical address that the mapping that stands gives. -/
def State.paOf (s : State) (asid va : Nat) : Option Nat := (s.walk asid va).map fun w => s.norm (leafPa w.2.2 w.2.1 va)

/-- An access reaches the line of local HBM at `pa`: L2 holds it since the fill that brought it, or it has left the L2 and
is filled now. A fill takes its scales from the format regions that stand then (10 R264; DESIGN CHOICE, log 62). -/
def State.noteFill (s : State) (pa : Nat) : State :=
  let now := s.regions.length + 1
  let held := Sparse.get 0 s.joins (pa / 128)
  let fill : State := { s with joins := Sparse.set 0 s.joins (pa / 128) now }
  if Config.localHbm ≤ pa ∨ held = now then s
  else if held = 0 then fill
  else if Config.freeValue s.free % 2 = 0 then { s with free := s.free + 1 }
  else { fill with free := s.free + 1 }

/-- The physical address of one naturally aligned piece of an access at `va`, copy-on-write done, the page touched
where `touching` says so (07 R199). The answer names local HBM by its own addresses, also where the access came through
the package's own member window (10 R256). -/
def State.accessWith (s : State) (touching : Bool) (core asid va : Nat) (rd wr : Bool) : Except Fail (State × Nat) :=
  let found (s : State) (e : TlbEntry) : Except Fail (State × Nat) :=
    match s.physOk rd va (e.pa va) with
    | .error f => .error f
    | .ok _ => .ok ((if touching then s.touch core asid va e else s).noteFill (s.norm (e.pa va)), s.norm (e.pa va))
  if 2 ^ 57 ≤ va then .error ⟨1, 2, va, va⟩
  else
    match s.translate core asid va with
    | none => .error ⟨1, 0, va, va⟩
    | some (e, s1) =>
      let leaf := e.leaf
      if !bitOf leaf 4 || (rd && !bitOf leaf 1) then .error ⟨2, 0, va, va⟩
      else if wr && bitOf leaf 6 then
        match s1.windowGrid asid va, e.big with
        | some slots, false =>
          if !bitOf leaf 2 then .error ⟨2, 0, va, va⟩
          else
            match s1.cowResolve asid va slots with
            | .error f => .error f
            | .ok s2 =>
              match s2.translate core asid va with
              | none => .error ⟨1, 0, va, va⟩
              | some (e2, s3) => found s3 e2
        | _, _ => .error ⟨2, 1, va, va⟩
      else if wr && !bitOf leaf 2 then .error ⟨2, 0, va, va⟩
      else found s1 e

/-- An access on behalf of a gang. -/
def State.access (s : State) (core asid va : Nat) (rd wr : Bool) : Except Fail (State × Nat) :=
  s.accessWith true core asid va rd wr

/-- Bytes of device memory read for the hardware on behalf of a gang, in pieces of 16 aligned bytes. -/
def State.readVirt (s : State) (core asid va n : Nat) : Except Fail (State × List Byte) :=
  let o := va % 16
  match foldE (fun s i =>
      match s.access core asid (va - o + 16 * i) true false with
      | .error f => .error f
      | .ok (s', pa) => .ok (s', (List.range 16).map fun j => s'.physByte (pa + j))) s
      (List.range ((n + o + 15) / 16)) with
  | .error f => .error f
  | .ok (s', bs) => .ok (s', (bs.flatten.drop o).take n)

/-! ## What a thread reads before its stores are performed (09 R250; 11 R291) -/

def meets (a b : List Nat) : Bool := a.any fun k => b.contains k

/-- Whether gang `g` lies in the instance of scope `scope` seen from gang `o` (11 R293). -/
def sameScope (scope : Nat) (o g : Gang) : Bool :=
  match scope with
  | 0 => decide (o.gid = g.gid)
  | 1 => decide (o.grid = g.grid) && decide (o.team = g.team)
  | 2 => decide (o.core / Config.coresPerCluster = g.core / Config.coresPerCluster)
  | _ => true

/-- The latest write to a place among the writes of some accesses. -/
def latest (as : List Access) (p : Place) : Option Byte :=
  ((as.reverse.flatMap fun a => a.writes.reverse).find? fun w => decide (w.place = p)).map fun w => w.byte

/-- The write to a place that has not reached every agent and that a scope instance of gang `g` already reads (11 R293). -/
def State.published (s : State) (g : Gang) (p : Place) : Option Byte :=
  s.gangs.findSome? fun o => latest (o.accesses.filter fun a => match a.seen with
    | some k => sameScope k o g
    | none => false) p

/-- The byte a gang's slices read at a place: their own latest store that is not performed yet, else one published to
them, else the place's (DESIGN CHOICE, log 86). -/
def State.readOwn (s : State) (g : Gang) (slices : List Nat) (p : Place) : Byte :=
  let p := match p with
    | .near h t off => s.nearBacking h t off
    | p => p
  match latest (g.accesses.filter fun a => meets a.slices slices) p with
  | some b => b
  | none => (s.published g p).getD (s.byteAt p)

/-! ## Near lines (09 R234) -/

/-- The near line written back to its backing: the bytes its thread has written. What an uncorrectable error has taken
from it poisons the line (18 R454). -/
def State.writeBackNear (s : State) (n : (Nat × Nat × Nat) × NearLine) : State :=
  let ws : List Write := n.2.written.map fun i => { place := .phys (n.2.pa + i), byte := n.2.data.getD i 0, thread := 0 }
  let s := if ws.isEmpty then s else s.performWrites none ws
  if n.2.spoilt && decide (n.2.written.length < 128) && decide (n.2.pa < Config.localHbm) && !s.poison.contains (n.2.pa / 128) then
    { s with poison := s.poison ++ [n.2.pa / 128] }
  else s

/-- Scratch ways that the teams of a core pin in each set at most (09 R235). -/
def State.pinnedWays (s : State) (core set : Nat) : Nat :=
  ((s.teams.filter fun t => t.core = core).map fun t =>
    (t.blocks.filter fun b => decide (b < 64) && decide (b / 16 = set / 32)).length).foldl (· + ·) 0

/-- Near lines of a core, least recently used first. -/
def State.nearOf (s : State) (core : Nat) : List ((Nat × Nat × Nat) × NearLine) :=
  s.near.filter fun n => match s.gang? n.1.1 with
    | some g => decide (g.core = core)
    | none => false

/-- The most ways that scratch pins in one set of a core. -/
def State.mostPinned (s : State) (core : Nat) : Nat := ((List.range 128).map (s.pinnedWays core)).foldl max 0

/-- Whether the set of a line holds fewer than 14 scratch ways, so that it takes near lines (DESIGN CHOICE, log 14). -/
def State.nearRoom (s : State) (core pa : Nat) : Bool :=
  decide (s.mostPinned core < 14) || decide (s.pinnedWays core (Config.nearSet pa % 128) < 14)

/-- A near line displaced: stores to it that are not performed yet are performed, then it is written back. -/
def State.displaceLine (s : State) (key : Nat × Nat × Nat) : State :=
  let inLine (w : Write) : Bool := match w.place with
    | .near g t off => decide ((g, t, off / 128) = key)
    | _ => false
  let ws := s.gangs.flatMap fun g => g.accesses.flatMap fun a => a.writes.filter inLine
  let s := ws.foldl (fun s w => s.setByte w.place w.byte) s
  let drop (a : Access) : Access := { a with writes := a.writes.filter fun w => !inLine w }
  let s := if ws.isEmpty then s else { s with gangs := s.gangs.map fun g => { g with accesses := g.accesses.map drop } }
  let s := (s.near.filter fun n => n.1 = key).foldl State.writeBackNear s
  { s with near := s.near.filter fun n => n.1 ≠ key }

/-- Sets of a core that hold more than 14 pinned ways displace their least recently used near lines. The set of a line is
not stated: while 14 ways cannot meet in one set nothing is displaced, else `Config.nearSet` says which set a line is in. -/
def State.trimNear (s : State) (core : Nat) : State :=
  let mine := s.nearOf core
  if mine.length + s.mostPinned core ≤ 14 then s
  else
    let sets := (mine.map fun n => Config.nearSet n.2.pa % 128).eraseDups
    let out := sets.flatMap fun set =>
      let here := mine.filter fun n => decide (Config.nearSet n.2.pa % 128 = set)
      here.take (here.length + s.pinnedWays core set - 14)
    out.foldl (fun s n => s.displaceLine n.1) s

/-- A near line made the most recently used of the list. -/
def State.nearUse (s : State) (key : Nat × Nat × Nat) : State :=
  { s with near := (s.near.filter fun n => n.1 ≠ key) ++ (s.near.filter fun n => n.1 = key) }

/-- The place of one piece of a private window at offset `off` of a thread whose window starts at `base`
(09 R233, R234): a near line, filled if need be, or the backing. A store uses the leaf as it stands: where that is marked
for copy-on-write, the copy is made first and the thread's near lines of the page are bound to it. -/
def State.privatePlace (s : State) (g : Gang) (asid base thread off : Nat) (wr : Bool) : Except Fail (State × Place) :=
  let va := base + off
  let backing (s : State) : Except Fail (State × Place) :=
    match s.access g.core asid va (!wr) wr with
    | .error f => .error f
    | .ok (s', pa) => .ok (s', .phys pa)
  let cow := wr && (match s.walk asid va with
    | some (_, leaf, _) => bitOf leaf 6
    | none => false)
  if 1024 ≤ off then backing s
  else
    let key := (g.gid, thread, off / 128)
    let s := if cow then s.dropTranslation asid va else s
    let rebind (pa : Nat) (m : (Nat × Nat × Nat) × NearLine) : (Nat × Nat × Nat) × NearLine :=
      if m.1.1 = g.gid ∧ m.1.2.1 = thread then (m.1, { m.2 with pa := pa / 65536 * 65536 + m.2.pa % 65536 }) else m
    match s.near.find? fun n => decide (n.1 = key) with
    | some n =>
      if cow then
        match s.access g.core asid va false true with
        | .error f => .error f
        | .ok (s', pa) => .ok (({ s' with near := s'.near.map (rebind pa) }).nearUse key, .near g.gid thread off)
      else if !wr && decide (n.2.written.length < 128) && (n.2.spoilt || s.poison.contains (n.2.pa / 128)) then
        .error ⟨5, 0, va, n.2.pa⟩
      else .ok (s.nearUse key, .near g.gid thread off)
    | none =>
      match s.access g.core asid va (!wr) wr with
      | .error f => .error f
      | .ok (s1, pa) =>
        let s1 := if cow then { s1 with near := s1.near.map (rebind pa) } else s1
        if !s1.nearRoom g.core (pa / 128 * 128) then .ok (s1, .phys pa)
        else
          let line : NearLine := { pa := pa / 128 * 128, written := [], spoilt := false, data := List.replicate 128 0 }
          .ok ({ s1 with near := s1.near ++ [(key, line)] }, .near g.gid thread off)

/-! ## A gang's accesses in flight (09 R250, R251; 11 R291, R292; 12 R308) -/

/-- Before the gang writes the places `ws`, each of its tile operations that has still to read one of their lines of
the team's scratchpad keeps what the line held (13 R342). -/
def State.snapReads (s : State) (gid : Nat) (ws : List Write) : State :=
  match s.gang? gid with
  | none => s
  | some g =>
    if g.tileOps.all fun o => o.done || o.lines.isEmpty then s
    else
      let key := match s.team? g.grid g.team with
        | some t => t.key
        | none => 0
      let hit := (ws.filterMap fun w => match w.place with
        | .scratch t off => if t = key then some (off / 128) else none
        | _ => none).eraseDups
      let read (l : Nat) : Bool := hit.contains l
      let kept (o : TileOp) : Sparse (List Byte) :=
        (o.lines.filter fun l => read l && decide (Sparse.get [] o.snap l = [])).foldl
          (fun (m : Sparse (List Byte)) l => Sparse.insert m l (s.lineBytes (.scratch key (128 * l)))) o.snap
      let lost (o : TileOp) : Bool := o.lines.any fun l => read l && s.spoilt (.scratch key (128 * l))
      let keep (o : TileOp) : TileOp :=
        if o.done then o else { o with snap := kept o, fault := if lost o then some Status.poison else o.fault }
      s.setGang { g with tileOps := g.tileOps.map keep }

/-- The writes of the accesses in `hit` that a scope instance already reads, performed for every agent (11 R292). -/
def State.drainWhere (s : State) (hit : Gang → Access → Bool) : State :=
  let due (g : Gang) (a : Access) : Bool := a.seen.isSome && hit g a
  if s.gangs.all fun g => g.accesses.all fun a => !due g a then s
  else
    let put (s : State) (g : Gang) : State :=
      (g.accesses.filter (due g)).foldl (fun s a => (s.snapReads g.gid a.writes).performWrites (some g.gid) a.writes) s
    let done := s.gangs.foldl put s
    { done with gangs := done.gangs.map fun g =>
        { g with accesses := g.accesses.map fun a => if due g a then { a with writes := [], seen := none } else a } }

/-- Every write that only a scope instance reads, performed for every agent. -/
def State.drainSeen (s : State) : State := s.drainWhere fun _ _ => true

/-- Writes of a gang's own threads performed. -/
def State.performOwn (s : State) (gid : Nat) (ws : List Write) : State := (s.snapReads gid ws).performWrites (some gid) ws

/-- The writes of one access performed; a counted store counts its lines. -/
def State.performAccess (s : State) (gid : Nat) (a : Access) : State :=
  if a.counted = 0 then s.performOwn gid a.writes
  else
    let lines := (a.writes.filterMap fun w => match w.place with
      | .phys pa => some (s.norm pa / 128)
      | _ => none).eraseDups
    s.countLines gid a.counted a.writes (lines.map fun l => (l, s.lineBytes (.phys (128 * l))))

/-- Every access of the slices performed in issue order; they stay on their paths until they report. -/
def State.flush (s : State) (gid : Nat) (slices : List Nat) : State :=
  match s.gang? gid with
  | none => s
  | some g =>
    let mine := g.accesses.filter fun a => meets a.slices slices
    let s := mine.foldl (fun s a => s.performAccess gid a) s
    match s.gang? gid with
    | none => s
    | some g =>
      let empty (a : Access) : Access := if meets a.slices slices then { a with writes := [], counted := 0 } else a
      s.setGang { g with accesses := g.accesses.map empty }

/-- A command later than the faulted ones of its path has been issued (12 R311). -/
def Gang.issued (g : Gang) (p : Path) : Gang :=
  let later (r : Completion) : Completion := if r.cmd.path = p then { r with after := r.after + 1 } else r
  { g with records := g.records.map later }

/-- A new item on a path, with its access record. -/
def Gang.addAccess (g : Gang) (p : Path) (slices : List Nat) (scope : Nat) (release : Bool) (counted : Nat)
    (ws : List Write) : Gang :=
  { g with
    nextId := g.nextId + 1
    paths := g.paths ++ [{ path := p, id := g.nextId }]
    accesses := g.accesses ++
      [{ id := g.nextId, load := decide (p = .ld), slices := slices, scope := scope, release := release, seen := none
         writes := ws, counted := counted }] }

/-- Whether additions of a HEAT are not performed yet (14 R377). -/
def Gang.heatPending (g : Gang) : Bool := !g.heats.isEmpty || g.tileOps.any fun o => decide (o.kind = .heat) && !o.done

/-- Whether the item's work is complete. -/
def Gang.itemDone (g : Gang) (p : PathItem) : Bool :=
  !(g.accesses.any fun a => decide (a.id = p.id)) && !(g.cmds.any fun c => decide (c.id = p.id) && !c.replay) &&
  !(g.batches.any fun b => decide (b.id = p.id)) && !(g.tileOps.any fun o => decide (o.id = p.id) && !o.done)

/-- Items that leave their paths: complete ones with no earlier item of their path before them. -/
def retireItems (donee : PathItem → Bool) : List Path → List PathItem → List PathItem
  | _, [] => []
  | held, p :: l =>
    if held.contains p.path then p :: retireItems donee held l
    else if donee p then retireItems donee held l
    else p :: retireItems donee (p.path :: held) l

def Gang.retire (g : Gang) : Gang := { g with paths := retireItems g.itemDone [] g.paths }

/-- At a meeting point the accesses of every slice that arrives come before those of the strand formed (11 R291). -/
def Gang.joinAccesses (g : Gang) (slices : List Nat) : Gang :=
  { g with accesses := g.accesses.map fun a => if meets a.slices slices then { a with slices := (a.slices ++ slices).eraseDups } else a }

end Sys2Proof.Machine
end

