-- ==== Sys2Proof/Machine/Fp.lean ====
section
/-! DEFINITION. Number formats, rounding, flags and exact arithmetic (03 R52 to R78, R476). Values are exact: a
finite value is a sign and a dyadic number, a result before rounding a sign and a fraction. -/

namespace Sys2Proof.Machine.Fp

/-- The exception flags in the layout of FPFLAGS (03 R71): NV DZ OF UF NX. -/
abbrev Flags := BitVec 5

def NV : Flags := 16
def DZ : Flags := 8
def OF : Flags := 4
def UF : Flags := 2
def NX : Flags := 1

/-- The floating-point element formats (03 R55). -/
inductive Fmt where
  | f32 | f16 | bf16 | e4m3 | e5m2 | e2m1
  deriving DecidableEq, Repr

/-- The number of a format (06 R162). -/
def Fmt.code : Fmt → Nat
  | .f32 => 0 | .f16 => 1 | .bf16 => 2 | .e4m3 => 3 | .e5m2 => 4 | .e2m1 => 11

def Fmt.width : Fmt → Nat
  | .f32 => 32 | .f16 => 16 | .bf16 => 16 | .e4m3 => 8 | .e5m2 => 8 | .e2m1 => 4

/-- Mantissa width. -/
def Fmt.m : Fmt → Nat
  | .f32 => 23 | .f16 => 10 | .bf16 => 7 | .e4m3 => 3 | .e5m2 => 2 | .e2m1 => 1

def Fmt.bias : Fmt → Nat
  | .f32 => 127 | .f16 => 15 | .bf16 => 127 | .e4m3 => 7 | .e5m2 => 15 | .e2m1 => 1

/-- The code of the largest finite magnitude. -/
def Fmt.maxMag : Fmt → Nat
  | .f32 => 0x7F7FFFFF | .f16 => 0x7BFF | .bf16 => 0x7F7F | .e4m3 => 0x7E | .e5m2 => 0x7B | .e2m1 => 7

/-- The canonical NaN; E2M1 has none (03 R56). -/
def Fmt.canon : Fmt → Nat
  | .f32 => 0x7FC00000 | .f16 => 0x7E00 | .bf16 => 0x7FC0 | .e4m3 => 0x7F | .e5m2 => 0x7E | .e2m1 => 0

def Fmt.hasInf : Fmt → Bool
  | .f32 | .f16 | .bf16 | .e5m2 => true
  | .e4m3 | .e2m1 => false

/-- Formats that FTZ applies to (03 R66). -/
def Fmt.flushes : Fmt → Bool
  | .f32 | .f16 | .bf16 => true
  | .e4m3 | .e5m2 | .e2m1 => false

def Fmt.emin (f : Fmt) : Int := 1 - (f.bias : Int)

def Fmt.signBit (f : Fmt) (neg : Bool) : Nat := if neg then 2 ^ (f.width - 1) else 0

/-- An operand's value. -/
inductive Val where
  | nan (signalling : Bool)
  | inf (neg : Bool)
  | fin (neg : Bool) (m : Nat) (e : Int)
  deriving DecidableEq, Repr

def Val.isNan : Val → Bool
  | .nan _ => true
  | _ => false

def Val.isSnan : Val → Bool
  | .nan s => s
  | _ => false

def Val.isZero : Val → Bool
  | .fin _ m _ => decide (m = 0)
  | _ => false

def Val.isInf : Val → Bool
  | .inf _ => true
  | _ => false

def Val.neg : Val → Bool
  | .nan _ => false
  | .inf n => n
  | .fin n _ _ => n

def Val.flip : Val → Val
  | .nan s => .nan s
  | .inf n => .inf (!n)
  | .fin n m e => .fin (!n) m e

/-- The value of a code (03 R55); with `ftz` a subnormal reads as zero of its sign (03 R66). -/
def Fmt.decode (f : Fmt) (ftz : Bool) (c : Nat) : Val :=
  let mag := c % 2 ^ (f.width - 1)
  let neg := bitOf c (f.width - 1)
  let e := mag / 2 ^ f.m
  let m := mag % 2 ^ f.m
  if f.maxMag < mag then
    if f.hasInf && decide (mag = f.maxMag + 1) then .inf neg
    else .nan (f.flushes && !bitOf c (f.m - 1))
  else if e = 0 then
    if ftz && f.flushes then .fin neg 0 0 else .fin neg m (f.emin - f.m)
  else .fin neg (2 ^ f.m + m) ((e : Int) - f.bias - f.m)

/-- A result before rounding: exact. `infDiv` is an exact infinity from finite operands (03 R64, R476). -/
inductive Ex where
  | nan
  | inf (neg : Bool)
  | infDiv (neg : Bool)
  | fin (neg : Bool) (n d : Nat) (e : Int)
  deriving DecidableEq, Repr

def Ex.zero (neg : Bool) : Ex := .fin neg 0 1 0

def Ex.ofVal : Val → Ex
  | .nan _ => .nan
  | .inf n => .inf n
  | .fin n m e => .fin n m 1 e

/-- Whether the magnitude goes up to the next representable one (03 R62, R65): quotient `q`, remainder `r` of `den`. -/
def goUp (rnd w : Nat) (neg : Bool) (q r den : Nat) : Bool :=
  match rnd with
  | 0 => decide (den < 2 * r) || (decide (den = 2 * r) && decide (q % 2 = 1))
  | 1 => false
  | 2 => decide (0 < r) && !neg
  | 3 => decide (0 < r) && neg
  | 4 => decide (den ≤ 2 * r) && decide (0 < r)
  | _ =>
    if r = 0 then false
    else if neg then !decide (w < 2 ^ 32 * (den - r) / den)
    else decide (w < 2 ^ 32 * r / den)

/-- A positive fraction n/d · 2^e rounded to multiples of 2^u: the multiple and whether it is inexact. -/
def roundAt (rnd w : Nat) (neg : Bool) (n d : Nat) (e u : Int) : Nat × Bool :=
  let (q, r, den) := quot n d (e - u)
  (if goUp rnd w neg q r den then q + 1 else q, decide (r ≠ 0))

/-- The magnitude code of a positive fraction rounded with an unbounded exponent above and subnormals below, whether
it is inexact, and whether it is tiny after rounding (03 R62, R70). -/
def roundMag (f : Fmt) (rnd w : Nat) (neg : Bool) (n d : Nat) (e : Int) : Nat × Bool × Bool :=
  let E := flog2 n d + e
  let E' := if E < f.emin then f.emin else E
  let (q, inx) := roundAt rnd w neg n d e (E' - f.m)
  let code := (E' - f.emin).toNat * 2 ^ f.m + q
  let tiny :=
    decide (E < f.emin) &&
      !(decide (E + 1 = f.emin) && decide ((roundAt rnd w neg n d e (E - f.m)).1 = 2 ^ (f.m + 1)))
  (code, inx, tiny)

/-- The code of an overflowing finite result (03 R62, R64, R476). -/
def overflowCode (f : Fmt) (rnd : Nat) (sat neg : Bool) : Nat :=
  let keeps := decide (rnd = 1) || (decide (rnd = 2) && neg) || (decide (rnd = 3) && !neg)
  if sat || keeps || decide (f = .e2m1) then f.signBit neg + f.maxMag
  else if f.hasInf then f.signBit neg + f.maxMag + 1
  else f.canon

/-- The element delivered for an exact result, and the flags that delivery raises (03 R62 to R67, R70, R476). The largest finite
value that SAT puts for an exact infinity raises divide-by-zero alone in every format (DESIGN CHOICE, log 100). -/
def deliver (f : Fmt) (rnd w : Nat) (sat ftz : Bool) (x : Ex) : Nat × Flags :=
  match x with
  | .nan => (f.canon, 0)
  | .inf neg =>
    if f.hasInf then (f.signBit neg + f.maxMag + 1, 0)
    else if sat then (f.signBit neg + f.maxMag, NX)
    else (f.canon, NV)
  | .infDiv neg =>
    if sat then (f.signBit neg + f.maxMag, 0)
    else if f.hasInf then (f.signBit neg + f.maxMag + 1, 0)
    else (f.canon, 0)
  | .fin neg n d e =>
    if n = 0 then (f.signBit neg, 0)
    else
      let (code, inx, tiny) := roundMag f rnd w neg n d e
      if f.maxMag < code then (overflowCode f rnd sat neg, OF ||| NX)
      else if ftz && f.flushes && decide (0 < code) && decide (code < 2 ^ f.m) then (f.signBit neg, UF ||| NX)
      else (f.signBit neg + code, (if inx then NX else 0) ||| (if inx && tiny then UF else 0))

/-! Exact operations. Each answers the exact result and the flags the operation itself raises (03 R70). -/

def snanFlag (vs : List Val) : Flags := if vs.any Val.isSnan then NV else 0

/-- A signed dyadic number as an integer at the scale 2^e. -/
def atScale (neg : Bool) (m : Nat) (e₀ e : Int) : Int :=
  let k : Nat := m * 2 ^ (e₀ - e).toNat
  if neg then -(k : Int) else (k : Int)

/-- The sum of two finite values: the integer and its scale. -/
def sumFin (n₁ : Bool) (m₁ : Nat) (e₁ : Int) (n₂ : Bool) (m₂ : Nat) (e₂ : Int) : Int × Int :=
  let e := if m₁ = 0 then e₂ else if m₂ = 0 then e₁ else min e₁ e₂
  (atScale n₁ m₁ (max e₁ e) e + atScale n₂ m₂ (max e₂ e) e, e)

def exInt (z : Int) (e : Int) (zeroNeg : Bool) : Ex :=
  if z = 0 then .zero zeroNeg else .fin (decide (z < 0)) z.natAbs 1 e

/-- a + b under IEEE addition; an exact zero of operands of opposite sign is −0 only under RDN (03 R55). -/
def exAdd (rnd : Nat) (a b : Val) : Ex × Flags :=
  match a, b with
  | .nan _, _ => (.nan, snanFlag [a, b])
  | _, .nan _ => (.nan, snanFlag [a, b])
  | .inf n, .inf m => if n = m then (.inf n, 0) else (.nan, NV)
  | .inf n, _ => (.inf n, 0)
  | _, .inf n => (.inf n, 0)
  | .fin n₁ m₁ e₁, .fin n₂ m₂ e₂ =>
    let (z, e) := sumFin n₁ m₁ e₁ n₂ m₂ e₂
    (exInt z e (if n₁ = n₂ then n₁ else decide (rnd = 3)), 0)

/-- The product as a value: exact. -/
def exProd (a b : Val) : Val × Flags :=
  match a, b with
  | .nan _, _ => (.nan false, snanFlag [a, b])
  | _, .nan _ => (.nan false, snanFlag [a, b])
  | .inf n, y => if y.isZero then (.nan false, NV) else (.inf (xor n y.neg), 0)
  | x, .inf n => if x.isZero then (.nan false, NV) else (.inf (xor n x.neg), 0)
  | .fin n₁ m₁ e₁, .fin n₂ m₂ e₂ => (.fin (xor n₁ n₂) (m₁ * m₂) (e₁ + e₂), 0)

def exMul (a b : Val) : Ex × Flags :=
  let (p, fl) := exProd a b
  (Ex.ofVal p, fl)

/-- a · b + c, fused; `np`, `nc` negate the product and c exactly (08 R207). -/
def exFma (rnd : Nat) (np nc : Bool) (a b c : Val) : Ex × Flags :=
  let (p, f₁) := exProd a b
  let (x, f₂) := exAdd rnd (if np then p.flip else p) (if nc then c.flip else c)
  (x, f₁ ||| f₂)

def exDiv (a b : Val) : Ex × Flags :=
  match a, b with
  | .nan _, _ => (.nan, snanFlag [a, b])
  | _, .nan _ => (.nan, snanFlag [a, b])
  | .inf _, .inf _ => (.nan, NV)
  | .inf n, y => (.inf (xor n y.neg), 0)
  | x, .inf n => (.zero (xor x.neg n), 0)
  | .fin n₁ m₁ e₁, .fin n₂ m₂ e₂ =>
    if m₂ = 0 then
      if m₁ = 0 then (.nan, NV) else (.infDiv (xor n₁ n₂), DZ)
    else (.fin (xor n₁ n₂) m₁ m₂ (e₁ - e₂), 0)

/-- √a: enough quotient bits for every rounding mode, with a sticky bit below them. -/
def exSqrt (a : Val) : Ex × Flags :=
  match a with
  | .nan s => (.nan, if s then NV else 0)
  | .inf n => if n then (.nan, NV) else (.inf false, 0)
  | .fin n m e =>
    if m = 0 then (.zero n, 0)
    else if n then (.nan, NV)
    else
      let odd := (e % 2).toNat
      let m' := m * 2 ^ odd * 2 ^ 160
      let r := isqrt m'
      (.fin false (2 * r + b2n (decide (r * r ≠ m'))) 1 ((e - odd) / 2 - 80 - 1), 0)

/-- a · 2^n (08 R206). Beyond ±4096 every format's result is the same as at ±4096 (DEDUCED, log 26). -/
def exScale (a : Val) (n : Int) : Ex × Flags :=
  match a with
  | .nan s => (.nan, if s then NV else 0)
  | .inf g => (.inf g, 0)
  | .fin g m e => (.fin g m 1 (e + max (-4096) (min 4096 n)), 0)

/-- Comparison of two finite or infinite values: negative, zero or positive. -/
def cmpVal (a b : Val) : Int :=
  match a, b with
  | .inf n, .inf m => if n = m then 0 else if n then -1 else 1
  | .inf n, _ => if n then -1 else 1
  | _, .inf n => if n then 1 else -1
  | .fin n₁ m₁ e₁, .fin n₂ m₂ e₂ => (sumFin n₁ m₁ e₁ (!n₂) m₂ e₂).1
  | _, _ => 0

/-- The code of a value that the format represents. -/
def codeOf (f : Fmt) : Val → Nat
  | .nan _ => f.canon
  | v => (deliver f 0 0 false false (Ex.ofVal v)).1

/-- FMIN and FMAX (08 R208). -/
def minMax (f : Fmt) (isMax ftz : Bool) (a b : Nat) : Nat × Flags :=
  let x := f.decode ftz a
  let y := f.decode ftz b
  let fl := snanFlag [x, y]
  if x.isNan && y.isNan then (f.canon, fl)
  else if x.isNan then (codeOf f y, fl)
  else if y.isNan then (codeOf f x, fl)
  else
    let c := cmpVal x y
    let xFirst := if c = 0 then x.neg != isMax else decide (c < 0) != isMax
    (codeOf f (if xFirst then x else y), fl)

/-- FCLASS (08 R210). -/
def classOf (f : Fmt) (c : Nat) : Nat :=
  match f.decode false c with
  | .nan s => if s then 8 else 9
  | .inf n => if n then 0 else 7
  | .fin n m _ =>
    if m = 0 then (if n then 3 else 4)
    else if m < 2 ^ f.m then (if n then 2 else 5)
    else (if n then 1 else 6)

/-- FCMP's condition on one element and whether it raises invalid (08 R212). -/
def fcmp (f : Fmt) (ftz : Bool) (cond : Nat) (a b : Nat) : Bool × Flags :=
  let x := f.decode ftz a
  let y := f.decode ftz b
  let uo := x.isNan || y.isNan
  let c := cmpVal x y
  let sn := snanFlag [x, y]
  let any := if uo then NV else 0
  match cond with
  | 0 => (!uo && decide (c = 0), sn)
  | 1 => (uo || decide (c ≠ 0), sn)
  | 2 => (!uo && decide (c < 0), any)
  | 3 => (!uo && decide (c ≤ 0), any)
  | 4 => (!uo && decide (0 < c), any)
  | 5 => (!uo && decide (0 ≤ c), any)
  | 6 => (uo, sn)
  | _ => (!uo, sn)

/-- FROUND: an integral value in the same format (08 R211). -/
def fround (f : Fmt) (ftz : Bool) (rnd w : Nat) (c : Nat) : Nat × Flags :=
  match f.decode ftz c with
  | .nan s => if s then (f.canon, NV) else (c, 0)
  | .inf _ => (c, 0)
  | .fin n m e =>
    if m = 0 then (f.signBit n, 0)
    else
      let (q, _) := roundAt rnd w n m 1 e 0
      (codeOf f (.fin n q 0), 0)

/-! Integer formats (03 R52, R53). -/

/-- An integer format: width and signedness. -/
structure IFmt where
  w : Nat
  signed : Bool
  deriving DecidableEq, Repr

def IFmt.value (t : IFmt) (c : Nat) : Int := if t.signed then sintOf t.w c else ((c % 2 ^ t.w : Nat) : Int)
def IFmt.lo (t : IFmt) : Int := if t.signed then -(2 ^ (t.w - 1) : Nat) else 0
def IFmt.hi (t : IFmt) : Int := if t.signed then (2 ^ (t.w - 1) : Nat) - 1 else (2 ^ t.w : Nat) - 1
def IFmt.clamp (t : IFmt) (x : Int) : Int := max t.lo (min t.hi x)

/-- An integer result wrapped, or clamped under SAT (03 R53). -/
def IFmt.fit (t : IFmt) (sat : Bool) (x : Int) : Nat := wrapTo t.w (if sat then t.clamp x else x)

/-! Conversions (03 R67). -/

/-- Float to float, exact when widening; a NaN becomes the canonical one. -/
def cvtFF (s d : Fmt) (rnd w : Nat) (sat ftz : Bool) (c : Nat) : Nat × Flags :=
  match s.decode ftz c with
  | .nan sg => (d.canon, if sg then NV else 0)
  | v => deliver d rnd w sat ftz (Ex.ofVal v)

/-- Float to integer: clamped to the range with invalid only (DEDUCED, log 9). -/
def cvtFI (s : Fmt) (d : IFmt) (rnd w : Nat) (ftz : Bool) (c : Nat) : Nat × Flags :=
  match s.decode ftz c with
  | .nan _ => (0, NV)
  | .inf n => (wrapTo d.w (if n then d.lo else d.hi), NV)
  | .fin n m e =>
    let (q, inx) := roundAt rnd w n m 1 e 0
    let z : Int := if n then -(q : Int) else (q : Int)
    if d.clamp z ≠ z then (wrapTo d.w (d.clamp z), NV) else (wrapTo d.w z, if inx then NX else 0)

def cvtIF (s : IFmt) (d : Fmt) (rnd w : Nat) (sat ftz : Bool) (c : Nat) : Nat × Flags :=
  let z := s.value c
  deliver d rnd w sat ftz (exInt z 0 false)

/-! Exact sums of products (03 R74, R75). -/

/-- A running exact sum: NaN seen, infinities of each sign, every term −0 so far, the finite part at its scale. -/
structure Acc where
  nan : Bool := false
  pinf : Bool := false
  ninf : Bool := false
  negZero : Bool := true
  z : Int := 0
  e : Int := 0
  flags : Flags := 0
  deriving DecidableEq, Repr

def Acc.add (s : Acc) (v : Val) (fl : Flags) : Acc :=
  let s := { s with flags := s.flags ||| fl, negZero := s.negZero && v.isZero && v.neg }
  match v with
  | .nan _ => { s with nan := true }
  | .inf n => if n then { s with ninf := true } else { s with pinf := true }
  | .fin n m e =>
    let neg : Bool := decide (s.z < (0 : Int))
    let r := sumFin neg s.z.natAbs s.e n m e
    { s with z := r.1, e := if r.1 = 0 then 0 else r.2 }

/-- The sum as an exact result: an exact zero is −0 only if every term is −0 (03 R75). -/
def Acc.result (s : Acc) : Ex × Flags :=
  let fl := s.flags ||| (if s.pinf && s.ninf then NV else 0)
  if s.nan || (s.pinf && s.ninf) then (.nan, fl)
  else if s.pinf then (.inf false, fl)
  else if s.ninf then (.inf true, fl)
  else (exInt s.z s.e s.negZero, fl)

/-- The sum as a value, for IEEE addition to an accumulator. -/
def Ex.toVal : Ex → Val
  | .nan => .nan false
  | .inf n => .inf n
  | .infDiv n => .inf n
  | .fin n m _ e => .fin n m e

/-! Block formats (03 R57 to R61, R68, R69). -/

/-- An E8M0 scale (03 R58). -/
def e8m0 (c : Nat) : Val := if c % 256 = 255 then .nan false else .fin false 1 ((c % 256 : Nat) - 127)

/-- An E3M5 block scale (03 R60). -/
def e3m5 (c : Nat) : Val :=
  let c := c % 256
  if c = 255 then .nan false
  else if c < 32 then .fin false c (-7)
  else .fin false (32 + c % 32) ((c / 32 : Nat) - 8)

def absVal : Val → Val
  | .fin _ m e => .fin false m e
  | v => v

/-- The largest magnitude of a list of finite values. -/
def amax (vs : List Val) : Val :=
  vs.foldl (fun a v => if 0 < cmpVal (absVal v) a then absVal v else a) (.fin false 0 0)

/-- The quotient x / y of finite values, y nonzero, rounded once to an element format whose overflow is replaced by
its largest finite value: code, flags without overflow, whether it was beyond the largest (03 R68). -/
def quantElem (f : Fmt) (rnd w : Nat) (x y : Val) : Nat × Flags × Bool :=
  match x, y with
  | .fin n₁ m₁ e₁, .fin n₂ m₂ e₂ =>
    let neg := xor n₁ n₂
    if m₁ = 0 then (f.signBit neg, 0, false)
    else
      let (code, inx, tiny) := roundMag f rnd w neg m₁ m₂ (e₁ - e₂)
      let beyond := decide (0 < cmpVal (.fin false m₁ (e₁ - e₂)) (match f.decode false f.maxMag with
        | .fin _ m e => .fin false (m * m₂) e
        | v => v))
      if beyond || decide (f.maxMag < code) then (f.signBit neg + f.maxMag, NX, true)
      else (f.signBit neg + code, (if inx then NX else 0) ||| (if inx && tiny then UF else 0), false)
  | _, _ => (0, 0, false)

/-- MX quantisation of one block (03 R68): scale code, element codes, flags. `rws` gives each element its rounding mode
and random word. -/
def quantMx (f : Fmt) (rws : List (Nat × Nat)) (vs : List Val) : Nat × List Nat × Flags :=
  if vs.any fun v => v.isNan || v.isInf then
    (255, vs.map fun _ => 0, if vs.any Val.isInf then NV else snanFlag vs)
  else
    let emax : Int := if f = .e4m3 then 8 else 2
    let (x, clamped) := match amax vs with
      | .fin _ m e =>
        if m = 0 then (0, false)
        else
          let k := flog2 m 1 + e - emax + 127
          ((max 0 (min 254 k)).toNat, decide (254 < k))
      | _ => (0, false)
    let es := (vs.zip rws).map fun (v, r) => quantElem f r.1 r.2 v (e8m0 x)
    (x, es.map fun t => t.1,
      es.foldl (fun a t => a ||| t.2.1 ||| (if clamped && t.2.2 then OF else 0)) 0)

/-- v · 6 and products of finite values. -/
def mulFin (a b : Val) : Val := (exProd a b).1

/-- The smallest E3M5 code whose value times 6·|B| reaches amax; none if 31 does not (03 R69). -/
def nb4Scale (amx : Val) (band : Val) : Option Nat :=
  findIdx (fun c => decide (cmpVal amx (mulFin (mulFin (e3m5 c) (.fin false 6 0)) (absVal band)) ≤ 0)) 0 (List.range 255)

/-- NB4 quantisation of one block (03 R69): code, elements, flags (where only the band scale offends: DEDUCED, log 50). -/
def quantNb4 (rws : List (Nat × Nat)) (vs : List Val) (band : Val) : Nat × List Nat × Flags :=
  let badBand := band.isZero || band.isInf || band.isNan
  if badBand || vs.any fun v => v.isNan || v.isInf then
    let bad := vs.filter fun v => v.isNan || v.isInf
    let loud := if bad.isEmpty then band.isZero || band.isInf || band.isSnan else bad.any fun v => v.isInf || v.isSnan
    (255, vs.map fun _ => 0, if loud then NV else 0)
  else
    let amx := amax vs
    if amx.isZero then (0, vs.map fun v => Fmt.e2m1.signBit v.neg, 0)
    else
      let (code, ov) := match nb4Scale amx band with
        | some c => (c, false)
        | none => (254, true)
      let y := mulFin (e3m5 code) band
      let es := (vs.zip rws).map fun (v, r) =>
        let t := quantElem .e2m1 r.1 r.2 v y
        if t.1 % 8 = 0 then (Fmt.e2m1.signBit v.neg, t.2) else t
      (code, es.map fun t => t.1, es.foldl (fun a t => a ||| t.2.1) (if ov then OF else 0))

end Sys2Proof.Machine.Fp
end

