-- ==== Sys2Proof/Machine/Flags.lean ====
section
/-! DEFINITION. Results that carry exception flags: FPFLAGS, FPTRAP, and the FP trap with its kept lanes
(03 R70 to R73, 08 R204, R223, 17 R419). -/

namespace Sys2Proof.Machine

open Sys2Proof

/-- What one lane's computation gives: the register image, the flags raised, the random words it consumed. -/
structure LaneRes where
  val : W32
  flags : Fp.Flags
  draws : Nat
  deriving DecidableEq, Repr

/-- Every active lane's result, computed once. -/
def Ctx.compute (c : Ctx) (f : Nat → Nat → LaneRes) : List ((Nat × Nat) × LaneRes) :=
  c.activeLanes.map fun kj => (kj, f kj.1 kj.2)

def resAt (rs : List ((Nat × Nat) × LaneRes)) (k j : Nat) : Option LaneRes :=
  match rs.find? fun r => decide (r.1 = (k, j)) with
  | some r => some r.2
  | none => none

/-- The union of the flags of the lanes (08 R204). -/
def flagsOf (rs : List ((Nat × Nat) × LaneRes)) : Fp.Flags := rs.foldl (fun a r => a ||| r.2.flags) 0

/-- Lanes that raised an enabled exception (08 R223). -/
def trapping (en : Fp.Flags) (rs : List ((Nat × Nat) × LaneRes)) : List (Nat × Nat) :=
  (rs.filter fun r => decide (r.2.flags &&& en ≠ 0)).map fun r => r.1

/-- Draw counts raised by what each lane consumed (03 R65). -/
def Gang.drawn (g : Gang) (rs : List ((Nat × Nat) × LaneRes)) : Gang :=
  if rs.all fun r => decide (r.2.draws = 0) then g
  else
    g.mapThreads (rs.map fun r => r.1.1) fun k j t =>
      match resAt rs k j with
      | some r => { t with draws := t.draws + r.draws }
      | none => t

/-- Whether an instruction with destination `d` shifts the latches (04 R86). -/
def dstShifts : Dst → Bool
  | .v _ | .x _ | .l0 => true
  | .s _ | .zero => false

/-- Results delivered: FPFLAGS takes every flag, which the strand sees from now on and strands that have not joined it may
not (03 R73); if a lane raised an enabled exception the FP trap is taken, the
other lanes written (17 R419); else the instruction is done. `put` writes the lanes it is given (DEDUCED, log 18) (DESIGN CHOICE, log 21). -/
def State.deliver (s : State) (c : Ctx) (shifts : Bool) (rs : List ((Nat × Nat) × LaneRes)) (put : Gang → LaneFn → Gang) : State :=
  let bad := trapping c.g.fptrap rs
  let write : LaneFn := fun k j =>
    if bad.contains (k, j) then none else (resAt rs k j).map fun r => r.val
  let fl := flagsOf rs
  let g := put (c.g.raiseFlags c.st.slices fl) write
  let g := g.drawn rs
  let c := { c with st := c.st.see fl }
  if bad.isEmpty then s.done c g
  else
    let exc := rs.foldl (fun a r => a ||| (r.2.flags &&& c.g.fptrap)) 0
    s.userTrap c g { cause := 2, tmask := maskOf bad, taddr := exc.toNat, shifted := shifts }

/-- Results to a v, x, L0-only or discarding destination; an x destination takes rime TOP (07 R178, 08 R202). -/
def State.deliverVX (s : State) (c : Ctx) (d : Dst) (rs : List ((Nat × Nat) × LaneRes)) : State :=
  s.deliver c (dstShifts d) rs fun g w => g.writeVX c.st.slices d w fun _ => .top

/-- A predicate written from results: bit 0 of each (06 R168, 08 R212). -/
def Gang.writeP (g : Gang) (ks : List Nat) (n : Nat) (f : LaneFn) : Gang :=
  g.mapThreads ks fun k j t => match f k j with
    | some w => t.setP n (w.getLsbD 0)
    | none => t

end Sys2Proof.Machine
end

