-- ==== Sys2Proof/Machine/Trans.lean ====
section
/-! DEFINITION. The transcendentals (08 R213, R214). The exact result is enclosed between two dyadic numbers; the
device's bits (`Config.transBits`, open) count where they lie within the bound of R213, else the correctly rounded
result stands in (DESIGN CHOICE, log 8). -/

namespace Sys2Proof.Machine.Fp

/-- Fraction bits of the enclosures. -/
def P : Nat := 256

/-- What an enclosure's ends are widened by, more than every truncation below adds up to. -/
def slack : Nat := 2 ^ 16

/-- A positive real between lo · 2^e and hi · 2^e, with a sign. -/
structure Encl where
  neg : Bool
  lo : Nat
  hi : Nat
  e : Int
  deriving DecidableEq, Repr

/-- Σ (±1)^k t / ((2k+1) b^k), k from 0: the series of artanh (plus) and arctan (minus), scaled. -/
def oddSeries (alt : Bool) (b : Nat) : Nat → Nat → Nat → Bool → Int → Int
  | 0, _, _, _, acc => acc
  | fuel + 1, t, k, minus, acc =>
    let term : Int := ((t / (2 * k + 1) : Nat) : Int)
    oddSeries alt b fuel (t / b) (k + 1) (if alt then !minus else false) (if minus then acc - term else acc + term)

/-- ln 2 = 2 artanh (1/3), scaled by 2^P. -/
def ln2 : Nat := (2 * oddSeries false 9 90 (2 ^ P / 3) 0 false 0).toNat

/-- π by Machin's formula, scaled by 2^P. -/
def piS : Nat :=
  (16 * oddSeries true 25 64 (2 ^ P / 5) 0 false 0 - 4 * oddSeries true (239 * 239) 20 (2 ^ P / 239) 0 false 0).toNat

/-- Σ t^k / k! from a term on. -/
def expSeries (t : Nat) : Nat → Nat → Nat → Nat → Nat
  | 0, _, _, acc => acc
  | fuel + 1, term, k, acc => expSeries t fuel (term * t / 2 ^ P / (k + 1)) (k + 1) (acc + term)

/-- Sine's series, t scaled, t² given. -/
def sinSeries (t2 : Nat) : Nat → Nat → Nat → Bool → Int → Int
  | 0, _, _, _, acc => acc
  | fuel + 1, term, k, minus, acc =>
    sinSeries t2 fuel (term * t2 / 2 ^ P / ((k + 1) * (k + 2))) (k + 2) (!minus)
      (if minus then acc - (term : Int) else acc + (term : Int))

def widen (neg : Bool) (x : Nat) (e : Int) : Encl := ⟨neg, x - slack, x + slack, e⟩

/-- ⌊m · 2^e · 2^P⌋. -/
def scaled (m : Nat) (e : Int) : Nat := (quot m 1 (e + P)).1

/-- 2^f for a scaled fraction f below 1, scaled. -/
def exp2Frac (f : Nat) : Nat := expSeries (f * ln2 / 2 ^ P) 80 (2 ^ P) 0 0

/-- 2^(±m·2^e). Beyond ±1024 every format's result is the same as at ±1024. -/
def enclExp2 (neg : Bool) (m : Nat) (e : Int) : Encl :=
  let x := min (scaled m e) (1024 * 2 ^ P)
  let z : Int := if neg then -(x : Int) else (x : Int)
  let k := z / (2 ^ P : Nat)
  widen false (exp2Frac (z % (2 ^ P : Nat)).toNat) (k - P)

/-- log2 (m·2^e) for m > 0. -/
def enclLog2 (m : Nat) (e : Int) : Encl :=
  let l := ilog2 m
  -- mantissa in [1, 2): z = (x − 1)/(x + 1)
  let z := (m - 2 ^ l) * 2 ^ P / (m + 2 ^ l)
  let z2 := z * z / 2 ^ P
  let rec go : Nat → Nat → Nat → Nat → Nat
    | 0, _, _, acc => acc
    | fuel + 1, t, k, acc => go fuel (t * z2 / 2 ^ P) (k + 1) (acc + t / (2 * k + 1))
  let lnm := 2 * go 90 z 0 0
  let r : Int := (e + l) * (2 ^ P : Nat) + ((lnm * 2 ^ P / ln2 : Nat) : Int)
  widen (decide (r < 0)) r.natAbs (-(P : Int))

/-- sin (π·h) for a scaled h; the sign of h's half turns included. -/
def enclSinPi (neg : Bool) (h : Nat) : Encl :=
  let r := h % (2 * 2 ^ P)
  let neg := xor neg (decide (2 ^ P ≤ r))
  let r := r % 2 ^ P
  let r := if 2 ^ P < 2 * r then 2 ^ P - r else r
  let t := r * piS / 2 ^ P
  widen neg (sinSeries (t * t / 2 ^ P) 60 t 1 false 0).toNat (-(P : Int))

/-- tanh (m·2^e). -/
def enclTanh (neg : Bool) (m : Nat) (e : Int) : Encl :=
  let x := min (scaled m e) (128 * 2 ^ P)
  let y := 2 * x * 2 ^ P / ln2
  let k := y / 2 ^ P
  let ex := exp2Frac (y % 2 ^ P) * 2 ^ k
  -- 1 − 2/(e^{2x} + 1)
  widen neg (2 ^ P - 2 * 2 ^ P * 2 ^ P / (ex + 2 ^ P)) (-(P : Int))

/-- 1/√(m·2^e). -/
def enclRsqrt (m : Nat) (e : Int) : Encl :=
  let odd := (e % 2).toNat
  let r := isqrt (2 ^ (2 * P) / (m * 2 ^ odd))
  ⟨false, r, r + 1, -((e - odd) / 2) - P⟩

/-- 1/(m·2^e). -/
def enclRcp (neg : Bool) (m : Nat) (e : Int) : Encl :=
  let r := 2 ^ P / m
  ⟨neg, r, r + 1, -e - P⟩

/-- The transcendental operations, in opcode order (08 R213). -/
inductive TOp where
  | rcp | rsq | exp2 | log2 | sin | cos | tanh
  deriving DecidableEq, Repr

def TOp.idx : TOp → Nat
  | .rcp => 0 | .rsq => 1 | .exp2 => 2 | .log2 => 3 | .sin => 4 | .cos => 5 | .tanh => 6

/-- A dyadic bound on the error: k · 2^u. -/
def errBound (op : TOp) (f : Fmt) (y : Encl) (xm : Nat) (xe : Int) : Nat × Int :=
  let E := (ilog2 y.lo : Int) + y.e
  let ulp := (if E < f.emin then f.emin else E) - f.m
  let larger (k : Nat) (u v : Int) : Nat × Int := if cmpVal (.fin false k u) (.fin false 1 v) < 0 then (1, v) else (k, u)
  if f = .f32 then
    match op with
    | .rcp => (1, ulp)
    | .rsq | .exp2 => (2, ulp)
    | .log2 =>
      if 0 ≤ cmpVal (.fin false xm xe) (.fin false 1 (-1)) ∧ cmpVal (.fin false xm xe) (.fin false 1 1) ≤ 0 then (1, -22)
      else (2, ulp)
    | .sin | .cos => larger 2 ulp (-22)
    | .tanh => larger 2 ulp (-24)
  else (1, ulp)

/-- Whether a finite value lies within the bound of every real of the enclosure. -/
def within (b : Nat × Int) (y : Encl) (rn : Bool) (rm : Nat) (re : Int) : Bool :=
  let near (t : Nat) : Bool :=
    let d := sumFin rn rm re (!y.neg) t y.e
    decide (cmpVal (.fin false d.1.natAbs d.2) (.fin false b.1 b.2) ≤ 0)
  near y.lo && near y.hi

/-- Whether r is the exact result: only 1/x and 1/√x have dyadic results beyond the exact cases (08 R214). -/
def isExact (op : TOp) (xm : Nat) (xe : Int) (rm : Nat) (re : Int) : Bool :=
  match op with
  | .rcp => decide (cmpVal (.fin false (rm * xm) (re + xe)) (.fin false 1 0) = 0)
  | .rsq => decide (cmpVal (.fin false (rm * rm * xm) (2 * re + xe)) (.fin false 1 0) = 0)
  | _ => false

/-- The result where it is not one of the exact cases: the open bits within the bound, else correctly rounded. -/
def pickTrans (op : TOp) (f : Fmt) (sat ftz : Bool) (c : Nat) (y : Encl) (xm : Nat) (xe : Int) : Nat × Flags :=
  let std := deliver f 0 0 sat ftz (.fin y.neg (y.lo + y.hi) 1 (y.e - 1))
  if std.2 &&& OF ≠ 0 then std
  else
    let cand := Config.transBits op.idx f.code ftz sat c % 2 ^ f.width
    let b := errBound op f y xm xe
    let ok := match f.decode false cand with
      | .fin n m e => within b y n m e
      | _ => false
    let r := if ok then cand else (deliver f 0 0 sat false (.fin y.neg (y.lo + y.hi) 1 (y.e - 1))).1
    match f.decode false r with
    | .fin n m e =>
      let inx := !isExact op xm xe m e
      let small := decide (r % 2 ^ (f.width - 1) < 2 ^ f.m)
      if ftz && f.flushes && small && decide (m ≠ 0) then (f.signBit n, UF ||| NX)
      else (r, (if inx then NX else 0) ||| (if inx && small then UF else 0))
    | _ => (r, NX)

/-- Twice the value, when that is an integer. -/
def halves (m : Nat) (e : Int) : Option Nat :=
  let (q, r, _) := quot m 1 (e + 1)
  if r = 0 then some q else none

def one (f : Fmt) (neg : Bool) : Nat := f.signBit neg + f.bias * 2 ^ f.m

/-- An exact result that the format holds. -/
def holds (f : Fmt) (x : Ex) : Bool := decide ((deliver f 0 0 false false x).2 = 0)

/-- A transcendental of one element (08 R213, R214, R476). Powers and logarithms that are exact are fixed only where the
format holds them. -/
def trans (op : TOp) (f : Fmt) (sat ftz : Bool) (c : Nat) : Nat × Flags :=
  let exact (x : Ex) : Nat × Flags := deliver f 0 0 sat ftz x
  match f.decode ftz c with
  | .nan s => (f.canon, if s then NV else 0)
  | .inf n =>
    match op with
    | .rcp => exact (.zero n)
    | .rsq => if n then (f.canon, NV) else exact (.zero false)
    | .exp2 => if n then exact (.zero false) else exact (.inf false)
    | .log2 => if n then (f.canon, NV) else exact (.inf false)
    | .sin | .cos => (f.canon, NV)
    | .tanh => (one f n, 0)
  | .fin n m e =>
    let pick (y : Encl) := pickTrans op f sat ftz c y m e
    if m = 0 then
      match op with
      | .rcp | .rsq => ((exact (.infDiv n)).1, DZ)
      | .exp2 => (one f false, 0)
      | .log2 => ((exact (.infDiv true)).1, DZ)
      | .sin | .tanh => exact (.zero n)
      | .cos => (one f false, 0)
    else
      match op with
      | .rcp => pick (enclRcp n m e)
      | .rsq => if n then (f.canon, NV) else pick (enclRsqrt m e)
      | .exp2 =>
        match halves m e with
        | some h =>
          if h % 2 = 0 then
            let k : Int := (min (h / 2) 4096 : Nat)
            let k := if n then -k else k
            if holds f (.fin false 1 1 k) then exact (.fin false 1 1 k) else pick ⟨false, 1, 1, k⟩
          else pick (enclExp2 n m e)
        | none => pick (enclExp2 n m e)
      | .log2 =>
        if n then (f.canon, NV)
        else if m = 2 ^ ilog2 m then
          let k := e + ilog2 m
          if holds f (exInt k 0 false) then exact (exInt k 0 false) else pick ⟨decide (k < 0), k.natAbs, k.natAbs, 0⟩
        else pick (enclLog2 m e)
      | .sin =>
        match halves m e with
        | some h => if h % 2 = 0 then exact (.zero n) else (one f (xor n (decide (h % 4 = 3))), 0)
        | none => pick (enclSinPi n (scaled m e))
      | .cos =>
        match halves m e with
        | some h => if h % 2 = 1 then exact (.zero false) else (one f (decide (h % 4 = 2)), 0)
        | none => pick (enclSinPi false (scaled m e + 2 ^ (P - 1)))
      | .tanh => pick (enclTanh n m e)

end Sys2Proof.Machine.Fp
end

