-- ==== Sys2Proof/Machine/Vector.lean ====
section
/-! DEFINITION. Rows 0x40 to 0x67: vector arithmetic, conversions and packing, and FPCTL (08 R202 to R223). -/

namespace Sys2Proof.Machine

open Sys2Proof
open Fp

/-- The element of a TYPE (03 R54). -/
inductive Elem where
  | int (t : IFmt)
  | flt (f : Fmt)
  deriving DecidableEq, Repr

def Elem.width : Elem → Nat
  | .int t => t.w
  | .flt f => f.width

/-- TYPE to element and element count (02 R37, 03 R54). -/
def typeElem : Nat → Elem × Nat
  | 0 => (.int ⟨32, true⟩, 1)
  | 1 => (.int ⟨32, false⟩, 1)
  | 2 => (.flt .f32, 1)
  | 3 => (.flt .f16, 2)
  | 4 => (.flt .bf16, 2)
  | 5 => (.int ⟨16, true⟩, 2)
  | 6 => (.int ⟨16, false⟩, 2)
  | 7 => (.int ⟨8, true⟩, 4)
  | 8 => (.int ⟨8, false⟩, 4)
  | 9 => (.flt .e4m3, 4)
  | _ => (.flt .e5m2, 4)

def classF (ty : Nat) : Bool := decide (ty = 2) || decide (ty = 3) || decide (ty = 4) || decide (ty = 9) || decide (ty = 10)
def classI (ty : Nat) : Bool := decide (ty ≤ 1) || (decide (5 ≤ ty) && decide (ty ≤ 8))
def classP (ty : Nat) : Bool := decide (3 ≤ ty)
def isFlt (ty : Nat) : Bool := classF ty

def Ctx.ty (c : Ctx) : Nat := modeType c.st.mode
def Ctx.rnd (c : Ctx) : Nat := modeRound c.st.mode
def Ctx.sat (c : Ctx) : Bool := modeSat c.st.mode
def Ctx.ftz (c : Ctx) : Bool := modeFtz c.st.mode

/-- The float format of the strand's TYPE; FP32 where the type is none (the class check comes first). -/
def Ctx.fmt (c : Ctx) : Fmt :=
  match (typeElem c.ty).1 with
  | .flt f => f
  | .int _ => .f32

def Ctx.ifmt (c : Ctx) : IFmt :=
  match (typeElem c.ty).1 with
  | .int t => t
  | .flt f => ⟨f.width, false⟩

/-- Element k of a register image. -/
def elemAt (w : Nat) (x : W32) (k : Nat) : Nat := x.toNat / 2 ^ (w * k) % 2 ^ w

/-- Thread index G of the rounding stream: %popix in a population grid, else the index in the grid (03 R65). -/
def Ctx.streamG (s : State) (c : Ctx) (k j : Nat) : Nat :=
  match s.grid? c.g.grid with
  | some G =>
    match G.pop with
    | some _ => (c.g.thread k j).popix
    | none => c.g.team * (G.tmpl.gangs * G.tmpl.threads) + c.threadIdx s k j
  | none => 0

def Ctx.seed (s : State) (c : Ctx) : Nat :=
  match s.grid? c.g.grid with
  | some G => G.launch.seed
  | none => 0

/-- The i-th coming word of the thread's rounding stream (03 R65). -/
def Ctx.word (s : State) (c : Ctx) (k j i : Nat) : Nat :=
  streamWord (c.seed s) (c.streamG s k j) 0x52530000 (((c.g.thread k j).draws + i) % 2 ^ 64)

/-- A lane's result element by element: `n` elements of width `w`; with `draw` each consumes a random word (03 R65). -/
def Ctx.elems (s : State) (c : Ctx) (n w : Nat) (draw : Bool) (f : Nat → Nat → Nat × Flags) (k j : Nat) : LaneRes :=
  let rs := (List.range n).map fun i => (i, f i (if draw then c.word s k j i else 0))
  { val := BitVec.ofNat 32 (rs.foldl (fun a r => a + r.2.1 % 2 ^ w * 2 ^ (w * r.1)) 0)
    flags := rs.foldl (fun a r => a ||| r.2.2) 0
    draws := if draw then n else 0 }

/-- An exact result delivered in the strand's format and mode. -/
def Ctx.round (c : Ctx) (w : Nat) (x : Ex × Flags) : Nat × Flags :=
  let (v, fl) := Fp.deliver c.fmt c.rnd w c.sat c.ftz x.1
  (v, fl ||| x.2)

/-- Operand element values under the strand's FTZ. -/
def Ctx.fval (s : State) (c : Ctx) (a : Src) (k j i : Nat) : Val :=
  c.fmt.decode c.ftz (elemAt c.fmt.width (c.val s a k j) i)

/-- A rounded floating-point instruction of class F: one exact expression per element (08 R206). -/
def Ctx.arith (s : State) (c : Ctx) (f : Nat → Nat → Nat → Ex × Flags) : List ((Nat × Nat) × LaneRes) :=
  c.compute fun k j =>
    c.elems s (typeElem c.ty).2 c.fmt.width (decide (c.rnd = 5)) (fun i w => c.round w (f k j i)) k j

/-- An instruction on elements of class F that rounds nothing under ROUND. -/
def Ctx.fmap (s : State) (c : Ctx) (f : Nat → Nat → Nat → Nat × Flags) : List ((Nat × Nat) × LaneRes) :=
  c.compute fun k j => c.elems s (typeElem c.ty).2 c.fmt.width false (fun i _ => f k j i) k j

/-- Element i of a source, as a code. -/
def Ctx.fcode (s : State) (c : Ctx) (a : Src) (k j i : Nat) : Nat := elemAt c.fmt.width (c.val s a k j) i

def okF (d : Dst) (srcs : List Src) (c : Ctx) : Bool := classF c.ty && Accept.dstF d && srcs.all Accept.srcVec

def fbin (s : State) (d : Dst) (a b : Src) (f : Nat → Val → Val → Ex × Flags) : Host.Outcome State Fault Refusal :=
  instr s (okF d [a, b]) [d] [a, b] fun c =>
    s.deliverVX c d (c.arith s fun k j i => f c.rnd (c.fval s a k j i) (c.fval s b k j i))

def execFadd (d : Dst) (a b : Src) (s : State) := fbin s d a b exAdd
def execFsub (d : Dst) (a b : Src) (s : State) := fbin s d a b fun r x y => exAdd r x y.flip
def execFmul (d : Dst) (a b : Src) (s : State) := fbin s d a b fun _ => exMul
def execFdiv (d : Dst) (a b : Src) (s : State) := fbin s d a b fun _ => exDiv

/-- FFMA: fused a·b + d (08 R206). -/
def execFfma (d : Dst) (a b : Src) (s : State) : Host.Outcome State Fault Refusal :=
  instr s (fun c => okF d [a, b] c && Accept.dstIsV d) [d] [a, b] fun c =>
    s.deliverVX c d (c.arith s fun k j i =>
      exFma c.rnd false false (c.fval s a k j i) (c.fval s b k j i) (c.fval s (dstAsSrc d) k j i))

/-- FFMA3: ±(a·b) ± c, fused (08 R207). -/
def execFfma3 (d : Dst) (a b e : Src) (negp negc : BitVec 1) (s : State) : Host.Outcome State Fault Refusal :=
  instr s (fun c => classF c.ty && Accept.ffma3 d a b e) [d] [a, b, e] fun c =>
    s.deliverVX c d (c.arith s fun k j i =>
      exFma c.rnd (decide (negp = 1)) (decide (negc = 1)) (c.fval s a k j i) (c.fval s b k j i) (c.fval s e k j i))

def execFsqrt (d : Dst) (a : Src) (s : State) : Host.Outcome State Fault Refusal :=
  instr s (okF d [a]) [d] [a] fun c => s.deliverVX c d (c.arith s fun k j i => exSqrt (c.fval s a k j i))

/-- FSCALE: a·2^n with n element k of b as a signed integer (08 R206). -/
def execFscale (d : Dst) (a b : Src) (s : State) : Host.Outcome State Fault Refusal :=
  instr s (okF d [a, b]) [d] [a, b] fun c =>
    s.deliverVX c d (c.arith s fun k j i => exScale (c.fval s a k j i) (sintOf c.fmt.width (c.fcode s b k j i)))

def fminmax (s : State) (isMax : Bool) (d : Dst) (a b : Src) : Host.Outcome State Fault Refusal :=
  instr s (okF d [a, b]) [d] [a, b] fun c =>
    s.deliverVX c d (c.fmap s fun k j i => minMax c.fmt isMax c.ftz (c.fcode s a k j i) (c.fcode s b k j i))

def execFmin (d : Dst) (a b : Src) (s : State) := fminmax s false d a b
def execFmax (d : Dst) (a b : Src) (s : State) := fminmax s true d a b

/-- A bit operation on elements of class F: no flag (08 R209). -/
def fbits (s : State) (d : Dst) (a : Src) (f : Fmt → Nat → Nat) : Host.Outcome State Fault Refusal :=
  instr s (okF d [a]) [d] [a] fun c => s.deliverVX c d (c.fmap s fun k j i => (f c.fmt (c.fcode s a k j i), 0))

def execFneg (d : Dst) (a : Src) (s : State) := fbits s d a fun f x => xorNat x (2 ^ (f.width - 1))
def execFabs (d : Dst) (a : Src) (s : State) := fbits s d a fun f x => x % 2 ^ (f.width - 1)
def execFclass (d : Dst) (a : Src) (s : State) := fbits s d a classOf

/-- FSEL: by the sign bit of the old destination's element (08 R209). -/
def execFsel (d : Dst) (a b : Src) (s : State) : Host.Outcome State Fault Refusal :=
  instr s (fun c => okF d [a, b] c && Accept.dstIsV d) [d] [a, b] fun c =>
    s.deliverVX c d (c.fmap s fun k j i =>
      (if bitOf (c.fcode s (dstAsSrc d) k j i) (c.fmt.width - 1) then c.fcode s b k j i else c.fcode s a k j i, 0))

/-- FROUND (08 R211): mode 7 is the strand's ROUND; RSR draws. -/
def execFround (d : Dst) (a : Src) (m : BitVec 3) (s : State) : Host.Outcome State Fault Refusal :=
  instr s (fun c => okF d [a] c && decide (m ≠ 6)) [d] [a] fun c =>
    let r := if m = 7 then c.rnd else m.toNat
    s.deliverVX c d (c.compute fun k j =>
      c.elems s (typeElem c.ty).2 c.fmt.width (decide (r = 5))
        (fun i w => Fp.fround c.fmt c.ftz r w (c.fcode s a k j i)) k j)

/-- FCMP: true where the condition holds for every element (08 R212). -/
def execFcmp (cond : BitVec 4) (p : BitVec 3) (a b : Src) (s : State) : Host.Outcome State Fault Refusal :=
  instr s (fun c => classF c.ty && decide (cond.toNat ≤ 7) && Accept.srcVec a && Accept.srcVec b) [] [a, b] fun c =>
    let rs := c.compute fun k j =>
      let es := (List.range (typeElem c.ty).2).map fun i =>
        Fp.fcmp c.fmt c.ftz cond.toNat (c.fcode s a k j i) (c.fcode s b k j i)
      { val := if es.all fun e => e.1 then 1 else 0, flags := es.foldl (fun x e => x ||| e.2) 0, draws := 0 }
    s.deliver c false rs fun g w => g.writeP c.st.slices p.toNat w

def transc (s : State) (op : TOp) (d : Dst) (a : Src) : Host.Outcome State Fault Refusal :=
  instr s (okF d [a]) [d] [a] fun c =>
    s.deliverVX c d (c.fmap s fun k j i => trans op c.fmt c.sat c.ftz (c.fcode s a k j i))

def execFrcp (d : Dst) (a : Src) (s : State) := transc s .rcp d a
def execFrsq (d : Dst) (a : Src) (s : State) := transc s .rsq d a
def execFexp2 (d : Dst) (a : Src) (s : State) := transc s .exp2 d a
def execFlog2 (d : Dst) (a : Src) (s : State) := transc s .log2 d a
def execFsin (d : Dst) (a : Src) (s : State) := transc s .sin d a
def execFcos (d : Dst) (a : Src) (s : State) := transc s .cos d a
def execFtanh (d : Dst) (a : Src) (s : State) := transc s .tanh d a

/-! ## Integer instructions (08 R215, R216) -/

def okVX (d : Dst) (srcs : List Src) : Bool := Accept.dstVX d && srcs.all Accept.srcVec

/-- An integer instruction: an exact value per element, wrapped or clamped under SAT (03 R53). -/
def ibin (s : State) (useSat : Bool) (d : Dst) (a b : Src) (f : IFmt → Int → Int → Int) : Host.Outcome State Fault Refusal :=
  instr s (fun c => classI c.ty && okVX d [a, b]) [d] [a, b] fun c =>
    let t := c.ifmt
    s.deliverVX c d (c.compute fun k j =>
      c.elems s (typeElem c.ty).2 t.w false (fun i _ =>
        (t.fit (useSat && c.sat) (f t (t.value (elemAt t.w (c.val s a k j) i)) (t.value (elemAt t.w (c.val s b k j) i))), 0)) k j)

/-- The shift count: b mod w (08 R215). -/
def shiftCount (t : IFmt) (b : Int) : Nat := (b % (t.w : Int)).toNat

def execIadd (d : Dst) (a b : Src) (s : State) := ibin s true d a b fun _ x y => x + y
def execIsub (d : Dst) (a b : Src) (s : State) := ibin s true d a b fun _ x y => x - y
def execImul (d : Dst) (a b : Src) (s : State) := ibin s true d a b fun _ x y => x * y
def execImin (d : Dst) (a b : Src) (s : State) := ibin s true d a b fun _ x y => min x y
def execImax (d : Dst) (a b : Src) (s : State) := ibin s true d a b fun _ x y => max x y
def execIshl (d : Dst) (a b : Src) (s : State) := ibin s false d a b fun t x y => x * (2 ^ shiftCount t y : Nat)
def execIshr (d : Dst) (a b : Src) (s : State) := ibin s false d a b fun t x y => x / (2 ^ shiftCount t y : Nat)

/-- IMAD: a·b + d, formed exactly (08 R215). -/
def execImad (d : Dst) (a b : Src) (s : State) : Host.Outcome State Fault Refusal :=
  instr s (fun c => classI c.ty && Accept.dstVXonly d && okVX d [a, b]) [d] [a, b] fun c =>
    let t := c.ifmt
    let v (x : Src) (k j i : Nat) : Int := t.value (elemAt t.w (c.val s x k j) i)
    s.deliverVX c d (c.compute fun k j =>
      c.elems s (typeElem c.ty).2 t.w false (fun i _ => (t.fit c.sat (v a k j i * v b k j i + v (dstAsSrc d) k j i), 0)) k j)

/-- A bitwise instruction on the 32-bit images, any TYPE (08 R215). -/
def ibit (s : State) (d : Dst) (a b : Src) (f : W32 → W32 → W32) : Host.Outcome State Fault Refusal :=
  instr s (fun _ => okVX d [a, b]) [d] [a, b] fun c =>
    s.deliverVX c d (c.compute fun k j => { val := f (c.val s a k j) (c.val s b k j), flags := 0, draws := 0 })

def execIand (d : Dst) (a b : Src) (s : State) := ibit s d a b (· &&& ·)
def execIor (d : Dst) (a b : Src) (s : State) := ibit s d a b (· ||| ·)
def execIxor (d : Dst) (a b : Src) (s : State) := ibit s d a b (· ^^^ ·)

/-- The conditions 0 to 5 of the FCMP table on integers (08 R216). -/
def icmpCond (cond : Nat) (a b : Int) : Bool :=
  match cond with
  | 0 => decide (a = b)
  | 1 => decide (a ≠ b)
  | 2 => decide (a < b)
  | 3 => decide (a ≤ b)
  | 4 => decide (b < a)
  | _ => decide (b ≤ a)

def execIcmp (cond : BitVec 4) (p : BitVec 3) (a b : Src) (s : State) : Host.Outcome State Fault Refusal :=
  instr s (fun c => classI c.ty && decide (cond.toNat ≤ 5) && Accept.srcVec a && Accept.srcVec b) [] [a, b] fun c =>
    let t := c.ifmt
    let rs := c.compute fun k j =>
      { val := if (List.range (typeElem c.ty).2).all fun i =>
            icmpCond cond.toNat (t.value (elemAt t.w (c.val s a k j) i)) (t.value (elemAt t.w (c.val s b k j) i)) then 1 else 0
        flags := 0, draws := 0 }
    s.deliver c false rs fun g w => g.writeP c.st.slices p.toNat w

/-! ## Conversions, packing, short dot products (08 R217 to R221) -/

/-- Whether a conversion rounds under ROUND, and so draws under RSR (03 R65, DEDUCED, log 11). -/
def cvtRounds (src dst : Elem) : Bool :=
  match src, dst with
  | .int _, .int _ => false
  | .flt a, .flt b => decide (b.m < a.m) || decide (b.width - b.m < a.width - a.m)
  | _, _ => true

/-- One converted element (03 R67, R53). -/
def convert (src dst : Elem) (rnd w : Nat) (sat ftz : Bool) (x : Nat) : Nat × Flags :=
  match src, dst with
  | .int a, .int b => (b.fit sat (a.value x), 0)
  | .int a, .flt b => cvtIF a b rnd w sat ftz x
  | .flt a, .int b => cvtFI a b rnd w ftz x
  | .flt a, .flt b => cvtFF a b rnd w sat ftz x

/-- A destination that a result of this type class may have (08 R202). -/
def dstFor (ty : Nat) (d : Dst) : Bool := if isFlt ty then Accept.dstF d else Accept.dstVX d

def execCvt (d : Dst) (a : Src) (sel : BitVec 2) (src : BitVec 4) (s : State) : Host.Outcome State Fault Refusal :=
  let ns := (typeElem src.toNat).2
  instr s (fun c =>
      let nd := (typeElem c.ty).2
      decide (src.toNat ≤ 10) && dstFor c.ty d && Accept.srcVec a &&
        (if nd ≤ ns then decide (sel.toNat < ns / nd) else decide (sel = 0))) [d] [a] fun c =>
    let se := (typeElem src.toNat).1
    let (de, nd) := typeElem c.ty
    let draw := decide (c.rnd = 5) && cvtRounds se de
    let n := min ns nd
    s.deliverVX c d (c.compute fun k j =>
      c.elems s n de.width draw (fun i w =>
        convert se de c.rnd w c.sat c.ftz
          (elemAt se.width (c.val s a k j) (if nd ≤ ns then sel.toNat * nd + i else i))) k j)

/-- PACK: bits rearranged (08 R218). -/
def execPack (d : Dst) (a b : Src) (s : State) : Host.Outcome State Fault Refusal :=
  instr s (fun c => classP c.ty && dstFor c.ty d && Accept.srcVec a && Accept.srcVec b) [d] [a, b] fun c =>
    s.deliverVX c d (c.compute fun k j =>
      let x := c.val s a k j
      let y := c.val s b k j
      { val := if (typeElem c.ty).2 = 2 then bitsAt 0 16 y ++ bitsAt 0 16 x
               else bitsAt 16 8 y ++ bitsAt 0 8 y ++ bitsAt 16 8 x ++ bitsAt 0 8 x
        flags := 0, draws := 0 })

/-- UNPACK: one element widened (08 R219). -/
def execUnpack (d : Dst) (a : Src) (sel : BitVec 2) (s : State) : Host.Outcome State Fault Refusal :=
  instr s (fun c => classP c.ty && dstFor c.ty d && Accept.srcVec a && decide (sel.toNat < (typeElem c.ty).2)) [d] [a] fun c =>
    s.deliverVX c d (c.compute fun k j =>
      let e := (typeElem c.ty).1
      let x := elemAt e.width (c.val s a k j) sel.toNat
      match e with
      | .flt f =>
        let (v, fl) := cvtFF f .f32 0 0 false c.ftz x
        { val := BitVec.ofNat 32 v, flags := fl, draws := 0 }
      | .int t => { val := BitVec.ofInt 32 (t.value x), flags := 0, draws := 0 })

/-- FDOT2: products of the elements and an FP32 addend, summed exactly, rounded once (08 R220, 03 R75). -/
def execFdot2 (d : Dst) (a b : Src) (s : State) : Host.Outcome State Fault Refusal :=
  instr s (fun c => classF c.ty && classP c.ty && Accept.dstIsV d && Accept.srcVec a && Accept.srcVec b) [d] [a, b] fun c =>
    s.deliverVX c d (c.compute fun k j =>
      c.elems s 1 32 (decide (c.rnd = 5)) (fun _ w =>
        let add := Fmt.f32.decode c.ftz (c.val s (dstAsSrc d) k j).toNat
        let acc := (List.range (typeElem c.ty).2).foldl (fun (acc : Acc) i =>
          let (p, fl) := exProd (c.fval s a k j i) (c.fval s b k j i)
          acc.add p fl) ({} : Acc)
        let (x, fl) := (acc.add add (snanFlag [add])).result
        let (v, fl') := Fp.deliver .f32 c.rnd w c.sat c.ftz x
        (v, fl ||| fl')) k j)

/-- One NB4 block requantised (08 R221): elements, scale code, flags, words drawn. `ws` gives the coming words (DEDUCED, log 19). -/
def requant (rnd : Nat) (ws : List Nat) (blk ctl : W32) : Nat × Nat × Flags × Nat :=
  let old := ctl.toNat % 256
  let new := ctl.toNat / 256 % 256
  let band := Fmt.bf16.decode false (ctl.toNat / 65536)
  let vs := (List.range 8).map fun i => (exProd (Fmt.e2m1.decode false (elemAt 4 blk i)) (e3m5 old)).1
  let pack (es : List Nat) : Nat := (es.zip (List.range 8)).foldl (fun a e => a + e.1 % 16 * 2 ^ (4 * e.2)) 0
  let draws (code : Nat) : Nat := if rnd = 5 ∧ code ≠ 255 ∧ !(amax vs).isZero then 8 else 0
  if new = 0 then
    let (code, es, fl) := quantNb4 (ws.map fun w => (rnd, w)) vs band
    (pack es, code, fl, draws code)
  else if new = 255 ∨ vs.any Val.isNan ∨ band.isZero ∨ band.isInf ∨ band.isNan then
    -- a quiet NaN or a NaN scale raises nothing (R221)
    (0, 255, if band.isZero ∨ band.isInf ∨ band.isSnan then NV else 0, 0)
  else
    let y := mulFin (e3m5 new) band
    let es := (vs.zip ws).map fun (v, w) => quantElem .e2m1 rnd w v y
    (pack (es.map fun t => t.1), new, es.foldl (fun a t => a ||| t.2.1 ||| (if t.2.2 then OF else 0)) 0,
      if rnd = 5 then 8 else 0)

/-- REQ writes the element word to d and the scale code to the next register (08 R221). -/
def execReq (d : Dst) (a b : Src) (s : State) : Host.Outcome State Fault Refusal :=
  instr s (fun c =>
      (match d with
       | .v n => decide (n.toNat ≤ 126) && c.vOk s n.toNat 2
       | _ => false) && Accept.srcVec a && Accept.srcVec b) [d] [a, b] fun c =>
    let r (k j : Nat) := requant c.rnd ((List.range 8).map (c.word s k j)) (c.val s a k j) (c.val s b k j)
    let rs := c.compute fun k j =>
      let q := r k j
      { val := BitVec.ofNat 32 q.1, flags := q.2.2.1, draws := q.2.2.2 }
    match d with
    | .v n =>
      s.deliver c true rs fun g w =>
        (g.writeVX c.st.slices d w fun _ => .top).writeV c.st.slices (n.toNat + 1) fun k j =>
          (w k j).map fun _ => BitVec.ofNat 32 (r k j).2.1
    | _ => s.encoding c

/-- FPCTL (08 R222); its form clr clears FPFLAGS as well, which 03 R71 gives to SETSR alone (DESIGN CHOICE, log 108). -/
def execFpctl (a : Src) (op : BitVec 2) (s : State) : Host.Outcome State Fault Refusal :=
  instr s (fun _ => Accept.srcSZ a) [] [a] fun c =>
    if c.gate then
      let m : Flags := bitsAt 0 5 (c.val64 s a)
      s.done c (match op.toNat with
        | 0 => { c.g with fptrap := m }
        | 1 => { c.g with fptrap := c.g.fptrap ||| m }
        | 2 => { c.g with fptrap := c.g.fptrap &&& ~~~m }
        | _ => { c.g with fpflags := c.g.fpflags &&& ~~~m })
    else s.skip c

/-- MODE (02 R40): not guarded. -/
def execMode (ty : BitVec 4) (rnd : BitVec 3) (sat : BitVec 1) (g : BitVec 4) (ftz : BitVec 1) (s : State) :
    Host.Outcome State Fault Refusal :=
  instr s (fun _ => Accept.modeFields ty rnd) [] [] fun c =>
    s.put c.g { c.st with pc := c.is.fall, wait := .none, mode := ty ++ rnd ++ sat ++ g ++ ftz ++ 0#11 }

/-- NOP (02 R49). -/
def execNop (s : State) : Host.Outcome State Fault Refusal := instr s (fun _ => true) [] [] fun c => s.skip c

end Sys2Proof.Machine
end

