-- ==== Sys2Proof/Machine/Moves.lean ====
section
/-! DEFINITION. Row 0x70, GETSR and SETSR: moves, predicates, array and shape registers, special registers, PARK (06 R161 to R173). -/

namespace Sys2Proof.Machine

open Sys2Proof

/-- The signed values that the writing lanes of slice k get. -/
def writtenValues (f : LaneFn) (k : Nat) : List Int :=
  lanes4.filterMap fun j => (f k j).map fun w => w.toInt

/-- The exact hull of what a slice gets (06 R166, R169) (DEDUCED, log 24). -/
def writtenHull (f : LaneFn) (k : Nat) : Rime := hullOf 32 (writtenValues f k)

/-- The rime that MOV and SEL take from a source whose written values `f` gives (06 R166). -/
def Ctx.movRime (s : State) (c : Ctx) (a : Src) (f : LaneFn) (k : Nat) : Rime :=
  match a with
  | .imm _ | .id _ | .zero => writtenHull f k
  | a => c.rimeOf s 32 a k

/-- MOV (06 R166). -/
def execMov (d : Dst) (a : Src) (s : State) : Host.Outcome State Fault Refusal :=
  instr s (fun _ => Accept.mov d a) [d] [a] fun c =>
    match d with
    | .s n =>
      if c.gate then
        let v := c.val64 s a
        s.done c (c.g.setS n.toNat v (match a with
          | .s m => c.g.srime m.toNat
          | _ => exact64 v))
      else s.skip c
    | d =>
      let f : LaneFn := fun k j => if c.active k j then some (c.val s a k j) else none
      s.done c (c.g.writeVX c.st.slices d f (c.movRime s a f))

/-- SEL: GUARD's predicate chooses, every enabled thread writes (06 R167). -/
def execSel (d : Dst) (a b : Src) (s : State) : Host.Outcome State Fault Refusal :=
  instr s (fun _ => Accept.dstVX d && Accept.srcVec a && Accept.srcVec b) [d] [a, b] fun c =>
    let pick (k j : Nat) : Bool := predSel (c.g.thread k j).p (modeGuard c.st.mode)
    let fa : LaneFn := fun k j => if c.enabled k j && pick k j then some (c.val s a k j) else none
    let fb : LaneFn := fun k j => if c.enabled k j && !pick k j then some (c.val s b k j) else none
    let f : LaneFn := fun k j => (fa k j).or (fb k j)
    s.done c (c.g.writeVX c.st.slices d f fun k =>
      let ra := c.movRime s a fa k
      let rb := c.movRime s b fb k
      if lanes4.all fun j => (fb k j).isNone then ra
      else if lanes4.all fun j => (fa k j).isNone then rb
      else Rime.hullW 32 ra rb)

/-- A predicate instruction: each active thread writes p (06 R168). -/
def predOp (s : State) (ok : Bool) (p : BitVec 3) (f : BitVec 8 → Bool) : Host.Outcome State Fault Refusal :=
  instr s (fun _ => ok) [] [] fun c =>
    s.done c (c.g.mapThreads c.st.slices fun k j t => if c.active k j then t.setP p.toNat (f t.p) else t)

def execPand (p : BitVec 3) (a b : BitVec 4) (s : State) :=
  predOp s true p fun q => predSel q a.toNat && predSel q b.toNat
def execPor (p : BitVec 3) (a b : BitVec 4) (s : State) :=
  predOp s true p fun q => predSel q a.toNat || predSel q b.toNat
def execPxor (p : BitVec 3) (a b : BitVec 4) (s : State) :=
  predOp s true p fun q => xor (predSel q a.toNat) (predSel q b.toNat)
def execPnot (p : BitVec 3) (a : BitVec 4) (s : State) := predOp s true p fun q => !predSel q a.toNat
def execPmov (p : BitVec 3) (a : BitVec 4) (imm value : BitVec 1) (s : State) :=
  predOp s (decide (imm = 0) || decide (a = 0)) p fun q =>
    if imm = 1 then decide (value = 1) else predSel q a.toNat

/-- PGET (06 R169). -/
def execPget (d : Dst) (single : BitVec 1) (sel : BitVec 4) (s : State) : Host.Outcome State Fault Refusal :=
  instr s (fun _ => Accept.dstVX d && (decide (single = 1) || decide (sel = 0))) [d] [] fun c =>
    let f : LaneFn := fun k j =>
      if c.active k j then
        let p := (c.g.thread k j).p
        some (if single = 1 then (if predSel p sel.toNat then 1 else 0) else BitVec.ofNat 32 (128 + p.toNat % 128))
      else none
    s.done c (c.g.writeVX c.st.slices d f (writtenHull f))

/-- One half of a 128-bit register replaced. -/
def setHalf (old : W128) (half : BitVec 1) (v : W64) : W128 :=
  if half = 1 then v ++ bitsAt 0 64 old else bitsAt 64 64 old ++ v

def getHalf (x : W128) (half : BitVec 1) : W64 := if half = 1 then bitsAt 64 64 x else bitsAt 0 64 x

/-- An array register's reserved bits 77:57 are stored as zero (06 R161, R170). -/
def arrayMask : W128 := ~~~((BitVec.ofNat 128 (2 ^ 21 - 1)) <<< 57)

/-- A shape record's reserved bits 28:0 are stored as zero (06 R162). -/
def shapeMask : W128 := ~~~(BitVec.ofNat 128 (2 ^ 29 - 1))

def execAset (n : BitVec 4) (a : Src) (half : BitVec 1) (s : State) : Host.Outcome State Fault Refusal :=
  instr s (fun _ => decide (4 ≤ n.toNat) && Accept.srcSZ64 a) [] [a] fun c =>
    if c.gate then s.done c (c.g.setA n.toNat (setHalf (c.g.areg n.toNat) half (c.val64 s a) &&& arrayMask))
    else s.skip c

def execHset (n : BitVec 3) (a : Src) (half : BitVec 1) (s : State) : Host.Outcome State Fault Refusal :=
  instr s (fun _ => Accept.srcSZ64 a) [] [a] fun c =>
    if c.gate then s.done c (c.g.setH n.toNat (setHalf (c.g.hreg n.toNat) half (c.val64 s a) &&& shapeMask))
    else s.skip c

/-- A 64-bit value into an s register, gang-uniform, rime exact. -/
def Ctx.putS (s : State) (c : Ctx) (d : Dst) (v : W64) : State :=
  if c.gate then
    match d with
    | .s n => s.done c (c.g.setS n.toNat v (exact64 v))
    | _ => s.skip c
  else s.skip c

def execAget (d : Dst) (n : BitVec 4) (half : BitVec 1) (s : State) : Host.Outcome State Fault Refusal :=
  instr s (fun _ => Accept.dstIsS d) [d] [] fun c => c.putS s d (getHalf (c.g.areg n.toNat) half)

def execHget (d : Dst) (n : BitVec 3) (half : BitVec 1) (s : State) : Host.Outcome State Fault Refusal :=
  instr s (fun _ => Accept.dstIsS d) [d] [] fun c => c.putS s d (getHalf (c.g.hreg n.toNat) half)

/-! ## Special registers (06 R163, R173) -/

/-- A path counter: the items of the path that are not complete (12 R307). -/
def Gang.counter (g : Gang) (p : Path) : Nat := (g.paths.filter fun i => decide (i.path = p)).length

/-- PATHS (12 R309). -/
def Gang.pathsReg (g : Gang) : Nat :=
  g.counter .ld + g.counter .st * 2 ^ 8 + g.counter .cp * 2 ^ 16 + g.counter .mx * 2 ^ 24 + g.counter .gx * 2 ^ 32 +
    g.counter .cl * 2 ^ 40

/-- The priority token's place in the state: one per partition of each core (05 R128). -/
def tokenKey (core part : Nat) : Nat := core * Config.partitions + part

/-- PRIOTOK (05 R128): bit 63 says that there is no holder. -/
def State.priotok (s : State) (core part : Nat) : Nat :=
  match Sparse.get 0 s.token (tokenKey core part) with
  | 0 => 2 ^ 63
  | n + 1 =>
    match s.gang? n with
    | some g => g.g % 32 + g.team % 2 ^ 32 * 2 ^ 16
    | none => 2 ^ 63

/-- A special register of the issuing strand (06 R163); reserved numbers read zero. Of the flags that strands not joined
yet have raised FPFLAGS shows any (03 R73; DESIGN CHOICE, log 21). -/
def Ctx.special (s : State) (c : Ctx) (n : Nat) : W64 :=
  let t := s.tmplOf c.g
  let grid := s.grid? c.g.grid
  let ofGrid (f : Grid → Nat) : W64 := match grid with
    | some G => w64 (f G)
    | none => 0
  match n with
  | 0x00 => w64 (s.cycleOf c.g.core)
  | 0x01 => c.g.trap.tvec
  | 0x02 => c.g.trap.tcause
  | 0x03 => c.g.trap.tpc
  | 0x04 => c.g.trap.tmask
  | 0x05 => c.g.trap.tword
  | 0x06 => c.g.trap.topa
  | 0x07 => c.g.trap.topb
  | 0x08 => c.g.trap.topd
  | 0x09 => c.g.trap.taddr
  | 0x0A => (c.g.fpflags &&& ~~~(c.st.unseen &&& BitVec.ofNat 5 (Config.freeValue s.free))).zeroExtend 64
  | 0x0B => c.g.fptrap.zeroExtend 64
  | 0x0C => c.st.mode.zeroExtend 64
  | 0x0D => w64 c.g.pathsReg
  | 0x10 => ofGrid fun G => G.launch.seed
  | 0x11 => ofGrid fun G => G.cpytab.toNat
  | 0x12 => ofGrid fun G => G.gridrec.toNat
  | 0x13 => ofGrid fun G => G.serial % 2 ^ 48 * 2 ^ 16 + G.prio * 2 ^ 8 + G.depth
  | 0x14 => w64 (t.gangs * t.threads * 2 ^ 16 + t.threads * 2 ^ 8 + t.gangs)
  | 0x15 => ofGrid fun G =>
      (match G.pop with
       | some _ => 2 ^ 48
       | none => 0) + t.clteams * 2 ^ 32 + G.launch.teams
  | 0x16 => w64 (t.scratch * 4096)
  | 0x17 => w64 (s.priotok c.g.core c.g.part)
  | _ => 0

/-- GETSR (06 R163, R173). Of LINEAGE and POPIX the two registers are written with one latch shift, by the low one
(DESIGN CHOICE, log 107). -/
def execGetsr (d : Dst) (n : BitVec 8) (s : State) : Host.Outcome State Fault Refusal :=
  instr s (fun c => Accept.getsr d n &&
      (match d with
       | .v k => c.vOk s k.toNat 2
       | _ => true)) [d] [] fun c =>
    match d with
    | .v k =>
      let r (k j : Nat) : Nat := let t := c.g.thread k j; if n = 0x0E then t.lineage else t.popix
      let f (hi : Nat) : LaneFn := fun k j => if c.active k j then some (BitVec.ofNat 32 (r k j / 2 ^ hi)) else none
      s.done c ((c.g.writeVX c.st.slices d (f 0) fun _ => .top).writeV c.st.slices (k.toNat + 1) (f 32))
    | d =>
      let s' := if n = 0x0A ∧ c.st.unseen ≠ 0 then { s with free := s.free + 1 } else s
      c.putS s' d (c.special s n.toNat)

/-- SETSR: reserved bits are ignored; GMODE acts as MODE, unguarded (06 R173, 02 R37, 17 R414). -/
def execSetsr (a : Src) (n : BitVec 8) (s : State) : Host.Outcome State Fault Refusal :=
  instr s (fun _ => Accept.srcSZ64 a && Accept.writableSr n) [] [a] fun c =>
    let v := c.val64 s a
    let tr := c.g.trap
    if n = 0x0C then
      let m : BitVec 24 := bitsAt 0 24 v
      if Accept.modeFields (bitsAt 20 4 m) (bitsAt 17 3 m) && decide ((bitsAt 0 11 m : BitVec 11) = 0) then
        s.put c.g { c.st with pc := c.is.fall, wait := .none, mode := m }
      else s.encoding c
    else if !c.gate then s.skip c
    else
      match n.toNat with
      | 1 => s.done c { c.g with trap := { tr with tvec := v &&& w64 (2 ^ 57 - 1 - 2) } }
      | 2 => s.done c { c.g with trap := { tr with tcause := (tr.tcause &&& w64 (2 ^ 64 - 512)) ||| (v &&& 511) } }
      | 3 => s.done c { c.g with trap := { tr with tpc := v } }
      | 4 => s.done c { c.g with trap := { tr with tmask := v } }
      | 10 =>
        let g := { c.g with fpflags := bitsAt 0 5 v, strands := c.g.strands.map fun y => { y with unseen := 0 } }
        s.done { c with st := { c.st with unseen := 0 } } g
      | _ => s.done c { c.g with fptrap := bitsAt 0 5 v }

/-! ## PARK, and the row budget (06 R149, R150, R172) -/

/-- Row budget in quarters of a slice: 4·B (06 R149). -/
def Template.budget (t : Template) : Nat :=
  let n := t.vregs + t.xregs
  let b := if t.pack = 2 then (n + 1) / 2 else if t.pack = 1 then (2 * n + 2) / 3 else n
  4 * max b (min n 12)

def Slice.quarters (sl : Slice) : Nat := sl.classes.foldl (fun a kc => a + kc.2.quarters) 0

def Slice.cls (sl : Slice) (code : Nat) : RegClass := Sparse.get .zero sl.classes code

/-- Whether register `code` is held in firn. -/
def Gang.spilled (g : Gang) (code : Nat) : Bool := g.slices.any fun sl => decide (sl.cls code = .spilled)

/-- A SPILLED register brought back with the class its values give (06 R150). -/
def Gang.filled (g : Gang) (code : Nat) : Gang := { g with slices := g.slices.map fun sl => sl.reclass code }

def Gang.fits (g : Gang) (budget : Nat) : Bool := g.slices.all fun sl => decide (sl.quarters ≤ budget)

/-- A range of one register class within the declared registers (06 R172). -/
def Ctx.parkOk (s : State) (c : Ctx) (r : BitVec 8) (cnt : BitVec 5) : Bool :=
  let n := cnt.toNat + 1
  if r.toNat < 0x80 then c.vOk s r.toNat n
  else if r.toNat < 0xA0 then decide (r.toNat - 0x80 + n ≤ (s.tmplOf c.g).xregs)
  else false

/-- PARK hands the resident registers of the range to the spill engine; the strand goes on. -/
def execPark (r : BitVec 8) (cnt : BitVec 5) (s : State) : Host.Outcome State Fault Refusal :=
  instr s (fun c => c.parkOk s r cnt) [] [] fun c =>
    if c.gate then
      let codes := (vCodes r.toNat (cnt.toNat + 1)).filter fun x => !c.g.spilled x && !c.g.parkQ.contains x
      s.done c { c.g with parkQ := c.g.parkQ ++ codes }
    else s.skip c

end Sys2Proof.Machine
end

