-- ==== Sys2Proof/Machine/Access.lean ====
section
/-! DEFINITION. What every memory instruction decides before it has an effect: the array register, the rime test and
the offending lanes, alignment, translation of each lane's bytes (06 R161, 07 R193, R194, 09 R230 to R233, R238,
R239, R244, R247, R248). -/

namespace Sys2Proof.Machine

open Sys2Proof

/-- An array register's fields (06 R161). -/
structure Arr where
  extent : Nat
  space : Nat
  logsz : Nat
  trap : Bool
  we : Bool
  hint : Nat
  base : Nat
  deriving DecidableEq, Repr

def arrOf (x : W128) : Arr :=
  let n := x.toNat
  { extent := if 5 ≤ field n 87 85 then 0 else field n 127 88, space := field n 87 85, logsz := field n 84 82
    trap := bitOf n 81, we := bitOf n 80, hint := field n 79 78, base := field n 56 0 }

def Ctx.arr (c : Ctx) (n : BitVec 4) : Arr := arrOf (c.g.areg n.toNat)

/-- Bytes of the array's region. -/
def Arr.bytes (a : Arr) : Nat := 2 ^ a.logsz * a.extent

/-- Scratchpad size S of a template. -/
def Template.scratchBytes (t : Template) : Nat := t.scratch * 4096

/-- Size and position of a team in its cluster group (09 R238). -/
def groupPos (clteams teams team : Nat) : Nat × Nat :=
  if clteams = 0 then (1, 0) else (min clteams (teams - clteams * (team / clteams)), team % clteams)

def State.teamsOf (s : State) (g : Gang) : Nat :=
  match s.grid? g.grid with
  | some G => G.launch.teams
  | none => 1

/-- The space limit (09 R230); device space has none. -/
def State.spaceLimit (s : State) (g : Gang) (space : Nat) : Nat :=
  let t := s.tmplOf g
  match space with
  | 0 => 65536
  | 1 => t.scratchBytes
  | 2 => (groupPos t.clteams (s.teamsOf g) g.team).1 * t.scratchBytes
  | 3 => t.chip * 65536
  | _ => 0

/-- The region of spaces 0 to 3 lies within the space (09 R232). -/
def State.regionOk (s : State) (g : Gang) (a : Arr) : Bool :=
  decide (4 ≤ a.space) || decide (a.base + a.bytes ≤ s.spaceLimit g a.space)

def Arr.misaligned (a : Arr) : Bool := decide (a.space ≤ 3) && decide (a.base % 2 ^ a.logsz ≠ 0)

/-- Gang index in the grid of a thread, or its population slot (09 R233). -/
def State.windowIdx (s : State) (g : Gang) (k j : Nat) : Nat :=
  let t := s.tmplOf g
  match s.grid? g.grid with
  | some G =>
    match G.pop with
    | some _ => (g.thread k j).popix
    | none => g.team * (t.gangs * t.threads) + g.g * t.threads + 4 * k + j
  | none => 0

/-- The index operand of a memory instruction: a full s register, else the 32-bit value (07 R193) (DEDUCED, log 28). -/
def Ctx.index64 (s : State) (c : Ctx) (a : Src) (k j : Nat) : Int :=
  match a with
  | .s n => (c.g.sreg n.toNat).toInt
  | a => c.sval s a k j

def dispOf (w : AccWord) : Int := w.disp.toInt
def bytesOf (w : AccWord) : Nat := 2 ^ w.size.toNat

/-- The hull H of the index over the issuing slices that hold an active thread (07 R193). -/
def Ctx.hull (s : State) (c : Ctx) (a : Src) (disp : Int) : Rime :=
  let ks := c.st.slices.filter fun k => lanes4.any (c.active k)
  let w := match a with
    | .s _ => 64
    | _ => 32
  match hullRimes (ks.map fun k => c.rimeOf s w a k) with
  | .iv lo hi => .iv (lo + disp) (hi + disp)
  | .top => .top

/-- The rime test of R193: the access issues unchecked. -/
def Ctx.unchecked (s : State) (c : Ctx) (ar : Arr) (a : Src) (disp : Int) (w : Nat) : Bool :=
  match c.hull s a disp with
  | .iv lo hi => decide (0 ≤ lo) && decide (hi + (w : Int) ≤ (ar.extent : Int))
  | .top => false

/-- A lane of a memory instruction and its byte address in the space. -/
structure LaneAddr where
  k : Nat
  j : Nat
  addr : Nat
  deriving DecidableEq, Repr

/-- What the checks of R248, steps 2 to 4, come to. -/
inductive Prep where
  | stop (s : State)
  | go (lanes : List LaneAddr) (off : List (Nat × Nat))

def alignTrap (s : State) (c : Ctx) (bad : List (Nat × Nat)) (addr : Nat) : State :=
  s.userTrap c c.g { cause := 13, tmask := maskOf bad, taddr := addr }

/-- Steps 2 to 4 of R248. `w` is the element count that enters R193, `align` the alignment of byte addresses, `wide`
says that an access narrower than an element raises ALIGN, `quiet` that offending lanes never trap (R285). -/
def Ctx.prep (s : State) (c : Ctx) (ar : Arr) (a : Src) (disp : Int) (w align : Nat) (narrow writes quiet : Bool)
    (spaces : List Nat) : Prep :=
  if ar.misaligned then .stop (alignTrap s c c.activeLanes ar.base)
  else
    let allOff := !(s.regionOk c.g ar) || (writes && !ar.we) || !spaces.contains ar.space
    let un := c.unchecked s ar a disp w
    let e (kj : Nat × Nat) : Int := c.index64 s a kj.1 kj.2 + disp
    let off := c.activeLanes.filter fun kj =>
      allOff || (!un && (decide (e kj < 0) || decide ((ar.extent : Int) < e kj + (w : Int))))
    match ar.trap && !quiet, off with
    | true, kj :: _ => .stop (s.userTrap c c.g { cause := 3, tmask := maskOf off, taddr := wrapTo 64 (e kj) })
    | _, _ =>
      let ok := c.activeLanes.filter fun kj => !off.contains kj
      let lanes := ok.map fun kj => { k := kj.1, j := kj.2, addr := ar.base + 2 ^ ar.logsz * (e kj).toNat : LaneAddr }
      if narrow && !c.activeLanes.isEmpty then .stop (alignTrap s c c.activeLanes c.is.pc)
      else
        match lanes.filter fun l => decide (l.addr % align ≠ 0) with
        | [] => .go lanes off
        | l :: ls => .stop (alignTrap s c ((l :: ls).map fun x => (x.k, x.j)) l.addr)

/-- The checks of LD and its like (R247): W from SIZE, natural alignment up to 16. A W below 1 counts as 1: the bounds are
whole numbers (DEDUCED, log 34). -/
def Ctx.prepSized (s : State) (c : Ctx) (ar : Arr) (a : Src) (w : AccWord) (writes quiet : Bool) (spaces : List Nat) : Prep :=
  let n := bytesOf w
  c.prep s ar a (dispOf w) ((n + 2 ^ ar.logsz - 1) / 2 ^ ar.logsz) (min n 16) (decide (n < 2 ^ ar.logsz)) writes quiet spaces

/-! ## Places of a lane's bytes (R248 step 5) -/

def State.teamKey (s : State) (grid idx : Nat) : Nat :=
  match s.team? grid idx with
  | some t => t.key
  | none => 0

/-- A byte address of spaces 1 to 3 as a place (09 R230, R238, R239). -/
def State.localPlace (s : State) (g : Gang) (space addr : Nat) : Place :=
  let t := s.tmplOf g
  match space with
  | 1 => .scratch (s.teamKey g.grid g.team) addr
  | 2 =>
    let sz := t.scratchBytes
    let pos := (groupPos t.clteams (s.teamsOf g) g.team).2
    .scratch (s.teamKey g.grid (g.team - pos + addr / sz)) (addr % sz)
  | _ =>
    match s.grid? g.grid with
    | some G => .chip (G.chip.getD (addr / 65536) 0 * 65536 + addr % 65536)
    | none => .chip 0

/-- The place of one aligned piece of at most 16 bytes. -/
def State.piece (s : State) (g : Gang) (space k j addr : Nat) (rd wr : Bool) : Except Fail (State × Place) :=
  let asid := (s.tmplOf g).asid
  match space with
  | 0 => s.privatePlace g asid (s.privbase asid + 65536 * s.windowIdx g k j) (4 * k + j) addr wr
  | 4 =>
    match s.access g.core asid addr rd wr with
    | .error f => .error f
    | .ok (s', pa) => .ok (s', .phys pa)
  | _ =>
    let p := s.localPlace g space addr
    if rd && s.spoilt p then .error ⟨5, 0, addr, addr⟩ else .ok (s, p)

/-- A lane with the places of its bytes. -/
structure LanePlaces where
  k : Nat
  j : Nat
  addr : Nat
  places : List Place
  deriving DecidableEq, Repr

def State.lanePlaces (s : State) (g : Gang) (space n : Nat) (rd wr : Bool) (l : LaneAddr) : Except Fail (State × LanePlaces) :=
  let step := min n 16
  match foldE (fun s i => match s.piece g space l.k l.j (l.addr + step * i) rd wr with
      | .error f => .error f
      | .ok (s', p) => .ok (s', (List.range step).map p.plus)) s (List.range (n / step)) with
  | .error f => .error f
  | .ok (s', ps) => .ok (s', { k := l.k, j := l.j, addr := l.addr, places := ps.flatten })

def State.places (s : State) (g : Gang) (space n : Nat) (rd wr : Bool) (ls : List LaneAddr) :
    Except Fail (State × List LanePlaces) :=
  foldE (fun s l => s.lanePlaces g space n rd wr l) s ls

/-! ## Waits that memory instructions share -/

/-- Whether a place lies in another member's memory or in host memory: such an access waits for its reply (18 R446). -/
def State.isRemote (s : State) (p : Place) : Bool :=
  match p with
  | .phys pa =>
    match s.region pa with
    | .remote _ _ | .host => true
    | _ => false
  | _ => false

/-- Whether a place lies in host memory. -/
def State.isHost (s : State) (p : Place) : Bool :=
  match p with
  | .phys pa => decide (s.region pa = .host)
  | _ => false

/-- A store to host memory that is not performed stands before a release of the same slices: a read of host memory does
not pass it (18 R441). -/
def State.hostWaits (s : State) (g : Gang) (slices : List Nat) : Bool :=
  let mine := g.accesses.filter fun a => meets a.slices slices
  (mine.dropWhile fun a => !(a.writes.any fun w => s.isHost w.place)).any fun a => a.release

def State.anyRemote (s : State) (ls : List LanePlaces) : Bool := ls.any fun l => l.places.any s.isRemote

/-- Lanes some of whose lines are empty (09 R244). -/
def State.emptyLanes (s : State) (ls : List LanePlaces) : List LanePlaces :=
  ls.filter fun l => l.places.any fun p => !s.lineF p

/-- The gang as a state holds it after translation changed the state. -/
def Ctx.refresh (s : State) (c : Ctx) : Ctx :=
  match s.gang? c.g.gid with
  | some g => { c with g := g }
  | none => c

/-- Whether path `p` has room for one more (12 R308). -/
def Ctx.room (c : Ctx) (p : Path) : Bool := decide (c.g.counter p < 255)

/-- Steps 5 and 6 of R248 and the waits at issue: translation of all lanes, the reply of a remote access, the empty
stall, room on the path; then `k` with the state and the context that translation left. -/
def Ctx.locate (s : State) (c : Ctx) (p : Path) (space n : Nat) (rd wr waits : Bool) (lanes : List LaneAddr)
    (k : State → Ctx → List LanePlaces → State) : State :=
  match s.places c.g space n rd wr lanes with
  | .error f => s.gangFault c c.g (c.failInfo f) none none
  | .ok (s1, ls) =>
    let c1 := c.refresh s1
    let empty := if waits then s1.emptyLanes ls else []
    match empty with
    | l :: _ =>
      if s.emptyOver c.g c.st then
        s.userTrap c c.g { cause := 7, tmask := maskOf (empty.map fun x => (x.k, x.j)), taddr := l.addr }
      else s1.blockEmpty c1 c1.g ((empty.flatMap fun x => (x.places.filter fun p => !s1.lineF p).map Place.line).eraseDups)
    | [] =>
      let far := ls.filter fun l => l.places.any s.isRemote
      if (c.st.wait = .lost ∨ c.st.wait = .homeReset) ∧ far ≠ [] then
        let va := (far.map fun l => l.addr).headD 0
        let awake := c1.g.setStrand { c1.st with wait := .none }
        s1.gangFault c1 awake (c1.failInfo ⟨4, if c.st.wait = .lost then 1 else 3, va, va⟩) none none
      else if s1.anyRemote ls && decide (c.st.wait ≠ .remote) then s1.block c1 c1.g .remote
      else if rd && (ls.any fun l => l.places.any s.isHost) && s1.hostWaits c1.g c1.st.slices then s1.block c1 c1.g .other
      else if c1.room p then k s1 c1 ls
      else s1.block c1 c1.g .other

/-- p6 of each active lane under a MASK-mode register (07 R194). -/
def Gang.writeP6 (g : Gang) (c : Ctx) (ar : Arr) (off : List (Nat × Nat)) : Gang :=
  if ar.trap then g
  else g.mapThreads c.st.slices fun k j t => if c.active k j then t.setP 6 (off.contains (k, j)) else t

/-! ## Lanes that meet in one byte: their order is free (09 R251, 10 R279; DESIGN CHOICE, log 6) -/

/-- A list in an order that the free values from number `n` on choose. -/
def freePerm {α : Type} : Nat → Nat → List α → List α
  | _, _, [] => []
  | 0, _, l => l
  | fuel + 1, n, a :: l =>
    let i := Config.freeValue n % (l.length + 1)
    let all := a :: l
    (all[i]?).toList ++ freePerm fuel (n + 1) (all.eraseIdx i)

/-- Whether no two lanes touch one byte. -/
def disjointLanes (ls : List LanePlaces) : Bool :=
  match ls with
  | [] => true
  | l :: rest => rest.all (fun x => x.places.all fun p => !l.places.contains p) && disjointLanes rest

/-- The lanes in the order they are performed, and the state with the free values drawn. -/
def State.ordered (s : State) (ls : List LanePlaces) : State × List LanePlaces :=
  if disjointLanes ls then (s, ls)
  else ({ s with free := s.free + ls.length }, freePerm ls.length s.free ls)

end Sys2Proof.Machine
end

