-- ==== Sys2Proof/Machine/Engine.lean ====
section
/-! DEFINITION. What every engine command shares: lines and runs, acceptance, landing, completion, faults that
surface, WAITC and WAITZ (12 R307 to R318, R329, R330). -/

namespace Sys2Proof.Machine

open Sys2Proof

/-! ## Faults that surface (R310, R311) -/

/-- A fault stopped the command: not a gather nor an NZSCAN, whose other rows are zeros (15 R386). -/
def Cmd.stopped (k : Cmd) : Bool := k.fault.isSome && decide (k.kind ≠ .gath) && decide (k.kind ≠ .nzscan)

/-- The KIND of the record that a status surfaces as. -/
def Status.kind (st : Status) : Nat :=
  match st.code with
  | 3 => 5
  | k => k

/-- A failing access as a command's status. -/
def Fail.toStatus (f : Fail) : Status :=
  { code := (match f.kind with
      | 5 => 3
      | k => k)
    reason := f.reason, addr := f.addr, shown := f.shown, topa := 0 }

/-- A gang wherever it is, on a core or in a save record. -/
def State.anyGang? (s : State) (gid : Nat) : Option Gang :=
  match s.gang? gid with
  | some g => some g
  | none => (s.saved.flatMap fun v => v.gangs).find? fun g => decide (g.gid = gid)

def State.setAnyGang (s : State) (g : Gang) : State :=
  let s := s.setGang g
  { s with saved := s.saved.map fun v => { v with gangs := v.gangs.map fun x => if x.gid = g.gid then g else x } }

/-- The oldest record of the gang that `need` covers and that has not surfaced. -/
def Gang.oldestRecord (g : Gang) (need : Completion → Bool) : Option Completion :=
  match g.records.filter fun r => !r.reported && need r with
  | [] => none
  | r :: l => some (l.foldl (fun a b => if b.cmd.id < a.cmd.id then b else a) r)

/-- Whether command `k` of gang `owner` names landing-count register `n` of gang `gid`: a CPYM names those of its mirror
gangs (R316, R324). -/
def Cmd.names (k : Cmd) (owner gid n : Nat) : Bool :=
  if k.kind = .cpym then k.lines.any fun l => decide (l.lc = some (gid, n)) else decide (owner = gid) && decide (k.lcreg = some n)

/-- The oldest faulted record that names landing-count register `n` of the gang, with the gang that issued the command:
its own records first. -/
def State.recordNaming (s : State) (g : Gang) (n : Nat) : Option (Gang × Completion) :=
  (g :: (s.gangs ++ s.saved.flatMap fun v => v.gangs).filter fun o => o.gid ≠ g.gid).findSome? fun o =>
    (o.oldestRecord fun r => r.cmd.names o.gid g.gid n).map fun r => (o, r)

/-- A record marked as surfaced, in the gang that issued the command. -/
def Gang.reported (g : Gang) (id : Nat) : Gang :=
  let mark (x : Completion) : Completion := if x.cmd.id = id then { x with reported := true } else x
  { g with records := g.records.map mark }

/-- What a record of gang `owner` does at the instruction where it surfaces: status 5 is the user trap BOUNDS and clears the
record (15 R385), the others a gang fault whose replay runs the command again. -/
def State.surface (s : State) (c : Ctx) (owner : Gang) (r : Completion) : State :=
  let st := r.cmd.status.getD Status.none
  if st.code = 5 then
    let g := { c.g with records := c.g.records.filter fun x => x.cmd.id ≠ r.cmd.id }
    s.userTrap { c with g := g } g
      { cause := 3, tmask := 0, taddr := st.addr, engine := true, words := some (r.cmd.word, st.topa, r.cmd.pc) }
  else
    let mine := decide (owner.gid = c.g.gid)
    let s := if mine then s else s.setAnyGang (owner.reported r.cmd.id)
    let g := if mine then c.g.reported r.cmd.id else c.g
    let g := { g with
      trap := { g.trap with topb := w64 r.cmd.pc }
      strands := g.strands.map fun x => if x.slices = c.st.slices then { x with wait := .none } else x }
    s.gangFault c g
      { kind := st.kind, reason := st.reason, flags := 4, pc := c.is.pc, addr := st.shown, va := st.addr, word := r.cmd.word
        arg := r.cmd.pc } none (some (owner.gid, r.cmd.id))

/-! ## WAITC and WAITZ (R329, R330) -/

def pathOf (n : Nat) : Path :=
  match n with
  | 0 => .ld
  | 1 => .st
  | 2 => .cp
  | 3 => .mx
  | 4 => .gx
  | _ => .cl

def execWaitc (path : BitVec 3) (n : BitVec 8) (s : State) : Host.Outcome State Fault Refusal :=
  instr s (fun _ => decide (path.toNat ≤ 5)) [] [] fun c =>
    if !c.gate then s.skip c
    else
      match c.g.oldestRecord fun r => decide (r.cmd.path = pathOf path.toNat) && decide (n.toNat ≤ r.after) with
      | some r => s.surface c c.g r
      | none => if c.g.counter (pathOf path.toNat) ≤ n.toNat then s.skip c else s.block c c.g .paths

def execWaitz (a : Src) (s : State) : Host.Outcome State Fault Refusal :=
  instr s (fun _ => Accept.isS a) [] [] fun c =>
    match a with
    | .s n =>
      if !c.gate then s.skip c
      else
        match s.recordNaming c.g n.toNat with
        | some (o, r) => s.surface c o r
        | none =>
          if c.g.sreg n.toNat = 0 then s.done c { c.g with sr := Sparse.set Rime.zero c.g.sr n.toNat (.iv 0 0) }
          else s.block c c.g .paths
    | _ => s.encoding c

/-! ## Lines of a command (R315) -/

/-- Bytes that a command writes from address `dst` of its destination space on. -/
structure Run where
  dst : Nat
  src : List ByteSrc

/-- Line numbers that a range touches. -/
def linesIn (a n : Nat) : List Nat := if n = 0 then [] else (List.range ((a + n - 1) / 128 - a / 128 + 1)).map (a / 128 + ·)

/-- What the runs give byte `a`; where several do, free value number `free` chooses (R303, R320). -/
def byteFrom (runs : List Run) (free a : Nat) : ByteSrc :=
  match runs.filterMap fun r => if r.dst ≤ a then r.src[a - r.dst]? else none with
  | [] => .hole
  | [b] => b
  | b :: l => (b :: l).getD (Config.freeValue free % (l.length + 1)) b

/-- The destination lines of a command's runs, numbered from `first`. `place` gives a line's place, or its virtual
address in device space. -/
def mkLines (place : Nat → Place × Option Nat) (armed : Bool) (lc : Option (Nat × Nat)) (first free : Nat) (runs : List Run) :
    List Landing :=
  mapI (fun i line =>
    let p := place (128 * line)
    { id := i, dst := p.1, virt := p.2, bytes := (List.range 128).map fun k => byteFrom runs (free + 128 * i + k) (128 * line + k)
      lc := lc, armed := armed, landed := false, written := false, raced := [] : Landing }) first
    ((runs.flatMap fun r => linesIn r.dst r.src.length).eraseDups)

def ByteSrc.isHole : ByteSrc → Bool
  | .hole => true
  | _ => false

def Landing.size (l : Landing) : Nat := (l.bytes.filter fun b => !b.isHole).length

/-- A line's place in a space: local spaces as the gang's array sees them, device space by virtual address. -/
def State.linePlace (s : State) (g : Gang) (space addr : Nat) : Place × Option Nat :=
  if space = 4 then (.phys 0, some addr) else (s.localPlace g space addr, none)

/-- What a command reads at an address of a space. -/
def State.srcByte (s : State) (g : Gang) (space addr : Nat) : ByteSrc :=
  if space = 4 then .virt (addr % 2 ^ 64) else .place (s.localPlace g space addr)

def State.srcBytes (s : State) (g : Gang) (space addr n : Nat) : List ByteSrc :=
  (List.range n).map fun i => s.srcByte g space (addr + i)

def armedSpace (space : Nat) : Bool := decide (space = 1) || decide (space = 2)

/-! ## Acceptance (R314, R318, R324) -/

/-- A command as it is offered: its number is given at acceptance. -/
def Cmd.offer (c : Ctx) (kind : CmdKind) (path : Path) (w : CmdWord) (lines : List Landing) : Cmd :=
  { id := 0, order := 0, kind := kind, path := path, scope := w.scope.toNat, cache := w.cache.toNat
    lcreg := if w.lcen = 1 then some w.lcreg.toNat else none
    lines := lines, rows := [], pc := c.is.pc, word := (trapWords c.is.words).1, params := [], entries := [], built := true
    replay := false, fault := none, bounded := none, born := 0 }

/-- The landing-count register of a command word, in the issuing gang. -/
def Ctx.lc (c : Ctx) (w : CmdWord) : Option (Nat × Nat) := if w.lcen = 1 then some (c.g.gid, w.lcreg.toNat) else none

/-- The kinds that hold a context of the partition's copy engine, and those of the core's scan unit (R318, 15 R392). -/
def CmdKind.copy : CmdKind → Bool
  | .cpy | .cpym | .kvcpy | .cpst => true
  | _ => false

def CmdKind.scan : CmdKind → Bool
  | .nzscan | .evsel => true
  | _ => false

/-- The commands of a gang that hold a context of the unit that runs kind `k`. -/
def Gang.inContext (g : Gang) (k : CmdKind) : List Cmd :=
  g.cmds.filter fun c => if k.copy then c.kind.copy else k.scan && c.kind.scan

/-- The other gangs that hold a context of the unit that a command of gang `g` asks: the copy engine of its partition, the
scan unit of its core. The contexts of halted gangs are captured (R319). -/
def State.contexts (s : State) (g : Gang) (k : CmdKind) : List Gang :=
  s.gangs.filter fun x => decide (x.gid ≠ g.gid) && decide (x.core = g.core) && (!k.copy || decide (x.part = g.part)) &&
    decide (∀ e, x.halt ≠ .halted e) && !(x.inContext k).isEmpty

/-- When a gang's context of the unit was opened, by the oldest command in it. -/
def Gang.contextAge (g : Gang) (k : CmdKind) : Nat :=
  match g.inContext k with
  | [] => 0
  | c :: l => l.foldl (fun n x => min n x.order) c.order

/-- The gang whose context must drain before the strand's command is taken: the one it waits for already, or, where two
others hold the unit's contexts, the older of them (R318, 15 R392). -/
def State.waitsBehind (s : State) (g : Gang) (st : Strand) (k : CmdKind) : Option Nat :=
  let held := s.contexts g k
  if !(g.inContext k).isEmpty then none
  else
    match held.find? fun x => decide (st.behind = some x.gid) with
    | some x => some x.gid
    | none =>
      match held with
      | a :: b :: l => some ((b :: l).foldl (fun x y => if y.contextAge k < x.contextAge k then y else x) a).gid
      | _ => none

/-- The armed lines of a command. -/
def Cmd.toArm (k : Cmd) : List Place := (k.lines.filter fun l => l.armed).map fun l => l.dst.line

/-- The landing counts that a command lowers. -/
def Cmd.counts (k : Cmd) (gid : Nat) : List (Nat × Nat) :=
  ((k.lines.filterMap fun l => l.lc) ++ (match k.lcreg with
    | some r => if k.built then [] else [(gid, r)]
    | none => [])).eraseDups

/-- A landing-count register made pending: its rime is TOP (R316). -/
def State.setPending (s : State) (gr : Nat × Nat) : State :=
  match s.gang? gr.1 with
  | some g =>
    let g := { g with pends := gr.2 :: g.pends }
    s.setGang (g.setSRime gr.2 .top)
  | none => s

/-- A command accepted, or its strand waiting at acceptance: the gang's stores performed, lines armed, counts set up,
the counter raised; `k` follows. One with no byte to move completes at once (R308). -/
def State.accept (s : State) (c : Ctx) (cmd : Cmd) (k : State → Ctx → State) : State :=
  let behind := s.waitsBehind c.g c.st cmd.kind
  if !c.room cmd.path || behind.isSome || cmd.toArm.any fun p => decide (s.lineP p = 15) then
    s.block { c with st := { c.st with behind := behind } } c.g .accept
  else
    let s := s.flush c.g.gid (List.range c.g.slices.length)
    let s := cmd.toArm.foldl State.armLine s
    let s := (cmd.counts c.g.gid).foldl State.setPending s
    let c := c.refresh s
    let id := c.g.nextId
    let numbered : Cmd := { cmd with id := id, order := s.seq, born := s.base }
    let s := { s with seq := s.seq + 1 }
    let g : Gang := { c.g.issued cmd.path with
      nextId := id + 1
      paths := c.g.paths ++ [{ path := cmd.path, id := id }]
      cmds := (if cmd.built && cmd.lines.isEmpty then c.g.cmds else c.g.cmds ++ [numbered]) }
    let g := g.retire
    let s := s.setGang g
    k s { c with g := g }

def Gang.setCmd (g : Gang) (k : Cmd) : Gang := { g with cmds := g.cmds.map fun x => if x.id = k.id then k else x }

/-! ## Reading sources (R315, R319, R320) -/

/-- Physical addresses of the 16-byte pieces that a line's sources read through translation; pages read before a failure
stay touched. -/
def State.pieces (s : State) (g : Gang) (bytes : List ByteSrc) : State × Except Fail (List (Nat × Nat)) :=
  match bytes.find? fun b => match b with
    | .place p => s.spoilt p
    | _ => false with
  | some (.place (.scratch _ off)) => (s, .error ⟨5, 0, off, off⟩)
  | _ =>
  let asid := (s.tmplOf g).asid
  foldTry (fun s v => match s.access g.core asid (16 * v) true false with
    | .error f => .error f
    | .ok (s', pa) => .ok (s', (v, pa))) s
    ((bytes.filterMap fun b => match b with
      | .virt va => some (va / 16)
      | _ => none).eraseDups)

/-- The byte a source gives now; none for a hole. -/
def State.resolve (s : State) (pas : List (Nat × Nat)) (rows : List RowState) : ByteSrc → Option Byte
  | .hole => none
  | .lit b => some b
  | .place p => some (s.byteAt p)
  | .virt va => match pas.find? fun x => decide (x.1 = va / 16) with
    | some x => some (s.physByte (x.2 + va % 16))
    | none => some 0
  | .row r k => match rows[r]? with
    | some (.done bs) => some (bs.getD k 0)
    | _ => some 0

/-- A word-wise addition of a SCATA's bytes to what stands at the places (15 R390). -/
def addWords (f : Nat → Nat → Nat) : Nat → List (Option Byte) → List Byte → List (Option Byte)
  | 0, _, _ => []
  | fuel + 1, new, old =>
    match new with
    | [] => []
    | none :: _ => new.take 4 ++ addWords f fuel (new.drop 4) (old.drop 4)
    | some _ :: _ =>
      let v := f (ofLe (old.take 4)) (ofLe ((new.take 4).map fun b => b.getD 0))
      (leBytes 4 v).map some ++ addWords f fuel (new.drop 4) (old.drop 4)

/-- The writes of a line's bytes from its first place on. -/
def lineWrites (p : Place) (bytes : List (Option Byte)) : List Write :=
  (mapI (fun i b => (i, b)) 0 bytes).filterMap fun ib => ib.2.map fun b => { place := p.plus ib.1, byte := b, thread := 0 : Write }

/-- The landing-count register of a line falls by the line's bytes (R316), its rime TOP, also where a WAITZ has returned at
a zero that a wrong count gave (R317); it is no longer pending once no line of the command that names it is still to
land. -/
def State.countDown (s : State) (cmd : Cmd) (l : Landing) : State :=
  match l.lc with
  | none => s
  | some (gid, r) =>
    match s.anyGang? gid with
    | none => s
    | some g =>
      let more := cmd.lines.any fun x => decide (x.lc = l.lc) && !x.landed && decide (x.id ≠ l.id)
      let g := { g with
        s := Sparse.set 0 g.s r (g.sreg r - BitVec.ofNat 64 l.size)
        sr := Sparse.set Rime.zero g.sr r .top
        pends := if more then g.pends else g.pends.erase r }
      s.setAnyGang g

/-- The place of a destination line of a gang's command: that of a device line by the mapping that stands. -/
def State.lineAt (s : State) (g : Gang) (l : Landing) : Option Place :=
  match l.virt with
  | none => some l.dst
  | some va => (s.paOf (s.tmplOf g).asid va).map .phys

/-- Line `l` of command `cmd` of gang `gid`, at place `p`, has written the bytes `ns` while other commands that name the line
have not: neither is before the other there (11 R303). -/
def State.raceLine (s : State) (gid cmd : Nat) (p : Place) (ns : List Nat) : State :=
  let mark (g : Gang) (k : Cmd) : Cmd :=
    if g.gid = gid ∧ k.id = cmd then k
    else
      { k with lines := k.lines.map fun x =>
          if !x.written && decide (s.lineAt g x = some p) then { x with raced := (x.raced ++ ns).eraseDups } else x }
  let marked (g : Gang) : Gang := { g with cmds := g.cmds.map (mark g) }
  { s with gangs := s.gangs.map marked, saved := s.saved.map fun v => { v with gangs := v.gangs.map marked } }

/-- What a landing writes into byte `n` of its line, where byte `old` stands: its own byte, or, where another command has
written the byte and the two are unordered, the one of the two that free value number `free + n` takes (11 R303). -/
def racedByte (raced : List Nat) (free n : Nat) (new : Option Byte) (old : Byte) : Option Byte :=
  if raced.contains n && decide (Config.freeValue (free + n) % 2 = 1) then new.map fun _ => old else new

/-- The bytes of a line that lands at `p`, and the state with the free values drawn. -/
def State.raced (s : State) (l : Landing) (p : Place) (bytes : List (Option Byte)) : State × List (Option Byte) :=
  if l.raced.isEmpty then (s, bytes)
  else ({ s with free := s.free + 128 }, mapI (fun n b => racedByte l.raced s.free n b (s.byteAt (p.plus n))) 0 bytes)

/-- Line `l` of a command lands with the bytes it has now: written, P lowered, the count lowered (R315). In a replay a
line that landed before is only written (R311). `f` combines a written word with the word there. -/
def State.landLineOf (s : State) (gid : Nat) (cmd : Cmd) (l : Landing) (f : Option (Nat → Nat → Nat)) : State × Option Fail :=
  match s.anyGang? gid with
  | none => (s, none)
  | some g =>
    match s.pieces g l.bytes with
    | (s, .error e) => (s, some e)
    | (s, .ok pas) =>
      let bytes := l.bytes.map (s.resolve pas cmd.rows)
      let first := match findIdx (fun b => Option.isSome b) 0 bytes with
        | some i => i
        | none => 0
      let dst : Except Fail (State × Place) :=
        match l.virt with
        | none => .ok (s, l.dst)
        | some va =>
          match s.access g.core (s.tmplOf g).asid (va + first) f.isSome true with
          | .error e => .error e
          | .ok (s', pa) => .ok (s', .phys (pa - first))
      match dst with
      | .error e => (s, some e)
      | .ok (s, p) =>
        let r := match f with
          | some f => (s, addWords f 32 bytes ((List.range 128).map fun i => s.byteAt (p.plus i)))
          | none => s.raced l p bytes
        let bytes := r.2
        let s := (r.1.performWrites none (lineWrites p bytes)).raceLine gid cmd.id p ((List.range 128).filter fun i =>
          (bytes.getD i none).isSome)
        let s := if l.landed then s else
          (let s := if l.armed then s.landLine l.dst else s
           s.countDown cmd l)
        match s.anyGang? gid with
        | none => (s, none)
        | some g =>
          let mark (x : Landing) : Landing := if x.id = l.id then { x with landed := true, written := true } else x
          (s.setAnyGang { g with cmds := g.cmds.map fun x => if x.id = cmd.id then { x with lines := x.lines.map mark } else x }, none)

/-! ## Completion (R308, R310 to R312) -/

/-- Every line is written, or a fault stopped the command. -/
def Cmd.finished (k : Cmd) : Bool := (k.built && k.lines.all fun l => l.written) || k.stopped

/-- Commands of the path issued after this one. -/
def Gang.issuedAfter (g : Gang) (k : Cmd) : Nat :=
  ((g.paths.dropWhile fun p => decide (p.id ≠ k.id)).drop 1 |>.filter fun p => decide (p.path = k.path)).length

/-- Whether a command of this kind stands still while its gang is halted (R319, 15 R392) (DEDUCED, log 87). -/
def Gang.frozen (g : Gang) (k : CmdKind) : Bool := (k.copy || k.scan) && decide (∃ e, g.halt = .halted e)

/-- The record of a command that is complete: kept while it holds a fault, reported where the gang is no more live. -/
def State.recordOf (s : State) (g : Gang) (k : Cmd) (after : Nat) : State × Gang :=
  match k.status with
  | none => (s, g)
  | some st =>
    if g.isLive then (s, { g with records := g.records ++ [{ cmd := k, reported := false, after := after }] })
    else
      (s.report (g.unnamed { kind := 0x11, reason := st.code, flags := 4, pc := 0, addr := st.shown, va := 0, word := k.word, arg := k.pc }
        (s.tmplOf g).asid), g)

/-- The registers that a command of unknown lines held pending are so no more. -/
def Gang.unpend (g : Gang) (k : Cmd) : Gang :=
  match k.lcreg with
  | some r => if k.lines.isEmpty && k.status.isNone then { g with pends := g.pends.erase r } else g
  | none => g

/-- A command completes: its record, its counter in issue order (R308) (DEDUCED, log 49). -/
def State.complete (s : State) (g : Gang) (k : Cmd) : State :=
  let after := g.issuedAfter k
  let g := { g with cmds := g.cmds.filter fun x => x.id ≠ k.id }.unpend k
  let (s, g) := s.recordOf g k after
  s.setAnyGang g.retire

/-- COMMAND_REPLAY_COMPLETE: the gang that waits resumes at the instruction that surfaced the fault (R311). -/
def State.replayDone (s : State) (g : Gang) (k : Cmd) : State :=
  let again (r : Completion) : Option Completion :=
    if r.cmd.id ≠ k.id then some r
    else
      match k.status with
      | some _ => some { r with cmd := { k with replay := false }, reported := false }
      | none => none
  let resume (h : Gang) : Gang := if (h.fault.bind fun f => f.cmd) = some (g.gid, k.id) then { h with fault := none } else h
  let s := s.setAnyGang { g with
    cmds := g.cmds.filter fun x => x.id ≠ k.id
    records := g.records.filterMap again }
  { s with gangs := s.gangs.map resume, saved := s.saved.map fun v => { v with gangs := v.gangs.map resume } }

/-- Kinds that read lists or descriptors before their lines are known. -/
def CmdKind.lists : CmdKind → Bool
  | .gath | .scat | .scata | .nzscan | .evsel | .frame => true
  | _ => false

/-- A command run again in full, its sources read afresh (R311); a scatter-add performs what it has not performed
(15 R390). `now` is the base cycle count, `turn` the place it takes among the commands that a collective engine has still
to run (DEDUCED, log 69). -/
def Cmd.again (k : Cmd) (now turn : Nat) : Cmd :=
  let add := decide (k.kind = .scata) && k.built
  let whole := k.built
  let fresh (l : Landing) : Landing := { l with written := add && l.landed }
  let k := { k with
    replay := true, fault := none, bounded := if add then k.bounded else none, built := !k.kind.lists || add
    lines := k.lines.map fresh, born := now }
  match k.kind with
  | .sread => { k with rows := [.entry 0], params := now :: k.params.drop 1 }
  | .ring | .coll =>
    -- one whose rows are not whole starts over: not begun, not acknowledged (18 R450)
    let put (l : List Nat) (iv : Nat × Nat) : List Nat := modifyAt (fun _ => iv.2) iv.1 l
    { k with built := whole, params := if whole then k.params else [(0, turn), (2, 0), (14, now), (16, 0)].foldl put k.params }
  | _ => k

end Sys2Proof.Machine
end

