-- ==== Sys2Proof/Machine/Firn.lean ====
section
/-! DEFINITION. Firn: the images of spilled registers and of parked gangs in a gang's frames, spilling, filling and
reloading (06 R150 to R159), and the stack entries that a frame holds (04 R89, R92). The gang keeps a spilled register's
value; its image stands in memory beside it, and where system software has changed the image the register comes back
with a value made of bytes that stood in its slot (R159, DESIGN CHOICE, log 15). -/

namespace Sys2Proof.Machine

open Sys2Proof

/-! ## Frames (R153 to R155) -/

def State.frameAddr (s : State) (core frame : Nat) : Nat :=
  field (s.mg (Mgmt.firnbase core)) 51 25 * 2 ^ 25 + 0x20000 * frame

def slotOff (code : Nat) : Nat := if code < 0x80 then 0x4000 + 0x80 * code else 0x3000 + 0x80 * (code - 0x80)

/-- Slices of half `h` of a gang; only a width-64 pair has a second half. -/
def Gang.halfSlices (g : Gang) (h : Nat) : List Nat :=
  (List.range g.slices.length).filter fun k => decide (k / 8 = h)

/-- Live threads of a half with their values of a register; threads counted within the half. -/
def Gang.halfVals (g : Gang) (h code : Nat) : List (Nat × W32) :=
  (g.halfSlices h).flatMap fun k =>
    (lanes4.filter fun j => (g.thread k j).live).map fun j => (4 * (k % 8) + j, (g.thread k j).byCode code)

/-! ## Formats (R156, R157) -/

/-- Inverse of an odd 32-bit number. -/
def inv32 (n : W32) : W32 := (List.range 5).foldl (fun x _ => x * (2 - n * x)) n

/-- The power of two that divides a nonzero thread distance below 64. -/
def twos (d : Nat) : Nat := if d % 2 = 1 then 0 else if d % 4 = 2 then 1 else if d % 8 = 4 then 2 else if d % 16 = 8 then 3 else if d % 32 = 16 then 4 else 5

/-- b and c with value(t) = b + t·c for every thread, if there are any; the least c where several serve (DESIGN CHOICE, log 16). -/
def affine? (vs : List (Nat × W32)) : Option (W32 × W32) :=
  match vs with
  | [] => some (0, 0)
  | (t0, v0) :: rest =>
    let best := rest.foldl (fun (b : Option (Nat × W32)) p =>
      match b with
      | some q => if twos (p.1 - t0) < twos (q.1 - t0) then some p else b
      | none => some p) none
    let c : W32 := match best with
      | none => 0
      | some (t1, v1) =>
        let a := twos (t1 - t0)
        BitVec.ofNat 32 (((v1 - v0).toNat / 2 ^ a * (inv32 (BitVec.ofNat 32 ((t1 - t0) / 2 ^ a))).toNat) % 2 ^ (32 - a))
    let b : W32 := v0 - BitVec.ofNat 32 t0 * c
    if vs.all fun p => decide (p.2 = b + BitVec.ofNat 32 p.1 * c) then some (b, c) else none

/-- Tag byte and slot bytes, by offset, of an image. Where values are narrow in both senses SIGNED is 0, and the bytes of
exited threads are left as they stand in memory (DESIGN CHOICE, log 106). -/
def firnImage (vs : List (Nat × W32)) : Nat × List (Nat × Byte) :=
  let word (off : Nat) (w : W32) : List (Nat × Byte) := mapI (fun i b => (off + i, b)) 0 (leBytes 4 w.toNat)
  let each (n : Nat) : List (Nat × Byte) :=
    vs.flatMap fun p => mapI (fun i b => (n * p.1 + i, b)) 0 (leBytes n p.2.toNat)
  let fits (w : Nat) (sg : Bool) : Bool :=
    vs.all fun p => if sg then decide (p.2.toInt = sintOf w p.2.toNat) else decide (p.2.toNat < 2 ^ w)
  if vs.all fun p => decide (p.2 = 0) then (0, [])
  else if vs.all fun p => decide (p.2 = (vs.headD (0, 0)).2) then (1, word 0 (vs.headD (0, 0)).2)
  else
    match affine? vs with
    | some (b, c) => (2, word 0 b ++ word 4 c)
    | none =>
      if fits 8 false then (3, each 1)
      else if fits 8 true then (3 + 8, each 1)
      else if fits 16 false then (4, each 2)
      else if fits 16 true then (4 + 8, each 2)
      else (5, each 4)

/-- The bytes of memory, by address, that a register's image takes in frames at `bases`, one for each half. -/
def Gang.imageAt (g : Gang) (bases : List Nat) (code : Nat) : List (Nat × Byte) :=
  (mapI (fun h b => (h, b)) 0 bases).flatMap fun hb =>
    let im := firnImage (g.halfVals hb.1 code)
    (hb.2 + code, BitVec.ofNat 8 im.1) :: im.2.map fun ob => (hb.2 + slotOff code + ob.1, ob.2)

/-- Where the gang's frames begin. -/
def State.bases (s : State) (g : Gang) : List Nat := g.frames.map (s.frameAddr g.core)

/-- Bytes that the spill engine or the context save writes. -/
def State.pokeCells (s : State) (l : List (Nat × Byte)) : State :=
  l.foldl (fun s ab => s.setByte (.phys ab.1) ab.2) (s.wroteLines ((l.map fun ab => ab.1 / 128).eraseDups) [])

def State.cellsHold (s : State) (l : List (Nat × Byte)) : Bool := l.all fun ab => decide (s.physByte ab.1 = ab.2)

/-! ## Spill and fill (R150 to R152) -/

/-- The gang with the image of `code` written at `bases` and kept. -/
def State.writeImageAt (s : State) (g : Gang) (bases : List Nat) (code : Nat) : State × Gang :=
  let cells := g.imageAt bases code
  (s.pokeCells cells, { g with images := Sparse.set [] g.images code cells })

def State.writeImage (s : State) (g : Gang) (code : Nat) : State × Gang := s.writeImageAt g (s.bases g) code

/-- Register `code` moved to firn: its image written, SPILLED in every slice. -/
def State.spillReg (s : State) (gid code : Nat) : State :=
  match s.gang? gid with
  | none => s
  | some g =>
    let r := s.writeImage g code
    r.1.setGang
      { r.2 with
        parkQ := g.parkQ.filter fun x => x ≠ code
        slices := g.slices.map fun sl => { sl with classes := Sparse.set .zero sl.classes code .spilled } }

/-- The cells kept for a register, or for the uniform state at 256 and above. -/
def Gang.image (g : Gang) (key : Nat) : List (Nat × Byte) := Sparse.get [] g.images key

/-- One of some bytes, as free value number `n` chooses; zero where there is none. -/
def pickByte (cands : List Byte) (n : Nat) : Byte := cands.getD (Config.freeValue n % cands.length) 0

/-- A `k`-byte value made of bytes of `cands`, by the free values from number `n` on. -/
def pickBytes (cands : List Byte) (n k : Nat) : Nat := ofLe ((List.range k).map fun i => pickByte cands (n + i))

/-- The bytes that have been stored at some addresses: what an image kept there and what memory holds there now. -/
def State.slotBytes (s : State) (cells : List (Nat × Byte)) (addrs : List Nat) : List Byte :=
  ((cells.filter fun ab => addrs.contains ab.1).map fun ab => ab.2) ++ addrs.map s.physByte

/-- The addresses of a register's slots in frames at `bases`. -/
def slotAddrs (bases : List Nat) (code : Nat) : List Nat :=
  bases.flatMap fun b => (List.range 128).map (b + slotOff code + ·)

/-- A register of every live thread made of the bytes `cands` of its slot, its rime TOP (R159). -/
def Gang.scramble (g : Gang) (free code : Nat) (cands : List Byte) : Gang :=
  g.mapSlices (List.range g.slices.length) fun k sl =>
    let sl := sl.mapThreads fun j t =>
      let w : W32 := BitVec.ofNat 32 (pickBytes cands (free + 16 * k + 4 * j) 4)
      if code < 0x80 then t.setV code w else t.setX (code - 0x80) w
    if code < 0x80 then sl else sl.setRime (code - 0x80) .top

/-- A SPILLED register filled. -/
def State.fillReg (s : State) (gid code : Nat) : State :=
  match s.gang? gid with
  | none => s
  | some g =>
    let cells := g.image code
    let g := { g with images := Sparse.set [] g.images code [] }
    if s.cellsHold cells then s.setGang (g.filled code)
    else
      { s with free := s.free + 256 }.setGang
        ((g.scramble s.free code (s.slotBytes cells (slotAddrs (s.bases g) code))).filled code)

/-- The first of some addresses that an uncorrectable error has poisoned, as a line address (R160). -/
def State.poisonedAt (s : State) (addrs : List Nat) : Option Nat :=
  (addrs.find? fun a => s.poison.contains (s.norm a / 128)).map fun a => s.norm a / 128 * 128

/-- The poisoned line among those that hold a register's image (R160). -/
def State.firnPoisoned (s : State) (g : Gang) (code : Nat) : Option Nat := s.poisonedAt ((g.image code).map fun ab => ab.1)

/-- The register that the spill engine chooses beside those in `keep` (R150). -/
def Gang.victim (g : Gang) (keep : List Nat) : Option Nat :=
  let held := (List.range 0xA0).filter fun code =>
    !keep.contains code && (g.slices.any fun sl => decide (0 < (sl.cls code).quarters))
  match held with
  | [] => none
  | code :: l => some (l.foldl (fun a b => if Sparse.get 0 g.recency b < Sparse.get 0 g.recency a then b else a) code)

/-! ## Parking and coming back (R157, R158) -/

def numCells (a n v : Nat) : List (Nat × Byte) := mapI (fun i b => (a + i, b)) 0 (leBytes n v)

def rimeCells (a : Nat) (r : Rime) : List (Nat × Byte) := numCells a 8 r.record.1 ++ numCells (a + 8) 8 r.record.2

/-- Predicates, uniform registers and rimes of half `h` at a frame (R155). -/
def Gang.uniformCells (g : Gang) (base h : Nat) : List (Nat × Byte) :=
  ((g.halfSlices h).flatMap fun k => lanes4.map fun j => (base + 0x100 + 4 * (k % 8) + j, (g.thread k j).p)) ++
  ((List.range 64).flatMap fun n => numCells (base + 0x1000 + 8 * n) 8 (g.sreg n).toNat ++ rimeCells (base + 0x1200 + 16 * n) (g.srime n)) ++
  ((List.range 16).flatMap fun n => numCells (base + 0x1600 + 16 * n) 16 (g.areg n).toNat) ++
  ((List.range 8).flatMap fun n => numCells (base + 0x1700 + 16 * n) 16 (g.hreg n).toNat) ++
  ((g.halfSlices h).flatMap fun k => (List.range 32).flatMap fun n =>
    rimeCells (base + 0x2000 + 0x200 * (k % 8) + 16 * n) ((g.slice k).rime n))

/-- Registers that a declaration gives. -/
def Template.codes (t : Template) : List Nat := List.range t.vregs ++ (List.range t.xregs).map (0x80 + ·)

/-- The images of some registers and of the uniform state written at `bases` (DEDUCED, log 92). -/
def State.writeImages (s : State) (g : Gang) (bases codes : List Nat) : State × Gang :=
  let r := codes.foldl (fun (r : State × Gang) c => r.1.writeImageAt r.2 bases c) (s, g)
  (mapI (fun h b => (h, b)) 0 bases).foldl (fun (r : State × Gang) hb =>
    let cells := g.uniformCells hb.2 hb.1
    (r.1.pokeCells cells, { r.2 with images := Sparse.set [] r.2.images (256 + hb.1) cells })) r

/-- The images that a gang leaves in firn when it gives up its active slot. -/
def State.parkImages (s : State) (g : Gang) : State :=
  let r := s.writeImages g (s.bases g) ((s.tmplOf g).codes.filter fun c => !g.spilled c)
  r.1.setGang r.2

/-- Addresses at which memory no longer holds what the spill engine wrote. -/
def State.changed (s : State) (cells : List (Nat × Byte)) : List Nat :=
  (cells.filter fun ab => decide (s.physByte ab.1 ≠ ab.2)).map fun ab => ab.1

/-- Uniform state and rimes as the frames at `bases` hold them: what an image has kept stays; a register written over
takes a value made of bytes of its slot, a rime written over is TOP (R159; DEDUCED, log 39). -/
def State.reloadAt (s : State) (g : Gang) (bases : List Nat) : Gang :=
  (mapI (fun h b => (h, b)) 0 bases).foldl (fun g hf =>
    let base := hf.2
    let cells := g.image (256 + hf.1)
    match s.changed cells with
    | [] => g
    | a :: l =>
      let hit (o n : Nat) : Bool := (a :: l).any fun x => decide (base + o ≤ x ∧ x < base + o + n)
      let made (o n free : Nat) : Nat := pickBytes (s.slotBytes cells ((List.range n).map (base + o + ·))) free n
      let g := (List.range 64).foldl (fun (g : Gang) n =>
        if hit (0x1000 + 8 * n) 8 then g.setS n (w64 (made (0x1000 + 8 * n) 8 (s.free + 8 * n))) .top
        else if hit (0x1200 + 16 * n) 16 then g.setSRime n .top else g) g
      let g := (List.range 16).foldl (fun (g : Gang) n =>
        if hit (0x1600 + 16 * n) 16 then g.setA n (BitVec.ofNat 128 (made (0x1600 + 16 * n) 16 (s.free + 512 + 16 * n))) else g) g
      let g := (List.range 8).foldl (fun (g : Gang) n =>
        if hit (0x1700 + 16 * n) 16 then g.setH n (BitVec.ofNat 128 (made (0x1700 + 16 * n) 16 (s.free + 768 + 16 * n))) else g) g
      g.mapSlices (g.halfSlices hf.1) fun k sl =>
        let sl := sl.mapThreads fun j t =>
          if hit (0x100 + 4 * (k % 8) + j) 1 then
            { t with p := BitVec.ofNat 8 (made (0x100 + 4 * (k % 8) + j) 1 (s.free + 896 + 4 * k + j)) ||| 0x80 }
          else t
        (List.range 32).foldl (fun (sl : Slice) n =>
          if hit (0x2000 + 0x200 * (k % 8) + 16 * n) 16 then sl.setRime n .top else sl) sl) g

/-- Registers whose image at `bases` has been written over take values made of bytes of their slots (R159). -/
def State.scrambleChanged (s : State) (g : Gang) (bases : List Nat) : Gang :=
  (g.images.filter fun e => decide (e.1 < 256)).foldl (fun (g : Gang) e =>
    if s.cellsHold e.2 then g
    else g.scramble (s.free + 1024 + 256 * e.1) e.1 (s.slotBytes e.2 (slotAddrs bases e.1))) g

/-! ## Stack entries in firn (04 R89, R92) -/

/-- How many of the bottom entries of a stack of `len` stand in firn: 8 go when more than 16 are held, 8 come back when
fewer than 8 are. -/
def depthBelow : Nat → Nat → Nat → Nat
  | 0, _, b => b
  | n + 1, len, below =>
    let b := min below len
    if 16 < len - b then depthBelow n len (b + 8)
    else if len - b < 8 ∧ 0 < b then depthBelow n len (b - 8)
    else b

/-- The gang with its stacks spread between the partition and firn as R89 has it. -/
def Gang.spread (g : Gang) : Gang :=
  { g with
    slices := g.slices.map fun sl => { sl with below := depthBelow 64 sl.stack.length sl.below }
    strands := g.strands.map fun st => { st with below := depthBelow 64 st.ret.length st.below } }

/-- Addresses and lengths of the entries of slice `k` from depth `lo` to below `hi`, in the frame of its half. -/
def maskCells (bases : List Nat) (k lo hi : Nat) : List (Nat × Nat) :=
  match bases[k / 8]? with
  | some b => (List.range (hi - lo)).map fun i => (b + 0x8000 + 0x1000 * (k % 8) + 16 * (lo + i), 16)
  | none => []

def retCells (bases : List Nat) (k lo hi : Nat) : List (Nat × Nat) :=
  match bases[k / 8]? with
  | some b => (List.range (hi - lo)).map fun i => (b + 0x10000 + 0x800 * (k % 8) + 8 * (lo + i), 8)
  | none => []

/-- A strand's lowest slice. -/
def Strand.low (st : Strand) : Nat := st.slices.foldl min 64

/-- The oldest `n` entries of a stack whose top stands first, the oldest first. -/
def oldest {α : Type} (l : List α) (n : Nat) : List α := l.reverse.take n

/-- How many entries of a strand's stack firn already held before, in the place of its lowest slice. -/
def keptReturns (before : Gang) (st : Strand) : Nat :=
  match before.strands.find? fun x => decide (x.low = st.low) with
  | some x => if oldest x.ret x.below = oldest st.ret x.below then x.below else 0
  | none => 0

/-- Entries that `g` has in firn and `before` had not; with `before` a gang of no entries, all of them. -/
def Gang.movedOut (before g : Gang) (bases : List Nat) : List (Nat × Nat) :=
  ((List.range g.slices.length).flatMap fun k => maskCells bases k (before.slice k).below (g.slice k).below) ++
  g.strands.flatMap fun st => retCells bases st.low (keptReturns before st) st.below

/-- Entries that `before` had in firn and `g` has taken back. -/
def Gang.movedIn (before g : Gang) (bases : List Nat) : List (Nat × Nat) :=
  ((List.range g.slices.length).flatMap fun k =>
    maskCells bases k (g.slice k).below (min (before.slice k).below (g.slice k).stack.length)) ++
  g.strands.flatMap fun st => retCells bases st.low st.below (min (keptReturns before st) st.ret.length)

def Gang.noEntries (g : Gang) : Gang :=
  { g with slices := g.slices.map fun sl => { sl with below := 0 }, strands := [] }

/-- The poisoned line among those that a context save reads from a gang's frames: registers that stand in firn, a parked
gang's uniform state, stack entries (R160). -/
def State.savePoisoned (s : State) (g : Gang) : Option Nat :=
  if g.released then none
  else s.poisonedAt ((g.images.flatMap fun e => e.2.map fun ab => ab.1) ++ (Gang.movedOut g.noEntries g (s.bases g)).map fun e => e.1)

/-- Bytes of a format that is the device's own: free values from number `free` on (R155). -/
def freeCells (free : Nat) (l : List (Nat × Nat)) : List (Nat × Byte) :=
  mapI (fun i a => (a, BitVec.ofNat 8 (Config.freeValue (free + i)))) 0 (l.flatMap fun an => (List.range an.2).map (an.1 + ·))

/-- Entries or context written in that format. -/
def State.pokeFree (s : State) (l : List (Nat × Nat)) : State :=
  if l.isEmpty then s else { s.pokeCells (freeCells s.free l) with free := s.free + l.foldl (fun n an => n + an.2) 0 }

/-- What a frame at `base` holds in forms internal to the device, registers and stack entries apart: the context area, and
in a save record the offsets that R155 leaves reserved too (17 R436). -/
def contextCells (base : Nat) : List (Nat × Nat) := [(base + 0x400, 0xC00)]

def innerCells (base : Nat) : List (Nat × Nat) :=
  contextCells base ++ [(base + 0xA0, 0x60), (base + 0x120, 0x2E0), (base + 0x1780, 0x880), (base + 0x14000, 0xC000)]

/-- A gang that takes an active slot again: uniform state reloaded, every v and x register SPILLED. -/
def State.unparkGang (s : State) (g : Gang) : State :=
  if g.issues = 0 then s
  else
    let g := s.reloadAt g (s.bases g)
    let codes := (s.tmplOf g).codes
    let out (sl : Slice) : Slice := { sl with classes := codes.foldl (fun m c => Sparse.set .zero m c .spilled) sl.classes }
    let s := { s with free := s.free + 1024 }
    s.setGang { g with slices := g.slices.map out, images := g.images.filter fun e => e.1 < 256 }

/-- The images of a gang's registers as they must stand once its live threads have changed (16 R405). -/
def State.renewImages (s : State) (gid : Nat) : State :=
  match s.gang? gid with
  | none => s
  | some g =>
    let r := (g.images.map fun e => e.1).foldl (fun (r : State × Gang) key =>
      if key < 256 then r.1.writeImage r.2 key
      else
        let cells := r.2.uniformCells (r.1.frameAddr g.core (g.frames.getD (key - 256) 0)) (key - 256)
        (r.1.pokeCells cells, { r.2 with images := Sparse.set [] r.2.images key cells })) (s, g)
    r.1.setGang r.2

end Sys2Proof.Machine
end

