-- ==== Sys2Proof/Machine/Release.lean ====
section
/-! DEFINITION. Barriers, status words, release of a gang, retirement of a team and completion of a grid, and how a
slice whose threads ended goes on (04 R90, R96, R97, R109 to R112; 05 R128, R137, R140; 12 R312; 16 R412). -/

namespace Sys2Proof.Machine

open Sys2Proof

/-! ## Barriers (04 R109, R110) -/

/-- The test of R110: a count, or every live member. -/
def Barrier.full (b : Barrier) (live : List Nat) : Bool :=
  if 0 < b.k then decide (b.k ≤ b.arr) else !b.m.isEmpty && live.all b.m.contains

/-- The test made, and the phase completed if it passes. -/
def Barrier.test (b : Barrier) (live : List Nat) : Barrier :=
  if b.full live then { b with c := (b.c + 1) % 2 ^ 16, arr := 0, m := [], k := 0 } else b

/-- An arrival of member `key` with count `k`; ARR has 6 bits (R109) (DEDUCED, log 27). -/
def Barrier.arrive (b : Barrier) (key k : Nat) (live : List Nat) : Barrier :=
  { b with arr := (b.arr + 1) % 2 ^ 6, m := if b.m.contains key then b.m else b.m ++ [key], k := k }.test live

/-- The end of a member's wait: E advanced; none while it must wait. -/
def Barrier.pass (b : Barrier) (key : Nat) : Option Barrier :=
  let e := Sparse.get 1 b.e key
  if 0 ≤ sintOf 16 (b.c + 2 ^ 16 - e) then some { b with e := Sparse.set 1 b.e key ((e + 1) % 2 ^ 16) } else none

/-- The gangs of a grid, those of saved teams among them. -/
def State.gangsOf (s : State) (grid : Nat) : List Gang :=
  (s.gangs.filter fun g => g.grid = grid) ++ (s.saved.flatMap fun v => v.gangs.filter fun g => g.grid = grid)

def State.liveInTeam (s : State) (grid team : Nat) : List Nat :=
  ((s.gangsOf grid).filter fun g => decide (g.team = team) && g.isLive).map fun g => g.g

/-- The live teams of a grid. -/
def State.liveTeams (s : State) (grid : Nat) : List Nat :=
  (((s.gangsOf grid).filter Gang.isLive).map fun g => g.team).eraseDups

def State.liveGids (s : State) (grid : Nat) : List Nat := ((s.gangsOf grid).filter Gang.isLive).map fun g => g.gid

def Team.barrier (t : Team) (n : Nat) : Barrier := Sparse.get Barrier.fresh t.barriers n
def Team.setBarrier (t : Team) (n : Nat) (b : Barrier) : Team := { t with barriers := Sparse.set Barrier.fresh t.barriers n b }
def Grid.cbar (G : Grid) (n : Nat) : Barrier := Sparse.get Barrier.fresh G.clusters n
def Grid.setCbar (G : Grid) (n : Nat) (b : Barrier) : Grid := { G with clusters := Sparse.set Barrier.fresh G.clusters n b }

/-- The cluster group of a team: its number and the teams of it. -/
def Grid.groupOf (G : Grid) (team : Nat) : Nat := team / max 1 G.tmpl.clteams
def Grid.groupTeams (G : Grid) (team : Nat) : List Nat :=
  (List.range (max 1 G.tmpl.clteams)).map fun j => G.groupOf team * max 1 G.tmpl.clteams + j

/-- Key of cluster barrier n of a team's group. -/
def Grid.cbarKey (G : Grid) (team n : Nat) : Nat := 16 * G.groupOf team + n

/-- A team's arrival at cluster barrier n once every live gang of it has executed CBAR n (04 R112); `b16` of the team
holds which gangs have. -/
def State.cbarTeam (s : State) (grid team n : Nat) : State :=
  match s.team? grid team, s.grid? grid with
  | some t, some G =>
    let b := t.barrier (16 + n)
    let live := s.liveInTeam grid team
    if !b.m.isEmpty && live.all b.m.contains then
      let s := s.setTeam (t.setBarrier (16 + n) { b with m := [] })
      let groupLive := (s.liveTeams grid).filter (G.groupTeams team).contains
      s.setGrid (G.setCbar (G.cbarKey team n) ((G.cbar (G.cbarKey team n)).arrive team 0 groupLive))
    else s
  | _, _ => s

/-- Every barrier that a gang's end may complete, tested (04 R110, R112; 16 R412). -/
def State.testBarriers (s : State) (grid team : Nat) : State :=
  let live := s.liveInTeam grid team
  let s := match s.team? grid team with
    | some t => s.setTeam ((List.range 16).foldl (fun t n =>
        if t.barrier n = Barrier.fresh then t else t.setBarrier n ((t.barrier n).test live)) t)
    | none => s
  let s := (List.range 16).foldl (fun s n => s.cbarTeam grid team n) s
  match s.grid? grid with
  | none => s
  | some G =>
    let groupLive := (s.liveTeams grid).filter (G.groupTeams team).contains
    let G := (List.range 16).foldl (fun G n =>
      let k := G.cbarKey team n
      if G.cbar k = Barrier.fresh then G else G.setCbar k ((G.cbar k).test groupLive)) G
    s.setGrid { G with barrier := G.barrier.test (s.liveGids grid) }

/-! ## Status words (05 R137) -/

/-- The R310 status that a failing access reports: 1 translation, 2 protection, 3 poison, 4 link. -/
def Fail.status (f : Fail) : Nat :=
  match f.kind with
  | 4 => 4
  | 5 => 3
  | k => k

def LaunchRec.stat (r : LaunchRec) : Bool := bitOf r.flags 2
def LaunchRec.gate (r : LaunchRec) : Bool := bitOf r.flags 0
def LaunchRec.pop (r : LaunchRec) : Bool := bitOf r.flags 1

/-- A 64-bit word written by the distributor or an engine at system scope, or the failure. One at an address that is not
a multiple of 8, the SADDR of a refused launch, takes the eight bytes from there on (DESIGN CHOICE, log 102). -/
def State.sysWrite (s : State) (asid va v : Nat) : Except Fail State :=
  match s.accessWith false 0 asid va false true with
  | .error f => .error f
  | .ok (s', pa) => .ok (s'.performWrites none (physWrites pa (leBytes 8 v)))

/-- The status word of a launch, in the address space `asid` if it has one; a STATUS report where it cannot be written. -/
def State.statusWord (s : State) (asid : Option Nat) (stat : Bool) (saddr code : Nat) : State :=
  if !stat then s
  else
    match asid with
    | none => s.report (packageReport 0x13 5 saddr code 0)
    | some a =>
      match s.sysWrite a saddr code with
      | .ok s' => s'
      | .error f => s.report (packageReport 0x13 f.status saddr code a)

/-! ## Release, retirement, completion (04 R97; 05 R140; 09 R237, R239) -/

/-- Everything the gang issued has completed. -/
def Gang.idle (g : Gang) : Bool := g.paths.isEmpty && (g.tileOps.all fun o => o.done) && g.batches.isEmpty && g.heats.isEmpty

/-- A gang that has ceased to be live gives back its slot, tiles, tree files and firn frames once it is idle. -/
def State.tryRelease (s : State) (gid : Nat) : State :=
  match s.gang? gid with
  | none => s
  | some g =>
    if !g.isLive && !g.released && g.idle then
      s.setGang { g with released := true, active := false, parking := false, tileOps := [], tiles := [], trees := [], keys := [], frames := [], images := [] }
    else s

/-- What follows when a gang ceases to be live (04 R97): barriers, the priority token, engine reports, release; all
but what its population makes of it. -/
def State.gangGone (s : State) (gid : Nat) : State :=
  match s.gang? gid with
  | none => s
  | some g =>
    if g.isLive then s
    else
      let asid := (s.tmplOf g).asid
      let s := s.testBarriers g.grid g.team
      let s := { s with token := s.token.filter fun t => t.2 ≠ gid + 1 }
      let s := (g.lastReports asid).foldl State.report s
      let s := match s.gang? gid with
        | some g =>
          let calm (o : TileOp) : TileOp := if o.isOpen then { o with fault := none } else o
          s.setGang { g with records := [], fault := none, handler := none, strands := [], tileOps := g.tileOps.map calm }
        | none => s
      s.tryRelease gid

/-- A team all of whose gangs are released with no child left. -/
def State.teamDone (s : State) (t : Team) : Bool :=
  !t.retired &&
  ((s.gangs.filter fun g => decide (g.grid = t.grid) && decide (g.team = t.idx)).all fun g => g.released && decide (g.children = 0))

/-- A team's retirement: its gangs are gone, its grid counts it. -/
def State.retireTeam (s : State) (t : Team) : State :=
  { s with
    gangs := s.gangs.filter fun g => !(decide (g.grid = t.grid) && decide (g.team = t.idx))
    teams := s.teams.map fun x => if x.key = t.key then { x with retired := true, barriers := [] } else x
    grids := s.grids.map fun G => if G.serial = t.grid then { G with retired := G.retired + 1 } else G }

/-- A parent's count of incomplete children lowered by one. -/
def State.childDone (s : State) (parent : Option Nat) : State :=
  match parent with
  | none => s
  | some p =>
    let dec (g : Gang) : Gang := if g.gid = p then { g with children := g.children - 1 } else g
    { s with gangs := s.gangs.map dec, saved := s.saved.map fun v => { v with gangs := v.gangs.map dec } }

/-- A grid's completion: chip blocks released, status written, its parent's count of children lowered. -/
def State.completeGrid (s : State) (G : Grid) : State :=
  let s := { s with
    chipOwner := s.chipOwner.filter fun c => c.2 ≠ G.serial
    chip := s.chip.filter fun c => !G.chip.contains (c.1 / 65536)
    grids := s.grids.filter fun x => x.serial ≠ G.serial }
  (s.statusWord (some G.tmpl.asid) G.launch.stat G.launch.saddr (G.status.getD 1)).childDone G.parent

/-- A child that has not started and whose parent grid is aborted. -/
def State.doomed (s : State) (p : Pending) : Bool :=
  p.parent.isSome && (match s.grid? p.parentGrid with
    | some G => decide (G.status = some 9)
    | none => false)

/-- Such a child completes with status ABORTED (05 R137, 17 R432). -/
def State.dropChild (s : State) (p : Pending) : State :=
  let s := { s with pendings := s.pendings.filter fun x => x.id ≠ p.id }
  (s.statusWord (some p.tmpl.asid) p.launch.stat p.launch.saddr 9).childDone p.parent

/-- Whether a team's scratch, translation table and slot are released: no pending writer on its lines and no live gang,
for a team of a cluster group every team of it retired (05 R140, 09 R237). -/
def State.scratchFree (s : State) (t : Team) : Bool :=
  t.pending.isEmpty &&
  (match s.grid? t.grid with
   | some G =>
     if G.tmpl.clteams = 0 then (s.liveInTeam t.grid t.idx).isEmpty
     else
       ((s.teams.filter fun x => decide (x.grid = t.grid) && decide (x.group = t.group)).all fun x => x.retired) &&
         !(s.saved.any fun v => decide (v.team.grid = t.grid) && decide (v.team.group = t.group))
   | none => true)

/-- The teams that hold blocks and a slot of a core. -/
def State.holders (s : State) (core : Nat) : List Team := s.teams.filter fun t => decide (t.core = core) && !s.scratchFree t

def State.sweepOnce (s : State) : State :=
  let s := (s.pendings.filter s.doomed).foldl State.dropChild s
  let s := (s.teams.filter s.teamDone).foldl State.retireTeam s
  let s := (s.grids.filter fun G => decide (G.launch.teams ≤ G.retired)).foldl State.completeGrid s
  { s with teams := s.teams.filter fun t => !(t.retired && s.scratchFree t) }

/-- Retirement, completion and release carried up through parents. -/
def State.sweepN : Nat → State → State
  | 0, s => s
  | n + 1, s => (s.sweepOnce).sweepN n

/-- DEDUCED, log 45. -/
def State.sweep (s : State) : State := s.sweepN (s.grids.length + 1)

/-! ## Slices that move (04 R90) -/

/-- Where a slice goes: an address at a depth of the return stack, to wait there (`arrives`) or to run. -/
structure Dest where
  pc : Nat
  depth : Nat
  arrives : Bool
  deriving DecidableEq, Repr

/-- The exit rows of R90 on the stack, taken until a thread is active; none where the slice is no longer live. -/
def exitRows (live : BitVec 4) : List MaskEntry → Option (BitVec 4 × List MaskEntry × Dest)
  | [] => none
  | e :: rest =>
    let m := (if e.reconv then e.fm else e.pm) &&& live
    if m = 0 then exitRows live rest else some (m, rest, ⟨e.pc, e.depth, e.reconv⟩)

/-- A slice no longer live: its stack, rimes, rows and latches are free (04 R96). -/
def Slice.ended (sl : Slice) : Slice := { sl with mask := 0, stack := [], below := 0, xr := [], latValid := 0, classes := [] }

def Slice.afterExit (sl : Slice) : Slice × Option Dest :=
  match exitRows sl.liveMask sl.stack with
  | some (m, rest, d) => ({ sl with mask := m, stack := rest }, some d)
  | Option.none => (sl.ended, Option.none)

end Sys2Proof.Machine
end

