-- ==== Sys2Proof/Machine/Round.lean ====
section
/-! DEFINITION. The population unit: a round's count, its checks, its commit with ablation, clones and windows, and
its withdrawal (16 R394 to R409). The commit and the writes of R405 to R407 are one step; each gang goes on at its
RESAMPLE_RELEASE. -/

namespace Sys2Proof.Machine

open Sys2Proof

/-! ## Weights and counts (R402, R403) -/

/-- A parent: gang, thread, slot, weight code. -/
structure Parent where
  gid : Nat
  t : Nat
  slot : Nat
  w : Nat
  deriving DecidableEq, Repr

def Gang.threadAt (g : Gang) (t : Nat) : Thread := g.thread (t / 4) (t % 4)

def insertParent (x : Parent) : List Parent → List Parent
  | [] => [x]
  | y :: l => if y.slot ≤ x.slot then y :: insertParent x l else x :: y :: l

/-- The parents of a round in slot order. -/
def State.parents (s : State) (P : Population) : List Parent :=
  (P.arrivals.flatMap fun a => match s.gang? a.issue.gang with
    | some g => a.weights.map fun tw => { gid := g.gid, t := tw.1, slot := (g.threadAt tw.1).popix, w := tw.2 : Parent }
    | none => []).foldl (fun l x => insertParent x l) []

/-- NaN, infinite, or negative and not zero. -/
def badWeight (w : Nat) : Bool := decide (field w 30 23 = 255) || (bitOf w 31 && decide (w % 2 ^ 31 ≠ 0))

/-- A weight times 2^149. -/
def fixedWeight (w : Nat) : Nat :=
  let e := field w 30 23
  if e = 0 then field w 22 0 else (2 ^ 23 + field w 22 0) * 2 ^ (e - 1)

/-- F(C) (R402). -/
def countTo (n k total c : Nat) : Nat := (n * c * 2 ^ 32 + k * total) / (total * 2 ^ 32)

/-- First offspring slot S and offspring count of each parent. -/
def countAll (n k total : Nat) : Nat → List Parent → List (Parent × Nat × Nat)
  | _, [] => []
  | c, p :: l =>
    let c' := c + fixedWeight p.w
    let lo := countTo n k total c
    (p, lo, countTo n k total c' - lo) :: countAll n k total c' l

/-- The round's random word k. -/
def Grid.roundWord (G : Grid) (round : Nat) : Nat := Block4.word (philox G.launch.seed (round % 2 ^ 32, 0, 0, 0)) 0

/-! ## Where offspring live (R405) -/

/-- An offspring: its gang and thread, the parent's, slot and ordinal. -/
structure Offspring where
  gid : Nat
  t : Nat
  pgid : Nat
  pt : Nat
  slot : Nat
  ord : Nat
  deriving DecidableEq, Repr

/-- A thread place with what its nearness to a parent is judged by. -/
structure LanePlace where
  gid : Nat
  t : Nat
  core : Nat
  team : Nat
  g : Nat
  deriving DecidableEq, Repr

/-- The order (%core, %team, %gang, slice, lane). -/
def LanePlace.before (a b : LanePlace) : Bool :=
  if a.core ≠ b.core then decide (a.core < b.core)
  else if a.team ≠ b.team then decide (a.team < b.team)
  else if a.g ≠ b.g then decide (a.g < b.g)
  else decide (a.t ≤ b.t)

def insertPlace (x : LanePlace) : List LanePlace → List LanePlace
  | [] => [x]
  | y :: l => if y.before x then y :: insertPlace x l else x :: y :: l

/-- Every lane of the grid in order. -/
def State.lanePlacesOf (s : State) (gids : List Nat) : List LanePlace :=
  (gids.flatMap fun gid => match s.gang? gid with
    | some g => (List.range (4 * g.slices.length)).map fun t =>
        { gid := gid, t := t, core := g.core, team := g.team, g := g.g : LanePlace }
    | none => []).foldl (fun l x => insertPlace x l) []

/-- The first free lane from the smallest set about the parent that holds one. -/
def nearest (p : LanePlace) (free : List LanePlace) : Option LanePlace :=
  let sets : List (LanePlace → Bool) :=
    [fun x => decide (x.gid = p.gid ∧ x.t / 4 = p.t / 4), fun x => decide (x.gid = p.gid),
     fun x => decide (x.team = p.team), fun x => decide (x.core = p.core),
     fun x => decide (x.core / Config.coresPerCluster = p.core / Config.coresPerCluster),
     fun x => decide (x.core / Config.coresPerDie = p.core / Config.coresPerDie), fun _ => true]
  sets.findSome? fun f => free.find? f

/-- Clones placed one after another, in increasing slot order. -/
def placeClones : List LanePlace → List (LanePlace × Nat × Nat) → List Offspring
  | _, [] => []
  | free, (p, slot, ord) :: l =>
    match nearest p free with
    | some x => { gid := x.gid, t := x.t, pgid := p.gid, pt := p.t, slot := slot, ord := ord } :: placeClones (free.erase x) l
    | none => placeClones free l

def State.offspring (s : State) (gids : List Nat) (counts : List (Parent × Nat × Nat)) : List Offspring :=
  let lanes := s.lanePlacesOf gids
  let firsts := (counts.filter fun c => decide (0 < c.2.2)).map fun c =>
    { gid := c.1.gid, t := c.1.t, pgid := c.1.gid, pt := c.1.t, slot := c.2.1, ord := 0 : Offspring }
  let free := lanes.filter fun l => !firsts.any fun o => decide (o.gid = l.gid ∧ o.t = l.t)
  let clones := counts.flatMap fun c => match lanes.find? fun l => decide (l.gid = c.1.gid ∧ l.t = c.1.t) with
    | some p => (List.range (c.2.2 - 1)).map fun j => (p, c.2.1 + j + 1, j + 1)
    | none => []
  firsts ++ placeClones free clones

/-! ## Registers of offspring (R405 to R407) -/

/-- The parent's generation plus one, its origin. -/
def nextLineage (l : Nat) : Nat := (l / 2 ^ 48 + 1) % 2 ^ 16 * 2 ^ 48 + l % 2 ^ 48

/-- The ordinal written to D. -/
def Thread.withOrdinal (t : Thread) (d : Dst) (j : Nat) : Thread :=
  match d with
  | .v n => t.setV n.toNat (BitVec.ofNat 32 j)
  | .x n => t.setX n.toNat (BitVec.ofNat 32 j)
  | _ => t

/-- An offspring's thread: the parent itself, or a clone in place of `here`. -/
def Offspring.thread (o : Offspring) (parent here : Thread) (d : Dst) : Thread :=
  let t := if o.ord = 0 then here
    else { parent with l0 := 0, l1 := 0, l2 := 0, l3 := 0, reservation := none }
  { t.withOrdinal d o.ord with popix := o.slot, lineage := nextLineage parent.lineage }

/-- The x rimes of slice k once the clones from the slices `from` are in it (07 R200). -/
def Slice.cloneRimes (sl : Slice) (parents : List Slice) : Slice :=
  (parents.foldl (fun (r : Slice × Bool) p =>
    ((List.range 32).foldl (fun (x : Slice) n =>
      x.setRime n (if r.2 then Rime.hullW 32 (x.rime n) (p.rime n) else p.rime n)) r.1, true)) (sl, sl.isLive)).1

def Slice.reclassAll (sl : Slice) (codes : List Nat) : Slice := codes.foldl (fun x c => x.reclass c) sl

/-- Slice k of a gang after the round, `mine` being its offspring; `gangs` says what every gang was (DEDUCED, log 58). -/
def State.sliceAfter (s : State) (codes : List Nat) (d : Dst) (n k : Nat) (sl : Slice) (mine : List Offspring) : Slice :=
  if mine.isEmpty then
    (if sl.isLive then { sl.ended with threads := sl.threads.map fun t => { t with live := false, reservation := none } } else sl)
  else
    let clones := mine.filter fun o => decide (o.ord ≠ 0)
    let shifts : Bool := match d with
      | .v _ | .x _ => true
      | _ => false
    let ordOf (j : Nat) : Option Nat := (mine.find? fun o => decide (o.t = 4 * k + j)).map fun o => o.ord
    let sl1 := if shifts then sl.shift fun j t => match ordOf j with
        | some o => BitVec.ofNat 32 o
        | none => sl.keptL0 d t
      else sl
    let sl2 := sl1.cloneRimes (clones.filterMap fun o => (s.gang? o.pgid).map fun g => g.slice (o.pt / 4))
    let sl3 := sl2.mapThreads fun j t =>
      match mine.find? fun o => decide (o.t = 4 * k + j) with
      | some o => o.thread (match s.gang? o.pgid with
          | some g => g.threadAt o.pt
          | none => t) t d
      | none => { t with live := false, reservation := none }
    let sl4 := match d with
      | .x r => sl3.setRime r.toNat (Rime.mk 32 0 ((n : Int) - 1))
      | _ => sl3
    { sl4 with mask := sl4.liveMask, latValid := if clones.isEmpty then sl4.latValid else 0 }.reclassAll codes

/-- A gang after the round: its strand goes on after the RESAMPLE when it is released. -/
def State.gangAfter (s : State) (a : Arrival) (n : Nat) (offs : List Offspring) (g : Gang) : Gang :=
  let mine := offs.filter fun o => decide (o.gid = g.gid)
  let codes := (s.tmplOf g).codes
  let slices := mapI (fun k sl => s.sliceAfter codes a.dst n k sl (mine.filter fun o => decide (o.t / 4 = k))) 0 g.slices
  let st := (g.strand? a.issue.slice).getD Strand.none
  let live := (List.range slices.length).filter fun k => (slices.getD k Slice.none).isLive
  { g with
    slices := slices
    strands := if live.isEmpty then []
      else [{ st with slices := live, pc := a.issue.fall, wait := .resample, fair := 0, hold := none }] }

/-- Registers spilled until the gang's slices fit their rows (R407, 06 R150). -/
def State.makeRoom (s : State) (gid : Nat) : Nat → State
  | 0 => s
  | fuel + 1 =>
    match s.gang? gid with
    | none => s
    | some g =>
      if g.fits (s.tmplOf g).budget then s
      else
        match g.victim [] with
        | some code => (s.spillReg gid code).makeRoom gid fuel
        | none => s

/-! ## Windows (R404, R406) -/

/-- The address of the level-3 entry that maps `va`; none where no table leads to it. -/
def State.leafAddr (s : State) (asid va : Nat) : Option Nat :=
  if !s.astOk asid then none
  else
    let e0 := s.readPhys (s.readPhys (s.astRecord asid) 8 + 8 * field va 56 55) 8
    let e1 := s.readPhys (field e0 51 16 * 2 ^ 16 + 8 * field va 54 42) 8
    let e2 := s.readPhys (field e1 51 16 * 2 ^ 16 + 8 * field va 41 29) 8
    if [e0, e1, e2].all fun e => bitOf e 0 && !bitOf e 7 then some (field e2 51 16 * 2 ^ 16 + 8 * field va 28 16) else none

def State.windowVa (s : State) (asid p : Nat) : Nat := s.privbase asid + 65536 * p

/-- The valid 64 KiB leaf of a slot's window. -/
def State.windowLeaf (s : State) (asid p : Nat) : Option Nat :=
  match s.walk asid (s.windowVa asid p) with
  | some (_, e, false) => some e
  | _ => none

/-- Each page that parents' windows map, with its leaf and the new slots that take it, in increasing order. -/
def State.pageSlots (s : State) (asid : Nat) (counts : List (Parent × Nat × Nat)) : List (Nat × List Nat) :=
  let each := counts.filterMap fun c => (s.windowLeaf asid c.1.slot).map fun e =>
    (e, (List.range c.2.2).map fun j => c.2.1 + j)
  let pages := (each.map fun x => pageAddr x.1).eraseDups
  pages.filterMap fun p =>
    let mine := each.filter fun x => decide (pageAddr x.1 = p)
    (mine.head?).map fun x => (x.1, mine.flatMap fun y => y.2)

/-- Runs of at most 63. -/
def runs63 : Nat → List Nat → List (List Nat)
  | 0, _ => []
  | fuel + 1, l => if l.isEmpty then [] else l.take 63 :: runs63 fuel (l.drop 63)

/-- The stack of each page that the round pops. -/
def popsNeeded (pages : List (Nat × List Nat)) : List Nat :=
  pages.flatMap fun p => List.replicate ((runs63 p.2.length p.2).length - 1) (leafStack p.1)

/-- The leaf that the round writes: V, R, W, U and ANCHOR of the parent's. -/
def newLeaf (leaf page share : Nat) : Nat :=
  (leaf &&& 0xF017) + page + (if share ≤ 1 then 0 else 64 + share * 2 ^ 58)

/-- One group of slots mapped to a page. -/
def State.mapGroup (s : State) (asid leaf page : Nat) (slots : List Nat) : State :=
  slots.foldl (fun s p => match s.leafAddr asid (s.windowVa asid p) with
    | some a => s.writePhys a (leBytes 8 (newLeaf leaf page slots.length))
    | none => s) s

/-- A page's slots mapped: the first 63 to the page itself, each further run to a fresh copy. -/
def State.mapPage (s : State) (asid leaf : Nat) : Bool → List (List Nat) → State
  | _, [] => s
  | first, run :: l =>
    if first then (s.mapGroup asid leaf (pageAddr leaf) run).mapPage asid leaf false l
    else
      match s.poolPop (leafStack leaf) with
      | some (page, s') => ((s'.copyPage (pageAddr leaf) page).mapGroup asid leaf page run).mapPage asid leaf false l
      | none => s.mapPage asid leaf false l

/-- The windows remapped: leaves of the new slots, V = 0 beyond them, pages no leaf maps pushed, translations gone (DEDUCED, log 59). -/
def State.remap (s : State) (asid slots n : Nat) (pages : List (Nat × List Nat)) : State :=
  let old := ((List.range slots).filterMap fun p => (s.windowLeaf asid p).map pageAddr).eraseDups
  let s := pages.foldl (fun s p => s.mapPage asid p.1 true (runs63 p.2.length p.2)) s
  let s := (List.range (slots - n)).foldl (fun s i =>
    match s.leafAddr asid (s.windowVa asid (n + i)) with
    | some a => s.writePhys a (leBytes 8 (s.readPhys a 8 / 2 * 2))
    | none => s) s
  let kept := (List.range n).filterMap fun p => (s.windowLeaf asid p).map pageAddr
  let s := (old.filter fun p => !kept.contains p).foldl (fun s p => s.poolPush (p / 2 ^ 36) p) s
  let lo := s.privbase asid
  { s with tlb := s.tlb.filter fun e =>
      let size := if e.big then 2 ^ 29 else 2 ^ 16
      !((decide (e.asid = asid) || bitOf e.leaf 5) && decide (e.page * size < lo + 65536 * slots) && decide (lo < (e.page + 1) * size)) }

/-! ## The round (R403, R404, R408) -/

def State.setPop (s : State) (serial : Nat) (f : Population → Population) : State :=
  { s with grids := s.grids.map fun G => if G.serial = serial then { G with pop := G.pop.map f } else G }

/-- Arrivals other than those of `gone`. -/
def Population.without (P : Population) (gone : List Nat) : Population :=
  let left := P.arrivals.filter fun a => !gone.contains a.issue.gang
  { P with arrivals := left, phase := if left.isEmpty then .idle else .gathering }

/-- The context of an arrived gang's RESAMPLE. -/
def State.arrivalCtx (s : State) (a : Arrival) : Option Ctx :=
  match s.gang? a.issue.gang with
  | some g => (g.strand? a.issue.slice).map fun st => ⟨a.issue, g, { st with wait := .none }⟩
  | none => none

/-- Counting fails: POPWEIGHT in every gang, every arrival withdrawn. -/
def State.roundFails (s : State) (serial : Nat) (P : Population) (reason : Nat) : State :=
  let s := s.setPop serial fun P => { P with arrivals := [], phase := .idle }
  P.arrivals.foldl (fun s a =>
    match s.arrivalCtx a with
    | none => s
    | some c =>
      let bad := (a.weights.filter fun tw => badWeight tw.2).foldl (fun m tw => m + 2 ^ tw.1) 0
      s.userTrap c c.g { cause := 14, tmask := bad, taddr := reason }) s

/-- Windows missing: a translation fault in each gang that holds such a slot, its arrival withdrawn. -/
def State.windowsMissing (s : State) (serial asid : Nat) (P : Population) (missing : List Parent) : State :=
  let gone := (missing.map fun p => p.gid).eraseDups
  let s := s.setPop serial fun P => P.without gone
  (P.arrivals.filter fun a => gone.contains a.issue.gang).foldl (fun s a =>
    match s.arrivalCtx a, missing.find? fun p => decide (p.gid = a.issue.gang) with
    | some c, some p =>
      s.gangFault c (c.g.setStrand c.st) (c.failInfo ⟨1, 0, s.windowVa asid p.slot, s.windowVa asid p.slot⟩) none none
    | _, _ => s) s

/-- SPILLED registers of the arrived gangs that are active are filled before the clones' values enter (R407, 06 R150). -/
def State.fillArrived (s : State) (P : Population) : State :=
  P.arrivals.foldl (fun s a => match s.gang? a.issue.gang with
    | some g => if g.active then ((s.tmplOf g).codes.filter g.spilled).foldl (fun s code => s.fillReg g.gid code) s else s
    | none => s) s

/-- The poisoned line among the images that would be filled, with its arrival (06 R160). -/
def State.poisonedArrival (s : State) (P : Population) : Option (Arrival × Nat) :=
  P.arrivals.findSome? fun a => (s.gang? a.issue.gang).bind fun g =>
    if g.active then (((s.tmplOf g).codes.filter g.spilled).findSome? (s.firnPoisoned g)).map fun line => (a, line) else none

/-- The commit and every write of the round. -/
def State.commitRound (s : State) (G : Grid) (P : Population) (n total : Nat) (counts : List (Parent × Nat × Nat))
    (pages : List (Nat × List Nat)) : State :=
  let gids := P.arrivals.map fun a => a.issue.gang
  let s := s.fillArrived P
  let offs := s.offspring gids counts
  let after := P.arrivals.filterMap fun a => (s.gang? a.issue.gang).map (s.gangAfter a n offs)
  let s := after.foldl State.setGang s
  let s := { s with
    opLatch := s.opLatch.filter fun e => !gids.any fun x => decide (e.2.1 = x + 1)
    near := s.near.filter fun x => !gids.contains x.1.1 }
  let s := s.remap G.tmpl.asid P.slots n pages
  let live := (after.filter Gang.isLive).map fun g => g.gid
  let s := s.setPop G.serial fun P =>
    { P with round := P.round + 1, lastN := n, lastParents := (counts.filter fun c => decide (0 < c.2.2)).length, lastW := total
             arrivals := [], releasing := live, phase := if live.isEmpty then .idle else .committed }
  let s := after.foldl (fun s g =>
    if g.active then s.makeRoom g.gid 0xA0 else s.renewImages g.gid) s
  (after.filter fun g => !g.isLive).foldl (fun s g => s.gangGone g.gid) s

/-- The count of a round all of whose live gangs have arrived. -/
def State.countRound (s : State) (G : Grid) (P : Population) : State :=
  let parents := s.parents P
  let total := (parents.map fun p => fixedWeight p.w).foldl (· + ·) 0
  let n := ((P.arrivals.head?).map fun a => a.n).getD 0
  let lanes := (P.arrivals.map fun a => match s.gang? a.issue.gang with
    | some g => 4 * g.slices.length
    | none => 0).foldl (· + ·) 0
  if parents.any fun p => badWeight p.w then s.roundFails G.serial P 1
  else if total = 0 then s.roundFails G.serial P 2
  else if !P.arrivals.all fun a => decide (a.n = n) then s.roundFails G.serial P 4
  else if n = 0 ∨ lanes < n then s.roundFails G.serial P 3
  else
    let counts := countAll n (G.roundWord P.round) total 0 parents
    match parents.filter fun p => (s.windowLeaf G.tmpl.asid p.slot).isNone with
    | p :: l => s.windowsMissing G.serial G.tmpl.asid P (p :: l)
    | [] =>
      let pages := s.pageSlots G.tmpl.asid counts
      let need := popsNeeded pages
      let short := need.eraseDups.filter fun h =>
        !(s.poolValid h && decide ((need.filter fun x => x = h).length ≤ s.poolCount h))
      match short with
      | _ :: _ =>
        short.foldl (fun s _ => s.report (packageReport 0x12 0 0 0 G.tmpl.asid))
          (s.setPop G.serial fun P => { P with phase := .counting, short := short })
      | [] =>
        match s.poisonedArrival P with
        | none => s.commitRound G P n total counts pages
        | some (a, line) =>
          match s.arrivalCtx a with
          | some c => (s.fatalFault c 5 1 line).gangGone c.g.gid |>.sweep
          | none => s

/-- A round after an arrival, a gang's end or a push: counted once every live gang has arrived. -/
def State.popStep (s : State) (serial : Nat) : State :=
  match s.grid? serial with
  | none => s
  | some G =>
    match G.pop with
    | none => s
    | some P =>
      match P.phase with
      | .idle => s
      | .committed =>
        let live := s.liveGids serial
        let left := P.releasing.filter live.contains
        s.setPop serial fun P => { P with releasing := left, phase := if left.isEmpty then .idle else .committed }
      | _ =>
        let live := s.liveGids serial
        let P := P.without (P.arrivals.filterMap fun a => if live.contains a.issue.gang then none else some a.issue.gang)
        let s := s.setPop serial fun _ => P
        let here := P.arrivals.map fun a => a.issue.gang
        if P.arrivals.isEmpty || !live.all here.contains then s else s.countRound G P

/-- A gang's withdrawal before commit (R409): its strand is at the RESAMPLE again; void after commit. -/
def State.withdraw (s : State) (gid : Nat) : State :=
  match s.gang? gid with
  | none => s
  | some g =>
    match (s.grid? g.grid).bind fun G => G.pop with
    | none => s
    | some P =>
      if P.arrivals.any fun a => decide (a.issue.gang = gid) then
        let s := s.setPop g.grid fun P => P.without [gid]
        s.setGang { g with strands := g.strands.map fun st => if st.wait = .resample then { st with wait := .none } else st }
      else s

end Sys2Proof.Machine
end

