-- ==== Sys2Proof/Machine/Work.lean ====
section
/-! DEFINITION. The meeting of a gang's slices, and threads that end (04 R89 to R96, R106; 17 R418, R425). -/

namespace Sys2Proof.Machine

open Sys2Proof

/-- What follows when a gang ceases to be live: its barriers, its resources, its population's round. -/
def State.gangEnded (s : State) (gid : Nat) : State :=
  match s.gang? gid with
  | none => s
  | some g => if g.isLive then s else (s.gangGone gid).popStep g.grid

/-! ## Slices that move (04 R90) -/

/-- The JOIN rows of R90 at address J at the strand's depth. -/
def Slice.atJoin (sl : Slice) (J depth : Nat) : Slice × Option Dest :=
  let here : Dest := ⟨J, depth, true⟩
  let r : Slice × Dest :=
    match sl.stack with
    | [] => (sl, here)
    | e :: rest =>
      if e.depth ≠ depth then (sl, here)
      else if !e.reconv then
        ({ sl with mask := e.pm &&& sl.liveMask, stack := { e with reconv := true, pc := J } :: rest }, ⟨e.pc, depth, false⟩)
      else if e.pc = J then ({ sl with mask := e.fm &&& sl.liveMask, stack := rest }, here)
      else (sl, here)
  if r.1.mask &&& sl.liveMask = 0 then r.1.afterExit else (r.1, some r.2)

/-- The strands that the moved slices of `st` form: one for each destination. -/
def movedStrands (st : Strand) (moves : List (Nat × Dest)) (waits : Wait) : List Strand :=
  ((moves.map fun m => m.2).eraseDups).map fun d =>
    { st with
      slices := (moves.filter (fun m => m.2 = d)).map (fun m => m.1)
      pc := d.pc
      ret := keepDepth st.ret d.depth
      wait := (if d.arrives then waits else .none)
      fair := 0
      hold := none
      emptySince := none }

/-- The slices of strand `st` that `f` changes and sends on; those it keeps (`some none`) stay with `st`, those that
end (`none`) leave it. -/
def Gang.moveSlices (g : Gang) (st : Strand) (f : Nat → Slice → Slice × Option (Option Dest)) (waits : Wait) : Gang :=
  let rs := st.slices.map fun k => (k, f k (g.slice k))
  let new (k : Nat) (sl : Slice) : Slice :=
    match rs.find? fun r => decide (r.1 = k) with
    | some r => r.2.1
    | none => sl
  let g1 := { g with slices := mapI new 0 g.slices }
  let stay := (rs.filter fun r => r.2.2 = some none).map fun r => r.1
  let moves := rs.filterMap fun r => match r.2.2 with
    | some (some d) => some (r.1, d)
    | _ => none
  let kept : List Strand := if stay.isEmpty then [] else [{ st with slices := stay }]
  let old := g.strands.filter fun (x : Strand) => x.slices ≠ st.slices
  { g1 with strands := old ++ kept ++ movedStrands st moves waits }

/-! ## Meeting points (04 R94, R95; 17 R425) -/

def lowest : List Strand → Option Strand
  | [] => none
  | st :: l => some (l.foldl (fun a b => if b.low < a.low then b else a) st)

/-- Strands re-formed as one: slices in order, mode of the lowest, their accesses put in order before what follows. -/
def Gang.merge (g : Gang) (into : Strand) (parts : List Strand) : Gang :=
  let all := parts.flatMap fun st => st.slices
  let slices := (List.range g.slices.length).filter all.contains
  let st : Strand :=
    { into with slices := slices, wait := .met, fair := 0, hold := none, unseen := parts.foldl (fun u p => u &&& p.unseen) into.unseen }
  { g with strands := (g.strands.filter fun (x : Strand) => !parts.any fun p => decide (p.slices = x.slices)) ++ [st] }.joinAccesses slices

/-- The meeting condition evaluated (R94, R95). While a handler runs, its strands alone meet; at RESUME the slices that
entered it meet, the lowest slice's RESUME for all of them (17 R417, R425) (DEDUCED, log 85). -/
def Gang.regroup (g : Gang) : Gang :=
  let mine := if g.handler.isSome then g.strands.filter fun st => !st.held else g.strands
  if mine.isEmpty then g
  else if g.handler.isSome && mine.all fun st => decide (st.wait = .resume) then
    match lowest mine with
    | some low => g.merge low mine
    | none => g
  else if mine.all fun st => decide (st.wait = .meet) || decide (st.wait = .resume) then
    match lowest mine with
    | some low => g.merge low (mine.filter fun st => decide (st.pc = low.pc) && decide (st.ret = low.ret))
    | none => g
  else g

/-- A meeting point: the rows of R90 on each slice of the strand, the condition of R94; `k` follows with the re-formed
strand where the gang re-forms at this instruction. -/
def Ctx.meetAt (s : State) (c : Ctx) (kind : Wait) (k : Ctx → State) : State :=
  if c.st.wait = .met then k c
  else if c.st.wait = .meet ∨ c.st.wait = .resume then s
  else
    let J := c.is.pc
    let g := c.g.moveSlices { c.st with since := s.cycleOf c.g.core } (fun _ sl =>
      let r := sl.atJoin J c.st.ret.length
      (r.1, r.2.map some)) kind
    let g := g.regroup
    match g.strands.find? fun st => decide (st.wait = .met) && decide (st.pc = J) && meets st.slices c.st.slices with
    | some st => k { c with g := g, st := st }
    | none => s.setGang g

/-! ## Threads that end (04 R96, R106; 17 R418) -/

/-- The slices that entered the handler have no live thread left. -/
def Gang.handlerDead (g : Gang) : Bool :=
  match g.handler with
  | some h => h.saved.all fun v => !(g.slice v.slice).isLive
  | none => false

/-- Threads of the strand ended: `gone` says which; slices with no active thread left follow the exit rows of R90, the
others go on at `pc`. -/
def State.endThreads (s : State) (g : Gang) (st : Strand) (pc : Nat) (gone : Nat → Nat → Bool) : State :=
  let s := { s with near := s.near.filter fun n =>
    !(decide (n.1.1 = g.gid) && st.slices.contains (n.1.2.1 / 4) && gone (n.1.2.1 / 4) (n.1.2.1 % 4)) }
  let g1 := g.mapThreads st.slices fun k j t =>
    if gone k j then { t with live := false, reservation := none } else t
  let g2 := g1.moveSlices { st with pc := pc, wait := .none } (fun _ sl =>
    if sl.mask &&& sl.liveMask = 0 then (let r := sl.afterExit; (r.1, r.2.map some)) else (sl, some none)) .meet
  let g3 := if g2.handlerDead then g2.endHandler else g2
  let s := s.setGang g3.regroup
  if g3.isLive then s else (s.gangEnded g.gid).sweep

end Sys2Proof.Machine
end

