-- ==== Sys2Proof/Machine/Launch.lean ====
section
/-! DEFINITION. Launches, templates, gates, admission and placement, reservation of a core, LAUNCH and WAITCH, bulk
copies (05 R116 to R120, R130 to R141; 09 R231, R235, R239; 12 R328; 16 R394, R395). -/

namespace Sys2Proof.Machine

open Sys2Proof

/-! ## Templates and launch records (R134, R136) -/

/-- Bytes at offset `o`, `n` of them, little-endian. -/
def le (bs : List Byte) (o n : Nat) : Nat := ofLe ((bs.drop o).take n)

/-- A launch template's fields and whether every reserved bit is zero. -/
def parseTemplate (bs : List Byte) : Template × Bool :=
  ({ entry := le bs 0 8, asid := le bs 8 2, gangs := le bs 10 1, vregs := le bs 11 1, xregs := le bs 12 1, pack := le bs 13 1
     accs := le bs 14 1, trees := le bs 15 1, scratch := le bs 16 2, chip := le bs 18 2, width := le bs 20 1
     tflags := le bs 21 1, clteams := le bs 22 1 }, decide (le bs 21 1 < 4) && decide (le bs 23 41 = 0))

def parseLaunch (bs : List Byte) : LaunchRec :=
  { template := le bs 0 2, flags := le bs 2 1, prio := le bs 3 1, teams := le bs 4 4, gaddr := le bs 8 8, gval := le bs 16 8
    saddr := le bs 24 8, seed := le bs 32 8, arg0 := le bs 40 8, arg1 := le bs 48 8, arg2 := le bs 56 8 }

/-- Entries of a table register: 2^(SIZE+4). -/
def tableSize (reg : Nat) : Nat := 2 ^ (field reg 63 60 + 4)

/-- A template read by physical address; none beyond the table. -/
def State.templateAt (s : State) (idx : Nat) : Option (Template × Bool) :=
  let reg := s.mg Mgmt.lttbase
  if idx < tableSize reg then
    some (parseTemplate ((List.range 64).map fun i => s.physByte (field reg 51 6 * 64 + 64 * idx + i)))
  else none

def Template.cluster (t : Template) : Bool := bitOf t.tflags 1
def Template.popok (t : Template) : Bool := bitOf t.tflags 0

/-- Hardware gangs of a declared gang (R143). -/
def Template.halves (t : Template) : Nat := if t.width = 3 then 2 else 1

def Template.inRange (t : Template) : Bool :=
  decide (t.entry % 128 = 8) && decide (1 ≤ t.gangs ∧ t.gangs * t.halves ≤ 32) && decide (1 ≤ t.vregs ∧ t.vregs ≤ 128) &&
  decide (t.xregs ≤ 32) && decide (t.pack ≤ 2) && decide (t.accs ≤ 32) && decide (t.trees ≤ 4) && decide (t.scratch ≤ 64) &&
  decide (t.width ≤ 3) && (if t.cluster then decide (1 ≤ t.clteams ∧ t.clteams ≤ 16) else decide (t.clteams = 0))

def LaunchRec.ok (r : LaunchRec) (child : Bool) : Bool :=
  decide (r.flags < 8) && (!child || decide (r.prio < 4)) && decide (r.teams ≠ 0) &&
  (!r.gate || decide (r.gaddr % 8 = 0)) && (!r.stat || decide (r.saddr % 8 = 0))

/-! ## Placement (R117, R119) -/

/-- A team placed: core and partition offset. -/
abbrev Placed := Nat × Nat

/-- Declared gangs of a template that go to partition q under offset P. -/
def Template.onPart (t : Template) (P q : Nat) : Nat := ((List.range t.gangs).filter fun g => decide ((P + g) % 8 = q)).length

/-- Gangs, tiles and tree files that gangs of `keep` hold in a partition. -/
def State.held (s : State) (keep : Gang → Bool) (core q : Nat) : Nat × Nat × Nat :=
  (s.gangs.filter fun g => decide (g.core = core) && decide (g.part = q) && !g.released && keep g).foldl (fun a g =>
    let t := s.tmplOf g
    (a.1 + t.halves, a.2.1 + t.halves * t.accs, a.2.2 + t.halves * t.trees)) (0, 0, 0)

/-! ## Rows and slots (R114, R115; 06 R149) -/

def sameQuarter (a b : Gang) : Bool := decide (a.core = b.core) && decide (a.part = b.part)

def Gang.slotsTaken (g : Gang) : Nat := if 8 < g.slices.length then 2 else 1

/-- Active slots that some gangs take. -/
def slotsOf (gs : List Gang) : Nat := (gs.map Gang.slotsTaken).foldl (· + ·) 0

/-- Rows that some gangs take in pipe p. -/
def State.rowsOf (s : State) (gs : List Gang) (p : Nat) : Nat :=
  (gs.map fun x => (x.liveSlices.filter fun k => decide (k % 8 = p)).length * (s.tmplOf x).budget).foldl (· + ·) 0

/-- Whether a gang may take an active slot beside the active gangs of its partition that `keep` admits (R115). -/
def State.entersBeside (s : State) (keep : Gang → Bool) (g : Gang) : Bool :=
  let gs := s.gangs.filter fun x => x.active && sameQuarter x g && keep x
  decide (slotsOf gs + g.slotsTaken ≤ 16) &&
  (List.range 8).all fun p =>
    decide (s.rowsOf gs p + (g.liveSlices.filter fun k => decide (k % 8 = p)).length * (s.tmplOf g).budget ≤ 1024)

/-- Whether a gang may take an active slot (R115). -/
def State.canEnter (s : State) (g : Gang) : Bool := s.entersBeside (fun _ => true) g

/-- The lowest free active slot of a gang's partition. -/
def State.freeSlot (s : State) (g : Gang) : Nat :=
  let used := (s.gangs.filter fun x => x.active && sameQuarter x g).map fun x => x.slot
  ((List.range 16).find? fun n => !used.contains n).getD 0

/-- Rows that a gang of a template takes in pipe p. -/
def Template.pipeRows (t : Template) (p : Nat) : Nat := ((List.range t.nslices).filter fun k => decide (k % 8 = p)).length * t.budget

/-- How many of `n` new gangs of a template find an active slot and rows beside the gangs `gs` of a partition. -/
def State.entering (s : State) (t : Template) (gs : List Gang) (n : Nat) : Nat :=
  (List.range 8).foldl (fun m p => if t.pipeRows p = 0 then m else min m ((1024 - s.rowsOf gs p) / t.pipeRows p))
    (min n ((16 - slotsOf gs) / t.halves))

/-- The gangs of partition q that would be parked, `n` new ones among them, have a parked-state slot each (R114, 01 R15). -/
def State.parksFit (s : State) (keep : Gang → Bool) (t : Template) (core q n : Nat) : Bool :=
  let here := s.gangs.filter fun g => decide (g.core = core) && decide (g.part = q) && !g.released && keep g
  decide (slotsOf (here.filter fun g => !g.active) + (n - s.entering t (here.filter fun g => g.active) n) * t.halves ≤ 16)

def fitsPart (t : Template) (held : Nat × Nat × Nat) (n : Nat) : Bool :=
  decide (held.1 + n * t.halves ≤ 32) && decide (held.2.1 + n * t.halves * t.accs ≤ 32) &&
  decide (held.2.2 + n * t.halves * t.trees ≤ 4)

/-- What teams of the same template placed beside hold in a partition. -/
def besides (t : Template) (extra : List Placed) (core q : Nat) : Nat :=
  ((extra.filter fun e => decide (e.1 = core)).map fun e => t.onPart e.2 q).foldl (· + ·) 0

/-- Whether a core may take a team at all: not reserved for other launches, firn and spill areas valid, a team slot. -/
def State.coreOk (s : State) (t : Template) (order core : Nat) : Bool :=
  (s.reserved.all fun r => decide (r.1 = order) || decide (r.2 ≠ core)) &&
  bitOf (s.mg (Mgmt.firnbase core)) 0 && (decide (t.scratch = 0) || bitOf (s.mg (Mgmt.spillbase core)) 0) &&
  decide ((s.holders core).length < 256)

/-- R117 on one core under offset P, with the parked-state slots of R114. -/
def State.passes (s : State) (keep : Gang → Bool) (t : Template) (extra : List Placed) (core P : Nat) : Bool :=
  (List.range 8).all fun q =>
    let n := besides t extra core q + t.onPart P q
    fitsPart t (s.held keep core q) n && s.parksFit keep t core q n

/-- Insertion by a key, equal keys in the order they came. -/
def insertBy (key : Nat → Nat) (x : Nat) : List Nat → List Nat
  | [] => [x]
  | y :: l => if key y ≤ key x then y :: insertBy key x l else x :: y :: l

/-- Partition offsets in the order they are tried: fewest gangs admitted first, lowest index on ties. -/
def State.offsets (s : State) (keep : Gang → Bool) (t : Template) (extra : List Placed) (core : Nat) : List Nat :=
  (List.range 8).foldl (fun l q => insertBy (fun p => (s.held keep core p).1 + besides t extra core p * t.halves) q l) []

/-- The first core of a list and its first offset that pass. -/
def State.place (s : State) (keep : Gang → Bool) (t : Template) (order : Nat) (extra : List Placed) : List Nat → Option Placed
  | [] => none
  | core :: l =>
    match if s.coreOk t order core then (s.offsets keep t extra core).find? (s.passes keep t extra core) else none with
    | some P => some (core, P)
    | none => s.place keep t order extra l

def everyGang : Gang → Bool := fun _ => true

/-- `n` teams placed one after another on any cores. -/
def State.placeN (s : State) (t : Template) (order : Nat) (extra : List Placed) : Nat → Option (List Placed)
  | 0 => some extra
  | n + 1 =>
    match s.place everyGang t order extra (List.range Config.cores) with
    | some p => s.placeN t order (extra ++ [p]) n
    | none => none

/-- A cluster group of `n` teams on distinct cores of one cluster, clusters in increasing order. -/
def State.placeOnCores (s : State) (t : Template) (order : Nat) (extra : List Placed) : Nat → List Nat → Option (List Placed)
  | 0, _ => some []
  | _ + 1, [] => none
  | n + 1, core :: l =>
    match s.place everyGang t order extra [core] with
    | some p => (s.placeOnCores t order extra n l).map (p :: ·)
    | none => s.placeOnCores t order extra (n + 1) l

def clusterCores (c : Nat) : List Nat := (List.range Config.coresPerCluster).map (c * Config.coresPerCluster + ·)

def State.placeGroup (s : State) (t : Template) (order : Nat) (extra : List Placed) (n : Nat) : List Nat → Option (List Placed)
  | [] => none
  | c :: l =>
    match s.placeOnCores t order extra n (clusterCores c) with
    | some ps => some ps
    | none => s.placeGroup t order extra n l

/-- Cluster groups from team `first` on until `total` teams are placed. -/
def State.placeGroups (s : State) (t : Template) (order total : Nat) : Nat → List Placed → Option (List Placed)
  | 0, extra => some extra
  | fuel + 1, extra =>
    if total ≤ extra.length then some extra
    else
      match s.placeGroup t order extra (min t.clteams (total - extra.length)) (List.range Config.clusters) with
      | some ps => s.placeGroups t order total fuel (extra ++ ps)
      | none => none

/-- Every team of a population grid at once (16 R394). -/
def State.placeAll (s : State) (t : Template) (order total : Nat) : Option (List Placed) :=
  if t.cluster then s.placeGroups t order total total [] else s.placeN t order [] total

/-! ## The checks of a launch (R137) -/

/-- The package with nothing admitted, for what one core or the package can ever hold. -/
def State.emptied (s : State) : State :=
  let valid := (List.range Config.cores).foldl (fun s c => (s.setMg (Mgmt.firnbase c) 1).setMg (Mgmt.spillbase c) 1) s
  { valid with gangs := [], teams := [], reserved := [] }

/-- A declaration within one core's capacity (01 R16): gangs, tiles, tree files by partition, rows of a pipe. -/
def Template.fitsCore (t : Template) : Bool :=
  (List.range 8).all (fun q => fitsPart t (0, 0, 0) (t.onPart 0 q)) && decide (t.halves * t.budget ≤ 1024)

/-- Status of a launch whose template has been read: 0 accepted, else the code of R137, in the order 0x03, 0x02, 0x08 (DEDUCED, log 41). -/
def State.checkLaunch (s : State) (t : Template) (reservedOk : Bool) (r : LaunchRec) (child : Bool) : Nat :=
  let slots := r.teams * (t.gangs * t.threads)
  if !reservedOk || !t.inRange || !r.ok child || !s.astOk t.asid then 3
  else if !t.fitsCore || decide (2048 < t.chip) then 2
  else if r.pop && t.popok && (decide (2 ^ 21 < slots) || (s.emptied.placeAll t 0 r.teams).isNone) then 2
  else if r.pop && !t.popok then 8
  else 0

/-! ## Queues (R131 to R135) -/

/-- Priority and PREEMPT of a launch that has not started: its queue's as they stand, or its own. -/
def State.prioOf (s : State) (p : Pending) : Nat :=
  match p.queue with
  | some q => (s.queues.getD q Queue.fresh).prio
  | none => p.prio

def State.preemptOf (s : State) (p : Pending) : Bool :=
  match p.queue with
  | some q => (s.queues.getD q Queue.fresh).preempt
  | none => p.preempt

/-- Launches and copies of queue q that are accepted and not started come in arbiter order: whether `id` is the first. -/
def State.atHead (s : State) (q id : Nat) : Bool :=
  (s.pendings.all fun p => !(decide (p.queue = some q)) || decide (id ≤ p.id)) &&
  (s.bulk.all fun b => !(decide (b.queue = q)) || b.started || decide (id ≤ b.id))

/-- Copies that have reached the head of their queue start; what they held up may then be at the head (12 R328). -/
def State.startBulksN : Nat → State → State
  | 0, s => s
  | n + 1, s =>
    let start (b : BulkCopy) : BulkCopy := if !b.started && s.atHead b.queue b.id then { b with started := true } else b
    State.startBulksN n { s with bulk := s.bulk.map start }

def State.startBulks (s : State) : State := State.startBulksN s.bulk.length s

/-- A pending launch whose turn has come and whose gate is open: it may start. A queue's launches start in order; the
children of one gang start in issue order but for those whose gate is closed or whose priority is lower (R116, R138). -/
def State.mayStart (s : State) (p : Pending) : Bool :=
  p.gateOpen && !s.doomed p && (match p.queue with
    | some q => s.atHead q p.id
    | none => s.pendings.all fun x => !(decide (x.queue = none) && decide (x.parent = p.parent) && decide (x.id < p.id) && x.gateOpen &&
        decide (p.prio ≤ x.prio)))

/-- A launch accepted at the package event arbiter. -/
def State.submit (s : State) (queue : Option Nat) (t : Template) (r : LaunchRec) (depth prio : Nat) (preempt : Bool)
    (parent : Option Nat) (parentGrid : Nat) : State :=
  { s with
    seq := s.seq + 1
    pendings := s.pendings ++
      [{ id := s.seq, queue := queue, tmpl := t, launch := r, depth := depth, prio := prio, preempt := preempt, parent := parent
         parentGrid := parentGrid, gateOpen := !r.gate, gateChecked := s.base, since := s.base }] }

/-- A 64-byte store to launch line q (R133). -/
def State.launchStore (s : State) (q : Nat) (data : List Byte) : State :=
  let r := parseLaunch data
  let cfg := s.queues.getD q Queue.fresh
  let t? := s.templateAt r.template
  let asid := match t? with
    | some (t, _) => if s.astOk t.asid then some t.asid else none
    | none => none
  let refuse (code : Nat) : State := s.statusWord asid r.stat r.saddr code
  if !cfg.enable then refuse 7
  else if 256 ≤ s.pendingOf q then refuse 6
  else
    match t? with
    | none => refuse 3
    | some (t, ok) =>
      match s.checkLaunch t ok r false with
      | 0 => s.submit (some q) t r 0 cfg.prio cfg.preempt none 0
      | code => refuse code

/-! ## Copy launches (12 R326, R328) -/

structure CopyTemplate where
  src : Nat
  dst : Nat
  rowBytes : Nat
  rows : Nat
  sstride : Int
  dstride : Int
  asid : Nat
  stat : Bool
  dscr : Bool
  saddr : Nat
  reserved : Bool
  deriving DecidableEq, Repr

def parseCopy (bs : List Byte) : CopyTemplate :=
  { src := le bs 0 8, dst := le bs 8 8, rowBytes := le bs 16 4, rows := le bs 20 4, sstride := sintOf 64 (le bs 24 8)
    dstride := sintOf 64 (le bs 32 8), asid := le bs 40 2, stat := bitOf (le bs 42 1) 0, dscr := bitOf (le bs 42 1) 1
    saddr := le bs 48 8
    reserved := decide (le bs 42 1 < 4) && decide (le bs 43 5 = 0) && decide (le bs 56 8 = 0) }

/-- The ranges of R326. -/
def CopyTemplate.ok (c : CopyTemplate) : Bool :=
  c.reserved && decide (c.src % 16 = 0) && decide (c.dst % 16 = 0) && decide (c.rowBytes % 16 = 0) &&
  decide (16 ≤ c.rowBytes ∧ c.rowBytes ≤ 2 ^ 31) && decide (1 ≤ c.rows) && decide (c.sstride % 16 = 0) && decide (c.dstride % 16 = 0)

/-- A 64-byte store to copy-template line q. The copy goes to the bulk copy engine of base die q mod 4, which performs its
copies in the order they were accepted (12 R328 says only 'a bulk copy engine on a base die': DESIGN CHOICE, log 98). -/
def State.copyStore (s : State) (q : Nat) (data : List Byte) : State :=
  let c := parseCopy data
  let cfg := s.queues.getD q Queue.fresh
  let asid := if s.astOk c.asid then some c.asid else none
  let refuse (code : Nat) : State := s.statusWord asid c.stat c.saddr code
  if !cfg.enable then refuse 7
  else if 256 ≤ s.pendingOf q then refuse 6
  else if !c.ok || c.dscr || asid.isNone || (c.stat && decide (c.saddr % 8 ≠ 0)) then refuse 3
  else
    let b : BulkCopy :=
      { id := s.seq, queue := q, started := false, die := q % 4, asid := c.asid, rows := c.rows, rowBytes := c.rowBytes
        src := c.src, dst := c.dst, sstride := wrapTo 64 c.sstride, dstride := wrapTo 64 c.dstride, stat := c.stat, saddr := c.saddr }
    { s with seq := s.seq + 1, bulk := s.bulk ++ [b] }.startBulks

/-- A store of the fabric or the host reaches the package event arbiter: of the events of one base cycle it takes those of
an earlier class and, within a class, of a lower source first, so one that comes after a later one of its cycle counts
as of the next cycle (01 R20). Classes: 0 fault reports, 1 fabric arrivals, 2 launch stores. -/
def State.arbitrate (s : State) (cls source : Nat) : State :=
  let (t, c, n) := s.arrived
  let s := if t = s.base ∧ (cls < c ∨ (cls = c ∧ source < n)) then { s with base := s.base + 1 } else s
  { s with arrived := (s.base, cls, source) }

/-- A store to this package's launch window at an offset of it (R130, R133): a launch, a copy launch, or as any other
store to the window. -/
def State.launchWindow (s : State) (offset : Nat) (data : List Byte) : State :=
  if data.length = 64 ∧ offset % 64 = 0 ∧ offset < 0x1000 then s.launchStore (offset / 64) data
  else if data.length = 64 ∧ offset % 64 = 0 ∧ offset < 0x2000 then s.copyStore ((offset - 0x1000) / 64) data
  else s.windowStore 0 (0xFF00000000 + offset) data

/-- LAUNCH_STORE and COPY_LAUNCH: stores of the host or a peer, in their order at the arbiter. -/
def execLaunchStore (source : Nat) (offset : Nat) (data : List Byte) (s : State) : Host.Outcome State Fault Refusal :=
  .next ((s.arbitrate 2 source).launchWindow (offset % 0x4000) data)

def execCopyLaunch (source : Nat) (offset : Nat) (data : List Byte) (s : State) : Host.Outcome State Fault Refusal :=
  .next ((s.arbitrate 2 source).launchWindow (offset % 0x4000) data)

/-- Rows of a bulk copy moved in order, 16 bytes at a time; the status of the first fault, 0 if there is none. -/
def bulkPieces (b : BulkCopy) : List (Nat × Nat) :=
  (List.range b.rows).flatMap fun r => (List.range (b.rowBytes / 16)).map fun i =>
    ((b.src + r * b.sstride + 16 * i) % 2 ^ 64, (b.dst + r * b.dstride + 16 * i) % 2 ^ 64)

def State.bulkMove (s : State) (asid : Nat) : List (Nat × Nat) → State × Nat
  | [] => (s, 0)
  | (src, dst) :: l =>
    match s.accessWith false 0 asid src true false with
    | .error f => (s, f.status)
    | .ok (s1, pa) =>
      match s1.accessWith false 0 asid dst false true with
      | .error f => (s1, f.status)
      | .ok (s2, pd) =>
        (s2.performWrites none (physWrites pd ((List.range 16).map fun i => s2.physByte (pa + i)))).bulkMove asid l

/-- BULK_COPY_COMPLETE (12 R328) (DESIGN CHOICE, log 51). -/
def execBulkCopyComplete (id : Nat) (s : State) : Host.Outcome State Fault Refusal :=
  match s.bulk.find? fun b => decide (b.id = id) with
  | none => .next s
  | some b =>
    if !b.started || s.bulk.any fun x => decide (x.die = b.die) && x.started && decide (x.id < b.id) then .next s
    else
      let s := { s with bulk := s.bulk.filter fun x => x.id ≠ id }
      let (s, st) := s.bulkMove b.asid (bulkPieces b)
      .next (s.statusWord (some b.asid) b.stat b.saddr (if st = 0 then 1 else 0x0A + 256 * st))

/-! ## Gates (R135) -/

/-- The gate word read: the launch may start, waits on, or completes with GATE_FAULT. -/
def State.readGate (s : State) (p : Pending) : State :=
  match s.accessWith false 0 p.tmpl.asid p.launch.gaddr true false with
  | .error _ =>
    let s := { s with pendings := s.pendings.filter fun x => x.id ≠ p.id }
    ((s.statusWord (some p.tmpl.asid) p.launch.stat p.launch.saddr 5).childDone p.parent).startBulks.sweep
  | .ok (s, pa) =>
    let v := s.readPhys pa 8
    { s with pendings := s.pendings.map fun x =>
        if x.id = p.id then { x with gateOpen := decide (p.launch.gval ≤ v), gateChecked := s.base } else x }

def State.gateWaits (s : State) (p : Pending) : Bool :=
  p.launch.gate && !p.gateOpen && (match p.queue with
    | some q => s.atHead q p.id
    | none => true)

/-- GATE_EVALUATE: at the head of its queue, or after a write to the gate's line. -/
def execGateEvaluate (id : Nat) (s : State) : Host.Outcome State Fault Refusal :=
  match s.pendings.find? fun p => decide (p.id = id) with
  | some p => .next (if s.gateWaits p then s.readGate p else s)
  | none => .next s

/-- GATE_RECHECK: 4,096 base cycles after the last evaluation. -/
def execGateRecheck (id : Nat) (s : State) : Host.Outcome State Fault Refusal :=
  match s.pendings.find? fun p => decide (p.id = id) with
  | some p => .next (if s.gateWaits p && decide (p.gateChecked + 4096 ≤ s.base) then s.readGate p else s)
  | none => .next s

/-! ## A grid starts (R116, R239, R141, R394) -/

/-- A free chip block for grid block k: the lowest on die k mod 4, else the lowest of all (R239). -/
def State.chipBlock (s : State) (k : Nat) : Option Nat :=
  let free (b : Nat) : Bool := !(s.chipOwner.any fun c => decide (c.1 = b))
  match (List.range 512).find? fun i => free (512 * (k % 4) + i) with
  | some i => some (512 * (k % 4) + i)
  | none => (List.range 2048).find? free

/-- `n` chip blocks allocated to a grid, cleared. -/
def State.chipAlloc (s : State) (serial : Nat) : Nat → Nat → Option (State × List Nat)
  | 0, _ => some (s, [])
  | n + 1, k =>
    match s.chipBlock k with
    | none => none
    | some b =>
      let s := { s with chipOwner := s.chipOwner.insert b serial, chip := s.chip.filter fun c => c.1 / 65536 ≠ b }
      match s.chipAlloc serial n (k + 1) with
      | some (s', bs) => some (s', b :: bs)
      | none => none

/-- A grid that starts: its number, tables, chip blocks, population; its launch leaves its queue. -/
def State.startGrid (s : State) (p : Pending) : Option (State × Nat) :=
  let serial := s.started + 1
  match s.chipAlloc serial p.tmpl.chip 0 with
  | none => none
  | some (s, chip) =>
    let pop : Option Population := if p.launch.pop then
        some { slots := p.launch.teams * (p.tmpl.gangs * p.tmpl.threads), round := 0, phase := .idle, lastN := 0, lastParents := 0
               lastW := 0, arrivals := [], releasing := [], short := [] }
      else none
    let lt := s.mg Mgmt.lttbase
    let ct := s.mg Mgmt.cttbase
    let G : Grid :=
      { serial := serial, order := p.id, tmpl := p.tmpl, launch := p.launch, queue := p.queue, depth := p.depth
        prio := s.prioOf p, preempt := s.preemptOf p, parent := p.parent, parentGrid := p.parentGrid, admitted := 0, retired := 0
        chip := chip, gridrec := w64 (field lt 63 60 * 2 ^ 60 + field lt 51 6 * 64)
        cpytab := w64 (field ct 63 60 * 2 ^ 60 + field ct 56 6 * 64), status := none, pop := pop, barrier := Barrier.fresh
        clusters := [], nextTeam := 0 }
    let bump (q : Queue) : Queue := { q with started := (q.started + 1) % 2 ^ 32 }
    some ({ s with
      started := serial
      grids := s.grids ++ [G]
      pendings := s.pendings.filter fun x => x.id ≠ p.id
      queues := (match p.queue with
        | some q => modifyAt bump q s.queues
        | none => s.queues) }.startBulks, serial)

/-! ## A team is admitted (R117, R118, R231, R235) -/

/-- Each 4 KiB block of a team mapped to a way of a set group (16·group + way), or to a spill block (64 + k) (R235). -/
def State.mapBlocks (s : State) (core : Nat) : Nat → Nat → List Nat → List Nat
  | 0, _, acc => acc
  | n + 1, k, acc =>
    let taken := acc ++ (s.holders core).flatMap fun t => t.blocks
    let way (g : Nat) : Option Nat :=
      if 14 ≤ (taken.filter fun b => decide (b < 64 ∧ b / 16 = g)).length then none
      else (List.range 16).find? fun w => !taken.contains (16 * g + w)
    let pick := [k % 4, (k + 1) % 4, (k + 2) % 4, (k + 3) % 4].findSome? fun g => (way g).map fun w => 16 * g + w
    s.mapBlocks core n (k + 1) (acc ++ [pick.getD (64 + k)])

/-- The images of a0 to a3 at gang start (R231). -/
def arrayImage (extent space logsz : Nat) : W128 :=
  BitVec.ofNat 128 (extent * 2 ^ 88 + space * 2 ^ 85 + logsz * 2 ^ 82 + 2 ^ 81 + 2 ^ 80)

def startArrays (t : Template) (teams team : Nat) : Sparse W128 :=
  [(0, arrayImage 16384 0 2), (1, arrayImage t.scratchBytes 1 0),
   (2, arrayImage ((groupPos t.clteams teams team).1 * t.scratchBytes) 2 0), (3, arrayImage (t.chip * 65536) 3 0)]

/-- The frames that a gang takes in its partition: the lowest free, two for a pair (06 R154). -/
def State.takeFrames (s : State) (core part n : Nat) : List Nat :=
  let used := (s.gangs.filter fun g => decide (g.core = core) && !g.released).flatMap fun g => g.frames
  (((List.range 32).map (32 * part + ·)).filter fun f => !used.contains f).take n

/-- A gang at its start (04 R81, 05 R134, 06 R146, 16 R395) (DESIGN CHOICE, log 5). -/
def startGang (G : Grid) (gid team g core part : Nat) (frames : List Nat) (now : Nat) : Gang :=
  let t := G.tmpl
  let thread (k j : Nat) : Thread :=
    match G.pop with
    | some _ =>
      let slot := team * (t.gangs * t.threads) + g * t.threads + 4 * k + j
      { Thread.fresh with popix := slot, lineage := slot }
    | none => Thread.fresh
  let slice (k : Nat) : Slice :=
    { threads := lanes4.map (thread k), mask := 0xF, stack := [], below := 0, xr := [], latValid := 0, classes := [] }
  let args := [(0, G.launch.arg0), (1, G.launch.arg1), (2, G.launch.arg2)]
  let base : Gang :=
    { gid := gid, grid := G.serial, team := team, g := g, core := core, part := part, active := false, released := false
      slot := 0, frames := frames, slotSince := now, readySince := none, eligible := false, parking := false
      slices := (List.range t.nslices).map slice
      strands := [{ Strand.none with slices := List.range t.nslices, pc := t.entry, since := now, lastIssue := now }]
      s := [], sr := [], a := startArrays t G.launch.teams team, h := [], fpflags := 0, fptrap := 0
      trap := { tvec := 0, tcause := 0, tpc := 0, tmask := 0, tword := 0, topa := 0, topb := 0, topd := 0, taddr := 0 }
      handler := none, tiles := [], keys := [], trees := [], paths := [], accesses := [], cmds := [], records := [], pends := []
      tileOps := [], batches := [], heats := [], nextId := 0, children := 0, fault := none, halt := .running
      latches := [], watchdog := 0, limitRaised := false, recency := [], issues := 0, turn := 0, parkQ := [], images := [] }
  args.foldl (fun x a => x.setS a.1 (w64 a.2) (exact64 (w64 a.2))) base

/-- A newly admitted gang takes an active slot if R115 allows, else it starts parked (R118). `canEnter` and the slot
number are the scheduler's (`enter`). -/
def State.addGang (s : State) (enter : State → Gang → Option Nat) (G : Grid) (team g core part : Nat) : State :=
  let gang := startGang G s.nextGid team g core part (s.takeFrames core part G.tmpl.halves) (s.cycleOf core)
  let s := { s with nextGid := s.nextGid + 1, gangs := s.gangs ++ [gang] }
  match enter s gang with
  | some slot => s.setGang { gang with active := true, slot := slot }
  | none => s

/-- The clock of a core's die brought up to the 3.2 GHz that it keeps while a gang is admitted (01 R13, 18 R455). -/
def State.wakeClock (s : State) (core : Nat) : State :=
  { s with mhz := modifyAt (fun m => max 3200 m) (core / Config.coresPerDie) s.mhz }

/-- Team `idx` of a grid put on a core at offset P. -/
def State.addTeam (s : State) (enter : State → Gang → Option Nat) (serial idx core P : Nat) : State :=
  match s.grid? serial with
  | none => s
  | some G =>
    let t := G.tmpl
    let slots := (s.holders core).map fun x => x.slot
    let team : Team :=
      { key := s.seq, grid := serial, idx := idx, core := core, offset := P
        slot := ((List.range 256).find? fun n => !slots.contains n).getD 0
        group := idx / max 1 t.clteams, pos := (groupPos t.clteams G.launch.teams idx).2
        blocks := s.mapBlocks core t.scratch 0 [], scratch := [], pending := [], barriers := [], seq := s.seq, retired := false }
    let s : State := { s with
      seq := s.seq + 1
      teams := s.teams ++ [team]
      grids := s.grids.map fun x => if x.serial = serial then { x with admitted := x.admitted + 1, nextTeam := idx + 1 } else x }
    let s := (if t.scratch = 0 then s else s.trimNear core).wakeClock core
    (List.range t.gangs).foldl (fun s g => s.addGang enter G idx g core ((P + g) % 8)) s

/-! ## The distributor's order (R116, R120) -/

/-- A launch that has teams to seat: its place in arbiter order, priority, template, teams in all, teams admitted,
whether it is a population, and the pending launch if it has not started. -/
structure Waiting where
  order : Nat
  prio : Nat
  preempt : Bool
  tmpl : Template
  teams : Nat
  admitted : Nat
  pop : Bool
  start : Option Pending
  serial : Nat

def State.waitings (s : State) : List Waiting :=
  ((s.grids.filter fun G => decide (G.admitted < G.launch.teams)).map fun G =>
    { order := G.order, prio := G.prio, preempt := G.preempt, tmpl := G.tmpl, teams := G.launch.teams, admitted := G.admitted
      pop := G.pop.isSome, start := none, serial := G.serial : Waiting }) ++
  ((s.pendings.filter s.mayStart).map fun p =>
    { order := p.id, prio := s.prioOf p
      preempt := s.preemptOf p
      tmpl := p.tmpl, teams := p.launch.teams, admitted := 0, pop := p.launch.pop, start := some p, serial := 0 : Waiting })

/-- Highest priority first, then arbiter order. -/
def Waiting.before (a b : Waiting) : Bool := decide (b.prio < a.prio) || (decide (a.prio = b.prio) && decide (a.order ≤ b.order))

def insertWaiting (x : Waiting) : List Waiting → List Waiting
  | [] => [x]
  | y :: l => if y.before x then y :: insertWaiting x l else x :: y :: l

def State.inOrder (s : State) : List Waiting := s.waitings.foldl (fun l w => insertWaiting w l) []

/-- Where the next teams of a launch go: one team, one cluster group, or a whole population. -/
def State.nextPlaces (s : State) (w : Waiting) : Option (List Placed) :=
  if w.pop then s.placeAll w.tmpl w.order w.teams
  else if w.tmpl.cluster then
    s.placeGroup w.tmpl w.order [] (min w.tmpl.clteams (w.teams - w.admitted)) (List.range Config.clusters)
  else (s.place everyGang w.tmpl w.order [] (List.range Config.cores)).map ([·])

/-- Whether the chip scratch that a launch declares is free. -/
def State.chipFree (s : State) (w : Waiting) : Bool :=
  w.start.isNone || decide (s.chipOwner.length + w.tmpl.chip ≤ 2048)

/-- The first launch in the distributor's order whose next teams fit, with their places. -/
def State.nextAdmission (s : State) : Option (Waiting × List Placed) :=
  s.inOrder.findSome? fun w => if s.chipFree w then (s.nextPlaces w).map fun p => (w, p) else none

/-- POWERCTL keeps admission stopped (18 R455). -/
def State.admitting (s : State) : Bool := decide (field (s.mg Mgmt.powerctl) 17 16 = 0)

/-- A team saved by the distributor, of priority at least `prio`, that would fit a core now goes first (R121). -/
def State.savedFirst (s : State) (prio : Nat) : Bool :=
  s.saved.any fun v => decide (prio ≤ v.prio) && (match s.grid? v.team.grid with
    | some G => (s.place everyGang G.tmpl 0 [] (List.range Config.cores)).isSome
    | none => false)

/-- The launch started if need be, and its next teams put on their cores. -/
def State.seat (s : State) (enter : State → Gang → Option Nat) (w : Waiting) (places : List Placed) : State :=
  let started : Option (State × Nat) := match w.start with
    | some p => s.startGrid p
    | none => some (s, w.serial)
  match started with
  | none => s
  | some (s, serial) =>
    let s := (mapI (fun i p => (w.admitted + i, p)) 0 places).foldl (fun s ip => s.addTeam enter serial ip.1 ip.2.1 ip.2.2) s
    { s with reserved := s.reserved.filter fun r => r.1 ≠ w.order }

/-- A core reserved for a launch that no longer waits is free again. -/
def State.unreserve (s : State) : State :=
  if s.reserved.isEmpty then s
  else { s with reserved := s.reserved.filter fun r => s.waitings.any fun w => decide (w.order = r.1) }

/-- The head launch whose next team passes on no core, which team that is, and since when (R120) (DESIGN CHOICE, log 90). -/
def State.noteHead (s : State) : State :=
  let s := s.unreserve
  match s.inOrder with
  | [] => if s.head.isNone then s else { s with head := none }
  | w :: _ =>
    if (s.place everyGang w.tmpl w.order [] (List.range Config.cores)).isSome then (if s.head.isNone then s else { s with head := none })
    else
      match s.head with
      | some (o, n, _) => if o = w.order ∧ n = w.admitted then s else { s with head := some (w.order, w.admitted, s.base) }
      | none => { s with head := some (w.order, w.admitted, s.base) }

/-- CORE_RESERVE (R120): also where another launch holds a core; a core that both would take goes to this one. -/
def execCoreReserve (s : State) : Host.Outcome State Fault Refusal :=
  match s.inOrder, s.head with
  | w :: _, some (o, n, t) =>
    if decide (o = w.order) && decide (n = w.admitted) && decide (t + 2 ^ 20 ≤ s.base) && !(s.reserved.any fun r => decide (r.1 = w.order)) then
      let keep (g : Gang) : Bool := match s.grid? g.grid with
        | some G => decide (G.order = w.order) || decide (w.prio < G.prio)
        | none => false
      let bare : State := { s with reserved := [] }
      match bare.place keep w.tmpl w.order [] (List.range Config.cores) with
      | some p => .next { s with reserved := (s.reserved.filter fun r => r.2 ≠ p.1) ++ [(w.order, p.1)] }
      | none => .next s
    else .next s
  | _, _ => .next s

/-! ## LAUNCH and WAITCH (R138, R139) -/

/-- Whether a LAUNCH stalls at issue: 255 incomplete children, or 65,536 child grids held. -/
def State.launchStalls (s : State) (g : Gang) : Bool :=
  decide (255 ≤ g.children) || decide (65536 ≤ (s.pendings.filter fun p => p.parent.isSome).length)

/-- The status of a LAUNCH, with the template where it could be read. -/
def State.childStatus (s : State) (depth tmpl : Nat) (r : LaunchRec) : Nat × Option Template :=
  if depth = 10 then (4, none)
  else if 2 ^ 16 ≤ tmpl then (3, none)
  else
    match s.templateAt tmpl with
    | none => (3, none)
    | some (t, ok) => (s.checkLaunch t ok r true, some t)

def execLaunch (d : Dst) (a b : Src) (s : State) : Host.Outcome State Fault Refusal :=
  instr s (fun _ => Accept.launch d a b) [] [] fun c =>
    if !c.gate then s.skip c
    else if s.launchStalls c.g then s.block c c.g .other
    else
      let addr := (c.val64 s b).toNat
      if addr % 64 ≠ 0 then s.userTrap c c.g { cause := 13, tmask := c.tmask, taddr := addr }
      else
        let s := s.flush c.g.gid (List.range c.g.slices.length)
        let c := c.refresh s
        match s.readVirt c.g.core (s.tmplOf c.g).asid addr 64, s.grid? c.g.grid with
        | .error f, _ => s.gangFault c c.g (c.failInfo f) none none
        | _, none => s.skip c
        | .ok (s, bs), some G =>
          let c := c.refresh s
          let t := (c.val64 s a).toNat
          let r := { parseLaunch bs with template := t % 2 ^ 16 }
          let (st, tm) := s.childStatus G.depth t r
          let s := match tm, st with
            | some t, 0 =>
              (s.setGang { c.g with children := c.g.children + 1 }).submit none t r (G.depth + 1) (max G.prio (r.prio % 4)) G.preempt
                (some c.g.gid) G.serial
            | _, _ =>
              let asid := match tm with
                | some t => if s.astOk t.asid then t.asid else G.tmpl.asid
                | none => G.tmpl.asid
              s.statusWord (some asid) r.stat r.saddr st
          let c := c.refresh s
          match d with
          | .s n => s.done c (c.g.setS n.toNat (w64 st) (.iv 0 9))
          | _ => s.done c c.g

def execWaitch (n : BitVec 8) (s : State) : Host.Outcome State Fault Refusal :=
  instr s (fun _ => true) [] [] fun c =>
    if !c.gate || decide (c.g.children ≤ n.toNat) then s.skip c else s.block c c.g .children

end Sys2Proof.Machine
end

