-- ==== Sys2Proof/Machine/Copy.lean ====
section
/-! DEFINITION. The copy commands: CPY, CPYM, KVCPY and CPST (12 R314, R320 to R327). -/

namespace Sys2Proof.Machine

open Sys2Proof

/-! ## The checks of R314 -/

/-- The byte address of an element offset in an array's space. -/
def Arr.at (a : Arr) (off : Int) : Int := (a.base : Int) + (2 ^ a.logsz : Nat) * off

/-- A range of `n` bytes at an element offset that COPY_RANGE refuses (R322). -/
def State.rangeBad (s : State) (g : Gang) (a : Arr) (off : Int) (n : Nat) (write : Bool) (spaces : List Nat) : Bool :=
  !spaces.contains a.space || decide (off < 0) || decide ((a.bytes : Int) < (2 ^ a.logsz : Nat) * off + (n : Int)) ||
  !s.regionOk g a || (write && !a.we)

/-- ALIGN of a command, every active thread in TMASK. -/
def alignCmd (s : State) (c : Ctx) (addr : Nat) : State := alignTrap s c c.activeLanes addr

def copyRange (s : State) (c : Ctx) (addr : Int) : State :=
  s.userTrap c c.g { cause := 8, tmask := c.tmask, taddr := wrapTo 64 addr }

def copyLimit : Nat := 2 ^ 36

/-- The register that a command word's offset field names. -/
def Ctx.offset (c : Ctx) (r : BitVec 6) : Int := (c.g.sreg r.toNat).toInt

/-- The checks that CPY and CPYM share, then `k` with the two byte addresses and the count. -/
def copyChecks (s : State) (c : Ctx) (a : Src) (d r : Arr) (w : CmdWord) (dspaces : List Nat) (k : Nat → Nat → Nat → State) : State :=
  let n := (c.val64 s a).toNat
  let da := d.at (c.offset w.doff)
  let sa := r.at (c.offset w.soff)
  if d.misaligned then alignCmd s c d.base
  else if r.misaligned then alignCmd s c r.base
  else if decide (da % 16 ≠ 0) || decide (sa % 16 ≠ 0) || decide (n % 16 ≠ 0) then alignCmd s c c.is.pc
  else if decide (copyLimit < n) || s.rangeBad c.g d (c.offset w.doff) n true dspaces then copyRange s c da
  else if s.rangeBad c.g r (c.offset w.soff) n false [1, 2, 3, 4] then copyRange s c sa
  else k da.toNat sa.toNat n

/-! ## CPY (R322) -/

def execCpy (a : Src) (darr sarr : BitVec 4) (w : CmdWord) (s : State) : Host.Outcome State Fault Refusal :=
  instr s (fun _ => Accept.cpy a w) [] [] fun c =>
    if !c.gate then s.skip c
    else
      let d := c.arr darr
      let r := c.arr sarr
      copyChecks s c a d r w [1, 2, 3, 4] fun da sa n =>
        let lines := mkLines (s.linePlace c.g d.space) (armedSpace d.space) (c.lc w) 0 0
          [{ dst := da, src := s.srcBytes c.g r.space sa n }]
        s.accept c (Cmd.offer c .cpy .cp w lines) fun s c => s.done c c.g

/-! ## CPYM (R323, R324) -/

/-- Multicast receptions that are incomplete at a core. -/
def State.receptions (s : State) (core : Nat) : Nat :=
  ((s.gangs.flatMap fun g => g.cmds.filter fun k => decide (k.kind = .cpym) && !k.replay).map fun k =>
    (((k.lines.filter fun l => !l.landed).filterMap fun l => match l.dst with
      | .scratch t _ => some t
      | _ => none).eraseDups.filter fun t => match s.teamByKey? t with
        | some tm => decide (tm.core = core)
        | none => false).length).foldl (· + ·) 0

/-- The live gang of a team with the issuer's %gang. -/
def State.mirror (s : State) (g : Gang) (team : Nat) : Option Gang :=
  (s.gangs.find? fun x => decide (x.grid = g.grid) && decide (x.team = team) && decide (x.g = g.g) && x.isLive)

/-- Whether the target at a group position refuses (R324), the over-full case apart. -/
def State.refuses (s : State) (g : Gang) (lcen : Bool) (da n pos : Nat) : Bool :=
  let t := s.tmplOf g
  let gp := groupPos t.clteams (s.teamsOf g) g.team
  let team := g.team - gp.2 + pos
  if gp.1 ≤ pos then true
  else
    match s.team? g.grid team with
    | none => true
    | some tm =>
      (lcen && (s.mirror g team).isNone) ||
      ((linesIn da n).any fun l => decide (s.lineP (.scratch tm.key (128 * l)) = 15)) ||
      decide (16 ≤ s.receptions tm.core)

/-- Targets of a mask: (accepting, refusing) group positions. -/
def State.targets (s : State) (g : Gang) (lcen : Bool) (mask da n : Nat) : List Nat × List Nat :=
  let named := (List.range 16).filter fun k => bitOf mask k
  let extra := named.drop 12
  let ok := (named.take 12).filter fun k => !s.refuses g lcen da n k
  (ok, ((named.take 12).filter fun k => !ok.contains k) ++ extra)

/-- The lines of each accepting target. -/
def State.multicast (s : State) (g : Gang) (w : CmdWord) (da : Nat) (bytes : List ByteSrc) : Nat → List Nat → List Landing
  | _, [] => []
  | first, pos :: l =>
    let team := g.team - (groupPos (s.tmplOf g).clteams (s.teamsOf g) g.team).2 + pos
    let key := s.teamKey g.grid team
    let lc := if w.lcen = 1 then (s.mirror g team).map fun m => (m.gid, w.lcreg.toNat) else none
    let lines := mkLines (fun a => (.scratch key a, none)) true lc first 0 [{ dst := da, src := bytes }]
    lines ++ s.multicast g w da bytes (first + lines.length) l

/-- DEDUCED, log 53. -/
def execCpym (d : Dst) (a : Src) (darr sarr : BitVec 4) (w : CmdWord) (s : State) : Host.Outcome State Fault Refusal :=
  instr s (fun _ => Accept.cpym d a w) [] [] fun c =>
    match d with
    | .s m =>
      if !c.gate then s.skip c
      else
        let r := c.arr sarr
        copyChecks s c a (c.arr darr) r w [1] fun da sa n =>
          let (ok, no) := s.targets c.g (decide (w.lcen = 1)) (c.g.sreg m.toNat).toNat da n
          if ok.isEmpty then s.skip c
          else
            let lines := s.multicast c.g w da (s.srcBytes c.g r.space sa n) 0 ok
            s.accept c (Cmd.offer c .cpym .cp w lines) fun s c =>
              let mask := w64 (no.foldl (fun x k => x + 2 ^ k) 0)
              s.done c (c.g.setS m.toNat mask (exact64 mask))
    | _ => s.encoding c

/-! ## KVCPY (R325) -/

/-- The source of byte `i` of a thread's slot: chunks of a row permuted under SWZ. -/
def kvSource (row : Nat) (swz : Bool) (i : Nat) : Nat :=
  let rb := 2 ^ (row + 4)
  let r := i / rb
  let ch := i % rb / 16
  let k := min 8 (2 ^ row)
  let src := if swz then xorNat ch (r % k) else ch
  r * rb + 16 * src + i % 16

/-- DEDUCED, log 54. -/
def execKvcpy (a : Src) (darr sarr : BitVec 4) (w : CmdWord) (s : State) : Host.Outcome State Fault Refusal :=
  instr s (fun _ => Accept.kvcpy a w) [] [a] fun c =>
    if !c.gate then s.skip c
    else
      let d := c.arr darr
      let r := c.arr sarr
      let blk := 2 ^ (w.xtra.toNat / 16 + 7)
      let row := w.xtra.toNat / 2 % 8
      let swz := decide (w.xtra.toNat % 2 = 1)
      let off := c.offset w.doff
      let slot (kj : Nat × Nat) : Int := d.at off + ((4 * kj.1 + kj.2) * blk : Nat)
      let outside (kj : Nat × Nat) : Bool :=
        decide ((2 ^ d.logsz : Nat) * off + ((4 * kj.1 + kj.2) * blk : Nat) < 0) ||
        decide ((d.bytes : Int) < (2 ^ d.logsz : Nat) * off + ((4 * kj.1 + kj.2 + 1) * blk : Nat))
      let index (kj : Nat × Nat) : Int := (c.val s a kj.1 kj.2).toInt
      let offends (kj : Nat × Nat) : Bool :=
        s.rangeBad c.g r 0 0 false [1, 2, 3, 4] || decide (index kj < 0) || decide ((r.bytes : Int) < (index kj + 1) * (blk : Nat))
      if d.misaligned then alignCmd s c d.base
      else if r.misaligned then alignCmd s c r.base
      else if decide (d.base % 16 ≠ 0) || decide (r.base % 16 ≠ 0) || decide (((2 ^ d.logsz : Nat) * off) % 16 ≠ 0) then
        alignCmd s c c.is.pc
      else if s.rangeBad c.g d 0 0 true [1, 2, 3] then copyRange s c (slot (c.activeLanes.headD (0, 0)))
      else
        match c.activeLanes.find? outside with
        | some kj => copyRange s c (slot kj)
        | none =>
          let off := c.activeLanes.filter offends
          match r.trap, off with
          | true, kj :: _ => s.userTrap c c.g { cause := 3, tmask := maskOf off, taddr := wrapTo 64 (index kj) }
          | _, _ =>
            let run (kj : Nat × Nat) : Run :=
              { dst := (slot kj).toNat
                src := if off.contains kj then List.replicate blk (.lit 0)
                  else (List.range blk).map fun i => s.srcByte c.g r.space (r.base + (index kj).toNat * blk + kvSource row swz i) }
            let lines := mkLines (s.linePlace c.g d.space) (armedSpace d.space) (c.lc w) 0 0 (c.activeLanes.map run)
            s.accept c (Cmd.offer c .kvcpy .cp w lines) fun s c => s.done c (c.g.writeP6 c r off)

/-! ## CPST (R326, R327) -/

/-- The rows of a template: source address, destination address. -/
def CopyTemplate.moves (t : CopyTemplate) (doff soff : Int) : List (Int × Int) :=
  (List.range t.rows).map fun (r : Nat) => ((t.src : Int) + soff + t.sstride * Int.ofNat r, (t.dst : Int) + doff + t.dstride * Int.ofNat r)

/-- DEDUCED, log 63. -/
def execCpst (a : Src) (w : CmdWord) (s : State) : Host.Outcome State Fault Refusal :=
  instr s (fun _ => Accept.cpst a w) [] [] fun c =>
    if !c.gate then s.skip c
    else
      let tab := match s.grid? c.g.grid with
        | some G => G.cpytab.toNat
        | none => 0
      let k := (c.val64 s a).toNat
      if tableSize tab ≤ k then copyRange s c c.is.pc
      else
        let s0 := s.flush c.g.gid (List.range c.g.slices.length)
        let c0 := c.refresh s0
        match s0.readVirt c.g.core (s.tmplOf c.g).asid (field tab 56 6 * 64 + 64 * k) 64 with
        | .error f => s0.gangFault c0 c0.g (c0.failInfo f) none none
        | .ok (s1, bs) =>
          let c1 := c0.refresh s1
          let t := parseCopy bs
          let rows := t.moves (c1.offset w.doff) (c1.offset w.soff)
          let size := (s1.tmplOf c1.g).scratchBytes
          if !t.ok then copyRange s1 c1 c1.is.pc
          else
            match if t.dscr then rows.find? fun r => decide (r.2 < 0) || decide ((size : Int) < r.2 + (t.rowBytes : Int)) else none with
            | some r => copyRange s1 c1 r.2
            | none =>
              let space := if t.dscr then 1 else 4
              let run (r : Int × Int) : Run :=
                { dst := wrapTo 64 r.2, src := s1.srcBytes c1.g 4 (wrapTo 64 r.1) t.rowBytes }
              let lines := mkLines (s1.linePlace c1.g space) t.dscr (c1.lc w) 0 s1.free (rows.map run)
              s1.accept c1 (Cmd.offer c1 .cpst .cp w lines) fun s c => { s with free := s.free + 128 * lines.length }.done c c.g

end Sys2Proof.Machine
end

