-- ==== Sys2Proof/Machine/Frame.lean ====
section
/-! DEFINITION. Frame engines: descriptors, sessions, pictures as planes or as RGB with resizing, the status word,
FRAME (12 R331 to R337). What a stream decodes to is outside this manual: `Config.frameParse` and
`Config.frameSample` stand for it (DESIGN CHOICE, log 30). -/

namespace Sys2Proof.Machine

open Sys2Proof

/-! ## Descriptors (R332) -/

structure FrameDesc where
  bits : Nat
  bitlen : Nat
  codec : Nat
  outfmt : Nat
  resize : Nat
  reset : Bool
  flush : Bool
  session : Nat
  seslen : Nat
  outw : Nat
  outh : Nat
  planes : List Nat
  stride : Nat
  status : Nat
  ok : Bool

/-- The fields of 128 descriptor bytes; `ok` says that no rule of R332 makes it BAD_DESC. -/
def parseFrame (b : List Byte) : FrameDesc :=
  let bitlen := le b 8 4
  let outfmt := le b 13 1
  let resize := le b 14 1
  let flags := le b 15 1
  let outw := le b 28 2
  let outh := le b 30 2
  let planes := [le b 32 8, le b 40 8, le b 48 8]
  { bits := le b 0 8, bitlen := bitlen, codec := le b 12 1, outfmt := outfmt, resize := resize, reset := bitOf flags 0
    flush := bitOf flags 1, session := le b 16 8, seslen := le b 24 4, outw := outw, outh := outh, planes := planes
    stride := le b 56 8, status := le b 64 8
    ok := decide (outfmt ≤ 3) && decide (resize ≤ 2) && (decide (resize = 0) || decide (2 ≤ outfmt)) && decide (flags < 4) &&
      decide (le b 16 8 % 65536 = 0) && decide (bitlen ≤ 2 ^ 28) && (decide (bitlen ≠ 0) || bitOf flags 1) &&
      (decide (resize = 0) || (decide (1 ≤ outw ∧ outw ≤ 8192) && decide (1 ≤ outh ∧ outh ≤ 8192))) &&
      planes.all (fun p => decide (p % 16 = 0)) && decide (le b 56 8 % 16 = 0) && decide (le b 72 56 = 0) }

/-! ## Sessions and contexts (R331) -/

/-- A session's key: address space and area. -/
def sessionKey (asid area : Nat) : Nat := asid * 2 ^ 64 + area

def State.session? (s : State) (key : Nat) : Option Session := s.sessions.find? fun x => decide (x.base = key)

def State.setSession (s : State) (x : Session) : State :=
  { s with sessions := s.sessions.map fun y => if y.base = x.base then x else y }

/-- No engine's context holds a session that names engine 8. -/
def noEngine : Nat := 8

def Decoding.fresh : Decoding := { corrupt := false, count := 0, units := [] }

def Session.fresh (key : Nat) : Session :=
  { base := key, engine := noEngine, loaded := false, area := [], now := Decoding.fresh, last := 0, before := Decoding.fresh }

/-- Incomplete frame commands of the package. -/
def State.frameCmds (s : State) : List Cmd :=
  ((s.gangs ++ s.saved.flatMap fun v => v.gangs).flatMap fun g => g.cmds).filter fun k => decide (k.kind = .frame)

def State.frameBusy (s : State) (engine key : Nat) : Bool :=
  s.frameCmds.any fun k => decide (k.params.getD 0 0 = engine) && decide (k.params.getD 1 0 = key)

/-- The session put into a context of the engine, as the newest (DESIGN CHOICE, log 38). -/
def State.loadSession (s : State) (engine key : Nat) : State :=
  let old := (s.session? key).getD (Session.fresh key)
  { s with sessions := (s.sessions.filter fun x => x.base ≠ key) ++ [{ old with engine := engine, loaded := false }] }

/-- A context of the engine taken for a session: a free one, or the older one if its commands are complete. -/
def State.takeContext (s : State) (engine key : Nat) : Option State :=
  match s.sessions.filter fun x => x.engine = engine with
  | a :: _ :: _ =>
    if s.frameBusy engine a.base then none else some ((s.setSession { a with engine := noEngine }).loadSession engine key)
  | _ => some (s.loadSession engine key)

/-- A context for the session, or none while both are busy. A session that another engine holds takes none. -/
def State.frameContext (s : State) (engine : Nat) (key : Option Nat) : Option State :=
  match key with
  | none => some s
  | some key =>
    match s.session? key with
    | some x => if x.engine ≠ noEngine then some s else s.takeContext engine key
    | none => s.takeContext engine key

/-! ## Samples and elements (R334 to R336) -/

/-- What a session releases: its units, bit depth and cropped size. -/
structure Picture where
  units : List (Nat × List Byte)
  depth : Nat
  w : Nat
  h : Nat

def Picture.sample (p : Picture) (plane x y : Nat) : Nat := Config.frameSample p.units plane x y % 2 ^ p.depth

/-- An n8 sample. -/
def Picture.sample8 (p : Picture) (plane x y : Nat) : Nat :=
  let v := p.sample plane x y
  if p.depth = 10 then min ((v + 2) / 4) 255 else v

/-- Denominator of the colour arithmetic: 219 · 224 · 65536 · s. -/
def Picture.den (p : Picture) : Nat := 219 * 224 * 65536 * 2 ^ (p.depth - 8)

/-- Component 0 R, 1 G, 2 B of an input pixel, clamped to [0, 1], over `den` (R335). -/
def Picture.colour (p : Picture) (comp x y : Nat) : Nat :=
  let sc : Int := (2 ^ (p.depth - 8) : Nat)
  let l : Int := ((p.sample 0 x y : Nat) - 16 * sc) * 224 * 65536
  let u : Int := ((p.sample 1 (x / 2) (y / 2) : Nat) - 128 * sc) * 219
  let v : Int := ((p.sample 2 (x / 2) (y / 2) : Nat) - 128 * sc) * 219
  let n := match comp with
    | 0 => l + 103206 * v
    | 1 => l - 12275 * u - 30677 * v
    | _ => l + 121609 * u
  (max 0 (min (p.den : Int) n)).toNat

def natSum (l : List Nat) : Nat := l.foldl (· + ·) 0

/-- A bilinear source coordinate in units of 2^(-8) (R336). -/
def bilinear (out n size : Nat) : Nat :=
  let q : Int := (Int.ofNat ((2 * out + 1) * size) - Int.ofNat n) * 256 / Int.ofNat (2 * n)
  min ((size - 1) * 256) q.toNat

/-- An output element as an exact fraction (R336). -/
def Picture.element (p : Picture) (resize outw outh comp x y : Nat) : Nat × Nat :=
  match resize with
  | 0 => (p.colour comp x y, p.den)
  | 1 =>
    let k := p.w / outw
    let l := p.h / outh
    (natSum ((List.range l).flatMap fun j => (List.range k).map fun i => p.colour comp (k * x + i) (l * y + j)), p.den * (k * l))
  | _ =>
    let sx := bilinear x outw p.w
    let sy := bilinear y outh p.h
    let x0 := sx / 256
    let y0 := sy / 256
    let x1 := min (x0 + 1) (p.w - 1)
    let y1 := min (y0 + 1) (p.h - 1)
    let fx := sx % 256
    let fy := sy % 256
    ((256 - fx) * (256 - fy) * p.colour comp x0 y0 + fx * (256 - fy) * p.colour comp x1 y0 +
      (256 - fx) * fy * p.colour comp x0 y1 + fx * fy * p.colour comp x1 y1, p.den * 65536)

/-- The element rounded once, to nearest even. -/
def rgbCode (f : Fp.Fmt) (q : Nat × Nat) : Nat := (Fp.deliver f 0 0 false false (.fin false q.1 q.2 0)).1

/-- The bytes of row y of a plane. -/
def Picture.row (p : Picture) (d : FrameDesc) (plane y : Nat) : List Byte :=
  let ow := if d.resize = 0 then p.w else d.outw
  let oh := if d.resize = 0 then p.h else d.outh
  match d.outfmt, plane with
  | 0, 0 => (List.range p.w).flatMap fun x => leBytes 1 (p.sample8 0 x y)
  | 0, _ => (List.range ((p.w + 1) / 2)).flatMap fun x => leBytes 1 (p.sample8 1 x y) ++ leBytes 1 (p.sample8 2 x y)
  | 1, 0 => (List.range p.w).flatMap fun x => leBytes 2 (p.sample 0 x y)
  | 1, _ => (List.range ((p.w + 1) / 2)).flatMap fun x => leBytes 2 (p.sample 1 x y) ++ leBytes 2 (p.sample 2 x y)
  | f, c => (List.range ow).flatMap fun x =>
      leBytes 2 (rgbCode (if f = 2 then .bf16 else .f16) (p.element d.resize ow oh c x y))

/-- Rows of each plane that the format writes. -/
def Picture.rows (p : Picture) (d : FrameDesc) : List (Nat × Nat) :=
  let n (plane : Nat) : Nat :=
    if 2 ≤ d.outfmt then (if d.resize = 0 then p.h else d.outh) else if plane = 0 then p.h else if plane = 1 then (p.h + 1) / 2 else 0
  [0, 1, 2].flatMap fun plane => (List.range (n plane)).map fun y => (plane, y)

/-- The runs of a picture's planes. -/
def Picture.runs (p : Picture) (d : FrameDesc) : List Run :=
  (p.rows d).map fun r => { dst := (d.planes.getD r.1 0 + r.2 * d.stride) % 2 ^ 64, src := (p.row d r.1 r.2).map ByteSrc.lit }

/-- Whether the resize modes take the picture (R336). -/
def Picture.resizable (p : Picture) (d : FrameDesc) : Bool :=
  decide (d.resize ≠ 1) ||
  (decide (p.w % d.outw = 0) && decide (p.h % d.outh = 0) && decide (1 ≤ p.w / d.outw ∧ p.w / d.outw ≤ 16) &&
    decide (1 ≤ p.h / d.outh ∧ p.h / d.outh ≤ 16))

/-! ## One command at its engine (R333, R337) -/

/-- What a unit comes to: status code, size, what the session has decoded after it, the runs written to planes, the bytes of
session area that the coded size needs. -/
structure Decoded where
  code : Nat
  w : Nat
  h : Nat
  ses : Decoding
  runs : List Run
  need : Nat

/-- A plane's byte after CORRUPT: as it was, or one that the command wrote (DESIGN CHOICE, log 30). -/
def corruptByte (free : Nat) : ByteSrc :=
  if Config.freeValue free % 2 = 0 then .hole else .lit (BitVec.ofNat 8 (Config.freeValue (free + 1)))

/-- Bytes of the longest row. -/
def rowWidth (runs : List Run) : Nat := (runs.map fun r => r.src.length).foldl max 0

def decodeUnit (ses : Decoding) (d : FrameDesc) (unit : List Byte) (free : Nat) : Decoded :=
  let plain (code : Nat) (x : Decoding) (need : Nat) : Decoded := { code := code, w := 0, h := 0, ses := x, runs := [], need := need }
  let ses := if d.reset then Decoding.fresh else ses
  if 1 < d.codec then plain 3 ses 0
  else
    let units := ses.units ++ [(d.codec + (if d.flush then 2 else 0), unit)]
    let (code, depth, cw, ch, w, h) := Config.frameParse units
    let depth := if depth = 10 then 10 else 8
    let need := 65536 + 9 * ((3 * cw * ch + 1) / 2) * (if depth = 10 then 2 else 1)
    let pic : Picture := { units := units, depth := depth, w := w % 8193, h := h % 4321 }
    let x := { ses with units := units }
    match code % 4 with
    | 2 =>
      let w := rowWidth (pic.runs d)
      let runs := mapI (fun n (r : Run) => { r with src := mapI (fun i _ => corruptByte (free + 2 * (n * w + i))) 0 r.src }) 0 (pic.runs d)
      { code := 2, w := 0, h := 0, ses := { x with corrupt := true }, runs := runs, need := need }
    | 3 => plain 3 x need
    | c =>
      if d.seslen * 65536 < need then plain 4 ses 0
      else if c = 1 then plain 1 x need
      else if !pic.resizable d then plain 5 ses 0
      else { code := 0, w := pic.w, h := pic.h, ses := { x with count := x.count + 1 }, runs := pic.runs d, need := need }

/-- DEDUCED, log 91. -/
def frameStatus (r : Decoded) : Nat := r.code + r.w * 2 ^ 16 + r.h * 2 ^ 32 + r.ses.count % 2 ^ 16 * 2 ^ 48

/-! The parameters of a frame command: 0 engine, 1 session, 2 descriptor's address, 3 its number among frame commands, 4
whether it has decoded its unit, 5 how many of its lines are planes'. -/

/-- Lines of a command's runs and of its STATUS word, which is the last (R333), with how many are planes'; those that landed
before stay landed. -/
def frameLines (k : Cmd) (gid free : Nat) (runs : List Run) (status : Nat) (word : Nat) : Nat × List Landing :=
  let lc := k.lcreg.map fun r => (gid, r)
  let place (a : Nat) : Place × Option Nat := (.phys 0, some a)
  let l := mkLines place false lc 0 free runs
  let all := l ++ mkLines place false lc l.length free [{ dst := status, src := (leBytes 8 word).map ByteSrc.lit }]
  (l.length, all.map fun x => { x with landed := k.lines.any fun y => y.landed && decide (y.virt = x.virt) && decide (y.bytes.length = x.bytes.length) })

/-- A session area as its context reads it: what an engine wrote there stands for what the session has decoded; other bytes
are the decoding state themselves (R331; DESIGN CHOICE, log 38). -/
def State.loadArea (s : State) (core asid : Nat) (x : Session) (d : FrameDesc) : Except Fail (State × Session) :=
  if x.loaded || d.reset then .ok (s, { x with loaded := true })
  else
    match s.readVirt core asid d.session (if x.area.isEmpty then min 65536 (d.seslen * 65536) else x.area.length) with
    | .error f => .error f
    | .ok (s', bs) => .ok (s', if bs = x.area ∧ bs ≠ [] then { x with loaded := true }
        else { x with loaded := true, now := { x.now with units := [(4, bs)] } })

/-- The session area as a decode leaves it, by pages: each byte as it was or one that the engine writes, what its own layout
needs (DESIGN CHOICE, log 38). -/
def State.storeArea (s : State) (core asid va pages : Nat) : State × Except Fail (List Byte) :=
  let page (s : State) (i : Nat) : Except Fail (State × List Byte) :=
    match s.access core asid (va + 65536 * i) false true with
    | .error f => .error f
    | .ok (s', pa) =>
      let bs := (List.range 65536).map fun j =>
        if Config.freeValue (s'.free + 2 * j) % 2 = 0 then s'.physByte (pa + j) else BitVec.ofNat 8 (Config.freeValue (s'.free + 2 * j + 1))
      .ok (({ s' with free := s'.free + 2 ^ 17 }).performWrites none (physWrites pa bs), bs)
  match foldTry page s (List.range pages) with
  | (s', .ok l) => (s', .ok l.flatten)
  | (s', .error f) => (s', .error f)

/-- The unit decoded into session `x` and the area written; a replay of the command that decoded last starts from what that
one found (R311). -/
def State.decodeFrame (s : State) (g : Gang) (k : Cmd) (d : FrameDesc) (x : Session) : State × Except Fail Decoded :=
  let asid := (s.tmplOf g).asid
  let n := k.params.getD 3 0
  match s.loadArea g.core asid x d with
  | .error f => (s, .error f)
  | .ok (s, x) =>
    let s := s.setSession x
    match s.readVirt g.core asid d.bits d.bitlen with
    | .error f => (s, .error f)
    | .ok (s, unit) =>
      let old := if x.last = n + 1 then x.before else x.now
      let r := decodeUnit old d unit s.free
      let s := { s with free := s.free + 2 * r.runs.length * rowWidth r.runs }
      match s.storeArea g.core asid d.session (min d.seslen ((r.need + 65535) / 65536)) with
      | (s, .error f) => (s, .error f)
      | (s, .ok bs) =>
        (s.setSession { x with now := r.ses, last := n + 1, before := old, area := bs ++ x.area.drop bs.length }, .ok r)

/-- The unit read, decoded and its lines known; nothing while an older command of the session is incomplete or the engine's
contexts are taken. A replay after later commands of the session writes the picture that the first run decoded. -/
def State.buildFrame (s : State) (g : Gang) (k : Cmd) : State × Cmd :=
  let engine := k.params.getD 0 0
  let asid := (s.tmplOf g).asid
  match s.readVirt g.core asid (k.params.getD 2 0) 128 with
  | .error f => (s, { k with fault := some f.toStatus })
  | .ok (s1, bs) =>
    let d := parseFrame bs
    let key := sessionKey asid d.session
    let older := s.frameCmds.any fun x =>
      decide (x.params.getD 0 0 = engine) && (decide (x.params.getD 1 0 = key) || decide (x.params.getD 1 0 = 0)) &&
        decide (x.params.getD 3 0 < k.params.getD 3 0)
    let finish (s : State) (runs : List Run) (word done : Nat) : State × Cmd :=
      let l := frameLines k g.gid s.free runs d.status word
      ({ s with free := s.free + 128 * l.2.length },
        { k with built := true, lines := l.2, params := [engine, key, k.params.getD 2 0, k.params.getD 3 0, done, l.1] })
    let elsewhere := match s1.session? key with
      | some x => decide (x.engine ≠ engine) && decide (x.engine ≠ noEngine)
      | none => false
    if older then (s, k)
    else if elsewhere then finish s1 [] 5 0
    else
      match s1.frameContext engine (some key) with
      | none => (s, k)
      | some s2 =>
        let x := (s2.session? key).getD (Session.fresh key)
        if k.params.getD 4 0 = 1 ∧ x.last ≠ k.params.getD 3 0 + 1 then (s2, { k with built := true })
        else if x.now.corrupt && !d.reset && decide (x.last ≠ k.params.getD 3 0 + 1) then
          finish s2 [] (frameStatus { code := 2, w := 0, h := 0, ses := x.now, runs := [], need := 0 }) 0
        else if !d.ok then finish s2 [] 5 0
        else
          match s2.decodeFrame g k d x with
          | (s3, .error f) => (s3, { k with fault := some f.toStatus })
          | (s3, .ok r) => finish s3 r.runs (frameStatus r) 1

/-- The lines of the STATUS word land after every other line of their command. -/
def Cmd.frameTurn (k : Cmd) (l : Landing) : Bool :=
  let n := k.params.getD 5 0
  decide (k.kind ≠ .frame) || decide (l.id < n) || k.lines.all fun x => x.written || decide (n ≤ x.id)

def execFrame (a : Src) (engine : BitVec 3) (w : CmdWord) (s : State) : Host.Outcome State Fault Refusal :=
  instr s (fun _ => Accept.frame a w) [] [] fun c =>
    if !c.gate then s.skip c
    else
      let addr := (c.val64 s a).toNat
      if addr % 128 ≠ 0 then alignCmd s c c.is.pc
      else if !c.room .cp then s.block c c.g .accept
      else
        let asid := (s.tmplOf c.g).asid
        let key := match (s.flush c.g.gid (List.range c.g.slices.length)).readVirt c.g.core asid addr 128 with
          | .ok (_, bs) => some (sessionKey asid (parseFrame bs).session)
          | .error _ => none
        match s.frameContext engine.toNat key with
        | none => s.block c c.g .accept
        | some s1 =>
          let cmd := { Cmd.offer c .frame .cp w [] with
            params := [engine.toNat, key.getD 0, addr, s1.seq, 0, 0], built := false }
          ({ s1 with seq := s1.seq + 1 }).accept c cmd fun s c => s.done c c.g

end Sys2Proof.Machine
end

