-- ==== Sys2Proof/Machine/Local.lean ====
section
/-! DEFINITION. LD, ST, FEMARK, FEPROBE and ZPROBE (09 R244 to R255). -/

namespace Sys2Proof.Machine

open Sys2Proof

/-- Loaded bytes as 32-bit registers: at most two bytes are extended (09 R250). -/
def loadRegs (ext : Bool) (bs : List Byte) : List W32 :=
  let n := bs.length
  let v := ofLe bs
  if n ≤ 2 ∧ ext = true then [BitVec.ofInt 32 (sintOf (8 * n) v)]
  else (List.range ((n + 3) / 4)).map fun i => BitVec.ofNat 32 (v / 2 ^ (32 * i))

/-- Register i of what each lane gets; offending lanes get zero. -/
def laneReg (vals : List ((Nat × Nat) × List W32)) (off : List (Nat × Nat)) (i : Nat) : LaneFn := fun k j =>
  if off.contains (k, j) then some 0
  else
    match vals.find? fun v => decide (v.1 = (k, j)) with
    | some v => some (v.2.getD i 0)
    | none => none

/-- Destination registers written: the first with the latch shift, the rest of a v range after it (09 R250). -/
def Gang.writeRange (g : Gang) (ks : List Nat) (d : Dst) (n : Nat) (f : Nat → LaneFn) : Gang :=
  let g := g.writeVX ks d (f 0) fun _ => .top
  match d with
  | .v r => (List.range (n - 1)).foldl (fun g i => g.writeV ks (r.toNat + i + 1) (f (i + 1))) g
  | _ => g

/-- Registers in a v range stay within VREGS (06 R145). -/
def Ctx.rangeOk (s : State) (c : Ctx) (d : Dst) (k : Nat) : Bool :=
  match d with
  | .v n => c.vOk s n.toNat k
  | _ => true

def Ctx.srcRangeOk (s : State) (c : Ctx) (d : Src) (k : Nat) : Bool :=
  match d with
  | .v n => c.vOk s n.toNat k
  | _ => true

def allSpaces : List Nat := [0, 1, 2, 3, 4]

/-- What loads share: `after` is what follows the read, given the lanes and their places. -/
def load (s : State) (c : Ctx) (d : Dst) (a : Src) (arr : BitVec 4) (w : AccWord) (spaces : List Nat)
    (after : State → Ctx → List LanePlaces → State) : State :=
  if !c.gate then
    s.done c (c.g.writeVX c.st.slices d (fun _ _ => none) fun _ => .top)
  else
    let ar := c.arr arr
    match c.prepSized s ar a w false false spaces with
    | .stop s => s
    | .go lanes off =>
      c.locate s .ld ar.space (bytesOf w) true false true lanes fun s c ls =>
        let vals := ls.map fun l => ((l.k, l.j), loadRegs (decide (w.ext = 1)) (l.places.map (s.readOwn c.g c.st.slices)))
        let s := after s c ls
        let c := c.refresh s
        let g := c.g.writeRange c.st.slices d (Accept.regsOf w.size) (laneReg vals off)
        let g := g.writeP6 c ar off
        let g := if ls.isEmpty then g else g.addAccess .ld c.st.slices w.scope.toNat false 0 []
        s.done c g

/-- LD (09 R250). -/
def execLd (d : Dst) (a : Src) (arr : BitVec 4) (w : AccWord) (s : State) : Host.Outcome State Fault Refusal :=
  instr s (fun c => Accept.ld d a w && c.rangeOk s d (Accept.regsOf w.size)) [d] [a] fun c =>
    load s c d a arr w allSpaces fun s _ _ => s

/-- The bytes a lane stores (09 R251). -/
def Ctx.storeBytes (s : State) (c : Ctx) (d : Src) (n : Nat) (k j : Nat) : List Byte :=
  match d with
  | .v r => leBytes n (ofLe ((List.range (Accept.regsOf (BitVec.ofNat 3 (ilog2 n)))).flatMap fun i =>
      leBytes 4 ((c.g.thread k j).vreg (r.toNat + i)).toNat))
  | .s m => leBytes n (c.g.sreg m.toNat).toNat
  | .zero => leBytes n 0
  | d => leBytes n (c.val s d k j).toNat

/-- The writes of a lane. -/
def Ctx.laneWrites (s : State) (c : Ctx) (d : Src) (n : Nat) (l : LanePlaces) : List Write :=
  (l.places.zip (c.storeBytes s d n l.k l.j)).map fun pb => { place := pb.1, byte := pb.2, thread := 4 * l.k + l.j }

def isNear (w : Write) : Bool :=
  match w.place with
  | .near _ _ _ => true
  | _ => false

/-- What stores share: near lines are written at once, the rest waits on the ST path. -/
def store (s : State) (c : Ctx) (d a : Src) (arr : BitVec 4) (w : AccWord) (spaces : List Nat) (counted : Nat) : State :=
  if !c.gate then s.skip c
  else
    let ar := c.arr arr
    match c.prepSized s ar a w true false spaces with
    | .stop s => s
    | .go lanes off =>
      c.locate s .st ar.space (bytesOf w) false true false lanes fun s c ls =>
        let (s, ls) := s.ordered ls
        let ws := ls.flatMap (c.laneWrites s d (bytesOf w))
        let s := s.performOwn c.g.gid (ws.filter isNear)
        let c := c.refresh s
        let g := c.g.writeP6 c ar off
        let g := if ls.isEmpty then g
          else g.addAccess .st c.st.slices w.scope.toNat (decide (w.order = 3)) counted (ws.filter fun x => !isNear x)
        s.done c g

/-- ST (09 R251). -/
def execSt (d a : Src) (arr : BitVec 4) (w : AccWord) (s : State) : Host.Outcome State Fault Refusal :=
  instr s (fun c => Accept.st d a w && c.srcRangeOk s d (Accept.regsOf w.size)) [] [d, a] fun c =>
    store s c d a arr w allSpaces 0

/-! ## Line state (09 R241, R245, R253 to R255) -/

def lineSpaces : List Nat := [1, 2]

/-- The scratch place of each lane's address. -/
def Ctx.lanePlace1 (s : State) (c : Ctx) (ar : Arr) (l : LaneAddr) : Place := s.localPlace c.g ar.space l.addr

/-- FEMARK: arm raises P of each named line once, land lowers it after the gang's earlier accesses (R245, R253). -/
def execFemark (land : BitVec 1) (a : Src) (arr : BitVec 4) (w : AccWord) (s : State) : Host.Outcome State Fault Refusal :=
  instr s (fun _ => Accept.femark a w) [] [a] fun c =>
    if !c.gate then s.skip c
    else
      let ar := c.arr arr
      match c.prep s ar a (dispOf w) 1 1 false true false lineSpaces with
      | .stop s => s
      | .go lanes off =>
        let lines := (lanes.map fun l => (c.lanePlace1 s ar l).line).eraseDups
        if land = 1 then
          let s := s.flush c.g.gid (List.range c.g.slices.length)
          let s := lines.foldl State.landLine s
          let c := c.refresh s
          s.done c (c.g.writeP6 c ar off)
        else if lines.any fun p => decide (s.lineP p = 15) then s.block c c.g .other
        else
          let s := lines.foldl State.armLine s
          let c := c.refresh s
          s.done c (c.g.writeP6 c ar off)

/-- A per-lane result of a probe, zero in offending lanes. -/
def probed (lanes : List LaneAddr) (off : List (Nat × Nat)) (f : LaneAddr → Nat) : LaneFn := fun k j =>
  if off.contains (k, j) then some 0
  else
    match lanes.find? fun l => decide (l.k = k ∧ l.j = j) with
    | some l => some (BitVec.ofNat 32 (f l))
    | none => none

/-- FEPROBE: F, Z and P of each lane's line, the strand's own stores among its bytes (R254, R242). -/
def execFeprobe (d : Dst) (a : Src) (arr : BitVec 4) (w : AccWord) (s : State) : Host.Outcome State Fault Refusal :=
  instr s (fun _ => Accept.feprobe d a w) [d] [a] fun c =>
    if !c.gate then s.done c (c.g.writeVX c.st.slices d (fun _ _ => none) fun _ => .iv 0 63)
    else
      let ar := c.arr arr
      match c.prep s ar a (dispOf w) 1 1 false false false lineSpaces with
      | .stop s => s
      | .go lanes off =>
        let s := s.flush c.g.gid c.st.slices
        let c := c.refresh s
        let f := probed lanes off fun l =>
          let p := c.lanePlace1 s ar l
          b2n (s.lineF p) + 2 * b2n (s.lineZ p) + 4 * s.lineP p
        s.done c ((c.g.writeVX c.st.slices d f fun _ => .iv 0 63).writeP6 c ar off)

/-- ZPROBE: the Z flags of 32 lines (R255). -/
def execZprobe (d : Dst) (a : Src) (arr : BitVec 4) (w : AccWord) (s : State) : Host.Outcome State Fault Refusal :=
  instr s (fun _ => Accept.zprobe d a w) [d] [a] fun c =>
    if !c.gate then s.done c (c.g.writeVX c.st.slices d (fun _ _ => none) fun _ => .top)
    else
      let ar := c.arr arr
      match c.prep s ar a (dispOf w) (4096 / 2 ^ ar.logsz) 128 false false false lineSpaces with
      | .stop s => s
      | .go lanes off =>
        let s := s.flush c.g.gid c.st.slices
        let c := c.refresh s
        let f := probed lanes off fun l =>
          ofBits ((List.range 32).map fun i => s.lineZ (s.localPlace c.g ar.space (l.addr + 128 * i)))
        s.done c ((c.g.writeVX c.st.slices d f fun _ => .top).writeP6 c ar off)

end Sys2Proof.Machine
end

