-- ==== Sys2Proof/Machine/Device.lean ====
section
/-! DEFINITION. ATOM, CAS, LDX, STX, PRF, LDRC, STRC, CCTL (10 R277 to R288) and FENCE (11 R306). -/

namespace Sys2Proof.Machine

open Sys2Proof

def devSpaces : List Nat := [1, 2, 3, 4]

/-! ## Read-modify-write (R279 to R281) -/

/-- Floating-point functions round to nearest even, keep subnormals and raise no flag (R279). -/
def atomFadd (f : Fp.Fmt) (a b : Nat) : Nat :=
  (Fp.deliver f 0 0 false false (Fp.exAdd 0 (f.decode false a) (f.decode false b)).1).1

/-- A function of ATOM on `n`-byte values (R279). -/
def atomFunc (func n old v : Nat) : Nat :=
  let w := 8 * n
  let lt := decide (sintOf w old < sintOf w v)
  match func with
  | 0 => (old + v) % 2 ^ w
  | 1 => old &&& v
  | 2 => old ||| v
  | 3 => xorNat old v
  | 4 => if lt then old else v
  | 5 => if lt then v else old
  | 6 => min old v
  | 7 => max old v
  | 8 => v
  | 9 => if old < v then old + 1 else v
  | 10 => if v < old then old - 1 else v
  | 11 => atomFadd .f32 old v
  | 12 => atomFadd .bf16 (old % 2 ^ 16) (v % 2 ^ 16) + 2 ^ 16 * atomFadd .bf16 (old / 2 ^ 16) (v / 2 ^ 16)
  | 13 => (Fp.minMax .f32 false false old v).1
  | _ => (Fp.minMax .f32 true false old v).1

/-- Register images of an `n`-byte value. -/
def regsOfVal (n v : Nat) : List W32 := (List.range ((n + 3) / 4)).map fun i => BitVec.ofNat 32 (v / 2 ^ (32 * i))

/-- A value taken from `k` successive registers of a lane, low word first. -/
def Ctx.dstVal (c : Ctx) (d : Dst) (first k : Nat) (kk j : Nat) : Nat :=
  let t := c.g.thread kk j
  match d with
  | .v n => ofLe ((List.range k).flatMap fun i => leBytes 4 (t.vreg (n.toNat + first + i)).toNat)
  | .x n => (t.xreg n.toNat).toNat
  | _ => 0

/-- Lanes performed one after another at the place: each reads the value, `f` says what it writes, if anything. -/
def State.rmwLanes (s : State) (gid : Nat) (f : LanePlaces → Nat → Option Nat) :
    List LanePlaces → State × List ((Nat × Nat) × Nat)
  | [] => (s, [])
  | l :: ls =>
    let old := ofLe (l.places.map s.byteAt)
    let s1 := match f l old with
      | some v => s.performOwn gid
          ((l.places.zip (leBytes l.places.length v)).map fun (pb : Place × Byte) => { place := pb.1, byte := pb.2, thread := 4 * l.k + l.j : Write })
      | none => s
    let (s2, rest) := s1.rmwLanes gid f ls
    (s2, ((l.k, l.j), old) :: rest)

/-- ATOM and CAS: the strand's earlier stores are performed first, then the lanes one after another. -/
def atomic (s : State) (c : Ctx) (d : Dst) (a : Src) (arr : BitVec 4) (w : AccWord)
    (f : Ctx → LanePlaces → Nat → Option Nat) : State :=
  if !c.gate then s.done c (c.g.writeVX c.st.slices d (fun _ _ => none) fun _ => .top)
  else
    let ar := c.arr arr
    let n := bytesOf w
    match c.prepSized s ar a w true false devSpaces with
    | .stop s => s
    | .go lanes off =>
      c.locate s .ld ar.space n true true false lanes fun s c ls =>
        let s := s.flush c.g.gid c.st.slices
        let (s, ls) := s.ordered ls
        let (s, olds) := s.rmwLanes c.g.gid (f c) ls
        let c := c.refresh s
        let vals := olds.map fun o => (o.1, regsOfVal n o.2)
        let g := c.g.writeRange c.st.slices d (Accept.regsOf w.size) (laneReg vals off)
        let g := g.writeP6 c ar off
        let g := if ls.isEmpty then g else g.addAccess .ld c.st.slices w.scope.toNat false 0 []
        s.done c g

/-- ATOM (R279). -/
def execAtom (d : Dst) (func : BitVec 4) (a : Src) (arr : BitVec 4) (w : AccWord) (s : State) : Host.Outcome State Fault Refusal :=
  instr s (fun c => Accept.atom d func a w && c.rangeOk s d (Accept.regsOf w.size)) [d] [a] fun c =>
    atomic s c d a arr w fun c l old =>
      some (atomFunc func.toNat (bytesOf w) old (c.dstVal d 0 (Accept.regsOf w.size) l.k l.j))

/-- CAS: expected value, then new value, from successive registers (R281). -/
def execCas (d : Dst) (a : Src) (arr : BitVec 4) (w : AccWord) (s : State) : Host.Outcome State Fault Refusal :=
  instr s (fun c => Accept.cas d a w && c.rangeOk s d (2 * Accept.regsOf w.size)) [d] [a] fun c =>
    let r := Accept.regsOf w.size
    atomic s c d a arr w fun c l old =>
      if old = c.dstVal d 0 r l.k l.j then some (c.dstVal d r r l.k l.j) else none

/-! ## Reservations (R282 to R284) -/

/-- LDX: a load that then holds a reservation on each lane's granule (R283). -/
def execLdx (d : Dst) (a : Src) (arr : BitVec 4) (w : AccWord) (s : State) : Host.Outcome State Fault Refusal :=
  instr s (fun c => Accept.ldx d a w && c.rangeOk s d (Accept.regsOf w.size)) [d] [a] fun c =>
    load s c d a arr w devSpaces fun s c ls =>
      let s := s.flush c.g.gid c.st.slices
      let c := c.refresh s
      s.setGang (c.g.mapThreads c.st.slices fun k j t =>
        match ls.find? fun l => decide (l.k = k ∧ l.j = j) with
        | some l => { t with reservation := (l.places.head?).map Place.line }
        | none => t)

/-- The lanes of a STX that succeed: of the lanes naming a granule and holding a reservation on it, the lowest. -/
def stxWinners (g : Gang) (ls : List LanePlaces) : List (Nat × Nat) :=
  let gran (l : LanePlaces) : Option Place := (l.places.head?).map Place.line
  let holds (l : LanePlaces) : Bool := decide ((g.thread l.k l.j).reservation = gran l) && (gran l).isSome
  (ls.filter fun l => holds l &&
    !(ls.any fun m => holds m && decide (gran m = gran l) && decide (4 * m.k + m.j < 4 * l.k + l.j))).map fun l => (l.k, l.j)

/-- STX (R284). -/
def execStx (d : Src) (p : BitVec 3) (a : Src) (arr : BitVec 4) (w : AccWord) (s : State) : Host.Outcome State Fault Refusal :=
  instr s (fun c => Accept.stx d a w && c.srcRangeOk s d (Accept.regsOf w.size)) [] [d, a] fun c =>
    if !c.gate then s.skip c
    else
      let ar := c.arr arr
      match c.prepSized s ar a w true false devSpaces with
      | .stop s => s
      | .go lanes off =>
        c.locate s .st ar.space (bytesOf w) false true false lanes fun s c ls =>
          let s := s.flush c.g.gid c.st.slices
          let c := c.refresh s
          let win := stxWinners c.g ls
          let ws := (ls.filter fun l => win.contains (l.k, l.j)).flatMap (c.laneWrites s d (bytesOf w))
          let s := s.performOwn c.g.gid ws
          let c := c.refresh s
          let g := c.g.mapThreads c.st.slices fun k j t =>
            let t := if ls.any fun l => decide (l.k = k ∧ l.j = j) then { t with reservation := none } else t
            if c.active k j then t.setP p.toNat (win.contains (k, j)) else t
          let g := g.writeP6 c ar off
          let g := if ls.isEmpty then g else g.addAccess .st c.st.slices w.scope.toNat false 0 []
          s.done c g

/-! ## Prefetch and cache operations (R285, R288) -/

/-- Lanes whose page has a valid mapping (and R where `rd`), the others dropped; a used translation is touched. -/
def State.mapped (s : State) (g : Gang) (rd : Bool) : List LaneAddr → State × List (LaneAddr × Nat)
  | [] => (s, [])
  | l :: ls =>
    let asid := (s.tmplOf g).asid
    match if 2 ^ 57 ≤ l.addr then none else s.translate g.core asid l.addr with
    | some (e, s1) =>
      if rd && !(bitOf e.leaf 1) then s.mapped g rd ls
      else
        let (s2, rest) := (s1.touch g.core asid l.addr e).mapped g rd ls
        (s2, (l, e.pa l.addr) :: rest)
    | none => s.mapped g rd ls

/-- PRF: no value and no register changes (R285). -/
def execPrf (a : Src) (arr : BitVec 4) (w : AccWord) (s : State) : Host.Outcome State Fault Refusal :=
  instr s (fun _ => Accept.prf a w) [] [a] fun c =>
    let ar := c.arr arr
    if !c.gate || decide (ar.space ≠ 4) then s.skip c
    else
      match c.prepSized s ar a w false true [4] with
      | .stop s => s
      | .go lanes _ =>
        let pieces (l : LaneAddr) : List LaneAddr := (List.range ((bytesOf w + 15) / 16)).map fun i => { l with addr := l.addr + 16 * i }
        let (s, ls) := s.mapped c.g true (lanes.flatMap pieces)
        (ls.foldl (fun s l => s.noteFill (s.norm l.2)) s).skip c

/-- CCTL: the cache operations change no value; rcdrop drops counted lines, l2evict drops joined scales (R288) (DEDUCED, log 29). -/
def execCctl (op : BitVec 4) (a : Src) (arr : BitVec 4) (w : AccWord) (s : State) : Host.Outcome State Fault Refusal :=
  instr s (fun _ => Accept.cctl op a w) [] [a] fun c =>
    if !c.gate then s.skip c
    else
      let ar := c.arr arr
      match c.prep s ar a (dispOf w) 1 1 false (decide (op = 4)) false [4] with
      | .stop s => s
      | .go lanes off =>
        if !c.room .st then s.block c c.g .other
        else
          let s := if op = 4 then s.flush c.g.gid c.st.slices else s
          let (s, ls) := s.mapped c.g false lanes
          let lines := (ls.map fun l => s.norm l.2 / 128).eraseDups
          let s := match op.toNat with
            | 2 => { s with joins := lines.foldl Sparse.erase s.joins }
            | 4 => lines.foldl State.dropCounted s
            | _ => s
          let c := c.refresh s
          let g := c.g.writeP6 c ar off
          let g := if lines.isEmpty then g else g.addAccess .st c.st.slices w.scope.toNat false 0 []
          s.done c g

/-! ## Reader-counted lines (R286, R287) -/

/-- One LDRC of a line: C falls; the last reader's line is dropped (R261). -/
def State.countRead (s : State) (line : Nat) : State :=
  match s.counted.find? fun c => decide (c.1 = line) with
  | none => s
  | some (_, c) =>
    if c.count ≤ 1 then s.dropCounted line
    else { s with counted := s.counted.insert line { c with count := c.count - 1 } }

/-- LDRC: a load that counts each counted line it reads once (R287). -/
def execLdrc (d : Dst) (a : Src) (arr : BitVec 4) (w : AccWord) (s : State) : Host.Outcome State Fault Refusal :=
  instr s (fun c => Accept.ld d a w && c.rangeOk s d (Accept.regsOf w.size)) [d] [a] fun c =>
    load s c d a arr w [4] fun s c ls =>
      let s := s.flush c.g.gid c.st.slices
      let lines := (ls.flatMap fun l => l.places.filterMap fun p => match p with
        | .phys pa => some (s.norm pa / 128)
        | _ => none).eraseDups
      lines.foldl State.countRead s

/-- STRC: a store whose lines become counted when it is performed (R286). -/
def execStrc (d : Src) (count : BitVec 4) (a : Src) (arr : BitVec 4) (w : AccWord) (s : State) : Host.Outcome State Fault Refusal :=
  instr s (fun c => Accept.st d a w && c.srcRangeOk s d (Accept.regsOf w.size)) [] [d, a] fun c =>
    store s c d a arr w [4] (count.toNat + 1)

/-! ## FENCE (11 R306) -/

/-- FENCE: a release, strong or acq_rel fence waits until every earlier access of its strand is performed. An acquire
fence waits for nothing: later accesses issue after it. -/
def execFence (scope order : BitVec 3) (s : State) : Host.Outcome State Fault Refusal :=
  instr s (fun _ => Accept.fence scope order) [] [] fun c =>
    if !c.gate then s.skip c
    else if decide (order ≠ 2) && (c.g.heatPending || c.g.accesses.any fun a => meets a.slices c.st.slices) then s.block c c.g .fence
    else s.skip c

end Sys2Proof.Machine
end

