-- ==== Sys2Proof/Machine/Fetch.lean ====
section
/-! DEFINITION. Code lines: their header and form, the instruction caches and buffers, fetching a line and finding the
instruction at an address, landing checks (02 R22 to R30). -/

namespace Sys2Proof.Machine

open Sys2Proof

/-! ## The header and the form of a line (02 R22, R23) -/

def headerOf (ws : List W32) : Nat := (ws.getD 0 0).toNat + 2 ^ 32 * (ws.getD 1 0).toNat
def kindOf (ws : List W32) : Nat := field (headerOf ws) 63 60
/-- Whether word i (2 to 31) is marked in STARTS, or in TARGETS. -/
def marked (ws : List W32) (i : Nat) : Bool := decide (2 ≤ i) && decide (i < 32) && bitOf (headerOf ws) (i - 2)
def targeted (ws : List W32) (i : Nat) : Bool := decide (2 ≤ i) && decide (i < 32) && bitOf (headerOf ws) (i + 28)

/-- The first marked word at or after word i, 32 if there is none. -/
def nextMark (ws : List W32) (i : Nat) : Nat :=
  match (List.range 32).find? fun k => decide (i ≤ k) && marked ws k with
  | some k => k
  | none => 32

/-- A well-formed code line (02 R23). -/
def lineOk (ws : List W32) : Bool :=
  decide (kindOf ws = 0) && marked ws 2 &&
  ((List.range 32).all fun i =>
    !marked ws i ||
      (let stop := nextMark ws (i + 1)
       let past := i + lengthOf (ws.getD i 0)
       decide (past ≤ stop) && (List.range 32).all fun k => !(decide (past ≤ k) && decide (k < stop)) || decide (ws.getD k 0 = 0))) &&
  (List.range 32).all fun i => !targeted ws i || marked ws i

/-! ## The instruction cache, the buffers and a line fetched (02 R26, R28 to R30) -/

def wordAt (s : State) (pa : Nat) : W32 := BitVec.ofNat 32 (s.readPhys pa 4)

/-- The line's 32 words as its home slice holds them now. -/
def State.snapshot (s : State) (pa : Nat) : List W32 := (List.range 32).map fun i => wordAt s (pa + 4 * i)

/-- The lines that a new line at `pa` would have to share room with: those of its set of eight in a core's cache, those of
a partition's buffer. While a cache has fewer than eight lines no set of it is full (DESIGN CHOICE, log 13). -/
def State.rivals (s : State) (core : Nat) (part : Option Nat) (pa : Nat) : List CodeLine :=
  let mine := s.icache.filter fun l => decide (l.core = core) && decide (l.part = part)
  match part with
  | some _ => mine
  | none => if mine.length < 8 then [] else mine.filter fun l => decide (Config.codeSet l.pa % 64 = Config.codeSet pa % 64)

/-- A line put into a core's instruction cache of 64 sets of eight lines, or into a partition's buffer of 32 (R28); the
oldest gives way (DESIGN CHOICE, log 13). -/
def State.holdLine (s : State) (l : CodeLine) : State :=
  let s := { s with icache := s.icache.filter fun x => !(decide (x.core = l.core) && decide (x.part = l.part) && decide (x.pa = l.pa)) }
  let rivals := s.rivals l.core l.part l.pa
  let kept := if rivals.length < (if l.part.isSome then 32 else 8) then s.icache else
    match rivals with
    | old :: _ => s.icache.erase old
    | [] => s.icache
  { s with icache := kept ++ [l] }

def State.cacheLine (s : State) (core pa : Nat) (ws : List W32) : State :=
  s.holdLine { core := core, part := none, pa := pa, grids := s.started, words := ws }

def sameCluster (a b : Nat) : Bool := decide (a / Config.coresPerCluster = b / Config.coresPerCluster)

/-- A cluster's outstanding fill of a line returns: one snapshot for every core that joined it; a core that has executed
FENCEI since requests the line again (R30). -/
def State.fillReturn (s : State) (core pa : Nat) : State :=
  let mine := s.fills.filter fun f => sameCluster f.core core && decide (f.pa = pa)
  let ws := s.snapshot pa
  (mine.filter fun f => !f.discard).foldl (fun s f => s.cacheLine f.core pa ws)
    { s with fills := s.fills.filterMap fun f =>
        if !(sameCluster f.core core && decide (f.pa = pa)) then some f
        else if f.discard then some { f with discard := false } else none }

/-- The physical address of a line for instruction fetch, or the fetch fault (02 R26, 17 R427). -/
def State.fetchPa (s : State) (core asid va : Nat) : Except Fail (State × Nat) :=
  if 2 ^ 57 ≤ va then .error ⟨3, 2, va, va⟩
  else
    match s.translate core asid va with
    | none => .error ⟨3, 0, va, va⟩
    | some (e, s1) =>
      if !bitOf e.leaf 4 || !bitOf e.leaf 3 then .error ⟨3, 1, va, va⟩
      else
        match s1.region (e.pa va) with
        | .reserved => .error ⟨3, 3, va, va⟩
        | .remote g _ => if s1.reachable g then .ok (s1, s1.norm (e.pa va)) else .error ⟨4, 2, va, va⟩
        | .hbm p => if s1.poison.contains (p / 128) then .error ⟨5, 0, va, p / 128 * 128⟩ else .ok (s1, p)
        | _ => .ok (s1, s1.norm (e.pa va))

/-- A line that a core's cache or a partition's buffer holds and that is no older than the gang's grid (R29). -/
def State.heldLine (s : State) (g : Gang) (part : Option Nat) (pa : Nat) : Option CodeLine :=
  s.icache.find? fun l => decide (l.core = g.core) && decide (l.part = part) && decide (l.pa = pa) && decide (g.grid ≤ l.grids)

/-- One line fetched for a gang: from the partition's buffer, from the core's cache, or filled now; a miss joins the
fill of the line that its cluster has outstanding (R28 to R30). -/
def State.fetchLine (s : State) (g : Gang) (line : Nat) : Except Fail (State × List W32) :=
  match s.fetchPa g.core (s.tmplOf g).asid line with
  | .error f => .error f
  | .ok (s1, pa) =>
    match s1.heldLine g (some g.part) pa with
    | some l => .ok (s1, l.words)
    | none =>
      match s1.heldLine g none pa with
      | some l => .ok (s1.holdLine { l with part := some g.part }, l.words)
      | none =>
        let s2 := s1.fillReturn g.core pa
        let ws := s2.snapshot pa
        .ok ((s2.cacheLine g.core pa ws).holdLine { core := g.core, part := some g.part, pa := pa, grids := s2.started, words := ws }, ws)

/-! ## The instruction at an address (02 R24, R25, R35) -/

inductive Fetched where
  | fault (f : Fail)
  | badLine (line : Nat)
  | ok (words : List W32) (fall : Nat)
  deriving DecidableEq, Repr

/-- Where sequential flow goes on after `len` words from word i of a line: the next marked word, over zero fill if some
stands between (DESIGN CHOICE, log 99), else word 2 of the line 128 bytes higher. -/
def fallOf (ws : List W32) (line i len : Nat) : Nat :=
  let k := nextMark ws (i + len)
  if k < 32 then line + 4 * k else line + 136

def State.fetch (s : State) (g : Gang) (pc : Nat) : State × Fetched :=
  let line := pc / 128 * 128
  match s.fetchLine g line with
  | .error f => (s, .fault { f with addr := pc, shown := if f.kind = 5 then f.shown else pc })
  | .ok (s1, ws) =>
    let i := pc % 128 / 4
    if !lineOk ws || decide (pc % 4 ≠ 0) || !marked ws i then (s1, .badLine line)
    else
      let len := lengthOf (ws.getD i 0)
      (s1, .ok ((ws.drop i).take len) (fallOf ws line i len))

/-! ## Landing of a transfer (02 R25 to R27) -/

/-- A transfer's target breaks R25: a run-time address that names no word, or a word whose TARGETS bit is clear in a
line that can be fetched and is well formed. A fetch fault or LINE of the target is taken when the strand issues there. -/
def State.badTarget (s : State) (g : Gang) (target : Nat) (call : Bool) : State × Bool :=
  if target % 4 ≠ 0 ∨ 2 ^ 57 ≤ target then (s, true)
  else
    match s.fetchLine g (target / 128 * 128) with
    | .error _ => (s, false)
    | .ok (s1, ws) =>
      let i := target % 128 / 4
      (s1, lineOk ws && !(targeted ws i && (!call || decide (i = 2))))

/-! ## FENCEI and IPF (02 R50, R51) -/

/-- Every line and buffer of the core invalid; outstanding fills are discarded when they arrive (02 R50, R30). -/
def State.fenceI (s : State) (core : Nat) : State :=
  { s with
    icache := s.icache.filter fun l => l.core ≠ core
    fills := s.fills.map fun f => if f.core = core then { f with discard := true } else f }

/-- A code line requested ahead of use, dropped without a mapping or exec permission, or where it is cached. -/
def State.prefetchLine (s : State) (g : Gang) (line : Nat) : State :=
  match s.fetchPa g.core (s.tmplOf g).asid line with
  | .error _ => s
  | .ok (s1, pa) =>
    if (s1.heldLine g none pa).isSome then s1
    else { s1 with fills := s1.fills ++ [{ core := g.core, pa := pa, discard := false }] }

end Sys2Proof.Machine
end

