-- ==== Sys2Proof/Machine/Sched.lean ====
section
/-! DEFINITION. The partition scheduler and the steps around a strand's issue: what may issue, what an issue records,
waits that expire, swapping, spilling, the watchdog, accesses performed (04 R86, R93, R97, R108; 05 R114 to R126;
06 R150 to R158; 09 R244; 12 R308; 17 R427). -/

namespace Sys2Proof.Machine

open Sys2Proof

/-! ## Waits and readiness (05 R122, R125, R126) -/

/-- The instruction at a strand's pc, if there is one. -/
def State.peek (s : State) (g : Gang) (st : Strand) : Option (Instr × Issue) :=
  match s.fetch g st.pc with
  | (_, .ok words fall) =>
    match decode words with
    | .ok i => some (i, { gang := g.gid, slice := st.low, pc := st.pc, fall := fall, words := words })
    | .error _ => none
  | _ => none

/-- Whether a WAITC, WAITZ, WAITCH or RESAMPLE at the strand's pc would end its wait (12 R329, R330; 05 R139). -/
def State.pathsDone (s : State) (g : Gang) (st : Strand) : Bool :=
  match s.peek g st with
  | some (.waitc p n, _) =>
    decide (g.counter (pathOf p.toNat) ≤ n.toNat) ||
      g.records.any fun r => !r.reported && decide (r.cmd.path = pathOf p.toNat) && decide (n.toNat ≤ r.after)
  | some (.waitz (.s n), _) =>
    decide (g.sreg n.toNat = 0) || (s.recordNaming g n.toNat).isSome
  | some (.waitch n, _) => decide (g.children ≤ n.toNat)
  | some (.resample _ _ _, _) => g.paths.isEmpty || g.records.any fun r => !r.reported
  | _ => true

/-- Whether a strand's wait would end if it issued now, as far as its wait record says (DESIGN CHOICE, log 17). -/
def State.wouldRun (s : State) (g : Gang) (st : Strand) : Bool :=
  !st.held &&
  match st.wait with
  | .none | .met => true
  | .meet | .resume | .resample => false
  | .spill => true
  | .barrier n => match s.team? g.grid g.team with
    | some t => ((t.barrier n).pass g.g).isSome
    | none => true
  | .cluster n => match s.grid? g.grid with
    | some G => ((G.cbar (G.cbarKey g.team n)).pass (32 * g.team + g.g)).isSome
    | none => true
  | .gridBarrier => match s.grid? g.grid with
    | some G => (G.barrier.pass g.gid).isSome
    | none => true
  | .sleep d _ => decide (d ≤ s.cycleOf g.core)
  | .fence => (g.accesses.all fun a => !meets a.slices st.slices) && !g.heatPending
  | .paths | .children => s.pathsDone g st
  | .empty => (st.emptyAt.all s.lineF) || s.emptyOver g st
  | .accept | .remote | .lost | .homeReset | .other => true

/-- A strand with no wait: it could issue in this beat (R122). -/
def Strand.ready (st : Strand) : Bool := !st.held && (decide (st.wait = .none) || decide (st.wait = .met))

def Gang.stopped (g : Gang) : Bool := g.fault.isSome || decide (g.halt ≠ .running)

/-- A parked gang that is ready (R126). -/
def State.gangReady (s : State) (g : Gang) : Bool :=
  !g.active && !g.released && !g.stopped && g.strands.any (s.wouldRun g)

/-- Parked gangs that have become ready, and since when (R126). -/
def State.noteReady (s : State) : State :=
  { s with gangs := s.gangs.map fun g =>
      let r := if s.gangReady g then some (g.readySince.getD (s.cycleOf g.core)) else none
      if g.readySince = r then g else { g with readySince := r } }

/-- A strand in a condition of R125 that makes its gang eligible at once. -/
def State.blockedNow (s : State) (g : Gang) (st : Strand) : Bool :=
  match st.wait with
  | .barrier _ | .cluster _ | .meet | .resume | .gridBarrier | .resample => true
  | .sleep d _ => decide (s.cycleOf g.core + 2048 < d)
  | _ => false

/-- A strand in a condition of R125 that makes its gang eligible after 2,048 cycles. -/
def Strand.blockedLong (st : Strand) : Bool :=
  decide (st.wait = .paths) || decide (st.wait = .children) || decide (st.wait = .empty)

def State.blocked (s : State) (g : Gang) : Bool :=
  g.fault.isSome || (!g.strands.isEmpty && g.strands.all fun st => s.blockedNow g st || st.blockedLong)

/-- When the last strand of the gang blocked. -/
def Gang.blockedSince (g : Gang) : Nat := (g.strands.map fun st => st.since).foldl max 0

/-- Eligible for swapping (R125): at once, or marked so by SWAP_ELIGIBLE. -/
def State.swappable (s : State) (g : Gang) : Bool :=
  g.active && !g.parking &&
  (g.fault.isSome || (s.blocked g && (g.eligible || g.strands.all (s.blockedNow g))))

/-- Whether a ready parked gang of the partition of `g` cannot enter, gangs that are leaving their slots counted as gone. -/
def State.crowded (s : State) (g : Gang) : Bool :=
  s.gangs.any fun x => sameQuarter x g && x.readySince.isSome && !(s.entersBeside (fun y => !y.parking) x)

/-! ## What may issue (04 R93; 05 R122, R123) -/

/-- A latch hold that is in force (R123). -/
def State.holding (s : State) (g : Gang) (st : Strand) : Bool :=
  match st.hold with
  | some t => decide (s.cycleOf g.core < t + 64) && g.active && !g.stopped
  | none => false

def pipesOf (ks : List Nat) : List Nat := (ks.map fun k => k % 8).eraseDups

/-- The strands of the partition of `g` that could issue in this beat, with their gangs. -/
def State.readyHere (s : State) (g : Gang) : List (Gang × Strand) :=
  (s.gangs.filter fun x => x.active && !x.parking && !x.released && !x.stopped && sameQuarter x g).flatMap fun x =>
    (x.strands.filter Strand.ready).map fun y => (x, y)

/-- The ready strand of a gang that has waited longest, those that have used up their timer apart (R93). -/
def Gang.longest (g : Gang) : Option Strand :=
  match g.strands.filter fun y => y.ready && decide (y.fair < 512) with
  | [] => none
  | y :: l => some (l.foldl (fun a b =>
      if b.lastIssue < a.lastIssue ∨ (b.lastIssue = a.lastIssue ∧ b.low < a.low) then b else a) y)

/-- The fairness timer of R93: once a strand has issued 512 times while others were ready, the next issue is the one of the
longest waiting. -/
def Gang.fairTo (g : Gang) (st : Strand) : Bool :=
  if g.strands.any fun y => decide (512 ≤ y.fair) then
    match g.longest with
    | some y => decide (y.slices = st.slices)
    | none => true
  else true

/-- What holds a strand back whatever the order between ready strands: its gang is not active or does not run, the strand
waits for an event, another gang's latch hold covers its pipes, the fairness timer gives the turn to another, or it has
given this turn up and another is ready (R93, R107, R123). -/
def State.couldIssue (s : State) (g : Gang) (st : Strand) : Bool :=
  g.active && !g.parking && !g.released && !g.stopped && !st.held &&
  decide (st.wait ≠ .spill) && decide (st.wait ≠ .resample) &&
  (s.gangs.all fun x => decide (x.gid = g.gid) || !sameQuarter x g ||
    x.strands.all fun y => !s.holding x y || !meets (pipesOf y.slices) (pipesOf st.slices)) &&
  g.fairTo st &&
  (!st.yielded || (s.readyHere g).all fun y => decide (y.1.gid = g.gid) && decide (y.2.slices = st.slices))

/-- 32 beats of a core clock. -/
def starved (s : State) (g : Gang) (st : Strand) : Option Nat :=
  st.readySince.bind fun t => if t + 128 ≤ s.cycleOf g.core then some t else none

/-- R122's order between strands, as numbers that compare from the left: a strand ready for 32 beats, the longest waiting
first; the token's holder; the gang that issued least recently; the lower slot; the lower slice (DEDUCED, log 88). -/
def State.rank (s : State) (g : Gang) (st : Strand) : List Nat :=
  (match starved s g st with
   | some t => [0, t]
   | none => [1, 0]) ++
  [b2n (decide (Sparse.get 0 s.token (tokenKey g.core g.part) ≠ g.gid + 1)), g.turn, g.slot, st.low]

def rankBefore : List Nat → List Nat → Bool
  | a :: l, b :: m => decide (a < b) || (decide (a = b) && rankBefore l m)
  | _, _ => false

/-- Whether the strand may be the first that its partition picks in a beat: a starved strand picked before it, else none of
the ready strands that nothing holds back comes before it in R122's order. A strand that tries a waiting instruction again
takes no turn from them until that ends its wait. -/
def State.goesFirst (s : State) (g : Gang) (st : Strand) : Bool :=
  match s.first.find? fun f => decide (f.1 = tokenKey g.core g.part) with
  | some (_, gid, k) => decide (gid = g.gid) && st.slices.contains k
  | none => !st.ready || (s.readyHere g).all fun y => !rankBefore (s.rank y.1 y.2) (s.rank g st) || !s.couldIssue y.1 y.2

/-- Whether it may be the second of the present beat: on pipes that the first has left free (04 R84; the ports, which decide
between several, are timing: log 95). -/
def State.goesSecond (s : State) (g : Gang) (st : Strand) : Bool :=
  let (t, free) := Sparse.get (0, 0) s.spare (tokenKey g.core g.part)
  decide (t = s.cycleOf g.core) && (pipesOf st.slices).all (bitOf free)

/-- Whether strand `st` of `g` may issue: nothing holds it back, and it is the first or the second of its partition's beat. -/
def State.mayIssue (s : State) (g : Gang) (st : Strand) : Bool := s.couldIssue g st && (s.goesFirst g st || s.goesSecond g st)

/-- An issue noted in its partition's beat: a first leaves the pipes that it does not use. -/
def State.noteBeat (s : State) (g : Gang) (st : Strand) (first : Bool) : State :=
  let used := pipesOf st.slices
  let free := ((List.range 8).filter fun k => !used.contains k).foldl (fun n k => n + 2 ^ k) 0
  { s with spare := Sparse.set (0, 0) s.spare (tokenKey g.core g.part) (if first && decide (free ≠ 0) then (s.cycleOf g.core, free) else (0, 0)) }

/-! ## What an issue leaves behind (04 R86, R87, R93; 05 R123; 06 R148, R150) -/

def pipeKey (core part k : Nat) : Nat := tokenKey core part * 8 + k % 8

/-- The issuing gang owns its pipes; latches of the gangs that owned them before are invalid (R87) (DEDUCED, log 20). -/
def State.ownPipes (s : State) (g : Gang) (ks : List Nat) : State :=
  let lost := ks.filterMap fun k =>
    let o := Sparse.get 0 s.pipes (pipeKey g.core g.part k)
    if o = 0 ∨ o = g.gid + 1 then none else some (o - 1, k % 8)
  let drop (x : Gang) : Gang :=
    x.mapSlices (List.range x.slices.length) fun k sl => if lost.contains (x.gid, k % 8) then { sl with latValid := 0 } else sl
  { s with
    pipes := ks.foldl (fun m k => Sparse.set 0 m (pipeKey g.core g.part k) (g.gid + 1)) s.pipes
    gangs := if lost.isEmpty then s.gangs else s.gangs.map drop }

/-- The strand after a move: one that is not ready keeps no latch hold and has not been ready since any time (R122, R123). -/
def Strand.noted (st : Strand) (runs : Bool) (now : Nat) : Strand :=
  if st.ready && runs then { st with readySince := some (st.readySince.getD now) }
  else { st with readySince := Option.none, hold := if st.ready then st.hold else Option.none }

/-- What a move makes of readiness: since when each strand has been ready, latch holds that end, and a starved strand that
is not ready, or whose gang does not issue, giving up its turn (R122, R123). -/
def State.noteUnready (s : State) : State :=
  let keeps (f : Nat × Nat × Nat) : Bool :=
    match s.gang? f.2.1 with
    | some g => g.active && !g.stopped && (match g.strand? f.2.2 with
      | some st => st.ready
      | none => false)
    | none => false
  { s with
    first := s.first.filter keeps
    gangs := s.gangs.map fun g =>
      { g with strands := g.strands.map fun st => st.noted (g.active && !g.parking && !g.stopped) (s.cycleOf g.core) } }

/-- Whether the instruction at word i of a line reads a latch. -/
def latchIn (ws : List W32) (i : Nat) : Bool :=
  let m := ws.getD i 0
  let op := bitsAt 24 8 m
  let lat (c : BitVec 8) : Bool := decide (0xE0 ≤ c.toNat ∧ c.toNat ≤ 0xE3)
  (codeA op && lat (bitsAt 8 8 m)) || (codeB op && lat (bitsAt 0 8 m)) ||
  (decide (op = 0x44) && lat (bitsAt 0 8 (ws.getD (i + 1) 0))) ||
  ((decide (op = 0x81) || decide (op = 0x88) || decide (op = 0x8B)) && lat (bitsAt 16 8 m))

/-- Whether one of the `n` instructions from word i on in the line reads a latch. -/
def latchAhead (ws : List W32) : Nat → Nat → Bool
  | 0, _ => false
  | n + 1, i =>
    let k := nextMark ws i
    decide (k < 32) && (latchIn ws k || latchAhead ws n (k + 1))

/-- The register pair or range that an operand latch holds is released by a write to one of its registers (13 R349). -/
def State.releaseOpLatch (s : State) (g : Gang) (written : List Nat) : State :=
  { s with opLatch := s.opLatch.filter fun e =>
      !(decide (e.1 = tokenKey g.core g.part) && decide (e.2.1 = g.gid + 1) &&
        written.any fun c => decide (e.2.2 % 128 ≤ c ∧ c < e.2.2 % 128 + e.2.2 / 128)) }

/-- Registers that an issued instruction writes, TWR's by the trapped word. -/
def writtenCodes (g : Gang) (i : Instr) : List Nat :=
  match i with
  | .twr _ e => [field g.trap.tword.toNat 23 16 + e.toNat]
  | i => writesOf i

/-- Tree files and key tables that an instruction reads, and those that it writes whole, for each half (14 R360, R363). -/
def Gang.filesRead (g : Gang) (i : Instr) : List EccTarget :=
  let trees (n : BitVec 2) : List EccTarget := [.tree g.gid n.toNat, .tree g.gid (n.toNat + 4)]
  let tables (n : BitVec 2) : List EccTarget := [.keys g.gid n.toNat, .keys g.gid (n.toNat + 4)]
  match i with
  | .amask _ _ tree k => if tree = 1 then trees k else tables k
  | .aclass _ _ k => tables k
  | .ttset grp _ n => if grp = 0 then [] else trees n
  | .ttmask _ _ n | .ttpos _ _ _ n | .prune _ _ n _ => trees n
  | _ => []

def Gang.filesMade (g : Gang) (i : Instr) : List EccTarget :=
  match i with
  | .akeys _ k => [.keys g.gid k.toNat, .keys g.gid (k.toNat + 4)]
  | .ttset grp _ n => if grp = 0 then [.tree g.gid n.toNat, .tree g.gid (n.toNat + 4)] else []
  | _ => []

/-- Whether the instruction reads a row, a tree file or a key table that an uncorrectable error has spoilt. -/
def State.readsSpoilt (s : State) (g : Gang) (i : Instr) : Bool :=
  (readsOf i).any (fun n => s.damaged.contains (.row g.gid n)) || (g.filesRead i).any s.damaged.contains

/-- Rows that an uncorrectable error had spoilt and that the instruction writes in every live thread, tree files and key
tables that it writes whole (18 R454). -/
def State.mendRows (s : State) (g : Gang) (st : Strand) (is : Issue) (i : Instr) : State :=
  if s.damaged.isEmpty then s
  else
    let c : Ctx := ⟨is, g, st⟩
    let whole := (lanesWhere (List.range g.slices.length) fun k j => (g.thread k j).live).all c.activeLanes.contains
    let files := if c.gate && decide ((s.gang? g.gid).map (fun x => x.trap) = some g.trap) then g.filesMade i else []
    { s with damaged := s.damaged.filter fun d =>
        !(whole && (writtenCodes g i).any fun n => decide (d = .row g.gid n)) && !files.contains d }

/-- Whether the instruction wrote register `code`: it took no trap and some lane was active, or a value differs. -/
def wroteReg (before after : Gang) (st : Strand) (is : Issue) (code : Nat) : Bool :=
  let c : Ctx := ⟨is, before, st⟩
  (!c.activeLanes.isEmpty && decide (after.handler.isSome = before.handler.isSome) && after.fault.isNone) ||
    (List.range before.slices.length).any fun k => lanes4.any fun j =>
      decide ((before.thread k j).byCode code ≠ (after.thread k j).byCode code)

/-- The records of an issue at `is` of instruction `i`, by the gang as it was (`g`, `st`) in the state after it. -/
def State.noteIssue (s : State) (g : Gang) (st : Strand) (is : Issue) (i : Instr) (line : List W32) : State :=
  let now := s.cycleOf g.core
  let s := ((s.ownPipes g st.slices).releaseOpLatch g (writtenCodes g i)).mendRows g st is i
  let s : State := { s with
    turns := s.turns + 1
    first := s.first.filter fun f => !(decide (f.1 = tokenKey g.core g.part) && decide (f.2.1 = g.gid) && st.slices.contains f.2.2)
    gangs := s.gangs.map fun x =>
      if sameQuarter x g && x.strands.any fun y => y.yielded then
        { x with strands := x.strands.map fun y =>
            if x.gid = g.gid ∧ meets y.slices st.slices = true ∧ st.yielded = false then y else { y with yielded := false } }
      else x }
  match s.gang? g.gid with
  | none => s
  | some x =>
    let beat := x.issues + 1
    let other := x.strands.any fun y => y.ready && !meets y.slices st.slices
    let mine (y : Strand) : Strand :=
      { y with
        lastIssue := now
        readySince := none
        emptySince := none
        behind := none
        fair := (if y.slices = st.slices ∧ other = true ∧ y.yielded = false then st.fair + 1 else 0)
        hold := (if y.pc = is.fall ∧ y.wait = .none ∧ latchAhead line 4 (is.pc % 128 / 4 + is.words.length) = true then some now
                 else Option.none) }
    s.setGang { x with
      issues := beat
      turn := s.turns
      eligible := false
      recency := (namesOf i).foldl (fun m c => Sparse.set 0 m c beat) x.recency
      parkQ := x.parkQ.filter fun c => !((writtenCodes g i).contains c && wroteReg g x st is c)
      strands := x.strands.map fun y => if meets y.slices st.slices then mine y else { y with fair := 0 } }

/-- Registers an instruction names, TWR's destination among them, that are not resident. -/
def Gang.missing (g : Gang) (i : Instr) : List Nat := ((namesOf i ++ writtenCodes g i).filter g.spilled).eraseDups

/-! ## Events: release, waits that expire, issue precedence -/

/-- What an event does to a gang that exists, nothing otherwise. -/
def onGang (s : State) (gid : Nat) (k : Gang → State) : Host.Outcome State Fault Refusal :=
  match s.gang? gid with
  | some g => .next (k g)
  | none => .next s

/-- What an event does to a strand of a gang. -/
def onStrand (s : State) (gid slice : Nat) (k : Gang → Strand → State) : Host.Outcome State Fault Refusal :=
  onGang s gid fun g =>
    match g.strand? slice with
    | some st => k g st
    | none => s

/-- GANG_RELEASE (04 R97). -/
def execGangRelease (gang : Nat) (s : State) : Host.Outcome State Fault Refusal :=
  onGang s gang fun _ => (s.tryRelease gang).sweep

/-- SLEEP_EXPIRY (04 R108). -/
def execSleepExpiry (gang slice : Nat) (s : State) : Host.Outcome State Fault Refusal :=
  onStrand s gang slice fun g st =>
    match st.wait with
    | .sleep d next => if d ≤ s.cycleOf g.core ∧ st.held = false ∧ g.stopped = false then s.put g { st with pc := next, wait := .none } else s
    | _ => s

/-- STARVATION_PICK (05 R122): the strand of its partition that has been ready longest, for 32 beats or more without
issuing, goes first. -/
def execStarvationPick (gang slice : Nat) (s : State) : Host.Outcome State Fault Refusal :=
  onStrand s gang slice fun g st =>
    let key := tokenKey g.core g.part
    let longest (t : Nat) : Bool := (s.readyHere g).all fun y => match starved s y.1 y.2 with
      | some u => decide (t ≤ u)
      | none => true
    match starved s g st with
    | some t =>
      if st.ready && g.active && !g.stopped && longest t && !(s.first.any fun f => decide (f.1 = key)) then
        { s with first := s.first.insert key (gang, slice) }
      else s
    | none => s

/-- FAIRNESS_SWITCH (04 R93): a strand has issued 512 times while the strand of `slice` waits, the longest of the
others; the next issue of the gang is the latter's. -/
def execFairnessSwitch (gang slice : Nat) (s : State) : Host.Outcome State Fault Refusal :=
  onStrand s gang slice fun g st =>
    if st.ready && decide (st.fair < 512) && g.fairTo st && g.strands.any fun y => decide (512 ≤ y.fair) then
      s.setGang { g with strands := g.strands.map fun y => if y.slices = st.slices then { y with fair := 0 } else { y with fair := 512 } }
    else s

/-- LATCH_HOLD_EXPIRY (05 R123). -/
def execLatchHoldExpiry (gang slice : Nat) (s : State) : Host.Outcome State Fault Refusal :=
  onStrand s gang slice fun g st =>
    match st.hold with
    | some t => if t + 64 ≤ s.cycleOf g.core then s.put g { st with hold := none } else s
    | none => s

/-- Strands in a spill stall try again. -/
def Gang.unstall (g : Gang) : Gang :=
  { g with strands := g.strands.map fun st => if st.wait = .spill then { st with wait := .none } else st }

def State.unstall (s : State) (gid : Nat) : State :=
  match s.gang? gid with
  | some g => s.setGang g.unstall
  | none => s

/-- v registers that drains have still to write (13 R359). -/
def Gang.pendingRegs (g : Gang) : List Nat :=
  (g.tileOps.filter fun o => decide (o.kind = .drainReg) && !o.done).flatMap fun o =>
    vCodes (o.params.getD 0 0) (Accept.drainRegs (BitVec.ofNat 4 (o.params.getD 1 0)))

/-! ## Swapping (05 R125, R126; 06 R157, R158) -/

/-- SWAP_ELIGIBLE: every strand blocked, the waits that count held for 2,048 cycles. -/
def execSwapEligible (gang : Nat) (s : State) : Host.Outcome State Fault Refusal :=
  onGang s gang fun g =>
    if g.active && s.blocked g && !g.eligible &&
        g.strands.all fun st => s.blockedNow g st || (st.blockedLong && decide (st.since + 2048 ≤ s.cycleOf g.core)) then
      s.setGang { g with eligible := true }
    else s

/-- A gang begins to leave its active slot: reservations and latches are lost. -/
def State.beginPark (s : State) (g : Gang) : State :=
  let g := g.clearReservations
  let s := { s with opLatch := s.opLatch.filter fun e => e.2.1 ≠ g.gid + 1 }
  s.setGang { g with parking := true, slices := g.slices.map fun sl => { sl with latValid := 0 } }

/-- SWAP_OUT: the eligible gang that has been blocked longest (R126 step 1). -/
def execSwapOut (gang : Nat) (s : State) : Host.Outcome State Fault Refusal :=
  onGang s gang fun g =>
    if s.crowded g && s.swappable g &&
        s.gangs.all fun x => !sameQuarter x g || !s.swappable x || decide (g.blockedSince ≤ x.blockedSince) then
      s.beginPark g
    else s

/-- FORCED_SWAP: the gang that has held its slot longest, at least 16,000 cycles while a parked gang was ready, outside
a latch hold (R126 step 2). -/
def execForcedSwap (gang : Nat) (s : State) : Host.Outcome State Fault Refusal :=
  onGang s gang fun g =>
    let now := s.cycleOf g.core
    let peers := s.gangs.filter fun x => sameQuarter x g
    let waited (x : Gang) : Bool := match x.readySince with
      | some t => decide (max t g.slotSince + 16000 ≤ now)
      | none => false
    if s.crowded g && g.active && !g.parking && !peers.any s.swappable && peers.any waited &&
        !(g.strands.any (s.holding g)) && peers.all fun x => !x.active || x.parking || decide (g.slotSince ≤ x.slotSince) then
      s.beginPark g
    else s

/-- A strand whose turn a firn error ends: the lowest of the gang, with the instruction it stands at (06 R160). -/
def State.firnFault (s : State) (g : Gang) (st? : Option Strand) (line : Nat) : State :=
  let st := ((st?.or (lowest g.strands)).getD Strand.none)
  let is : Issue := match s.peek g st with
    | some p => p.2
    | none => { gang := g.gid, slice := st.low, pc := st.pc, fall := st.pc, words := [] }
  ((s.fatalFault ⟨is, g, st⟩ 5 1 line).gangEnded g.gid).sweep

/-- The poisoned line among those that hold a gang's predicates, uniform registers and rimes (06 R158, R160). -/
def State.uniformPoisoned (s : State) (g : Gang) : Option Nat :=
  s.poisonedAt (g.frames.flatMap fun f => let b := s.frameAddr g.core f
    [b + 0x100] ++ (List.range 16).map (b + 0x1000 + 0x80 * ·) ++ (List.range 32).map (b + 0x2000 + 0x80 * ·))

/-- PARK_COMPLETE: the images written, after the drains that have still to write registers (06 R151), the slot and the rows
are free. -/
def execParkComplete (gang : Nat) (s : State) : Host.Outcome State Fault Refusal :=
  onGang s gang fun g =>
    if g.parking && g.pendingRegs.isEmpty then
      let s := s.parkImages g
      match s.gang? gang with
      | some g => s.setGang { g with active := false, parking := false, eligible := false }
      | none => s
    else s

/-- SWAP_IN: the parked gang that has been ready longest takes a slot; a firn error on what it reloads ends its grid. -/
def execSwapIn (gang : Nat) (s : State) : Host.Outcome State Fault Refusal :=
  onGang s gang fun g =>
    let first := s.gangs.all fun x => !sameQuarter x g || match x.readySince, g.readySince with
      | some a, some b => decide (b ≤ a)
      | _, _ => true
    if g.readySince.isSome && s.gangReady g && first && s.canEnter g then
      match if g.issues = 0 then none else s.uniformPoisoned g with
      | some line => s.firnFault g none line
      | none =>
        let s := s.unparkGang g
        match s.gang? gang with
        | some g => s.setGang { g.unstall with active := true, slot := s.freeSlot g, slotSince := s.cycleOf g.core, readySince := none }
        | none => s
    else s

/-! ## Spill and fill (06 R150 to R152, R160, R172) -/

/-- Strands that a spill or a fill holds up, with the registers their instructions name. -/
def State.stalls (s : State) (g : Gang) : List (List Nat) :=
  (g.strands.filter fun st => decide (st.wait = .spill)).filterMap fun st => (s.peek g st).map fun p =>
    (namesOf p.1 ++ writtenCodes g p.1).eraseDups

/-- SPILL_ACCEPTED: a register that PARK handed over, or the engine's choice for a strand that needs room; a spill begins
after every write to the register that has issued (R151). Strands that stall try again. -/
def execSpillAccepted (gang reg : Nat) (s : State) : Host.Outcome State Fault Refusal :=
  onGang s gang fun g =>
    let budget := (s.tmplOf g).budget
    let needs (names : List Nat) : Bool :=
      let out := names.filter g.spilled
      decide (g.victim names = some reg) && (out.isEmpty || !((out.foldl Gang.filled g).fits budget))
    if g.pendingRegs.contains reg then s
    else if g.parkQ.contains reg || (s.stalls g).any needs then (s.spillReg gang reg).unstall gang
    else s

/-- FILL_RETURN: a register that a stalled strand names comes back where it fits; an uncorrectable error ends the grid. -/
def execFillReturn (gang reg : Nat) (s : State) : Host.Outcome State Fault Refusal :=
  onGang s gang fun g =>
    let wants (st : Strand) : Bool := decide (st.wait = .spill) && (match s.peek g st with
      | some p => (namesOf p.1).contains reg || (writtenCodes g p.1).contains reg
      | none => false)
    if !g.spilled reg || !(g.strands.any wants) || !((g.filled reg).fits (s.tmplOf g).budget) then s
    else
      match s.firnPoisoned g reg with
      | some line => s.firnFault g (g.strands.find? wants) line
      | none => (s.fillReg gang reg).unstall gang

/-- UNPARK's fills, in increasing order, stopping at the first that does not fit (R172); where an uncorrectable error has
spoilt an image, its line (R160). -/
def State.unpark (s : State) (gid budget : Nat) : List Nat → State × Option Nat
  | [] => (s, none)
  | code :: l =>
    match s.gang? gid with
    | none => (s, none)
    | some g =>
      if !g.spilled code then s.unpark gid budget l
      else if !(g.filled code).fits budget then (s, none)
      else
        match s.firnPoisoned g code with
        | some line => (s, some line)
        | none => (s.fillReg gid code).unpark gid budget l

def execUnpark (r : BitVec 8) (cnt : BitVec 5) (s : State) : Host.Outcome State Fault Refusal :=
  instr s (fun c => c.parkOk s r cnt) [] [] fun c =>
    if c.gate then
      let u := (s.skip c).unpark c.g.gid (s.tmplOf c.g).budget (vCodes r.toNat (cnt.toNat + 1))
      match u.2 with
      | some line => ((u.1.fatalFault c 5 1 line).gangEnded c.g.gid).sweep
      | none => u.1.unstall c.g.gid
    else s.skip c

/-! ## Watchdog and empty-line timeout (17 R427, 09 R244) -/

/-- WATCHDOG_LIMIT: the count of a gang of a core with a limit has run over it; its waits end with no effect. -/
def execWatchdogLimit (gang : Nat) (s : State) : Host.Outcome State Fault Refusal :=
  onGang s gang fun g0 =>
    let limit := s.mg (Mgmt.wdlimit g0.core)
    if decide (limit ≠ 0) && decide (limit < g0.watchdog) && !g0.limitRaised && !g0.stopped then
      let s1 := s.withdraw gang
      let g := (s1.gang? gang).getD g0
      match lowest (g.strands.filter fun st => !st.held) with
      | some st =>
        let is : Issue := match s1.peek g st with
          | some p => p.2
          | none => { gang := gang, slice := st.low, pc := st.pc, fall := st.pc, words := [] }
        let c : Ctx := ⟨is, g, st⟩
        s1.gangFault c { g with limitRaised := true } (c.info 6 2 0 0) none none
      | none => s
    else s

/-! ## Accesses performed (11 R291, R292; 12 R307, R308) -/

/-- Whether an older access of the gang must be performed before access `a`: one that writes a byte of it, and before a
release every one but a store that the release need only put before itself in the instance of its own scope (R293, R295). -/
def Gang.blockedBy (g : Gang) (a : Access) : Bool :=
  (g.accesses.takeWhile fun x => x.id ≠ a.id).any fun x =>
    meets x.slices a.slices &&
      ((a.release && (decide (3 ≤ a.scope) || x.load || decide (a.scope < x.scope) || decide (x.counted ≠ 0))) ||
        a.writes.any fun w => x.writes.any fun v => decide (v.place = w.place))

def overlaps (a b : Access) : Bool := a.writes.any fun w => b.writes.any fun v => decide (v.place = w.place)

/-- What a release puts before itself: of a scope below the device's, its strand's earlier stores are read by its instance
from now on; any release first makes what narrower instances read reach every agent (R292, R295, R297). -/
def State.releaseBefore (s : State) (gid : Nat) (a : Access) : State :=
  if !a.release then s
  else
    let s := s.drainWhere fun _ x => decide (3 ≤ a.scope) || decide (x.seen.getD 0 < a.scope)
    match s.gang? gid with
    | none => s
    | some g =>
      let early (x : Access) : Bool := meets x.slices a.slices && !x.writes.isEmpty
      let before := (g.accesses.takeWhile fun x => x.id ≠ a.id).filter early
      let s := s.drainWhere fun h x => decide (h.gid ≠ gid) && before.any (overlaps x)
      match s.gang? gid with
      | none => s
      | some g =>
        let shown (x : Access) : Access :=
          if before.any fun y => decide (y.id = x.id) then { x with seen := some (max (x.seen.getD 0) a.scope) } else x
        s.setGang { g with accesses := g.accesses.map shown }

/-- ACCESS_PERFORMED: a load's value is fixed, or a store is performed; the path counters follow in issue order. What
another instance already reads of the bytes a store writes is performed first (R292). -/
def execAccessPerformed (gang id : Nat) (s : State) : Host.Outcome State Fault Refusal :=
  onGang s gang fun g =>
    match g.accesses.find? fun a => decide (a.id = id) with
    | none => s
    | some a =>
      if g.blockedBy a then s
      else
        let s := s.releaseBefore gang a
        let s := s.drainWhere fun h x => overlaps x a && !(decide (h.gid = gang) && decide (x.id = id))
        let s := s.performAccess gang a
        match s.gang? gang with
        | none => s
        | some g => s.setGang { g with accesses := g.accesses.filter fun x => x.id ≠ id }.retire

/-! ## Stacks deeper than the partition holds (04 R89, R92) -/

/-- A gang's stacks spread between the partition and its frames: entries that leave are written, entries that come back
are read, and an uncorrectable error on those ends the grid (06 R160). -/
def State.moveStack (before : State) (s : State) (g : Gang) : State :=
  let x := g.spread
  let old := ((before.gang? g.gid).getD g.noEntries)
  let bases := s.bases g
  if x = g ∧ old.strands = g.strands ∧ old.slices.map Slice.below = g.slices.map Slice.below then s
  else
    match s.poisonedAt ((Gang.movedIn old x bases).map fun e => e.1) with
    | some line => s.firnFault g none line
    | none => (s.setGang x).pokeFree (Gang.movedOut old x bases)

/-- Every gang's stacks after a move from `before`. -/
def State.moveStacks (before s : State) : State :=
  s.gangs.foldl (fun s g => match s.gang? g.gid with
    | some g => if g.released then s else State.moveStack before s g
    | none => s) s

end Sys2Proof.Machine
end

