-- ==== Sys2Proof/Machine/Pick.lean ====
section
/-! DEFINITION. A strand's issue of the instruction at its pc, whatever meaning the instruction is given: what may issue,
fetch, decode, registers out of reach, the effect, the record of the issue (02 R23 to R26, R42; 04 R88; 05 R122;
06 R150; 13 R342, R359; 14 R377). -/

namespace Sys2Proof.Machine

open Sys2Proof

/-! ## Registers and accesses that an instruction must wait for -/

/-- A drain under RSR has still to draw its words (03 R65; DEDUCED, log 47). -/
def Gang.drawsPending (g : Gang) : Bool :=
  g.tileOps.any fun o => !o.done &&
    ((decide (o.kind = .drainReg) && decide (o.params.getD 3 0 = 5) && decide (o.params.getD 1 0 ≠ 0)) ||
     (decide (o.kind = .drainScratch) && decide (o.params.getD 4 0 = 5) && decide (o.params.getD 3 0 ≠ 0)))

/-- The array register of a memory instruction. -/
def memArray : Instr → Option (BitVec 4)
  | .ld _ _ r _ | .st _ _ r _ | .atom _ _ _ r _ | .cas _ _ r _ | .ldx _ _ r _ | .stx _ _ _ r _ | .ldrc _ _ r _ | .strc _ _ _ r _ => some r
  | _ => none

/-- Instructions that are ordered after every addition of a HEAT: releases, engine commands, barriers (14 R377, 11 R300). -/
def isRelease : Instr → Bool
  | .st _ _ _ w | .strc _ _ _ _ w | .atom _ _ _ _ w | .cas _ _ _ w | .stx _ _ _ _ w => decide (3 ≤ w.order.toNat)
  | .femark l _ _ _ => decide (l = 1)
  | .cpy _ _ _ _ | .cpym _ _ _ _ _ | .kvcpy _ _ _ _ | .cpst _ _ | .frame _ _ _ | .sread _ _ _ | .gath _ _ _ _ _ | .gath2 _ _ _ _ _ _
  | .gath3 _ _ _ _ _ _ | .scat _ _ _ _ _ | .scata _ _ _ _ _ | .nzscan _ _ _ _ | .evsel _ _ _ _ | .coll _ _ | .ring _ => true
  | .bar _ _ | .bara _ _ | .cbar _ | .gbar | .launch _ _ _ | .sysc _ _ _ | .resample _ _ _ => true
  | _ => false

/-- Whether the instruction waits for HEAT additions of its gang: it is a release, or it accesses chip scratch. -/
def Gang.heatBlocks (g : Gang) (i : Instr) : Bool :=
  g.heatPending && (isRelease i || match memArray i with
    | some r => decide (field (g.areg r.toNat).toNat 87 85 = 3)
    | none => false)

/-- Whether the instruction names a register that a drain has still to write. -/
def Gang.scoreboard (g : Gang) (i : Instr) : Bool :=
  !g.pendingRegs.isEmpty && (match i with
    | .resample _ _ _ => true
    | i => (namesOf i ++ writtenCodes g i).any g.pendingRegs.contains)

/-! ## What an issue came to -/

/-- Waits in which an instruction has had no effect and issues again (DESIGN CHOICE, log 84). -/
def Wait.restarts : Wait → Bool
  | .paths | .children | .fence | .empty | .accept | .remote | .lost | .homeReset | .other | .spill => true
  | _ => false

/-- Whether the strand only began or went on waiting. -/
def Strand.stalledAt (before after : Strand) : Bool :=
  decide (after.pc = before.pc) &&
    (after.wait.restarts || (decide (before.wait ≠ .none) && decide (before.wait ≠ .met) && decide (after.wait = before.wait)))

/-- A strand held up by a spill or a fill (06 R150). -/
def State.spillStall (s : State) (g : Gang) (st : Strand) : State :=
  s.put g { st with wait := .spill, since := s.cycleOf g.core }

/-- The state after an issue: a write-back that the row budget does not hold is undone and the strand stalls. -/
def State.settleIssue (before after : State) (g : Gang) (st : Strand) (is : Issue) (i : Instr) (line : List W32) : State :=
  match after.gang? g.gid with
  | none => after
  | some x =>
    if x.active && !x.fits (after.tmplOf x).budget && g.fits (before.tmplOf g).budget then before.spillStall ((before.gang? g.gid).getD g) st
    else
      let noted := (after.noteIssue g st is i line).noteBeat g st (before.goesFirst g st)
      match x.strands.find? fun y => decide (y.slices = st.slices) with
      | some y => if st.stalledAt y then after else noted
      | none => noted

/-- The words of a cached line as the issuing gang sees them. -/
def State.lineWords (s : State) (g : Gang) (pc : Nat) : List W32 :=
  match s.fetchLine g (pc / 128 * 128) with
  | .ok (_, ws) => ws
  | .error _ => []

/-- Instructions that neither write memory at their issue nor read it but as their own scope instances do: register forms,
branches, LD and ST. Before any other the stores that only some instance reads are performed for all (11 R292, R297). -/
def quiet (i : Instr) : Bool :=
  match i with
  | .ld _ _ _ _ | .st _ _ _ _ => true
  | i => match i.raw with
    | some r => let op := r.op.toNat; decide (op < 0x05) || (decide (0x10 ≤ op ∧ op < 0x7C) && decide (op ≠ 0x1A) && decide (op ≠ 0x1C))
    | none => false

/-- The strand of gang `gid` that holds `slice` issues the instruction at its pc; `ok` gives the instruction its
meaning, none where this issue is not the one asked for. -/
def State.issueWith (s : State) (gid slice : Nat) (ok : Instr → Option (State → Host.Outcome State Fault Refusal)) :
    Host.Outcome State Fault Refusal :=
  match s.gang? gid with
  | none => .next s
  | some g =>
    match g.strand? slice with
    | none => .next s
    | some st =>
      if !s.mayIssue g st then .next s
      else
        let blank : Issue := { gang := gid, slice := slice, pc := st.pc, fall := st.pc, words := [] }
        match s.fetch g st.pc with
        | (s1, .fault f) =>
          let c : Ctx := ⟨blank, g, st⟩
          .next (s1.gangFault c g (c.failInfo f) none none)
        | (s1, .badLine line) =>
          .next (s1.userTrap ⟨{ blank with pc := line }, g, st⟩ g { cause := 12, tmask := 0, taddr := line })
        | (s1, .ok words fall) =>
          let is : Issue := { blank with fall := fall, words := words }
          match decode words with
          | .error _ => .next (s1.encoding ⟨is, g, st⟩)
          | .ok i =>
            match ok i with
            | none => .next s
            | some k =>
              if !(g.missing i).isEmpty then .next (s1.spillStall g st)
              else if s1.readsSpoilt g i then
                let c : Ctx := ⟨is, g, st⟩
                .next (s1.gangFault c g (c.info 5 0 0 0) none none)
              else if g.scoreboard i || g.drawsPending || g.heatBlocks i then .next (s1.block ⟨is, g, st⟩ g .other)
              else
                let s1 := if quiet i then s1 else s1.drainSeen
                match k { s1 with issue := some is } with
                | .next s2 =>
                  let s3 := State.settleIssue s1 s2 g st is i (s1.lineWords g st.pc)
                  .next (({ s3 with issue := none }).trimNear g.core)
                | r => r

/-- EMPTY_TIMEOUT: a load stalled on an empty line for 2^24 cycles raises its trap (09 R244). -/
def execEmptyTimeout (gang slice : Nat) (s : State) : Host.Outcome State Fault Refusal :=
  match (s.gang? gang).bind fun g => (g.strand? slice).map fun st => (g, st) with
  | none => .next s
  | some (g, st) =>
    if st.wait = .empty ∧ s.emptyOver g st = true then
      s.issueWith gang slice fun i => match i with
        | .ld d a arr w => some (execLd d a arr w)
        | .ldx d a arr w => some (execLdx d a arr w)
        | _ => none
    else .next s

end Sys2Proof.Machine
end

