-- ==== Sys2Proof/Machine/GangWide.lean ====
section
/-! DEFINITION. The gang-wide operations SHFL, VOTE, GRED, GSCAN and BCAST (08 R224 to R229, 03 R77). -/

namespace Sys2Proof.Machine

open Sys2Proof
open Fp

/-- Thread number t of the gang or pair as slice and lane (08). -/
def slotOf (t : Nat) : Nat × Nat := (t / 4, t % 4)

/-- Threads that exist in the gang or pair, and the size of its numbering (08 R225, R229). -/
def Ctx.nthreads (c : Ctx) : Nat := 4 * c.g.slices.length
def Ctx.numbering (c : Ctx) : Nat := if c.nthreads = 64 then 64 else 32

def Ctx.liveT (c : Ctx) (t : Nat) : Bool := decide (t < c.nthreads) && (c.g.thread (t / 4) (t % 4)).live
def Ctx.activeT (c : Ctx) (t : Nat) : Bool :=
  decide (t < c.nthreads) && c.st.slices.contains (t / 4) && c.active (t / 4) (t % 4)

/-- Bit t of MASK names thread t, and t + 32 in a pair (08 R224). -/
def named (ctl : W64) (t : Nat) : Bool := ctl.getLsbD (t % 32)

def ctlFunc (ctl : W64) : Nat := (bitsAt 32 4 ctl).toNat
def ctlArg (ctl : W64) : Nat := (bitsAt 40 6 ctl).toNat
def ctlExcl (ctl : W64) : Bool := ctl.getLsbD 36

/-- The threads that break the member rule (08 R225). -/
def Ctx.badMembers (c : Ctx) (ctl : W64) : List Nat :=
  (List.range c.nthreads).filter fun t =>
    (c.activeT t && !named ctl t) || (named ctl t && c.liveT t && !c.activeT t)

def maskOfT (l : List Nat) : Nat := l.foldl (fun m t => m ||| 2 ^ t) 0

/-- The results of a gang-wide operation delivered: exact hull for x, the uniform result zero-extended for s
(08 R224, DEDUCED, log 12). -/
def State.deliverGang (s : State) (c : Ctx) (d : Dst) (rs : List ((Nat × Nat) × LaneRes)) (uniform : Nat) : State :=
  match d with
  | .s n =>
    s.deliver c false rs fun g w =>
      if rs.any fun r => (w r.1.1 r.1.2).isSome then g.setS n.toNat (w64 uniform) (exact64 (w64 uniform)) else g
  | d => s.deliver c (dstShifts d) rs fun g w => g.writeVX c.st.slices d w (writtenHull w)

/-- The common form: control value, FUNC limit, destination; MEMBER with the control value in TADDR (08 R224, R225). -/
def gangWide (s : State) (funcs : Nat) (dOk : W64 → Bool) (extra : Ctx → W64 → Bool) (d : Dst) (a b : Src)
    (more : Ctx → W64 → List Nat) (k : Ctx → W64 → State) : Host.Outcome State Fault Refusal :=
  instr s (fun c =>
      let ctl := c.val64 s b
      Accept.gang a b && decide (ctlFunc ctl < funcs) && dOk ctl && extra c ctl) [d] [a] fun c =>
    let ctl := c.val64 s b
    let bad := c.badMembers ctl ++ more c ctl
    if bad.isEmpty then k c ctl
    else s.userTrap c c.g { cause := 5, tmask := maskOfT bad, taddr := ctl.toNat }

def Ctx.valT (s : State) (c : Ctx) (a : Src) (t : Nat) : W32 := c.val s a (t / 4) (t % 4)

/-- SHFL (08 R226). -/
def execShfl (d : Dst) (a b : Src) (s : State) : Host.Outcome State Fault Refusal :=
  gangWide s 4 (fun ctl => if ctlFunc ctl = 0 then Accept.dstVXonly d else Accept.dstVX d) (fun _ _ => true) d a b
    (fun _ _ => []) fun c ctl =>
    let src (t : Nat) : Option Nat :=
      let dl := ctlArg ctl
      match ctlFunc ctl with
      | 0 => some ((c.valT s (dstAsSrc d) t).toNat % c.numbering)
      | 1 => if dl ≤ t then some (t - dl) else none
      | 2 => some (t + dl)
      | _ => some (xorNat t dl)
    let rs := c.compute fun k j =>
      let t := 4 * k + j
      let v := match src t with
        | some u => if c.activeT u then c.valT s a u else c.valT s a t
        | none => c.valT s a t
      { val := v, flags := 0, draws := 0 }
    s.deliverGang c d rs 0

/-- VOTE (08 R227). -/
def execVote (d : Dst) (a b : Src) (s : State) : Host.Outcome State Fault Refusal :=
  gangWide s 4 (fun _ => true) (fun _ _ => true) d a b (fun _ _ => []) fun c ctl =>
    let members := (List.range c.nthreads).filter c.activeT
    let yes := members.filter fun t => decide (c.valT s a t ≠ 0)
    let v : Nat :=
      match ctlFunc ctl with
      | 0 => b2n (!yes.isEmpty)
      | 1 => b2n (decide (yes.length = members.length))
      | 2 => maskOfT yes
      | _ => yes.length
    let rs := c.compute fun k _ =>
      { val := BitVec.ofNat 32 (if ctlFunc ctl = 2 ∧ 8 ≤ k then v / 2 ^ 32 else v), flags := 0, draws := 0 }
    s.deliverGang c d rs v

/-! ## The reduction tree (03 R77, 08 R228) -/

/-- The identity of an operator on one element. -/
def redIdent (func : Nat) : Elem → Nat
  | .flt f =>
    match func with
    | 0 => f.signBit true
    | 1 => if f.hasInf then f.maxMag + 1 else f.maxMag
    | 2 => f.signBit true + (if f.hasInf then f.maxMag + 1 else f.maxMag)
    | 3 => 2 ^ f.width - 1
    | _ => 0
  | .int t =>
    match func with
    | 0 => 0
    | 1 => wrapTo t.w t.hi
    | 2 => wrapTo t.w t.lo
    | 3 => 2 ^ t.w - 1
    | _ => 0

/-- One node on one element: operator applied and rounded once; RSR acts as RNE. -/
def redElem (func rnd : Nat) (sat ftz : Bool) (e : Elem) (a b : Nat) : Nat × Flags :=
  match func, e with
  | 3, _ => (a &&& b, 0)
  | 4, _ => (a ||| b, 0)
  | 5, _ => (xorNat a b, 0)
  | 0, .flt f =>
    let r := if rnd = 5 then 0 else rnd
    let (x, fl) := exAdd r (f.decode ftz a) (f.decode ftz b)
    let (v, fl') := Fp.deliver f r 0 sat ftz x
    (v, fl ||| fl')
  | 1, .flt f => minMax f false ftz a b
  | _, .flt f => minMax f true ftz a b
  | 0, .int t => (t.fit sat (t.value a + t.value b), 0)
  | 1, .int t => (t.fit sat (min (t.value a) (t.value b)), 0)
  | _, .int t => (t.fit sat (max (t.value a) (t.value b)), 0)

/-- One node on register images with the flags so far. -/
def redNode (func rnd : Nat) (sat ftz : Bool) (e : Elem) (n : Nat) (x y : W32 × Flags) : W32 × Flags :=
  let rs := (List.range n).map fun i => (i, redElem func rnd sat ftz e (elemAt e.width x.1 i) (elemAt e.width y.1 i))
  (BitVec.ofNat 32 (rs.foldl (fun a r => a + r.2.1 % 2 ^ e.width * 2 ^ (e.width * r.1)) 0),
    rs.foldl (fun a r => a ||| r.2.2) (x.2 ||| y.2))

def pairUp {α : Type} (f : α → α → α) : List α → List α
  | a :: b :: l => f a b :: pairUp f l
  | l => l

/-- The balanced tree over a power of two of leaves (03 R77). -/
def redTree {α : Type} (f : α → α → α) : Nat → List α → List α
  | 0, l => l
  | n + 1, l => redTree f n (pairUp f l)

/-- The tree's value over the leaves that `keep` admits, the others replaced by the identity. -/
def Ctx.reduce (s : State) (c : Ctx) (func : Nat) (a : Src) (keep : Nat → Bool) : W32 × Flags :=
  let (e, n) := typeElem c.ty
  let idw := BitVec.ofNat 32 ((List.range n).foldl (fun x i => x + redIdent func e * 2 ^ (e.width * i)) 0)
  let leaves := (List.range c.nthreads).map fun t =>
    ((if c.activeT t && keep t then c.valT s a t else idw, 0) : W32 × Flags)
  (redTree (redNode func c.rnd c.sat c.ftz e n) 6 leaves).headD (idw, 0)

/-- GRED: every member receives the reduction; every node's flags count for every receiver (08 R223, R228). -/
def execGred (d : Dst) (a b : Src) (s : State) : Host.Outcome State Fault Refusal :=
  gangWide s 6 (fun _ => true) (fun _ _ => true) d a b (fun _ _ => []) fun c ctl =>
    let r := c.reduce s (ctlFunc ctl) a fun _ => true
    let rs := c.compute fun _ _ => { val := r.1, flags := r.2, draws := 0 }
    s.deliverGang c d rs r.1.toNat

/-- GSCAN: thread i gets the tree with the leaves above it replaced, its own too under EXCL (08 R228). -/
def execGscan (d : Dst) (a b : Src) (s : State) : Host.Outcome State Fault Refusal :=
  gangWide s 6 (fun _ => Accept.dstVX d) (fun _ _ => true) d a b (fun _ _ => []) fun c ctl =>
    let rs := c.compute fun k j =>
      let t := 4 * k + j
      let r := c.reduce s (ctlFunc ctl) a fun u => if ctlExcl ctl then decide (u < t) else decide (u ≤ t)
      { val := r.1, flags := r.2, draws := 0 }
    s.deliverGang c d rs 0

/-- BCAST: every member gets SRC's value; 0 when SRC has exited or does not exist (08 R229). -/
def execBcast (d : Dst) (a b : Src) (s : State) : Host.Outcome State Fault Refusal :=
  gangWide s 1 (fun _ => true) (fun c ctl => decide (ctlArg ctl < c.numbering)) d a b
    (fun c ctl =>
      let t := ctlArg ctl
      if c.liveT t && !(c.activeT t && named ctl t) then [t] else []) fun c ctl =>
    let t := ctlArg ctl
    let v : W32 := if c.activeT t then c.valT s a t else 0
    let rs := c.compute fun _ _ => { val := v, flags := 0, draws := 0 }
    s.deliverGang c d rs v.toNat

end Sys2Proof.Machine
end

