-- ==== Sys2Proof/Machine/Gather.lean ====
section
/-! DEFINITION. The gather units and the scan unit: GATH, GATH2, GATH3, SCAT, SCATA and NZSCAN (15 R379 to R392). -/

namespace Sys2Proof.Machine

open Sys2Proof

/-! ## Waiting for full lines (R382 step 5) -/

/-- A range of a space: space, first byte, length. -/
abbrev Span := Nat × Nat × Nat

/-- The first line of the spans that is empty, by its byte offset. -/
def State.firstEmpty (s : State) (g : Gang) (spans : List Span) : Option Nat :=
  spans.findSome? fun x => if armedSpace x.1 then
      (linesIn x.2.1 x.2.2).findSome? fun l => if s.lineF (s.localPlace g x.1 (128 * l)) then none else some (128 * l)
    else none

/-- The lines of the spans that are empty. -/
def State.emptyLines (s : State) (g : Gang) (spans : List Span) : List Place :=
  spans.flatMap fun x => if armedSpace x.1 then
      ((linesIn x.2.1 x.2.2).map fun l => s.localPlace g x.1 (128 * l)).filter fun p => !s.lineF p
    else []

/-- The stall on empty lines that a command makes before it is accepted, with its time-out (R342, R382). -/
def emptyWait (s : State) (c : Ctx) (spans : List Span) (k : State) : State :=
  match s.firstEmpty c.g spans with
  | none => k
  | some a =>
    if s.emptyOver c.g c.st then
      s.userTrap c c.g { cause := 7, tmask := 0, taddr := a }
    else s.blockEmpty c c.g (s.emptyLines c.g spans)

/-! ## What a gather-family command holds (R379, R380) -/

/-- Row size, list form, list, scratch rows, format, and the arrays of the levels, the table last. -/
structure Gath where
  row : Nat
  list : Bool
  lspace : Nat
  laddr : Nat
  nmax : Nat
  rspace : Nat
  raddr : Nat
  fmt : Nat
  levels : List Arr

def Gath.params (x : Gath) (images : List Nat) : List Nat :=
  [x.row, b2n x.list, x.lspace, x.laddr, x.nmax, x.rspace, x.raddr, x.fmt] ++ images

def gathOf (p : List Nat) : Gath :=
  { row := p.getD 0 0, list := decide (p.getD 1 0 = 1), lspace := p.getD 2 0, laddr := p.getD 3 0, nmax := p.getD 4 0
    rspace := p.getD 5 0, raddr := p.getD 6 0, fmt := p.getD 7 0, levels := (p.drop 8).map fun n => arrOf (BitVec.ofNat 128 n) }

/-- Bytes of a space read now. -/
def State.readSpace (s : State) (g : Gang) (space addr n : Nat) : State × Except Fail (List Byte) :=
  let src := s.srcBytes g space addr n
  match s.pieces g src with
  | (s', .error f) => (s', .error f)
  | (s', .ok pas) => (s', .ok (src.map fun b => (s'.resolve pas [] b).getD 0))

inductive Lookup where
  | addr (a : Nat)
  | offends (level : Nat) (j : Int) (trap : Bool)

/-- Whether value j offends at a level: `w` elements of the array at j·w (R380). -/
def offendsAt (a : Arr) (w : Nat) (j : Int) : Bool := decide (j < 0) || decide ((a.extent : Int) < (j + 1) * (w : Nat))

/-- An entry taken through the levels from number `k` on (R380, R385). -/
def State.lookup (s : State) (g : Gang) (row : Nat) : Nat → List Arr → Int → State × Except Fail Lookup
  | k, [], j => (s, .ok (.offends k j false))
  | k, [t], j =>
    if offendsAt t (2 ^ (row - t.logsz)) j then (s, .ok (.offends k j t.trap)) else (s, .ok (.addr (t.base + j.toNat * 2 ^ row)))
  | k, a :: rest, j =>
    if offendsAt a 1 j then (s, .ok (.offends k j a.trap))
    else
      match s.readSpace g a.space (a.base + 4 * j.toNat) 4 with
      | (s', .error f) => (s', .error f)
      | (s', .ok bs) => s'.lookup g row (k + 1) rest (sintOf 32 (ofLe bs))

/-- Status 5 with its lowest entry (R385). -/
def Cmd.bound (k : Cmd) (i level : Nat) (j : Int) : Cmd :=
  let st : Status := { code := 5, reason := 0, addr := wrapTo 64 j, shown := wrapTo 64 j, topa := level * 2 ^ 32 + i }
  match k.bounded with
  | none => { k with bounded := some st }
  | some x => if i < x.topa % 2 ^ 32 then { k with bounded := some st } else k

/-- The number of the entry that row r holds: the thread in register form, the list position in list form. -/
def Cmd.entryNo (k : Cmd) (x : Gath) (r : Nat) : Nat := if x.list then r else ((k.entries[r]?).map fun e => e.1).getD 0

def zeroRow (x : Gath) : RowState := .done (List.replicate (2 ^ x.row) 0)

/-- The space of the table. -/
def Gath.tspace (x : Gath) : Nat :=
  match x.levels.getLast? with
  | some t => t.space
  | none => 4

/-- A row of a gather read now: its entry looked up and the table row read; a fault zeroes every row not read (R386). -/
def State.readRow (s : State) (g : Gang) (k : Cmd) (x : Gath) (r : Nat) : State × Cmd :=
  let put (k : Cmd) (v : RowState) : Cmd := { k with rows := modifyAt (fun _ => v) r k.rows }
  let zero (v : RowState) : RowState := match v with
    | .entry _ => zeroRow x
    | v => v
  let fail (f : Fail) : Cmd := { k with fault := some f.toStatus, rows := k.rows.map zero }
  match k.rows[r]? with
  | some (.entry j) =>
    match s.lookup g x.row 1 x.levels j with
    | (s1, .error f) => (s1, fail f)
    | (s1, .ok (.offends level v trap)) => (s1, put (if trap then k.bound (k.entryNo x r) level v else k) (zeroRow x))
    | (s1, .ok (.addr a)) =>
      match s1.readSpace g x.tspace a (2 ^ x.row) with
      | (s2, .error f) => (s2, fail f)
      | (s2, .ok bs) => (s2, put k (.done bs))
  | _ => (s, k)

/-- The rows that a line takes bytes of. -/
def Landing.rowsOf (l : Landing) : List Nat :=
  (l.bytes.filterMap fun b => match b with
    | .row r _ => some r
    | _ => none).eraseDups

/-- Entries that a list's header allows (R379). -/
def Gath.count (x : Gath) (header : List Byte) : Nat := min (ofLe header) x.nmax

/-- The list's entries as it stands: list position and value (R379). -/
def State.listEntries (s : State) (g : Gang) (x : Gath) : Except Fail (List (Nat × Int)) :=
  match (s.readSpace g x.lspace x.laddr 4).2 with
  | .error f => .error f
  | .ok h =>
    match (s.readSpace g x.lspace (x.laddr + 4) (4 * x.count h)).2 with
    | .error f => .error f
    | .ok bs => .ok ((List.range (x.count h)).map fun i => (i, sintOf 32 (ofLe ((bs.drop (4 * i)).take 4))))

/-- The lists read: rows of a gather; lines of a scatter, one set for each entry of a scatter-add (R387, R389, R390). A
list that cannot be read is the command's fault: a gather's rows are all zeros (R386). -/
def State.buildGath (s : State) (g : Gang) (k : Cmd) : State × Cmd :=
  let x := gathOf k.params
  match if x.list then s.listEntries g x else .ok k.entries with
  | .error f =>
    (s, { k with built := true, fault := some f.toStatus, rows := if k.kind = .gath then List.replicate x.nmax (zeroRow x) else [] })
  | .ok es =>
    if k.kind = .gath then
      let rows := es.map fun e => RowState.entry e.2
      (s, { k with built := true, rows := rows ++ List.replicate ((if x.list then x.nmax else es.length) - rows.length) (zeroRow x) })
    else
      let table := x.levels.getLast?.getD (arrOf 0)
      let r := es.foldl (fun (a : State × Cmd × List Run) e =>
        match a.1.lookup g x.row 1 x.levels e.2 with
        | (s1, .ok (.addr d)) =>
          (s1, a.2.1, a.2.2 ++ [{ dst := d, src := s.srcBytes g x.rspace (x.raddr + e.1 * 2 ^ x.row) (2 ^ x.row) }])
        | (s1, .ok (.offends level j true)) => (s1, a.2.1.bound e.1 level j, a.2.2)
        | (s1, _) => (s1, a.2)) (s, k, [])
      let place := s.linePlace g table.space
      let lines := if k.kind = .scat then mkLines place false none 0 r.1.free r.2.2
        else r.2.2.foldl (fun l x => l ++ mkLines place false none l.length 0 [x]) []
      ({ r.1 with free := r.1.free + 128 * lines.length }, { r.2.1 with built := true, lines := lines })

/-! ## The contexts of the gather units (R392; 10 R257) -/

/-- The gather commands of a gang that have reached a slice and are not complete. -/
def State.gatherCmds (s : State) (x : GatherCtx) : List Nat :=
  match s.anyGang? x.gang with
  | some g => x.cmds.filter fun id => g.cmds.any fun k => decide (k.id = id) && !k.finished
  | none => []

/-- A slice's contexts that are open, and the gangs that wait there. -/
def State.gatherHere (s : State) (slice : Nat) : List GatherCtx :=
  s.gathers.filter fun x => decide (x.slice = slice) && (x.behind.isSome || !(s.gatherCmds x).isEmpty)

/-- The gang whose context must drain before work of gang `gid` is taken at the slice. -/
def State.gatherBehind (s : State) (slice gid : Nat) : Option Nat :=
  let here := s.gatherHere slice
  let open' := here.filter fun x => x.behind.isNone
  let mine := here.find? fun x => decide (x.gang = gid)
  if open'.any fun x => decide (x.gang = gid) then none
  else
    match (mine.bind fun x => x.behind).filter fun b => open'.any fun x => decide (x.gang = b) with
    | some b => some b
    | none =>
      match open' with
      | a :: _ :: _ => some a.gang
      | _ => none

/-- Work of a command arrives at a slice: it takes a context or waits for one. Contexts stand in the order they opened. -/
def State.reachSlice (s : State) (gid cmd slice : Nat) : State :=
  let b := s.gatherBehind slice gid
  let mine := s.gathers.find? fun x => decide (x.slice = slice) && decide (x.gang = gid) && decide (x.behind = b)
  let cmds : List Nat := match mine with
    | some y => if y.cmds.contains cmd then y.cmds else y.cmds ++ [cmd]
    | none => [cmd]
  let x : GatherCtx := { slice := slice, gang := gid, cmds := cmds, behind := b }
  let others := s.gathers.filter fun y => y.slice ≠ slice ∨ (y.gang ≠ gid ∧ (s.gatherHere slice).contains y = true)
  match mine with
  | some y => { s with gathers := s.gathers.map fun z => if z = y then x else z }
  | none => { s with gathers := others ++ [x] }

/-- The slices that serve what a line of a gather-family command needs: those of the table rows it reads or writes in
device memory. -/
def State.slicesFor (s : State) (g : Gang) (k : Cmd) (l : Landing) : List Nat :=
  let x := gathOf k.params
  let asid := (s.tmplOf g).asid
  let home (va : Nat) : Option Nat := ((s.paOf asid va).filter fun p => decide (p < Config.localHbm)).map homeSlice
  if x.tspace ≠ 4 then []
  else if k.kind = .gath then
    (l.rowsOf.filterMap fun r =>
      match k.rows[r]? with
      | some (RowState.entry j) =>
        (match (s.lookup g x.row 1 x.levels j).2 with
         | .ok (.addr a) => home a
         | _ => none)
      | _ => none).eraseDups
  else (l.virt.bind home).toList

def CmdKind.gathers : CmdKind → Bool
  | .gath | .scat | .scata => true
  | _ => false

/-- The gather units take up what a line needs; whether each has a context for it. -/
def State.gatherTurn (s : State) (g : Gang) (k : Cmd) (l : Landing) : State × Bool :=
  if !k.kind.gathers then (s, true)
  else
    let slices := s.slicesFor g k l
    let s := slices.foldl (fun s x => s.reachSlice g.gid k.id x) s
    (s, slices.all fun x => (s.gatherBehind x g.gid).isNone)

/-! ## The instructions' checks and acceptance (R381, R382, R384) -/

/-- The spans of a list, then, once its lines are full, the source rows of the entries it has: all that a command reads
before acceptance waits for (R382 step 5). -/
def State.rowSpans (s : State) (c : Ctx) (x : Gath) (pos : List Nat) : List Span :=
  let list : List Span := [(x.lspace, x.laddr, 4 * (x.nmax + 1))]
  let rows (l : List Nat) : List Span := l.map fun r => (x.rspace, x.raddr + r * 2 ^ x.row, 2 ^ x.row)
  if !x.list then rows pos
  else if (s.firstEmpty c.g list).isSome then list
  else
    match ((s.flush c.g.gid (List.range c.g.slices.length)).readSpace c.g x.lspace x.laddr 4).2 with
    | .ok h => list ++ rows (List.range (x.count h))
    | .error _ => list

/-- The checks of R382, steps 2 to 5, and acceptance. `levels` holds the numbers of the index arrays and the table (DEDUCED, log 55) (DEDUCED, log 56) (DEDUCED, log 57). -/
def gather (s : State) (c : Ctx) (kind : CmdKind) (a : Src) (levels : List (BitVec 4)) (rarr larr : BitVec 4) (w : CmdWord) : State :=
  let row := w.xtra.toNat % 16
  let rb : Nat := 2 ^ row
  let scat := decide (kind ≠ .gath)
  let isList := match a with
    | .x _ => false
    | _ => true
  let arrs := levels.map c.arr
  let t := arrs.getLast?.getD (arrOf 0)
  let ix := arrs.dropLast
  let ra := c.arr rarr
  let la := c.arr larr
  let named := arrs ++ [ra] ++ (if isList then [la] else [])
  let nmax : Nat := if isList then (c.val64 s a).toNat else 0
  let roff := c.offset w.doff
  let rbase := ra.at roff
  let nrows : Nat := if isList then nmax else if 8 < c.g.slices.length then 64 else 32
  match named.find? fun x => x.misaligned || !(s.regionOk c.g x) with
  | some x => alignCmd s c x.base
  | none =>
    if ix.any (fun x => decide (x.logsz ≠ 2)) || (isList && decide (la.logsz ≠ 2)) || decide (row < t.logsz) ||
        decide (row < ra.logsz) || decide (t.base % min rb 128 ≠ 0) || decide ((2 ^ ra.logsz : Nat) * roff % (min rb 16 : Nat) ≠ 0) then
      alignCmd s c c.is.pc
    else if 65536 < nmax then copyRange s c (nmax : Int)
    else
      let tables := (arrs.map fun x => (x.base, s.rangeBad c.g x 0 0 (scat && decide (x = t)) [3, 4]))
      let rows := [(wrapTo 64 rbase, s.rangeBad c.g ra roff (nrows * rb) (!scat) [1, 2])]
      let lists := if isList then
          [(wrapTo 64 (la.at (c.offset w.soff)), s.rangeBad c.g la (c.offset w.soff) (4 * (nmax + 1)) false [1, 2])] else []
      match (if scat then tables ++ rows ++ lists else rows ++ lists ++ tables).find? fun x => x.2 with
      | some x => copyRange s c (x.1 : Int)
      | none =>
        let entries := if isList then [] else c.activeLanes.map fun kj => (4 * kj.1 + kj.2, (c.val s a kj.1 kj.2).toInt)
        let a1 := arrs.headD t
        let w1 := if ix.isEmpty then 2 ^ (row - t.logsz) else 1
        let checked := !isList && (match c.hull s a 0 with
          | .iv lo hi => !(decide (0 ≤ lo) && decide ((hi + 1) * (w1 : Nat) ≤ (a1.extent : Int)))
          | .top => true)
        let off := if checked then c.activeLanes.filter fun kj => offendsAt a1 w1 (c.val s a kj.1 kj.2).toInt else []
        match a1.trap, off with
        | true, kj :: _ => s.userTrap c c.g { cause := 3, tmask := maskOf off, taddr := wrapTo 64 (c.val s a kj.1 kj.2).toInt }
        | _, _ =>
          let pos := if isList then List.range nmax else entries.map fun e => e.1
          let x : Gath := { row := row, list := isList, lspace := la.space, laddr := (la.at (c.offset w.soff)).toNat, nmax := nmax
                            rspace := ra.space, raddr := rbase.toNat, fmt := w.xtra.toNat / 16, levels := arrs }
          let spans := if scat then s.rowSpans c x pos else if isList then [(x.lspace, x.laddr, 4 * (nmax + 1))] else []
          emptyWait s c spans
            (let runs := if scat then [] else mapI (fun i r => { dst := rbase.toNat + r * rb, src := (List.range rb).map (ByteSrc.row i) : Run }) 0 pos
             let lines := mkLines (s.linePlace c.g ra.space) true (c.lc w) 0 0 runs
             let images := levels.map fun n => (c.g.areg n.toNat).toNat
             let cmd := { Cmd.offer c kind .gx w lines with
               params := x.params images, entries := entries, built := decide (pos = []) }
             s.accept c cmd fun s c => s.done c (if checked then c.g.writeP6 c a1 off else c.g))

/-- A register-form operand lies within XREGS (R381). -/
def Ctx.xSrcOk (s : State) (c : Ctx) (a : Src) : Bool := c.srcOk s a

def execGath (tarr : BitVec 4) (a : Src) (darr larr : BitVec 4) (w : CmdWord) (s : State) : Host.Outcome State Fault Refusal :=
  instr s (fun _ => Accept.gath a larr w) [] [a] fun c =>
    if c.gate then gather s c .gath a [tarr] darr larr w else s.skip c

def execGath2 (tarr iarr : BitVec 4) (a : Src) (darr larr : BitVec 4) (w : CmdWord) (s : State) :
    Host.Outcome State Fault Refusal :=
  instr s (fun _ => Accept.gath a larr w) [] [a] fun c =>
    if c.gate then gather s c .gath a [iarr, tarr] darr larr w else s.skip c

/-- GATH3: level 1 is the index array that XTRA bits 7:4 name (R380, R381). -/
def execGath3 (tarr iarr : BitVec 4) (a : Src) (darr larr : BitVec 4) (w : CmdWord) (s : State) :
    Host.Outcome State Fault Refusal :=
  instr s (fun _ => Accept.gath3 a larr w) [] [a] fun c =>
    if c.gate then gather s c .gath a [bitsAt 4 4 w.xtra, iarr, tarr] darr larr w else s.skip c

def execScat (tarr : BitVec 4) (a : Src) (sarr larr : BitVec 4) (w : CmdWord) (s : State) : Host.Outcome State Fault Refusal :=
  instr s (fun _ => Accept.scat a larr w) [] [a] fun c =>
    if c.gate then gather s c .scat a [tarr] sarr larr w else s.skip c

def execScata (tarr : BitVec 4) (a : Src) (sarr larr : BitVec 4) (w : CmdWord) (s : State) : Host.Outcome State Fault Refusal :=
  instr s (fun _ => Accept.scata a larr w) [] [a] fun c =>
    if c.gate then gather s c .scata a [tarr] sarr larr w else s.skip c

/-- SCATA's addition of one 4-byte word (R390). -/
def scataWord (fmt old v : Nat) : Nat := atomFunc (if fmt = 0 then 11 else 12) 4 old v

/-! ## NZSCAN (R391) -/

/-- The list that NZSCAN writes for the bytes of its vector: count, indices of nonzero elements, then all ones (DEDUCED, log 52). -/
def scanList (es n : Nat) (float : Bool) (bs : List Byte) : List Byte :=
  let word (k : Nat) : Nat := ofLe ((bs.drop (es * k)).take es)
  let hit (k : Nat) : Bool := decide ((if float then word k % 2 ^ (8 * es - 1) else word k) ≠ 0)
  let idx := (List.range n).filter hit
  (leBytes 4 idx.length ++ idx.flatMap (leBytes 4)) ++ List.replicate (4 * (n - idx.length)) 0xFF

/-- The vector read and its list; where it cannot be read the list is written as zeros (R386). -/
def State.scan (s : State) (g : Gang) (k : Cmd) : State × Cmd :=
  let p (i : Nat) : Nat := k.params.getD i 0
  match s.readSpace g (p 0) (p 1) (p 2 * p 3) with
  | (s1, .error f) => (s1, { k with built := true, fault := some f.toStatus, rows := [.done (List.replicate (4 * (p 3 + 1)) 0)] })
  | (s1, .ok bs) => (s1, { k with built := true, rows := [.done (scanList (p 2) (p 3) (decide (p 4 = 1)) bs)] })

def execNzscan (a : Src) (larr varr : BitVec 4) (w : CmdWord) (s : State) : Host.Outcome State Fault Refusal :=
  instr s (fun _ => Accept.nzscan a w) [] [] fun c =>
    if !c.gate then s.skip c
    else
      let l := c.arr larr
      let v := c.arr varr
      let n := (c.val64 s a).toNat
      let la := l.at (c.offset w.doff)
      let va := v.at (c.offset w.soff)
      let es := 2 ^ v.logsz
      match [l, v].find? fun x => x.misaligned || !(s.regionOk c.g x) with
      | some x => alignCmd s c x.base
      | none =>
        if l.logsz ≠ 2 ∨ 2 < v.logsz then alignCmd s c c.is.pc
        else if 65536 < n then copyRange s c (n : Int)
        else if s.rangeBad c.g l (c.offset w.doff) (4 * (n + 1)) true [1, 2] then copyRange s c la
        else if s.rangeBad c.g v (c.offset w.soff) (es * n) false [1, 2] then copyRange s c va
        else
          let lp := (List.range (4 * (n + 1))).map fun i => s.localPlace c.g l.space (la.toNat + i)
          let vp := (List.range (es * n)).map fun i => s.localPlace c.g v.space (va.toNat + i)
          if vp.any lp.contains then copyRange s c la
          else
            emptyWait s c [(v.space, va.toNat, es * n)]
              (let run : Run := { dst := la.toNat, src := (List.range (4 * (n + 1))).map (ByteSrc.row 0) }
               let lines := mkLines (s.linePlace c.g l.space) true (c.lc w) 0 0 [run]
               let cmd := { Cmd.offer c .nzscan .gx w lines with
                 params := [v.space, va.toNat, es, n, w.xtra.toNat % 2], built := false }
               s.accept c cmd fun s c => s.done c c.g)

end Sys2Proof.Machine
end

