-- ==== Sys2Proof/Machine/Matrix.lean ====
section
/-! DEFINITION. The matrix engines: shape records, tile operations, MMA, MMAG, MXV, MXZERO, MXLOAD, MXSCALE, MXFENCE and
MXDRAIN (13 R338 to R359). An instruction captures its registers and joins the gang's tile operations; what each tile
becomes is computed when the operation completes. -/

namespace Sys2Proof.Machine

open Sys2Proof
open Sys2Proof.Machine.Fp

/-! ## Shape records (06 R162, 13 R348) -/

structure Shape where
  bn : Nat
  bs : Nat
  est : Nat
  fmt : Nat
  cols : Nat
  rows : Nat
  rstride : Nat
  sbase : Nat
  t : Bool
  deriving DecidableEq, Repr

def shapeOf (n : Nat) : Shape :=
  { bn := field n 127 110, bs := field n 109 92, est := field n 91 84, fmt := field n 83 80, cols := field n 79 72
    rows := field n 71 64, rstride := field n 63 48, sbase := field n 47 30, t := bitOf n 29 }

def Ctx.shape (c : Ctx) (n : BitVec 3) : Shape := shapeOf (c.g.hreg n.toNat).toNat

/-- A record that no instruction takes, whether or not it uses the format (DEDUCED, log 64). -/
def Shape.reserved (h : Shape) : Bool := decide (12 ≤ h.fmt)

/-- ESTRIDE, 1 where it is 0. -/
def Shape.stride (h : Shape) : Nat := if h.est = 0 then 1 else h.est

/-- Bit position of element (r, c) of width e. -/
def Shape.pos (h : Shape) (e r c : Nat) : Nat :=
  if h.t then 8 * h.sbase + 8 * c * h.rstride + e * h.stride * r else 8 * h.sbase + 8 * r * h.rstride + e * h.stride * c

/-- Whether element (r, c) is read: no padding. -/
def Shape.inside (h : Shape) (r : Int) (c : Nat) : Bool := decide (0 ≤ r) && decide (r ≤ (h.rows : Int)) && decide (c ≤ h.cols)

/-- The elements that are read of the rows `rs`, over the 16 columns. -/
def Shape.cells (h : Shape) (rs : List Int) : List (Nat × Nat) :=
  rs.flatMap fun r => ((List.range 16).filter (h.inside r)).map fun c => (r.toNat, c)

/-- Bytes that e bits at a bit position lie in. -/
def bitBytes (pos e : Nat) : List Nat := (List.range ((pos % 8 + e + 7) / 8)).map (pos / 8 + ·)

/-- Width of an element by its format code. -/
def elemBits (f : Nat) : Nat :=
  match f with
  | 0 => 32
  | 1 | 2 => 16
  | 3 | 4 | 5 | 6 => 8
  | _ => 4

def isBlock (f : Nat) : Bool := decide (6 ≤ f) && decide (f ≤ 8)

/-- q and b of R348: the divisor of RSTRIDE and the elements of a block. -/
def blockQ (f : Nat) : Nat := if f = 8 then 4 else if f = 7 then 16 else 32
def blockB (f : Nat) : Nat := if f = 8 then 8 else 32

/-- The byte of a block's scale. -/
def Shape.scaleByte (h : Shape) (f r c : Nat) : Nat := h.bs + c * (h.rstride / blockQ f) + r / blockB f

/-- Every byte that is read of a B operand, scales included. -/
def Shape.needs (h : Shape) (f : Nat) (cells : List (Nat × Nat)) : List Nat :=
  cells.flatMap (fun rc => bitBytes (h.pos (elemBits f) rc.1 rc.2) (elemBits f)) ++
    (if isBlock f && !cells.isEmpty then
      cells.map (fun rc => h.scaleByte f rc.1 rc.2) ++ (if f = 8 then [h.bn, h.bn + 1] else [])
    else [])

def Shape.misplaced (h : Shape) (f : Nat) (cells : List (Nat × Nat)) : Bool :=
  cells.any fun rc => decide (h.pos (elemBits f) rc.1 rc.2 % elemBits f ≠ 0)

/-- Numbers of the 128-byte lines of a list of bytes, rising. -/
def lineNumbers (bytes : List Nat) : List Nat :=
  (bytes.foldl (fun (m : Sparse Unit) b => Sparse.insert m (b / 128) ()) []).map fun l => l.1

/-! ## What matrix instructions share (R338 to R343, R350) -/

/-- The halves of a gang: a width-64 pair has two (R338) (DEDUCED, log 23). -/
def Gang.halves (g : Gang) : List Nat := if 8 < g.slices.length then [0, 1] else [0]

/-- Tile t of half h. -/
def tileNo (t h : Nat) : Nat := t + 32 * h

/-- Thread t of half h. -/
def Gang.halfThread (g : Gang) (h t : Nat) : Thread := g.thread (8 * h + t / 4) (t % 4)

def Ctx.tileOk (s : State) (c : Ctx) (t : BitVec 5) : Bool := decide (t.toNat < (s.tmplOf c.g).accs)

/-- Tiles of every half. -/
def Gang.tilesOf (g : Gang) (ts : List Nat) : List Nat := g.halves.flatMap fun h => ts.map fun t => tileNo t h

def Gang.tile (g : Gang) (n : Nat) : Sparse W32 := Sparse.get [] g.tiles n
def Gang.setTile (g : Gang) (n : Nat) (w : Sparse W32) : Gang := { g with tiles := Sparse.set [] g.tiles n w }

/-- Word k = 16·i + c of a tile; words that are not listed are zero, so Z is an empty list (R339). -/
def tileWord (w : Sparse W32) (k : Nat) : W32 := Sparse.get 0 w k

/-- A tile of 256 words. -/
def mkTile (ws : List W32) : Sparse W32 := (mapI (fun k w => (k, w)) 0 (ws.take 256)).filter fun kw => decide (kw.2 ≠ 0)

/-- A whole-gang instruction: MEMBER where the strand does not hold every live slice (R340). -/
def wholeGang (s : State) (c : Ctx) (k : State) : State :=
  match lanesWhere ((List.range c.g.slices.length).filter fun x => !c.st.slices.contains x) fun x j => (c.g.thread x j).live with
  | [] => k
  | l => s.userTrap c c.g { cause := 5, tmask := maskOf l, taddr := 0 }

/-- ALIGN, BOUNDS with the lowest byte beyond the scratchpad, and the wait for full lines (R342, R348, R350). -/
def mxRead (s : State) (c : Ctx) (misaligned : Bool) (bytes reads : List Nat) (k : State) : State :=
  if misaligned then s.trapDefault c 13
  else
    match bytes.filter fun b => decide ((s.tmplOf c.g).scratchBytes ≤ b) with
    | b :: l => s.userTrap c c.g { cause := 3, tmask := 0, taddr := l.foldl min b }
    | [] => emptyWait s c ((lineNumbers reads).map fun l => (1, 128 * l, 1)) k

/-- Room for one more tile operation (R343). -/
def Ctx.tileRoom (c : Ctx) : Bool := decide ((c.g.tileOps.filter fun o => !o.done).length < 32)

def TileOp.of (c : Ctx) (kind : TileKind) (tiles params : List Nat) (data : List W32) (lines : List Nat) (isOpen : Bool) : TileOp :=
  { id := 0, kind := kind, tiles := c.g.tilesOf tiles, params := params, data := data, lines := lines, snap := [], isOpen := isOpen
    done := false, flags := 0, fault := none, pc := c.is.pc, word := (trapWords c.is.words).1 }

def Gang.addOp (g : Gang) (op : TileOp) : Gang := { g with nextId := g.nextId + 1, tileOps := g.tileOps ++ [{ op with id := g.nextId }] }

/-- A tile operation issues: the gang's stores come first (R342), `f` is its effect on the gang besides. -/
def tileIssue (s : State) (c : Ctx) (op : TileOp) (f : Gang → Gang) : State :=
  if !c.tileRoom then s.block c c.g .other
  else
    let s := s.flush c.g.gid (List.range c.g.slices.length)
    let c := c.refresh s
    s.done c (f (c.g.addOp op))

/-- The operand latch (R349): it changes timing only. -/
def State.latchA (s : State) (c : Ctx) (n regs : Nat) (reuse : Bool) : State :=
  let key := tokenKey c.g.core c.g.part
  { s with opLatch := if reuse then Sparse.insert s.opLatch key (c.g.gid + 1, n + 128 * regs) else s.opLatch.filter fun e => e.1 ≠ key }

/-- The byte that an operation reads at a scratch offset: what its line held before a later store of the gang (R342). -/
def State.opByte (s : State) (g : Gang) (op : TileOp) (off : Nat) : Nat :=
  match Sparse.get [] op.snap (off / 128) with
  | [] => (s.byteAt (s.localPlace g 1 off)).toNat
  | l => (l.getD (off % 128) 0).toNat

/-! ## Values (R345, R347, R348; 03 R57 to R61) -/

/-- A value and the flags of forming it. -/
abbrev FV := Val × Flags

def fvZero : FV := (.fin false 0 0, 0)

def mulV (a b : FV) : FV :=
  let p := exProd a.1 b.1
  (p.1, p.2 ||| a.2 ||| b.2)

def elemFmt (f : Nat) : Fmt :=
  match f with
  | 0 => .f32
  | 1 => .f16
  | 2 => .bf16
  | 3 | 6 => .e4m3
  | 4 => .e5m2
  | _ => .e2m1

/-- K of an MMA format (R345). -/
def mmaK (f : Nat) : Nat := 512 / elemBits f

/-- A block scale by format: E3M5 for NB4, E8M0 for MX. -/
def scaleVal (f code : Nat) : FV := (if f = 8 then e3m5 code else e8m0 code, 0)

/-- Element k of row i of A in half h, as its code (R347). -/
def TileOp.aCode (op : TileOp) (f h i k : Nat) : Nat :=
  let regs := Accept.mmaRegs (BitVec.ofNat 4 f)
  let e := elemBits f
  let bit := e * k
  let w := (op.data.getD ((32 * h + 2 * i + bit / 256) * regs + bit % 256 / 32) 0).toNat
  w / 2 ^ (bit % 32) % 2 ^ e

/-- The block scale of that element. -/
def TileOp.aScale (op : TileOp) (f h i k : Nat) : Nat :=
  let regs := Accept.mmaRegs (BitVec.ofNat 4 f)
  let half := mmaK f / 2
  let blk := k % half / blockB f
  (op.data.getD ((32 * h + 2 * i + k / half) * regs + 8 + blk / 4) 0).toNat / 2 ^ (8 * (blk % 4)) % 256

def TileOp.aVal (op : TileOp) (f h i k : Nat) : FV :=
  let v : FV := ((elemFmt f).decode false (op.aCode f h i k), 0)
  if isBlock f then mulV v (scaleVal f (op.aScale f h i k)) else v

/-- The code of element (r, c) by what `rd` reads. -/
def Shape.code (sh : Shape) (rd : Nat → Nat) (f r c : Nat) : Nat :=
  let e := elemBits f
  let p := sh.pos e r c
  ofLe ((bitBytes p e).map fun b => BitVec.ofNat 8 (rd b)) / 2 ^ (p % 8) % 2 ^ e

/-- Bval (R348): padded elements are +0 with unit scale. -/
def Shape.val (sh : Shape) (rd : Nat → Nat) (f : Nat) (r : Int) (c : Nat) : FV :=
  if !sh.inside r c then fvZero
  else
    let v : FV := ((elemFmt f).decode false (sh.code rd f r.toNat c), 0)
    if isBlock f then
      let v := mulV v (scaleVal f (rd (sh.scaleByte f r.toNat c)))
      if f = 8 then mulV v (Fmt.bf16.decode false (rd sh.bn + 256 * rd (sh.bn + 1)), 0) else v
    else v

/-! ## Chunks (03 R74, R75; R352, R353) -/

/-- A chunk's exact sum. -/
def chunkSum (neg : Bool) (ps : List (FV × FV)) : Ex × Flags :=
  (ps.foldl (fun (a : Acc) p =>
    let q := mulV p.1 p.2
    a.add (if neg then q.1.flip else q.1) q.2) {}).result

/-- One rounding of a chunk into the accumulator, or of the chunk alone. -/
def addChunk (alone : Bool) (acc : W32) (x : Ex × Flags) : W32 × Flags :=
  let y := if alone then (x.1, (0 : Flags)) else exAdd 0 (Fmt.f32.decode false acc.toNat) x.1.toVal
  let r := deliver .f32 0 0 false false y.1
  (BitVec.ofNat 32 r.1, r.2 ||| y.2 ||| x.2)

/-- The chunks of one word, from A's row and B's column; an entry of B that is none forms no product (R353). -/
def mmaWord (neg accoff : Bool) : Nat → Bool → List FV → List (Option FV) → W32 × Flags → W32 × Flags
  | 0, _, _, _, r => r
  | n + 1, first, as, bs, (acc, fl) =>
    let ps := ((as.take 32).zip (bs.take 32)).filterMap fun p => p.2.map fun b => (p.1, b)
    let alone := first && accoff
    let r : W32 × Flags :=
      if ps.isEmpty then (if alone then 0 else acc, fl)
      else
        let q := addChunk alone acc (chunkSum neg ps)
        (q.1, fl ||| q.2)
    mmaWord neg accoff n false (as.drop 32) (bs.drop 32) r

/-- The same over INT8, wrapping to INT32 (03 R53, R74). -/
def mmaInt (neg accoff : Bool) : Nat → Bool → List Int → List (Option Int) → W32 → W32
  | 0, _, _, _, acc => acc
  | n + 1, first, as, bs, acc =>
    let ps := ((as.take 32).zip (bs.take 32)).filterMap fun p => p.2.map fun b => p.1 * b
    let sum : Int := ps.foldl (fun a b => a + b) 0
    let alone := first && accoff
    let base : W32 := if alone then 0 else acc
    mmaInt neg accoff n false (as.drop 32) (bs.drop 32) (base + BitVec.ofInt 32 (if neg then -sum else sum))

/-! ## MMA and MMAG (R352, R353) -/

/-- The parameters of an MMA or MMAG: formats, whether products are negated, ACCOFF, shape record, then the rows of B as
32-bit images (an MMA's signed, an MMAG's list entries). -/
def mmaParams (c : Ctx) (w : ModWord) (rows : List Nat) : List Nat :=
  [w.fmta.toNat, w.fmtb.toNat, b2n (decide (w.nega ≠ w.negb)), w.accoff.toNat, (c.g.hreg w.shape.toNat).toNat] ++ rows

/-- An MMAG entry that forms no product by itself (R353). -/
def voidEntry (sh : Shape) (r : Nat) : Bool := decide (r = 0xFFFFFFFF) || decide (sh.rows < r)

/-- An MMAG entry that forms no product: by itself, or every line that holds an element of its row has Z = 1. -/
def State.voidRow (s : State) (g : Gang) (op : TileOp) (sh : Shape) (f r : Nat) : Bool :=
  voidEntry sh r ||
    (lineNumbers ((sh.cells [(r : Int)]).flatMap fun rc => bitBytes (sh.pos (elemBits f) rc.1 rc.2) (elemBits f))).all fun l =>
      (List.range 128).all fun i => decide (s.opByte g op (128 * l + i) = 0)

/-- What an MMA or MMAG makes of the tile of half h. -/
def State.mmaTile (s : State) (g : Gang) (op : TileOp) (h : Nat) : Sparse W32 × Flags :=
  let p (n : Nat) : Nat := op.params.getD n 0
  let fa := p 0
  let fb := p 1
  let neg := decide (p 2 = 1)
  let accoff := decide (p 3 = 1)
  let sh := shapeOf (p 4)
  let k := mmaK fa
  let rd := s.opByte g op
  let gath := decide (op.kind = .mmag)
  let rows := (op.params.drop 5).map fun (r : Nat) => (if gath then (r : Int) else sintOf 32 r, gath && s.voidRow g op sh fb r)
  let old := g.tile (op.tiles.getD h 0)
  if fa = 5 then
    let as := (List.range 16).map fun i => (List.range k).map fun q => sintOf 8 (op.aCode fa h i q)
    let bs := (List.range 16).map fun c => rows.map fun r =>
      if r.2 then none else some (if sh.inside r.1 c then sintOf 8 (sh.code rd fb r.1.toNat c) else 0)
    (mkTile ((List.range 256).map fun n => mmaInt neg accoff (k / 32) true (as.getD (n / 16) []) (bs.getD (n % 16) []) (tileWord old n)), 0)
  else
    let as := (List.range 16).map fun i => (List.range k).map fun q => op.aVal fa h i q
    let bs := (List.range 16).map fun c => rows.map fun r => if r.2 then none else some (sh.val rd fb r.1 c)
    let ws := (List.range 256).map fun n =>
      mmaWord neg accoff (k / 32) true (as.getD (n / 16) []) (bs.getD (n % 16) []) (tileWord old n, 0)
    (mkTile (ws.map fun w => w.1), ws.foldl (fun a w => a ||| w.2) 0)

/-- A as it stands at issue: `regs` words of each of 32 threads of each half; an absent thread's part is zero with unit
scales (R340, R347). -/
def Gang.aImage (g : Gang) (f n : Nat) : List W32 :=
  g.halves.flatMap fun h => (List.range 32).flatMap fun t =>
    let th := g.halfThread h t
    (List.range (Accept.mmaRegs (BitVec.ofNat 4 f))).map fun r =>
      if th.live then th.vreg (n + r) else if r < 8 then 0 else if f = 8 then 0x60606060 else 0x7F7F7F7F

/-- A block format of B needs T = 1 and unit stride (R348). -/
def Shape.blockOk (sh : Shape) (f : Nat) : Bool := !isBlock f || (sh.t && decide (sh.stride = 1))

/-- ALIGN of B (R348): element positions, RSTRIDE, the first row, BNBASE. -/
def Shape.badB (sh : Shape) (f : Nat) (off : Int) (cells : List (Nat × Nat)) : Bool :=
  sh.misplaced f cells ||
    (isBlock f && (decide (sh.rstride % blockQ f ≠ 0) || decide (off % (blockB f : Nat) ≠ 0) || (decide (f = 8) && decide (sh.bn % 2 ≠ 0))))

def srcReg : Src → Nat
  | .v n => n.toNat
  | _ => 0

def execMma (t : BitVec 5) (a b : Src) (w : ModWord) (s : State) : Host.Outcome State Fault Refusal :=
  instr s (fun c => Accept.mma a b w && c.tileOk s t && c.srcRangeOk s a (Accept.mmaRegs w.fmta)) [] [] fun c =>
    if !c.gate then s.skip c
    else
      let sh := c.shape w.shape
      let f := w.fmtb.toNat
      let off := sintOf 32 (c.val64 s b).toNat
      let rows := (List.range (mmaK w.fmta.toNat)).map fun (k : Nat) => off + (k : Int)
      let cells := sh.cells rows
      if sh.reserved || !sh.blockOk f then s.encoding c
      else
        wholeGang s c
          (let bytes := sh.needs f cells
           mxRead s c (sh.badB f off cells) bytes bytes
             (let op := TileOp.of c .mma [t.toNat] (mmaParams c w (rows.map (wrapTo 32))) (c.g.aImage w.fmta.toNat (srcReg a))
                (lineNumbers bytes) true
              tileIssue (s.latchA c (srcReg a) (Accept.mmaRegs w.fmta) (decide (w.reuse = 1))) c op id))

/-- MMAG: the list is read at issue, after the gang's stores; then B's checks over the rows it names (R353). A list on a line
that an error has spoilt names no row and makes the operation fault (10 R267). -/
def execMmag (t : BitVec 5) (a b : Src) (w : ModWord) (s : State) : Host.Outcome State Fault Refusal :=
  instr s (fun c => Accept.mmag a b w && c.tileOk s t && c.srcRangeOk s a (Accept.mmaRegs w.fmta)) [] [] fun c =>
    if !c.gate then s.skip c
    else
      let sh := c.shape w.shape
      let f := w.fmtb.toNat
      let k := mmaK w.fmta.toNat
      let off := (c.val64 s b).toNat % 2 ^ 32
      let list := (List.range (4 * k)).map (off + ·)
      if sh.reserved then s.encoding c
      else
       wholeGang s c
        (mxRead s c (decide (off % 4 ≠ 0)) list list
          (let s := s.flush c.g.gid (List.range c.g.slices.length)
           let c := c.refresh s
           let entry (i : Nat) : Nat := ofLe ((List.range 4).map fun x => s.byteAt (s.localPlace c.g 1 (off + 4 * i + x)))
           let lost := list.any fun b => s.spoilt (s.localPlace c.g 1 b)
           let rows := if lost then List.replicate k 0xFFFFFFFF else (List.range k).map entry
           let cells := sh.cells ((rows.filter fun r => !voidEntry sh r).map fun (r : Nat) => (r : Int))
           let bytes := sh.needs f cells
           mxRead s c (sh.misplaced f cells) bytes bytes
             (let op := { TileOp.of c .mmag [t.toNat] (mmaParams c w rows) (c.g.aImage w.fmta.toNat (srcReg a)) (lineNumbers bytes) true with
                fault := if lost then some Status.poison else none }
              tileIssue (s.latchA c (srcReg a) (Accept.mmaRegs w.fmta) (decide (w.reuse = 1))) c op id)))

/-! ## Format regions (10 R263, R264) -/

/-- The 16 format-region registers of a base die, as 256-bit numbers. -/
def State.regionRegs (s : State) (die : Nat) : List Nat :=
  (List.range 16).map fun i =>
    s.mg (Mgmt.fr die i) + 2 ^ 64 * s.mg (Mgmt.fr die i + 8) + 2 ^ 128 * s.mg (Mgmt.fr die i + 16) + 2 ^ 192 * s.mg (Mgmt.fr die i + 24)

/-- The scales that a register gives a line at physical address `pa`: where its sideband stands, and its band scale. -/
def regScale (die pa r : Nat) : Option (Nat × Option Nat) :=
  let base := field r 39 17 * 2 ^ 29 + field r 16 1 * 2 ^ 13
  let size := field r 63 40 * 65536
  let o := pa - base
  if !bitOf r 0 || decide (base % 65536 ≠ 0) || decide (base / 2 ^ 36 / 3 ≠ die) || decide ((base + size - 1) / 2 ^ 36 ≠ base / 2 ^ 36) ||
      decide (Config.localHbm ≤ base) || decide (pa < base) || decide (base + size ≤ pa) then none
  else
    some (field r 115 64 + 32 * (o / 128), if field r 203 192 = 0 then none
      else some (field r 179 128 + 2 * (o / (128 * 64 * field r 203 192))))

/-- The lowest-numbered register that covers the line. -/
def regionOf (die pa : Nat) (regs : List Nat) : Option (Nat × Option Nat) := regs.findSome? (regScale die pa)

/-- The scales joined to a line: by the registers as they stood at the fill that brought it (R264). -/
def State.joinOf (s : State) (pa : Nat) : Option (Nat × Option Nat) :=
  let die := pa / 2 ^ 36 / 3
  let since := s.regions.drop (Sparse.get 0 s.joins (pa / 128) - 1)
  match since.find? fun r => decide (r.die = die) with
  | some r => regionOf die pa r.regs
  | none => regionOf die pa (s.regionRegs die)

/-! ## MXV (R354) -/

structure MxvWord where
  c : Nat
  rows : Nat
  fmt : Nat
  accoff : Bool
  v : Nat
  yt : Nat
  xt : Nat
  deriving DecidableEq, Repr

def mxvWord (n : Nat) : MxvWord :=
  { c := 32 * (field n 28 26 + 1), rows := field n 25 18 + 1, fmt := field n 17 14, accoff := bitOf n 13, v := field n 12 10 + 1
    yt := field n 9 5, xt := field n 4 0 }

def MxvWord.ok (x : MxvWord) (accs : Nat) : Bool :=
  (decide (1 ≤ x.fmt ∧ x.fmt ≤ 4) || decide (x.fmt = 8)) && decide (x.xt + x.v ≤ accs) && decide (x.yt + x.v ≤ accs) &&
  (decide (x.xt + x.v ≤ x.yt) || decide (x.yt + x.v ≤ x.xt))

/-- Bytes of W. -/
def MxvWord.bytes (x : MxvWord) : Nat := x.rows * x.c * elemBits x.fmt / 8

/-- W's bytes with, for NB4, the block scale and the band scale of each 16-byte piece's four blocks. -/
structure Weights where
  bytes : List Byte
  scales : List Nat
  bands : List Nat

/-- The weights read now: 16-byte pieces through translation. Free values stand for the scales of another member. -/
def State.readWeights (s : State) (g : Gang) (base n : Nat) (nb4 : Bool) : Except Fail (State × Weights) :=
  match foldE (fun s i =>
      match s.access g.core (s.tmplOf g).asid (base + 16 * i) true false with
      | .error f => .error f
      | .ok (s', pa) => .ok (s', pa)) s (List.range ((n + 15) / 16)) with
  | .error f => .error f
  | .ok (s1, pas) =>
    let bytes := pas.flatMap fun pa => (List.range 16).map fun j => s1.physByte (pa + j)
    if !nb4 then .ok (s1, { bytes := bytes, scales := [], bands := [] })
    else
      let scale (i pa : Nat) : List Nat × Nat :=
        match s1.region pa with
        | .remote _ _ => ((List.range 4).map fun b => Config.freeValue (s1.free + 5 * i + b) % 256, Config.freeValue (s1.free + 5 * i + 4) % 65536)
        | _ =>
          let pa := s1.norm pa
          match if pa < Config.localHbm then s1.joinOf (pa / 128 * 128) else none with
          | some (side, band) =>
            ((List.range 4).map fun b => (s1.physByte (side + pa % 128 / 4 + b)).toNat, match band with
              | some a => s1.readPhys a 2
              | none => 0x3F80)
          | none => ([255, 255, 255, 255], 0x3F80)
      let sc := mapI scale 0 pas
      .ok ({ s1 with free := s1.free + 5 * pas.length },
        { bytes := bytes, scales := sc.flatMap fun x => x.1, bands := sc.map fun x => x.2 })

/-- Element number m of W. -/
def Weights.val (x : Weights) (f m : Nat) : FV :=
  let e := elemBits f
  let b := e * m / 8
  let code := ofLe ((x.bytes.drop b).take ((e + 7) / 8)) / 2 ^ (e * m % 8) % 2 ^ e
  let v : FV := ((elemFmt f).decode false code, 0)
  if f = 8 then mulV (mulV v (scaleVal 8 (x.scales.getD (m / 8) 255))) (Fmt.bf16.decode false (x.bands.getD (m / 32) 0x3F80), 0) else v

/-- The output tiles of half h. -/
def mxvTiles (g : Gang) (x : MxvWord) (wts : Weights) (h : Nat) : List (Nat × Sparse W32) × Flags :=
  let rows := (List.range x.rows).map fun r => (List.range x.c).map fun k => some (wts.val x.fmt (r * x.c + k))
  let one (j : Nat) : (Nat × Sparse W32) × Flags :=
    let xs := g.tile (tileNo (x.xt + j) h)
    let vec : List FV := (List.range x.c).map fun k => (Fmt.f32.decode false (tileWord xs k).toNat, 0)
    let old := g.tile (tileNo (x.yt + j) h)
    let ws := mapI (fun r row => mmaWord false x.accoff (x.c / 32) true vec row (tileWord old r, 0)) 0 rows
    let rest := (List.range (256 - x.rows)).map fun i => tileWord old (x.rows + i)
    ((tileNo (x.yt + j) h, mkTile (ws.map (fun w => w.1) ++ rest)), ws.foldl (fun a w => a ||| w.2) 0)
  let rs := (List.range x.v).map one
  (rs.map fun r => r.1, rs.foldl (fun a r => a ||| r.2) 0)

def execMxv (a : Src) (arr : BitVec 4) (s : State) : Host.Outcome State Fault Refusal :=
  instr s (fun _ => Accept.srcS64 a) [] [] fun c =>
    if !c.gate then s.skip c
    else
      let x := mxvWord (c.val64 s a).toNat
      let ar := c.arr arr
      if !x.ok (s.tmplOf c.g).accs then s.encoding c
      else if ar.space ≠ 4 ∨ ar.base % 128 ≠ 0 then s.trapDefault c 13
      else if ar.bytes < x.bytes then
        if ar.trap then s.userTrap c c.g { cause := 3, tmask := 0, taddr := c.is.pc }
        else s.done c (c.g.writeP6 c ar c.activeLanes)
      else
        tileIssue s c (TileOp.of c .mxv ((List.range x.v).flatMap fun j => [x.xt + j, x.yt + j]) [(c.val64 s a).toNat, ar.base] [] [] true)
          fun g => g.writeP6 c ar []

/-! ## MXZERO, MXLOAD, MXSCALE, MXFENCE (R355 to R358) -/

def execMxzero (t : BitVec 5) (s : State) : Host.Outcome State Fault Refusal :=
  instr s (fun c => c.tileOk s t) [] [] fun c =>
    if c.gate then tileIssue s c (TileOp.of c .mxzero [t.toNat] [] [] [] false) id else s.skip c

def execMxload (t : BitVec 5) (h : BitVec 3) (off : BitVec 8) (s : State) : Host.Outcome State Fault Refusal :=
  instr s (fun c => c.tileOk s t) [] [] fun c =>
    if !c.gate then s.skip c
    else
      let sh := c.shape h
      if !(decide (sh.fmt ≤ 2) || decide (sh.fmt = 5)) then s.encoding c
      else
        let cells := sh.cells ((List.range 16).map fun i => ((off.toNat + i : Nat) : Int))
        let bytes := sh.needs sh.fmt cells
        mxRead s c (sh.misplaced sh.fmt cells) bytes bytes
          (tileIssue s c (TileOp.of c .mxload [t.toNat] [(c.g.hreg h.toNat).toNat, off.toNat] [] (lineNumbers bytes) false) id)

/-- The tile that MXLOAD makes (R356). -/
def State.loadTile (s : State) (g : Gang) (op : TileOp) : Sparse W32 :=
  let sh := shapeOf (op.params.getD 0 0)
  let off := op.params.getD 1 0
  mkTile ((List.range 256).map fun n =>
    let r := off + n / 16
    let c := n % 16
    if !sh.inside (r : Int) c then 0
    else
      let x := sh.code (s.opByte g op) sh.fmt r c
      match sh.fmt with
      | 0 => BitVec.ofNat 32 x
      | 5 => BitVec.ofInt 32 (sintOf 8 x)
      | f => BitVec.ofNat 32 (cvtFF (elemFmt f) .f32 0 0 false false x).1)

def execMxscale (t : BitVec 5) (a : Src) (m : BitVec 2) (s : State) : Host.Outcome State Fault Refusal :=
  instr s (fun c => Accept.mxscale a m && c.tileOk s t) [] [a] fun c =>
    if !c.gate then s.skip c
    else if m = 2 then
      tileIssue s c (TileOp.of c .mxscale [t.toNat] [2] [bitsAt 0 32 (c.val64 s a)] [] true) id
    else
      let fs := c.g.halves.flatMap fun h => (List.range 32).map fun x =>
        if (c.g.halfThread h x).live then (c.g.halfThread h x).vreg (srcReg a) else (0x3F800000 : W32)
      wholeGang s c (tileIssue s c (TileOp.of c .mxscale [t.toNat] [m.toNat] fs [] true) id)

/-- The tile of half h scaled (R357). -/
def scaleTile (g : Gang) (op : TileOp) (h : Nat) : Sparse W32 × Flags :=
  let old := g.tile (op.tiles.getD h 0)
  let f (n : Nat) : W32 := match op.params.getD 0 0 with
    | 0 => op.data.getD (32 * h + 2 * (n / 16)) 0
    | 1 => op.data.getD (32 * h + n % 16) 0
    | _ => op.data.getD 0 0
  let ws := (List.range 256).map fun n =>
    let x := exMul (Fmt.f32.decode false (tileWord old n).toNat) (Fmt.f32.decode false (f n).toNat)
    let r := deliver .f32 0 0 false false x.1
    (BitVec.ofNat 32 r.1, r.2 ||| x.2)
  (mkTile (ws.map fun w => w.1), ws.foldl (fun a w => a ||| w.2) 0)

def execMxfence (s : State) : Host.Outcome State Fault Refusal :=
  run s fun c =>
    if !c.gate then s.skip c
    else if !c.room .mx then s.block c c.g .other
    else
      let g := c.g.issued .mx
      let isMine (o : TileOp) : Bool := o.isOpen
      let close (o : TileOp) : TileOp := { o with isOpen := false }
      s.done c { g with
        nextId := g.nextId + 1
        paths := g.paths ++ [{ path := .mx, id := g.nextId }]
        batches := g.batches ++ [{ id := g.nextId, ops := (g.tileOps.filter isMine).map (fun o => o.id), pc := c.is.pc, word := (trapWords c.is.words).1 }]
        tileOps := g.tileOps.map close }

/-! ## MXDRAIN (R359) -/

/-- One element converted: its code, flags; `rw` is its rounding mode and random word. -/
def drainElem (f : Nat) (sat : Bool) (rw : Nat × Nat) (x : W32) : Nat × Flags :=
  if f = 0 then (x.toNat, 0) else cvtFF .f32 (elemFmt f) rw.1 rw.2 sat false x.toNat

/-- The rounding mode and the random word of element (i, c): under RSR a word of thread 2i + c/8, none if it is absent. -/
def State.drainRnd (s : State) (g : Gang) (h rnd i c : Nat) : Nat × Nat :=
  let t := 2 * i + c / 8
  if rnd ≠ 5 then (rnd, 0)
  else if (g.halfThread h t).live then
    let cx : Ctx := ⟨{ gang := g.gid, slice := 0, pc := 0, fall := 0, words := [] }, g, Strand.none⟩
    (5, cx.word s (8 * h + t / 4) (t % 4) (c % 8))
  else (0, 0)

/-- What a drain of a half gives: (bit position, width, code) of every element and scale, flags, the threads that drew. -/
structure Drained where
  writes : List (Nat × Nat × Nat)
  flags : Flags
  drew : List Nat

/-- Elements (i, c) of a tile of half h, converted one by one. -/
def State.drainPlain (s : State) (g : Gang) (h f rnd : Nat) (sat : Bool) (tile : Sparse W32) : List ((Nat × Nat) × Nat × Flags) :=
  (List.range 256).map fun n =>
    ((n / 16, n % 16), drainElem f sat (s.drainRnd g h rnd (n / 16) (n % 16)) (tileWord tile n))

/-- The drain of one half to scratch through records HS and HE. -/
def State.drainHalf (s : State) (g : Gang) (op : TileOp) (h : Nat) : Drained :=
  let p (n : Nat) : Nat := op.params.getD n 0
  let hs := shapeOf (p 0)
  let he := shapeOf (p 1)
  let f := p 3
  let rnd := p 4
  let tile := g.tile (op.tiles.getD h 0)
  let place (i c code : Nat) : List (Nat × Nat × Nat) :=
    if he.inside (i : Int) c then [(he.pos (elemBits f) i c, elemBits f, code)] else []
  let val (i c : Nat) : Val := Fmt.f32.decode false (tileWord tile (16 * i + c)).toNat
  let all := if rnd = 5 then List.range 32 else []
  if f = 8 then
    let band := Fmt.bf16.decode false (s.opByte g op hs.bn + 256 * s.opByte g op (hs.bn + 1))
    let blocks := (List.range 32).map fun t =>
      let vs := (List.range 8).map fun j => val (t / 2) (8 * (t % 2) + j)
      let q := quantNb4 ((List.range 8).map fun j => s.drainRnd g h rnd (t / 2) (8 * (t % 2) + j)) vs band
      (t, q, decide (rnd = 5) && decide (q.1 ≠ 255) && !(amax vs).isZero)
    { writes := blocks.flatMap fun b =>
        (8 * (hs.sbase + b.1 / 2 * hs.rstride + b.1 % 2), 8, b.2.1.1) ::
          (mapI (fun j code => place (b.1 / 2) (8 * (b.1 % 2) + j) code) 0 b.2.1.2.1).flatten
      flags := blocks.foldl (fun a b => a ||| b.2.1.2.2) 0
      drew := (blocks.filter fun b => b.2.2).map fun b => b.1 }
  else if f = 6 ∨ f = 7 then
    let blocks := (List.range 8).map fun q =>
      let vs := (List.range 32).map fun j => val (2 * q + j / 16) (j % 16)
      (q, quantMx (elemFmt f) ((List.range 32).map fun j => s.drainRnd g h rnd (2 * q + j / 16) (j % 16)) vs)
    { writes := blocks.flatMap fun b =>
        (8 * (hs.sbase + b.1 * hs.rstride), 8, b.2.1) ::
          (mapI (fun j code => place (2 * b.1 + j / 16) (j % 16) code) 0 b.2.2.1).flatten
      flags := blocks.foldl (fun a b => a ||| b.2.2.2) 0
      drew := if rnd = 5 then (blocks.filter fun b => decide (b.2.1 ≠ 255)).flatMap fun b => (List.range 4).map (4 * b.1 + ·) else [] }
  else
    let es := s.drainPlain g h f rnd (decide (p 5 = 1)) tile
    { writes := es.flatMap fun e => place e.1.1 e.1.2 e.2.1
      flags := (es.filter fun e => he.inside (e.1.1 : Int) e.1.2).foldl (fun a e => a ||| e.2.2) 0
      drew := if f = 0 then [] else all }

/-- A byte with what the writers in turn put into it. -/
def mergeByte (ws : List (Nat × Nat × Nat)) (b old : Nat) : Nat :=
  ws.foldl (fun v w =>
    if (bitBytes w.1 w.2.1).contains b then
      if w.2.1 < 8 then v - v / 2 ^ (w.1 % 8) % 2 ^ w.2.1 * 2 ^ (w.1 % 8) + w.2.2 % 2 ^ w.2.1 * 2 ^ (w.1 % 8)
      else w.2.2 / 2 ^ (8 * (b - w.1 / 8)) % 256
    else v) old

/-- Whether two writers meet in a bit. -/
def overlapping : List (Nat × Nat × Nat) → Bool
  | [] => false
  | w :: l => l.any (fun x => decide (w.1 < x.1 + x.2.1) && decide (x.1 < w.1 + w.2.1)) || overlapping l

/-- Draw counts after a drain (DEDUCED, log 65). -/
def Gang.drainDraws (g : Gang) (h : Nat) (drew : List Nat) : Gang :=
  if drew.isEmpty then g
  else g.mapThreads (List.range g.slices.length) fun k j t =>
    if k / 8 = h ∧ drew.contains (4 * (k % 8) + j) ∧ t.live = true then { t with draws := t.draws + 8 } else t

/-- The registers that a drain writes in thread t of half h (R359). -/
def State.drainRegsOf (s : State) (g : Gang) (op : TileOp) (h t r : Nat) : W32 :=
  let p (n : Nat) : Nat := op.params.getD n 0
  let f := p 1
  let tile := g.tile (op.tiles.getD h 0)
  let e (c : Nat) : Nat := (drainElem f (decide (p 4 = 1)) (s.drainRnd g h (p 3) (t / 2) c) (tileWord tile (16 * (t / 2) + c))).1
  if f = 0 then BitVec.ofNat 32 (e (8 * (t % 2) + r))
  else BitVec.ofNat 32 (e (8 * (t % 2) + 2 * r) + 65536 * e (8 * (t % 2) + 2 * r + 1))

def execMxdrainReg (t : BitVec 5) (n : BitVec 7) (z : BitVec 1) (f : BitVec 4) (s : State) : Host.Outcome State Fault Refusal :=
  instr s (fun c => Accept.mxdrainReg n f && c.tileOk s t && c.vOk s n.toNat (Accept.drainRegs f)) [] [] fun c =>
    if !c.gate then s.skip c
    else
      wholeGang s c
        (if !c.room .mx then s.block c c.g .accept
         else
           let op := TileOp.of c .drainReg [t.toNat] [n.toNat, f.toNat, z.toNat, modeRound c.st.mode, b2n (modeSat c.st.mode), maskOf c.liveLanes] [] [] false
           tileIssue s c op fun g => { g.issued .mx with paths := g.paths ++ [{ path := .mx, id := g.nextId - 1 }] })

/-- The lines of a drain to scratch: byte k of line number i is byte k of row i of the command. -/
def drainLines (place : Nat → Place) (bytes : List Nat) : List Landing :=
  mapI (fun i line =>
    let src (k : Nat) : ByteSrc := if bytes.contains (128 * line + k) then .row i k else .hole
    { id := i, dst := place (128 * line), virt := none, bytes := (List.range 128).map src, lc := none, armed := true, landed := false
      written := false, raced := [] : Landing }) 0 (lineNumbers bytes)

/-- DEDUCED, log 46. -/
def execMxdrainScratch (t : BitVec 5) (hs he : BitVec 3) (z : BitVec 1) (f : BitVec 4) (s : State) :
    Host.Outcome State Fault Refusal :=
  instr s (fun c => Accept.mxdrainScratch f && c.tileOk s t) [] [] fun c =>
    if !c.gate then s.skip c
    else
      let e := c.shape he
      let x := c.shape hs
      let n := f.toNat
      let blk := isBlock n
      if e.reserved || (blk && (x.reserved || e.t || decide (e.rows < 15) || decide (e.cols < 15))) then s.encoding c
      else
        let cells := e.cells ((List.range 16).map fun (i : Nat) => (i : Int))
        let scales := if n = 8 then (List.range 32).map fun b => x.sbase + b / 2 * x.rstride + b % 2
          else if blk then (List.range 8).map fun q => x.sbase + q * x.rstride else []
        let written := cells.flatMap (fun rc => bitBytes (e.pos (elemBits n) rc.1 rc.2) (elemBits n)) ++ scales
        let reads := if n = 8 then [x.bn, x.bn + 1] else []
        mxRead s c (e.misplaced n cells || (decide (n = 8) && decide (x.bn % 2 ≠ 0))) (written ++ reads) reads
          (if !c.tileRoom then s.block c c.g .accept
           else
             let lines := drainLines (s.localPlace c.g 1) written
             let w : CmdWord := { scope := 1, cache := 0, lcen := 0, lcreg := 0, doff := 0, soff := 0, xtra := 0 }
             let cmd := { Cmd.offer c .drain .mx w lines with rows := lines.map fun _ => RowState.entry 0 }
             let op := TileOp.of c .drainScratch [t.toNat]
               [(c.g.hreg hs.toNat).toNat, (c.g.hreg he.toNat).toNat, z.toNat, n, modeRound c.st.mode, b2n (modeSat c.st.mode)] []
               (lineNumbers reads) false
             s.accept c cmd fun s c =>
               s.done c { c.g with tileOps := c.g.tileOps ++ [{ op with id := c.g.nextId - 1 }] })

/-! ## Drains when their tile has been read -/

/-- The rows of a drain's command: every byte of every line, over what stands there now. -/
def State.drainRows (s : State) (g : Gang) (k : Cmd) (ws : List (Nat × Nat × Nat)) : List RowState :=
  k.lines.map fun l =>
    match l.dst with
    | .scratch _ off => RowState.done (mapI (fun i b => match b with
        | .hole => 0
        | _ => BitVec.ofNat 8 (mergeByte ws (off + i) (s.byteAt (s.localPlace g 1 (off + i))).toNat)) 0 l.bytes)
    | _ => RowState.done []

end Sys2Proof.Machine
end

