-- ==== Sys2Proof/Machine/Attention.lean ====
section
/-! DEFINITION. Key tables, tree files, online softmax, PRUNE, HEAT and EVSEL (14 R360 to R378). -/

namespace Sys2Proof.Machine

open Sys2Proof
open Sys2Proof.Machine.Fp

/-! ## Key tables (R360, R361) -/

/-- Key table k of half h; a table never written holds (0, 0) in every interval. -/
def Gang.keyTable (g : Gang) (k h : Nat) : List KeyRow := Sparse.get [] g.keys (k + 4 * h)

/-- Key position p is admitted for row i. -/
def admits (table : List KeyRow) (i : Nat) (p : Int) : Bool :=
  (table.getD i []).any fun iv => decide (iv.1.toInt ≤ p) && decide (p < iv.2.toInt)

/-- The admitted columns of row i. -/
def keyRowMask (table : List KeyRow) (k0 : Int) (i : Nat) : Nat := ofBits ((List.range 16).map fun (c : Nat) => admits table i (k0 + (c : Int)))

/-- AKEYS (R366). -/
def execAkeys (a : Src) (k : BitVec 2) (s : State) : Host.Outcome State Fault Refusal :=
  instr s (fun c => Accept.akeys a && c.srcRangeOk s a 4) [] [] fun c =>
    if !c.gate then s.skip c
    else
      wholeGang s c
        (let n := srcReg a
         let row (h i : Nat) : KeyRow := (List.range 4).map fun j =>
           let th := c.g.halfThread h (2 * i + j / 2)
           let r := n + 2 * (j % 2)
           if th.live then (th.vreg r, th.vreg (r + 1)) else (0, 0)
         let tables := c.g.halves.foldl (fun (m : Sparse (List KeyRow)) h =>
           Sparse.insert m (k.toNat + 4 * h) ((List.range 16).map (row h))) c.g.keys
         s.done c { c.g with keys := tables })

/-- The class of R361 over the rows of every half. -/
def Gang.keyClass (g : Gang) (k : Nat) (k0 : Int) : Nat :=
  let ms := g.halves.flatMap fun h => (List.range 16).map (keyRowMask (g.keyTable k h) k0)
  if ms.all fun m => decide (m = 0xFFFF) then 2 else if ms.all fun m => decide (m = 0) then 0 else 1

/-- ACLASS (R367). -/
def execAclass (d : Dst) (sr : BitVec 6) (k : BitVec 2) (s : State) : Host.Outcome State Fault Refusal :=
  instr s (fun _ => Accept.dstSZ d) [] [] fun c =>
    if !c.gate then s.skip c
    else
      match d with
      | .s n =>
        let v := c.g.keyClass k.toNat (c.g.sreg sr.toNat).toInt
        s.done c (c.g.setS n.toNat (w64 v) (.iv v v))
      | _ => s.skip c

/-! ## Tree files (R362, R363). Present nodes 1 to 127 with their parent plus one; node 0 is always present. -/

def Gang.tree (g : Gang) (n h : Nat) : TreeFile := Sparse.get [] g.trees (n + 4 * h)

def TreeFile.present (t : TreeFile) (n : Nat) : Bool := decide (n = 0) || (decide (n ≤ 127) && decide (Sparse.get 0 t n ≠ 0))
def TreeFile.parent (t : TreeFile) (n : Nat) : Nat := Sparse.get 0 t n - 1

/-- A node and its ancestors, the node first. -/
def TreeFile.line (t : TreeFile) : Nat → Nat → List Nat
  | 0, n => [n]
  | fuel + 1, n => if n = 0 then [0] else n :: t.line fuel (t.parent n)

def TreeFile.anc (t : TreeFile) (n : Nat) : List Nat := t.line 127 n
def TreeFile.depth (t : TreeFile) (n : Nat) : Nat := (t.anc n).length - 1

/-- The admitted columns of row i under the tree form of R368. -/
def TreeFile.rowMask (t : TreeFile) (bases : Nat) (i : Nat) : Nat :=
  let q := field bases 6 0 + i
  let c0 := field bases 14 8
  if !t.present q then 0
  else ofBits ((List.range 16).map fun c => decide (c0 + c ≤ 127) && t.present (c0 + c) && (t.anc q).contains (c0 + c))

def Ctx.treeOk (s : State) (c : Ctx) (n : BitVec 2) : Bool := decide (n.toNat < (s.tmplOf c.g).trees)

/-- AMASK: what is admitted is settled at issue (R363, R366, R368). -/
def execAmask (t : BitVec 5) (sr : BitVec 6) (tree : BitVec 1) (k : BitVec 2) (s : State) : Host.Outcome State Fault Refusal :=
  instr s (fun c => c.tileOk s t && (decide (tree = 0) || c.treeOk s k)) [] [] fun c =>
    if !c.gate then s.skip c
    else
      let b := c.g.sreg sr.toNat
      let masks := c.g.halves.flatMap fun h => (List.range 16).map fun i =>
        if tree = 1 then (c.g.tree k.toNat h).rowMask b.toNat i else keyRowMask (c.g.keyTable k.toNat h) b.toInt i
      tileIssue s c (TileOp.of c .amask [t.toNat] masks [] [] false) id

def negInf : W32 := 0xFF800000

/-- The tile of half h masked. -/
def maskTile (g : Gang) (op : TileOp) (h : Nat) : Sparse W32 :=
  let old := g.tile (op.tiles.getD h 0)
  mkTile ((List.range 256).map fun n => if bitOf (op.params.getD (16 * h + n / 16) 0) (n % 16) then tileWord old n else negInf)

/-! ## Online softmax (R369) -/

/-- ASOFT: tiles S, T and, without NOO, O. -/
def execAsoft (st o : BitVec 5) (noo first : BitVec 1) (t : BitVec 5) (s : State) : Host.Outcome State Fault Refusal :=
  instr s (fun c => Accept.asoft st o noo t && c.tileOk s st && c.tileOk s t && (decide (noo = 1) || c.tileOk s o)) [] [] fun c =>
    if !c.gate then s.skip c
    else
      let ts := if noo = 1 then [st.toNat, t.toNat] else [st.toNat, t.toNat, o.toNat]
      tileIssue s c (TileOp.of c .asoft ts [first.toNat, ts.length] [] [] false) id

/-- One rounding to nearest even to FP32, subnormals kept; no flag is kept. -/
def rne (x : Ex) : W32 := BitVec.ofNat 32 (deliver .f32 0 0 false false x).1

def f32val (w : W32) : Val := Fmt.f32.decode false w.toNat

def subRne (a b : W32) : W32 := rne (exAdd 0 (f32val a) (f32val b).flip).1
def maxF (a b : W32) : W32 := BitVec.ofNat 32 (minMax .f32 true false a.toNat b.toNat).1
def exp2F (a : W32) : W32 := BitVec.ofNat 32 (trans .exp2 .f32 false false a.toNat).1

/-- One row's step: new maximum, factor, P words. -/
def softRow (mo : W32) (xs : List W32) : W32 × W32 × List W32 :=
  let mn := maxF mo ((xs.drop 1).foldl maxF (xs.getD 0 0))
  if mn = negInf then (mn, 0x3F800000, xs.map fun x => if (f32val x).isNan then 0x7FC00000 else 0)
  else (mn, exp2F (subRne mo mn), xs.map fun x => exp2F (subRne x mn))

/-- The new running sum: exact, one rounding. -/
def softSum (a lo : W32) (ps : List W32) : W32 :=
  let q := exProd (f32val a) (f32val lo)
  rne (ps.foldl (fun (x : Acc) p => x.add (f32val p) 0) (({} : Acc).add q.1 0)).result.1

/-- The tiles of half h after ASOFT. -/
def softTiles (g : Gang) (op : TileOp) (h : Nat) : List (Nat × Sparse W32) :=
  let first := decide (op.params.getD 0 0 = 1)
  let k := op.params.getD 1 2
  let no (i : Nat) : Nat := op.tiles.getD (k * h + i) 0
  let sT := g.tile (no 0)
  let tT := g.tile (no 1)
  let rows := (List.range 16).map fun i =>
    let r := softRow (if first then negInf else tileWord tT (16 * i)) ((List.range 16).map fun c => tileWord sT (16 * i + c))
    (r, softSum r.2.1 (if first then 0 else tileWord tT (16 * i + 1)) r.2.2)
  let row (i : Nat) : (W32 × W32 × List W32) × W32 := rows.getD i ((0, 0, []), 0)
  let newS := mkTile ((List.range 256).map fun n => (row (n / 16)).1.2.2.getD (n % 16) 0)
  let newT := mkTile ((List.range 256).map fun n =>
    if n % 16 = 0 then (row (n / 16)).1.1 else if n % 16 = 1 then (row (n / 16)).2 else tileWord tT n)
  let newO := if k = 3 ∧ first = false then
      [(no 2, mkTile ((List.range 256).map fun n => rne (exMul (f32val (tileWord (g.tile (no 2)) n)) (f32val (row (n / 16)).1.2.1)).1))]
    else []
  [(no 0, newS), (no 1, newT)] ++ newO

/-! ## Trees (R370 to R375) -/

/-- TTSET's word for node n offends (R370). `here` says whether a node of the group is present by this instruction. -/
def ttOffends (t : TreeFile) (base n : Nat) (here : Nat → Bool) (w : Nat) : Bool :=
  if n = 0 then decide (w ≠ 0)
  else if bitOf w 31 then false
  else
    let p := w % 128
    decide (w / 128 ≠ 0) || decide (n ≤ p) || !(if base ≤ p then here p else t.present p)

def execTtset (grp : BitVec 2) (a : Src) (n : BitVec 2) (s : State) : Host.Outcome State Fault Refusal :=
  instr s (fun c => Accept.isV a && c.treeOk s n) [] [a] fun c =>
    if !c.gate then s.skip c
    else
      wholeGang s c
        (let base := 32 * grp.toNat
         let word (h t : Nat) : Nat :=
           let th := c.g.halfThread h t
           if th.live then (th.vreg (srcReg a)).toNat else 0x80000000
         let here (h p : Nat) : Bool := decide (p = 0) || !bitOf (word h (p - base)) 31
         let bad := c.g.halves.flatMap fun h =>
           ((List.range 32).filter fun t => ttOffends (c.g.tree n.toNat h) base (base + t) (here h) (word h t)).map fun t => (h, t)
         match bad with
         | (h0, t0) :: l =>
           s.userTrap c c.g { cause := 15, tmask := maskOfT (((h0, t0) :: l).map fun x => 32 * x.1 + x.2), taddr := base + l.foldl (fun m x => min m x.2) t0 }
         | [] =>
           let set (h : Nat) : TreeFile :=
             (List.range 32).foldl (fun (m : TreeFile) t =>
               if base + t = 0 ∨ bitOf (word h t) 31 = true then m else Sparse.insert m (base + t) (word h t % 128 + 1))
               ((c.g.tree n.toNat h).filter fun e => decide (e.1 < base))
           let trees := c.g.halves.foldl (fun (m : Sparse TreeFile) h => Sparse.set [] m (n.toNat + 4 * h) (set h)) c.g.trees
           s.done c { c.g with trees := trees })

/-- TTMASK (R371). -/
def execTtmask (d : Dst) (sr : BitVec 6) (n : BitVec 2) (s : State) : Host.Outcome State Fault Refusal :=
  instr s (fun c => Accept.dstVX d && c.treeOk s n) [d] [] fun c =>
    let b := (c.g.sreg sr.toNat).toNat
    let f : LaneFn := fun k j =>
      if c.active k j then some (BitVec.ofNat 32 ((c.g.tree n.toNat (k / 8)).rowMask b ((4 * (k % 8) + j) % 16))) else none
    s.done c (c.g.writeVX c.st.slices d f fun _ => .iv 0 65535)

/-- TTPOS (R372). -/
def execTtpos (d : Dst) (a : Src) (sr : BitVec 6) (n : BitVec 2) (s : State) : Host.Outcome State Fault Refusal :=
  instr s (fun c => Accept.dstVX d && Accept.srcVec a && c.treeOk s n) [d] [a] fun c =>
    let b := bitsAt 0 32 (c.g.sreg sr.toNat)
    let f : LaneFn := fun k j =>
      if c.active k j then
        let m := (c.val s a k j).toNat
        let t := c.g.tree n.toNat (k / 8)
        some (if m ≤ 127 ∧ t.present m = true then b + BitVec.ofNat 32 (t.depth m) else 0xFFFFFFFF)
      else none
    let r (k : Nat) : Rime :=
      match c.rimeOf s 32 (.s sr) k with
      | .iv lb hb => Rime.mk 32 (min lb (-1)) (max (hb + 127) (-1))
      | .top => .top
    s.done c (c.g.writeVX c.st.slices d f r)

/-- The re-rooted tree (R373): old indices of its nodes in order, and the tree. -/
def TreeFile.prune (t : TreeFile) (f : Nat) : List Nat × TreeFile :=
  let ds := (List.range 128).filter fun n => t.present n && decide (n ≠ f) && (t.anc n).contains f
  let new (n : Nat) : Nat := (findIdx (fun d => decide (d = n)) 1 ds).getD 0
  (ds, mapI (fun k d => (k, new (t.parent d) + 1)) 1 ds)

/-- The list that PRUNE writes. -/
def TreeFile.pruneList (t : TreeFile) (f : Nat) : List Nat := (t.anc f).reverse ++ (t.prune f).1

/-- PRUNE (R373 to R375): the strand's stores so far and then the list's are performed before it goes on. -/
def execPrune (d : Dst) (a : Src) (n : BitVec 2) (sr : BitVec 6) (s : State) : Host.Outcome State Fault Refusal :=
  instr s (fun c => Accept.dstSZ d && Accept.srcSZ a && c.treeOk s n) [] [] fun c =>
    if !c.gate then s.skip c
    else
      let off := (c.g.sreg sr.toNat).toNat % 2 ^ 32
      let leaf := (c.val64 s a).toNat
      let trees := c.g.halves.map fun h => (h, c.g.tree n.toNat h)
      if off % 4 ≠ 0 then s.userTrap c c.g { cause := 13, tmask := 0, taddr := c.is.pc }
      else if trees.any fun t => !t.2.present leaf then s.userTrap c c.g { cause := 15, tmask := 0, taddr := leaf }
      else
        let lists := trees.map fun t => t.2.pruneList leaf
        let size := (s.tmplOf c.g).scratchBytes
        let long := lists.foldl (fun m l => max m (4 * l.length)) 0
        if size < off + long then s.userTrap c c.g { cause := 3, tmask := 0, taddr := max off size }
        else
          let s := s.flush c.g.gid c.st.slices
          let writes (l : List Nat) : List Write :=
            mapI (fun i b => { place := s.localPlace c.g 1 (off + i), byte := b, thread := 64 : Write }) 0 (l.flatMap (leBytes 4))
          let s := lists.foldl (fun (s : State) l => s.performOwn c.g.gid (writes l)) s
          let c := c.refresh s
          let g := { c.g with trees := trees.foldl (fun (m : Sparse TreeFile) t =>
            Sparse.set [] m (n.toNat + 4 * t.1) (t.2.prune leaf).2) c.g.trees }
          let t := (trees.getLast?.getD (0, [])).2
          let v := w64 (t.depth leaf + 1 + 2 ^ 32 * ((t.prune leaf).1.length + 1))
          s.done c (match d with
            | .s r => g.setS r.toNat v (exact64 v)
            | _ => g)

/-! ## HEAT (R376, R377) -/

/-- DEDUCED, log 66. -/
def execHeat (t : BitVec 5) (a : Src) (arr : BitVec 4) (s : State) : Host.Outcome State Fault Refusal :=
  instr s (fun c => Accept.srcSZ a && c.tileOk s t) [] [] fun c =>
    if !c.gate then s.skip c
    else
      let ar := c.arr arr
      if ar.logsz ≠ 2 then alignCmd s c c.is.pc
      else
        match c.prep s ar a 0 16 1 false true false [3] with
        | .stop s => s
        | .go [] off => s.done c (c.g.writeP6 c ar off)
        | .go (l :: _) off => tileIssue s c (TileOp.of c .heat [t.toNat] [l.addr] [] [] false) fun g => g.writeP6 c ar off

/-- A column's sum. -/
def columnSum (tile : Sparse W32) (c : Nat) : W32 :=
  rne ((List.range 16).foldl (fun (x : Acc) i => x.add (f32val (tileWord tile (16 * i + c))) 0) {}).result.1

/-- The additions of a HEAT: one for each column of each half whose sum is not zero. -/
def State.heatAdds (s : State) (g : Gang) (op : TileOp) : List HeatAdd :=
  let base := op.params.getD 0 0
  (g.halves.flatMap fun h => (List.range 16).map fun c => (c, columnSum (g.tile (op.tiles.getD h 0)) c)).filterMap fun cv =>
    if cv.2.toNat % 2 ^ 31 = 0 then none
    else some { id := op.id, va := base + 4 * cv.1, place := some (s.localPlace g 3 (base + 4 * cv.1)), value := cv.2.toNat }

/-- One addition performed, indivisible at its block (R376). -/
def State.heatPerform (s : State) (x : HeatAdd) : State :=
  match x.place with
  | none => s
  | some p =>
    let old := BitVec.ofNat 32 (ofLe ((List.range 4).map fun i => s.byteAt (p.plus i)))
    let v := rne (exAdd 0 (f32val old) (f32val (BitVec.ofNat 32 x.value))).1
    s.performWrites none (mapI (fun i b => { place := p.plus i, byte := b, thread := 0 : Write }) 0 (leBytes 4 v.toNat))

/-! ## EVSEL (R378) -/

/-- Where a heat stands in the order: −∞ < finite < +∞ < NaN, −0 = +0. -/
def heatKey (w : Nat) : Nat :=
  let mag := w % 2 ^ 31
  if 0x7F800000 < mag then 2 ^ 33 else if bitOf w 31 then 2 ^ 32 - mag else 2 ^ 32 + mag

def execEvsel (mark : BitVec 1) (a : Src) (harr larr : BitVec 4) (s : State) : Host.Outcome State Fault Refusal :=
  instr s (fun _ => Accept.evsel a) [] [] fun c =>
    match a with
    | .s n =>
      if !c.gate then s.skip c
      else
        let lo := (c.g.sreg n.toNat).toNat
        let hi := (c.g.sreg (n.toNat + 1)).toNat
        let count := field lo 63 32
        let first := field lo 31 0
        let budget := field hi 31 0
        let doff := field hi 47 32
        let marks := decide (mark = 1) || bitOf hi 63
        let k := if budget < count then min (count - budget) 4095 else 0
        let h := c.arr harr
        let l := c.arr larr
        match [h, l].find? Arr.misaligned with
        | some x => alignCmd s c x.base
        | none =>
          if h.logsz ≠ 2 ∨ l.logsz ≠ 2 then alignCmd s c c.is.pc
          else if count = 0 ∨ 2 ^ 20 < count then copyRange s c (h.at (first : Int))
          else
            let badH := s.rangeBad c.g h (first : Int) (4 * count) false [3]
            let badL := s.rangeBad c.g l (doff : Int) (4 * (k + 1)) true [1, 2]
            match if badH then some (h, first) else if badL then some (l, doff) else none with
            | some (ar, start) =>
              if ar.trap then s.userTrap c c.g { cause := 3, tmask := c.tmask, taddr := start }
              else s.done c (c.g.writeP6 c ar c.activeLanes)
            | none =>
              let run : Run := { dst := (l.at (doff : Int)).toNat, src := (List.range (4 * (k + 1))).map (ByteSrc.row 0) }
              let w : CmdWord := { scope := 3, cache := 0, lcen := 0, lcreg := 0, doff := 0, soff := 0, xtra := 0 }
              let cmd := { Cmd.offer c .evsel .gx w (mkLines (s.linePlace c.g l.space) true none 0 0 [run]) with
                params := [h.base, first, count, k, b2n marks], built := false }
              s.accept c cmd fun s c => s.done c ((c.g.writeP6 c h []).writeP6 c l [])
    | _ => s.encoding c

/-- The scan unit's work: counters read, tokens ordered by (h, p), the list, the marks (R378). -/
def State.evselBuild (s : State) (g : Gang) (k : Cmd) : State × Cmd :=
  let p (n : Nat) : Nat := k.params.getD n 0
  let place (t : Nat) : Place := s.localPlace g 3 (p 0 + 4 * t)
  let heat (t : Nat) : Nat := heatKey (ofLe ((List.range 4).map fun i => s.byteAt ((place t).plus i)))
  let tokens := (List.range (p 2)).map (p 1 + ·)
  let chosen := (tokens.foldl (fun l t => insertBy heat t l) []).take (p 3)
  let bytes := leBytes 4 (p 3) ++ chosen.flatMap (leBytes 4)
  let marks := if p 4 = 1 then chosen.flatMap fun t =>
      mapI (fun i b => { place := (place t).plus i, byte := b, thread := 0 : Write }) 0 (leBytes 4 0x7F800000) else []
  (s.performWrites none marks, { k with built := true, rows := [.done bytes] })

end Sys2Proof.Machine
end

