-- ==== Sys2Proof/Machine/Storage.lean ====
section
/-! DEFINITION. The storage engine (SREAD) and the collective engines (COLL, RING) with their events
(18 R445 to R452). -/

namespace Sys2Proof.Machine

open Sys2Proof
open Sys2Proof.Machine.Fp

/-- An event of the whole package. -/
def event (s : State) (k : State → State) : Host.Outcome State Fault Refusal := .next (k s)

/-- A parameter of a command changed. -/
def Cmd.setParam (k : Cmd) (i v : Nat) : Cmd := { k with params := modifyAt (fun _ => v) i k.params }
def Cmd.param (k : Cmd) (i : Nat) : Nat := k.params.getD i 0

/-- A status with code 4 and its REASON (R446). -/
def linkStatus (reason addr : Nat) : Status := { code := 4, reason := reason, addr := addr, shown := addr, topa := 0 }

/-! ## SREAD (R451, R452) -/

structure Drive where
  enabled : Bool
  shift : Nat
  capacity : Nat
  deriving DecidableEq, Repr

/-- DRVTAB entry n; a block size other than 2^9 and 2^12 enables nothing (DEDUCED, log 67). -/
def State.drive (s : State) (n : Nat) : Drive :=
  let w := s.mg (Mgmt.drvtab n)
  let sh := field w 23 16
  { enabled := bitOf w 8 && (decide (sh = 9) || decide (sh = 12)), shift := sh, capacity := s.mg (Mgmt.drvtab n + 8) }

def storageLimit : Nat := 2 ^ 28

/-- The status that an SREAD has before its drive is asked: a disabled entry, a range beyond CAPACITY, or, at a replay, blocks
of another size than those the command counts (R451, R452). -/
def Drive.refuses (d : Drive) (lba count n addr : Nat) : Option Status :=
  if !d.enabled then some (linkStatus 5 addr)
  else if d.capacity < lba + count ∨ count * 2 ^ d.shift ≠ n then some (linkStatus 4 addr)
  else none

/-- SREAD: `params` holds the base cycle count of acceptance, the bytes, the drive, the first block and the blocks; row 0
is what the drive returns. -/
def execSread (a : Src) (drive : BitVec 5) (w : CmdWord) (s : State) : Host.Outcome State Fault Refusal :=
  instr s (fun _ => Accept.sread a w) [] [] fun c =>
    if !c.gate then s.skip c
    else
      let d := c.arr (bitsAt 0 4 w.xtra)
      let dr := s.drive drive.toNat
      let count := (c.g.sreg w.soff.toNat).toNat
      let lba := (c.val64 s a).toNat
      let n := count * 2 ^ dr.shift
      let da := d.at (c.offset w.doff)
      if d.misaligned then alignCmd s c d.base
      else if da % 16 ≠ 0 then alignCmd s c c.is.pc
      else if decide (count = 0) || decide (65536 < count) || s.rangeBad c.g d (c.offset w.doff) n true [4] then copyRange s c da
      else
        let run : Run := { dst := da.toNat, src := (List.range n).map (ByteSrc.row 0) }
        let lines := mkLines (s.linePlace c.g 4) false (c.lc w) 0 0 [run]
        let cmd := { Cmd.offer c .sread .cp w lines with
          params := [s.base, n, drive.toNat, lba, count], rows := [.entry 0], fault := dr.refuses lba count n da.toNat }
        s.accept c cmd fun s c => s.done c c.g

/-- An event of one command of a gang, wherever the gang is. -/
def onCmd (s : State) (gid cmd : Nat) (k : Gang → Cmd → State) : Host.Outcome State Fault Refusal :=
  match s.anyGang? gid with
  | none => .next s
  | some g =>
    match g.cmds.find? fun x => decide (x.id = cmd) with
    | some x => .next (k g x)
    | none => .next s

/-- The virtual address of a command's first destination line. -/
def Cmd.firstVa (k : Cmd) : Nat := ((k.lines.filterMap fun l => l.virt).head?).getD 0

/-- A faulted command offered again; an SREAD is judged again first (12 R311, R452). -/
def State.retry (s : State) (k : Cmd) : Cmd :=
  let k := k.again s.base s.seq
  if k.kind = .sread then { k with fault := (s.drive (k.param 2)).refuses (k.param 3) (k.param 4) (k.param 1) k.firstVa } else k

/-- NVME_COMPLETION: the drive's bytes, or status DRIVE. -/
def execNvmeCompletion (gang cmd : Nat) (ok : Bool) (data : List Byte) (s : State) : Host.Outcome State Fault Refusal :=
  onCmd s gang cmd fun g k =>
    if k.kind ≠ .sread ∨ k.fault ≠ none ∨ k.rows ≠ [.entry 0] then s
    else if !ok then s.setAnyGang (g.setCmd { k with fault := some (linkStatus 4 k.firstVa) })
    else if data.length = k.param 1 then s.setAnyGang (g.setCmd { k with rows := [.done data] })
    else s

/-- STORAGE_TIMEOUT: 2^28 base cycles without a completion. -/
def execStorageTimeout (gang cmd : Nat) (s : State) : Host.Outcome State Fault Refusal :=
  onCmd s gang cmd fun g k =>
    if k.kind = .sread ∧ k.fault = none ∧ k.rows = [.entry 0] ∧ k.param 0 + storageLimit ≤ s.base then
      s.setAnyGang (g.setCmd { k with fault := some (linkStatus 4 k.firstVa) })
    else s

/-! ## Ring descriptors (R447, R448) -/

structure RingDesc where
  src : Nat
  dst : Nat
  stat : Nat
  count : Nat
  stp : Nat
  rev : Nat
  ring : Nat
  elem : Nat
  op : Nat
  lcen : Bool
  sscr : Bool
  dscr : Bool
  start : Bool
  lcreg : Nat
  reservedOk : Bool
  deriving DecidableEq, Repr

def ringDesc (bs : List Byte) : RingDesc :=
  let le (o n : Nat) : Nat := ofLe ((bs.drop o).take n)
  { src := le 0 8, dst := le 8 8, stat := le 16 8, count := le 24 4, stp := le 28 2, rev := le 30 2, ring := le 32 1, elem := le 33 1
    op := le 34 1, lcen := bitOf (le 35 1) 0, sscr := bitOf (le 35 1) 1, dscr := bitOf (le 35 1) 2, start := bitOf (le 35 1) 3
    lcreg := le 36 1 % 64, reservedOk := decide (le 35 1 < 16) && decide (le 36 1 < 64) && decide (le 37 27 = 0) }

/-- RINGCFG's fields (R444). -/
structure RingCfg where
  valid : Bool
  prev : Nat
  next : Nat
  m : Nat
  pos : Nat
  deriving DecidableEq, Repr

def ringCfg (w : Nat) : RingCfg :=
  let m := field w 13 8 + 1
  { valid := bitOf w 63 && decide (2 ≤ m) && decide (field w 5 0 < m), prev := field w 29 24, next := field w 21 16, m := m, pos := field w 5 0 }

/-- First element of chunk q (R449). -/
def chunkAt (count m q : Nat) : Nat := q * count / m

def elemSize (elem : Nat) : Nat := if elem = 1 ∨ elem = 2 then 2 else 4

/-- Bytes of SRC and of DST; `kind` 0 to 2 as COLL's, 3 a RING. -/
def ringSizes (kind : Nat) (d : RingDesc) (x : RingCfg) : Nat × Nat :=
  let es := elemSize d.elem
  let mine := es * (chunkAt d.count x.m (x.pos + 1) - chunkAt d.count x.m x.pos)
  match kind with
  | 3 => (d.count, d.count)
  | 0 => (es * d.count, es * d.count)
  | 1 => (es * d.count, mine)
  | _ => (mine, es * d.count)

/-- A descriptor that BAD_DESC does not refuse. -/
def ringDescOk (kind : Nat) (d : RingDesc) (x : RingCfg) : Bool :=
  d.reservedOk && decide (d.ring < 8) && x.valid && decide (d.src % 16 = 0) && decide (d.dst % 16 = 0) && decide (d.stat % 8 = 0) &&
  (if kind = 3 then decide (16 ≤ d.count ∧ d.count ≤ 2 ^ 20 ∧ d.count % 16 = 0)
   else decide (1 ≤ d.count ∧ d.count ≤ 2 ^ 28) && decide (d.elem ≤ 3) && decide (d.op ≤ 2))

/-! The parameters of a ring command: 0 acceptance order, 1 ring, 2 begun, 3 RINGCFG, 4 COUNT, 5 STEP, 6 REV, 7 ELEM, 8 OP,
9 START, 10 SRC, 11 SSCR, 12 DST, 13 STAT, 14 base cycles at acceptance, 15 kind, 16 acknowledged. -/

def Cmd.isRing (k : Cmd) : Bool := decide (k.kind = .ring) || decide (k.kind = .coll)
def Cmd.cfg (k : Cmd) : RingCfg := ringCfg (k.param 3)

/-- The status word (R447). -/
def ringWord (code last rev : Nat) : Nat := code + 2 ^ 16 * (last % 2 ^ 16) + 2 ^ 48 * (rev % 2 ^ 16)

/-- Bytes of device memory written for a gang at system scope. -/
def State.gangWrite (s : State) (g : Gang) (va : Nat) (bs : List Byte) : Except Fail State :=
  match s.access g.core (s.tmplOf g).asid va false true with
  | .error f => .error f
  | .ok (s', pa) => .ok (s'.performWrites none (physWrites pa bs))

/-- The ring r, fresh where none is. -/
def State.ringAt (s : State) (r : Nat) : RingState := s.rings.getD r RingState.fresh
def State.setRing (s : State) (r : Nat) (x : RingState) : State := { s with rings := modifyAt (fun _ => x) r s.rings }

/-- The revolution that a ring runs; `rev` holds it plus one. -/
def RingState.revNo (x : RingState) : Nat := x.rev - 1

/-- A ring command's record and counter, at the end of its first run or of its replay. -/
def State.ringDone (s : State) (g : Gang) (k : Cmd) : State := if k.replay then s.replayDone g k else s.complete g k

/-- A ring command ends: its status word, then its record and its counter. A status word that cannot be written is
the command's fault. -/
def State.ringEnd (s : State) (gid : Nat) (k : Cmd) (code : Nat) : State :=
  match s.anyGang? gid with
  | none => s
  | some g =>
    let k := (g.cmds.find? fun y => decide (y.id = k.id)).getD k
    let x := s.ringAt (k.param 1)
    let rev := if k.param 15 = 3 then k.param 6 else x.revNo
    match s.gangWrite g (k.param 13) (leBytes 8 (ringWord code x.lastStep rev)) with
    | .error f => s.ringDone g { k with fault := some f.toStatus }
    | .ok s' =>
      match s'.anyGang? gid with
      | some g' => s'.ringDone g' k
      | none => s'

/-- The incomplete commands that the rings in `rs` have still to run. -/
def State.ringCmds (s : State) (rs : List Nat) : List (Nat × Cmd) :=
  (s.gangs ++ s.saved.flatMap fun v => v.gangs).flatMap fun g =>
    (g.cmds.filter fun k => k.isRing && rs.contains (k.param 1) && (!k.replay || !k.built)).map fun k => (g.gid, k)

/-- The first of some commands in acceptance order. -/
def firstCmd : List (Nat × Cmd) → Option (Nat × Cmd)
  | [] => none
  | x :: l => some (l.foldl (fun a b => if b.2.param 0 < a.2.param 0 then b else a) x)

/-- The command that ring r runs, or the oldest that it has still to run. -/
def State.ringHead (s : State) (r : Nat) : Option (Nat × Cmd) := firstCmd (s.ringCmds [r])

/-- The oldest command of the collective engine that serves ring r: that of base die r mod 4 (R448). -/
def State.engineHead (s : State) (r : Nat) : Option (Nat × Cmd) := firstCmd (s.ringCmds [r % 4, r % 4 + 4])

/-- A ring breaks: staging and partial results are discarded (R450). -/
def State.breakRing (s : State) (r : Nat) : State :=
  let x := s.ringAt r
  s.setRing r { x with ready := false, staged := [], chunks := [] }

/-- Whether both neighbours of a command's ring are reachable. -/
def State.neighbours (s : State) (k : Cmd) : Bool := s.reachable k.cfg.prev && s.reachable k.cfg.next

/-- The oldest command of the engine of ring `ring` taken up: START with STEP 0 opens its ring's revolution; a broken ring
ends it at once. -/
def State.ringNext (s : State) (ring : Nat) : Nat → State
  | 0 => s
  | fuel + 1 =>
    match s.engineHead ring with
    | none => s
    | some (gid, k) =>
      let r := k.param 1
      if k.param 2 = 1 then s
      else
        let x := s.ringAt r
        let opens := decide (k.param 15 = 3) && decide (k.param 9 = 1) && decide (k.param 5 = 0)
        if opens || x.ready then
          let s := if opens then
              s.setRing r { x with ready := true, rev := k.param 6 + 1, lastStep := 0xFFFF, chunks := []
                                   staged := (x.staged.filter fun t => decide (t.1 / 2 ^ 16 = k.param 6)) }
            else s.setRing r { x with chunks := [] }
          if s.neighbours k then
            match s.anyGang? gid with
            | some g => s.setAnyGang (g.setCmd (k.setParam 2 1))
            | none => s
          else ((s.breakRing r).ringEnd gid k 1).ringNext r fuel
        else (s.ringEnd gid k 1).ringNext r fuel

def State.ringFuel (s : State) : Nat := ((s.gangs ++ s.saved.flatMap fun v => v.gangs).map fun g => g.cmds.length).foldl (· + ·) 1

/-- The command being run on an open ring ends with `code` and the ring breaks. -/
def State.ringFail (s : State) (r code : Nat) : State :=
  let s1 := s.breakRing r
  match s.ringHead r with
  | some (gid, k) =>
    if k.param 2 = 1 then (s1.ringEnd gid k code).ringNext r s.ringFuel else s1.ringNext r s.ringFuel
  | none => s1

/-- Rings that run a command through a neighbour that is not reachable any more break (R450). -/
def State.checkRings (s : State) : State :=
  (List.range 8).foldl (fun (s : State) r =>
    match s.ringHead r with
    | some (_, k) => if k.param 2 = 1 ∧ s.neighbours k = false then s.ringFail r 1 else s
    | none => s) s

/-! ## COLL and RING (R448) -/

/-- Issue of a ring command: the descriptor, the scratch ranges, acceptance; then what its ring makes of it (DEDUCED, log 68). -/
def ringIssue (s : State) (c : Ctx) (a : Src) (kind : Nat) : State :=
  if !c.gate then s.skip c
  else
    let da := (c.val64 s a).toNat
    if da % 64 ≠ 0 then alignCmd s c c.is.pc
    else
      let s := s.flush c.g.gid c.st.slices
      let c := c.refresh s
      c.locate s .cl 4 64 true false false [{ k := c.st.slices.headD 0, j := 0, addr := da }] fun s c ls =>
        let d := ringDesc (ls.flatMap fun l => l.places.map s.byteAt)
        let cfgWord := s.mg (Mgmt.ringcfg d.ring)
        let x := ringCfg cfgWord
        let n := ringSizes kind d x
        let size := (s.tmplOf c.g).scratchBytes
        if d.dscr && decide (size < d.dst + n.2) then copyRange s c (d.dst : Int)
        else if d.sscr && decide (size < d.src + n.1) then copyRange s c (d.src : Int)
        else
          let w : CmdWord := { scope := 4, cache := 0, lcen := if d.lcen then 1 else 0, lcreg := BitVec.ofNat 6 d.lcreg, doff := 0, soff := 0, xtra := 0 }
          let ok := ringDescOk kind d x
          let r := s.ringAt d.ring
          let idle := (s.ringHead d.ring).isNone
          let opens := decide (kind = 3) && d.start && decide (d.stp = 0)
          let broken := ok && idle && !r.ready && !opens
          let space := if d.dscr then 1 else 4
          let src := if kind = 3 then (List.range n.2).map (ByteSrc.row 0)
            else (List.range (if kind = 1 then 1 else x.m)).flatMap fun q =>
              let q' := if kind = 1 then x.pos else q
              (List.range (elemSize d.elem * (chunkAt d.count x.m (q' + 1) - chunkAt d.count x.m q'))).map (ByteSrc.row q')
          let run : Run := { dst := d.dst, src := src }
          let live := ok && !broken
          let lines := if live then mkLines (s.linePlace c.g space) (armedSpace space) (c.lc w) 0 0 [run] else []
          let params := [s.seq, d.ring, 0, cfgWord, d.count, d.stp, d.rev, d.elem, d.op, b2n d.start, d.src, b2n d.sscr, d.dst, d.stat, s.base, kind, 0]
          let cmd := { Cmd.offer c (if kind = 3 then .ring else .coll) .cl w lines with
            params := params, built := !live, rows := List.replicate (if kind = 3 then 1 else x.m) (.entry 0) }
          s.accept c cmd fun s c =>
            let s := { s with seq := s.seq + 1 }
            if live then
              let s := s.done c c.g
              s.ringNext d.ring s.ringFuel
            else if d.stat % 8 ≠ 0 then s.done c c.g
            else
              let rev := if kind = 3 then d.rev else r.revNo
              match s.gangWrite c.g d.stat (leBytes 8 (ringWord (if ok then 1 else 3) r.lastStep rev)) with
              | .ok s' => s'.done c (c.refresh s').g
              | .error f =>
                let bad : Completion := { cmd := { cmd with id := c.g.nextId - 1, fault := some f.toStatus }, reported := false, after := 0 }
                s.done c { c.g with records := c.g.records ++ [bad] }

def execColl (a : Src) (kind : BitVec 2) (s : State) : Host.Outcome State Fault Refusal :=
  instr s (fun _ => Accept.isS a && decide (kind.toNat ≤ 2)) [] [] fun c => ringIssue s c a kind.toNat

def execRing (a : Src) (s : State) : Host.Outcome State Fault Refusal :=
  instr s (fun _ => Accept.isS a) [] [] fun c => ringIssue s c a 3

/-! ## Finishing (R449, R450) -/

/-- Bytes of a command's SRC from byte `off` on. -/
def State.ringSrc (s : State) (g : Gang) (k : Cmd) (off n : Nat) : State × Except Fail (List Byte) :=
  s.readSpace g (if k.param 11 = 1 then 1 else 4) (k.param 10 + off) n

/-- Every line of a command landed in turn, up to a failure. -/
def State.landAll (s : State) (gid : Nat) (cmd : Nat) : List Landing → State × Option Fail
  | [] => (s, none)
  | l :: ls =>
    match s.anyGang? gid with
    | none => (s, none)
    | some g =>
      match g.cmds.find? fun x => decide (x.id = cmd) with
      | none => (s, none)
      | some k =>
        match s.landLineOf gid k l none with
        | (s', some f) => (s', some f)
        | (s', none) => s'.landAll gid cmd ls

/-- A ring command with every row at hand: its destination written, then its status word, then it completes. -/
def State.ringFinish (s : State) (gid cmd r : Nat) : State :=
  match s.anyGang? gid with
  | none => s
  | some g =>
    match g.cmds.find? fun x => decide (x.id = cmd) with
    | none => s
    | some k =>
      match s.landAll gid cmd (k.lines.filter fun l => !l.written) with
      | (s', some f) =>
        match s'.anyGang? gid with
        | some g' => (s'.ringDone g' { k with lines := ((g'.cmds.find? fun x => decide (x.id = cmd)).getD k).lines, fault := some f.toStatus }).ringNext r s.ringFuel
        | none => s'
      | (s', none) => (s'.ringEnd gid k 0).ringNext r s'.ringFuel

/-- A command whose source cannot be read ends with that fault (12 R310); its ring stays as it is. -/
def State.ringSourceFault (s : State) (gid r : Nat) (k : Cmd) (f : Fail) : State :=
  match s.anyGang? gid with
  | none => s
  | some g =>
    let x := s.ringAt r
    ((s.setRing r { x with chunks := [] }).ringDone g { k with fault := some f.toStatus }).ringNext r s.ringFuel

/-! ## RING's events (R450) -/

/-- An event of a ring, whose oldest command is taken up first. -/
def ringEvent (s : State) (r : Nat) (k : State → State) : Host.Outcome State Fault Refusal :=
  event s fun s => k (s.ringNext r s.ringFuel)

def tagOf (rev stp : Nat) : Nat := rev % 2 ^ 16 * 2 ^ 16 + stp % 2 ^ 16

/-- Whether a tile is of an older revolution than the one a ring runs or last ran. -/
def RingState.stale (x : RingState) (rev : Nat) : Bool :=
  if x.rev = 0 then false
  else
    let d := sintOf 16 (rev + 2 ^ 16 - x.revNo % 2 ^ 16)
    if x.ready then decide (d < 0) else decide (d ≤ 0)

/-- RING_TILE_ARRIVAL: into staging, two tiles at most (credit holds back a third); a stale one is discarded. -/
def execRingTileArrival (ring rev stp : Nat) (data : List Byte) (s : State) : Host.Outcome State Fault Refusal :=
  ringEvent s ring fun s =>
    let x := s.ringAt ring
    if x.stale rev || decide (2 ≤ x.staged.length) then s else s.setRing ring { x with staged := x.staged ++ [(tagOf rev stp, data)] }

/-- RING_ACK_ARRIVAL: the running step's tile was sent, so its source is read by now. -/
def execRingAckArrival (ring rev stp : Nat) (s : State) : Host.Outcome State Fault Refusal :=
  ringEvent s ring fun s =>
    match s.ringHead ring with
    | some (gid, k) =>
      if k.param 2 = 1 ∧ k.param 15 = 3 ∧ tagOf rev stp = tagOf (k.param 6) (k.param 5) then
        match s.anyGang? gid with
        | none => s
        | some g =>
          match s.ringSrc g k 0 (k.param 4) with
          | (s', .error f) => s'.ringSourceFault gid ring k f
          | (s', .ok _) =>
            match s'.anyGang? gid with
            | some g' => s'.setAnyGang (g'.setCmd (k.setParam 16 1))
            | none => s'
      else s
    | none => s

/-- The tile that a RING waits for, whole in staging. -/
def RingState.tileOf (x : RingState) (k : Cmd) : Option (Nat × List Byte) :=
  x.staged.find? fun t => decide (t.1 = tagOf (k.param 6) (k.param 5)) && decide (t.2.length = k.param 4)

/-- RING_STEP_COMPLETE: the tile whole and the sent one acknowledged. -/
def execRingStepComplete (ring : Nat) (s : State) : Host.Outcome State Fault Refusal :=
  ringEvent s ring fun s =>
    let x := s.ringAt ring
    match s.ringHead ring with
    | some (gid, k) =>
      let tag := tagOf (k.param 6) (k.param 5)
      match x.tileOf k, s.anyGang? gid with
      | some t, some g =>
        if k.param 2 = 1 ∧ k.param 15 = 3 ∧ k.param 16 = 1 then
          let s := s.setRing ring { x with lastStep := k.param 5, staged := (x.staged.filter fun y => decide (y.1 ≠ tag)) }
          let s := s.setAnyGang (g.setCmd { k with rows := [.done t.2], built := true })
          s.ringFinish gid k.id ring
        else s
      | _, _ => s
    | none => s

/-- Chunks done by this member: partial results are listed at q, final ones at 64 + q. -/
def RingState.hasChunk (x : RingState) (q : Nat) : Bool := x.chunks.any fun c => decide (c.1 = q)

/-- Whether a COLL has met every chunk it takes part in. -/
def Cmd.collDone (k : Cmd) (x : RingState) : Bool :=
  let m := k.cfg.m
  let p := k.cfg.pos
  let partials := (List.range m).all fun q => decide ((q + 1) % m = p) || x.hasChunk q
  let finals := (List.range m).all fun q => decide (q = p) || x.hasChunk (64 + q)
  match k.param 15 with
  | 0 => partials && finals
  | 1 => partials
  | _ => finals

/-- Whether a running command has all it waits for: its tile and acknowledgement, or its chunks. -/
def Cmd.whole (k : Cmd) (x : RingState) : Bool :=
  if k.param 15 = 3 then decide (k.param 16 = 1) && (x.tileOf k).isSome else k.collDone x

/-- RING_TIMEOUT: RINGTMO base cycles after acceptance, 4,096 at least (R444), without a tile or an acknowledgement. -/
def execRingTimeout (ring : Nat) (s : State) : Host.Outcome State Fault Refusal :=
  ringEvent s ring fun s =>
    match s.ringHead ring with
    | some (_, k) =>
      if k.param 2 = 1 ∧ k.whole (s.ringAt ring) = false ∧ k.param 14 + max 4096 (s.mg Mgmt.ringtmo % 2 ^ 32) ≤ s.base then s.ringFail ring 1
      else s
    | none => s

/-- BREAK_RECEIVED for the revolution the ring runs. -/
def execBreakReceived (ring rev : Nat) (s : State) : Host.Outcome State Fault Refusal :=
  ringEvent s ring fun s =>
    let x := s.ringAt ring
    if x.ready && decide (x.revNo = rev % 2 ^ 16) then s.ringFail ring 1 else s

/-! ## COLL's events (R449) -/

/-- ⊕ on one element. -/
def combine (elem op a b : Nat) : Nat :=
  if elem = 3 then
    let x := sintOf 32 a
    let y := sintOf 32 b
    wrapTo 32 (match op with
      | 0 => x + y
      | 1 => min x y
      | _ => max x y)
  else
    let f : Fmt := if elem = 0 then .f32 else if elem = 1 then .bf16 else .f16
    match op with
    | 0 => (deliver f 0 0 false false (exAdd 0 (f.decode false a) (f.decode false b)).1).1
    | 1 => (minMax f false false a b).1
    | _ => (minMax f true false a b).1

/-- ⊕ on a chunk's bytes. -/
def combineBytes (elem op : Nat) : Nat → List Byte → List Byte → List Byte
  | 0, _, _ => []
  | fuel + 1, a, b =>
    let n := elemSize elem
    if a.isEmpty then [] else leBytes n (combine elem op (ofLe (a.take n)) (ofLe (b.take n))) ++ combineBytes elem op fuel (a.drop n) (b.drop n)

/-- What a neighbour's chunk says of its command: phase (1 a final value), KIND, ELEM, OP, COUNT. -/
def collParams (phase kind elem op count : Nat) : Nat := phase + 2 * (kind + 4 * (elem + 4 * (op + 4 * count)))

/-- Byte offset and length of chunk q in a vector of all C elements. -/
def Cmd.chunk (k : Cmd) (q : Nat) : Nat × Nat :=
  let es := elemSize (k.param 7)
  let lo := chunkAt (k.param 4) k.cfg.m q
  (es * lo, es * (chunkAt (k.param 4) k.cfg.m (q + 1) - lo))

/-- A final value of chunk q goes to its row. -/
def Cmd.setRow (k : Cmd) (q : Nat) (bs : List Byte) : Cmd := { k with rows := modifyAt (fun _ => .done bs) q k.rows }

/-- A mismatch: the command ends, its DST untouched, and the ring breaks (R449, R450). -/
def State.mismatch (s : State) (ring : Nat) : State := s.ringFail ring 2

/-- COLLECTIVE_CHUNK_ARRIVAL: a neighbour's partial value of chunk q is combined with this member's, a final one kept;
differing parameters are a mismatch. -/
def execCollectiveChunkArrival (ring chunk params : Nat) (data : List Byte) (s : State) : Host.Outcome State Fault Refusal :=
  ringEvent s ring fun s =>
    match s.ringHead ring with
    | none => s
    | some (gid, k) =>
      if k.param 2 ≠ 1 ∨ k.param 15 = 3 then s
      else
        let x := s.ringAt ring
        let phase := params % 2
        let m := k.cfg.m
        let p := k.cfg.pos
        if params ≠ collParams phase (k.param 15) (k.param 7) (k.param 8) (k.param 4) then s.mismatch ring
        else if m ≤ chunk ∨ data.length ≠ (k.chunk chunk).2 ∨ x.hasChunk (64 * phase + chunk) = true then s
        else
          match s.anyGang? gid with
          | none => s
          | some g =>
            if phase = 1 then
              if chunk = p ∨ k.param 15 = 1 then s
              else (s.setRing ring { x with chunks := x.chunks ++ [(64 + chunk, data)] }).setAnyGang (g.setCmd (k.setRow chunk data))
            else if (chunk + 1) % m = p ∨ k.param 15 = 2 then s
            else
              match s.ringSrc g k (k.chunk chunk).1 (k.chunk chunk).2 with
              | (s', .error f) => s'.ringSourceFault gid ring k f
              | (s', .ok mine) =>
                let y := combineBytes (k.param 7) (k.param 8) data.length data mine
                let s' := s'.setRing ring { x with chunks := x.chunks ++ [(chunk, y)] }
                match s'.anyGang? gid with
                | some g' => s'.setAnyGang (g'.setCmd (if chunk = p then k.setRow chunk y else k))
                | none => s'

/-- COLLECTIVE_COMPLETE: every chunk done, the results written, then the status word. -/
def execCollectiveComplete (ring : Nat) (s : State) : Host.Outcome State Fault Refusal :=
  ringEvent s ring fun s =>
    match s.ringHead ring with
    | none => s
    | some (gid, k) =>
      if k.param 2 ≠ 1 ∨ k.param 15 = 3 ∨ k.collDone (s.ringAt ring) = false then s
      else
        match s.anyGang? gid with
        | none => s
        | some g =>
          -- an all-gather's own chunk, and the chunk whose sum this member began, come from SRC
          match if k.param 15 = 2 then s.ringSrc g k 0 (k.chunk k.cfg.pos).2 else (s, .ok []) with
          | (s', .error f) => s'.ringSourceFault gid ring k f
          | (s', .ok mine) =>
            let k := if k.param 15 = 2 then k.setRow k.cfg.pos mine else k
            match s'.anyGang? gid with
            | none => s'
            | some g' =>
              let x := s'.ringAt ring
              let s' := (s'.setRing ring { x with chunks := [] }).setAnyGang (g'.setCmd { k with built := true })
              s'.ringFinish gid k.id ring

end Sys2Proof.Machine
end

