-- ==== Sys2Proof/Machine/Land.lean ====
section
/-! DEFINITION. Events of accepted work: acceptance of a waiting command, landings, completions, replays, tile
operations, matrix batches, HEAT additions (12 R308 to R319; 13 R341, R343, R359; 14 R376, R377; 15 R386 to R392). -/

namespace Sys2Proof.Machine

open Sys2Proof

/-! ## COMMAND_ACCEPT (R314) -/

/-- An engine command's meaning. -/
def acceptOf : Instr → Option (State → Host.Outcome State Fault Refusal)
  | .cpy a d r w => some (execCpy a d r w)
  | .cpym d a da sa w => some (execCpym d a da sa w)
  | .kvcpy a d r w => some (execKvcpy a d r w)
  | .cpst a w => some (execCpst a w)
  | .frame a e w => some (execFrame a e w)
  | .sread a d w => some (execSread a d w)
  | .mxdrainReg t n z f => some (execMxdrainReg t n z f)
  | .mxdrainScratch t hs he z f => some (execMxdrainScratch t hs he z f)
  | .gath t a d l w => some (execGath t a d l w)
  | .gath2 t i a d l w => some (execGath2 t i a d l w)
  | .gath3 t i a d l w => some (execGath3 t i a d l w)
  | .scat t a r l w => some (execScat t a r l w)
  | .scata t a r l w => some (execScata t a r l w)
  | .nzscan a l v w => some (execNzscan a l v w)
  | .evsel m a h l => some (execEvsel m a h l)
  | .coll a k => some (execColl a k)
  | .ring a => some (execRing a)
  | _ => none

/-- COMMAND_ACCEPT: a strand that waits at acceptance issues its command again. -/
def execCommandAccept (gang slice : Nat) (s : State) : Host.Outcome State Fault Refusal :=
  match (s.gang? gang).bind fun g => g.strand? slice with
  | some st => if st.wait = .accept then s.issueWith gang slice acceptOf else .next s
  | none => .next s

/-! ## LINE_LANDING (R315, R386 to R391) -/

/-- The lists and descriptors of a command read, so that its lines and rows are known. -/
def State.build (s : State) (g : Gang) (k : Cmd) : State × Cmd :=
  if k.built then (s, k)
  else
    match k.kind with
    | .gath | .scat | .scata => s.buildGath g k
    | .nzscan => s.scan g k
    | .evsel => s.evselBuild g k
    | .frame => s.buildFrame g k
    | _ => (s, k)

/-- Kinds that the ring events and the matrix engine land. -/
def CmdKind.elsewhere : CmdKind → Bool
  | .ring | .coll | .mxv => true
  | _ => false

/-- Rows that a drain or a storage read must have before a line of it lands. -/
def Cmd.rowsReady (k : Cmd) (l : Landing) : Bool :=
  (decide (k.kind ≠ .drain) && decide (k.kind ≠ .sread)) || l.rowsOf.all fun r => match k.rows[r]? with
    | some (.done _) => true
    | _ => false

/-- The rows of a gather that a line needs, read. -/
def State.readRows (s : State) (g : Gang) (k : Cmd) (l : Landing) : State × Cmd :=
  if k.kind = .gath then l.rowsOf.foldl (fun (r : State × Cmd) n => r.1.readRow g r.2 (gathOf k.params) n) (s, k) else (s, k)

/-- How a scatter-add combines a word with what stands there. -/
def Cmd.combines (k : Cmd) : Option (Nat → Nat → Nat) :=
  if k.kind = .scata then some (scataWord (gathOf k.params).fmt) else none

/-- Line number `n` of a built command lands, or its failing access stops the command. -/
def State.landOne (s : State) (g : Gang) (k : Cmd) (l : Landing) : State :=
  let r := s.readRows g k l
  let s := r.1.setAnyGang (g.setCmd r.2)
  match s.landLineOf g.gid r.2 l r.2.combines with
  | (s', none) => s'
  | (s', some f) =>
    match s'.anyGang? g.gid with
    | some g' => s'.setAnyGang (g'.setCmd { r.2 with fault := some f.toStatus })
    | none => s'

/-- LINE_LANDING. The first one reads the lists of a command that has any; what a line needs of the L2 slices waits for a
context of their gather units (15 R392). -/
def execLineLanding (gang cmd line : Nat) (s : State) : Host.Outcome State Fault Refusal :=
  onCmd s gang cmd fun g k =>
    if k.kind.elsewhere || k.stopped || g.frozen k.kind then s
    else
      let (s1, k1) := s.build g k
      if k1.stopped then s1.setAnyGang (g.setCmd k1)
      else
        match k1.lines.find? fun l => decide (l.id = line) with
        | none => if k.built then s else s1.setAnyGang (g.setCmd k1)
        | some l =>
          if !k1.built || l.written || !k1.frameTurn l || !k1.rowsReady l then s
          else
            let s2 := s1.setAnyGang (g.setCmd k1)
            let turn := s2.gatherTurn (g.setCmd k1) k1 l
            if turn.2 then turn.1.landOne (g.setCmd k1) k1 l else turn.1

/-! ## COMMAND_COMPLETE (R308) -/

/-- A drain to scratch reports the flags of its tile operation, which goes; a faulted one keeps it for its replay. -/
def Gang.drainDone (g : Gang) (k : Cmd) : Gang :=
  if k.kind = .drain ∧ (k.fault = none ∨ g.isLive = false) then
    { g.showFlags ((g.tileOps.filter fun o => decide (o.id = k.id)).foldl (fun a o => a ||| o.flags) 0) with
      tileOps := g.tileOps.filter fun o => o.id ≠ k.id }
  else g

/-- COMMAND_COMPLETE. -/
def execCommandComplete (gang cmd : Nat) (s : State) : Host.Outcome State Fault Refusal :=
  onCmd s gang cmd fun g k =>
    if k.kind.elsewhere || k.replay || g.frozen k.kind then s
    else
      let (s1, k1) := s.build g k
      if k1.finished then s1.complete (g.drainDone k1) k1 else s

/-! ## Tile operations (R341 to R343, R359) -/

/-- The v registers and the tile that a drain to registers leaves, with the flags of what it delivered and its draws. -/
def State.drainRegs (s : State) (g : Gang) (op : TileOp) : Gang :=
  let p (n : Nat) : Nat := op.params.getD n 0
  let n := p 0
  let f := p 1
  let takes (k j : Nat) : Bool := (g.thread k j).live && bitOf (p 5) (4 * k + j)
  let regs := Accept.drainRegs (BitVec.ofNat 4 f)
  let lane (r : Nat) : LaneFn := fun k j =>
    if takes k j then some (s.drainRegsOf g op (k / 8) (4 * (k % 8) + j) r) else none
  let wrote := (List.range regs).foldl (fun (x : Gang) r => x.writeV (List.range g.slices.length) (n + r) (lane r)) g
  let flags := g.halves.foldl (fun a h =>
    ((s.drainPlain g h f (p 3) (decide (p 4 = 1)) (g.tile (op.tiles.getD h 0))).filter fun e =>
      let t := 2 * e.1.1 + e.1.2 / 8
      takes (8 * h + t / 4) (t % 4)).foldl (fun a e => a ||| e.2.2) a) (0 : BitVec 5)
  let drawn := if p 3 = 5 ∧ f ≠ 0 then g.halves.foldl (fun (x : Gang) h => x.drainDraws h (List.range 32)) wrote else wrote
  drawn.showFlags flags

/-- Registers spilled, those that a drain writes apart, until what it leaves fits the rows of the gang's slices (06 R149, R150). -/
def State.drainRoom (s : State) (gid : Nat) (op : TileOp) : Nat → State
  | 0 => s
  | n + 1 =>
    match s.gang? gid with
    | none => s
    | some g =>
      if g.active = false ∨ (s.drainRegs g op).fits (s.tmplOf g).budget = true then s
      else
        match g.victim (vCodes (op.params.getD 0 0) (Accept.drainRegs (BitVec.ofNat 4 (op.params.getD 1 0)))) with
        | some code => (s.spillReg gid code).drainRoom gid op n
        | none => s

/-- The bytes of a drain to scratch by line, its flags and draws. Elements of the two halves or of one half that meet are
written in an order that free values choose. -/
def State.drainOut (s : State) (g : Gang) (op : TileOp) : State × Gang × BitVec 5 :=
  let ds := g.halves.map fun h => (h, s.drainHalf g op h)
  let ws := ds.flatMap fun d => d.2.writes
  let clash := overlapping ws
  let ordered := if clash then freePerm ws.length s.free ws else ws
  let free := if clash then s.free + ws.length else s.free
  let rows (k : Cmd) : Cmd := if k.id = op.id then { k with rows := s.drainRows g k ordered } else k
  let g1 := ds.foldl (fun (x : Gang) d => x.drainDraws d.1 d.2.drew) g
  ({ s with free := free }, { g1 with cmds := g1.cmds.map rows }, ds.foldl (fun a d => a ||| d.2.flags) 0)

def Gang.setTiles (g : Gang) (l : List (Nat × Sparse W32)) : Gang := l.foldl (fun (x : Gang) t => x.setTile t.1 t.2) g

/-- Tile `i` of the operation in each half made by `f`. -/
def Gang.retile (g : Gang) (op : TileOp) (f : Nat → Sparse W32) : Gang :=
  g.setTiles (g.halves.map fun h => (op.tiles.getD h 0, f h))

def Gang.dropOp (g : Gang) (id : Nat) : Gang := { g with tileOps := g.tileOps.filter fun o => o.id ≠ id }

/-- The operation complete and kept until its fence's batch or its command reports it. -/
def Gang.keepOp (g : Gang) (op : TileOp) (flags : BitVec 5) (fault : Option Status) : Gang :=
  { g with tileOps := g.tileOps.map fun o => if o.id = op.id then { o with done := true, flags := flags, fault := fault } else o }

/-- MXV's stream: the outputs, or the fault that stops it with no tile written (R354). -/
def State.streamMxv (s : State) (g : Gang) (op : TileOp) : State × Gang × BitVec 5 × Option Status :=
  let x := mxvWord (op.params.getD 0 0)
  match s.readWeights g (op.params.getD 1 0) x.bytes (decide (x.fmt = 8)) with
  | .error f => (s, g, 0, some f.toStatus)
  | .ok (s1, w) =>
    let rs := g.halves.map fun h => mxvTiles g x w h
    (s1, g.setTiles (rs.flatMap fun r => r.1), rs.foldl (fun a r => a ||| r.2) 0, none)

/-- What a tile operation does when the engine completes it. -/
def State.tileOp (s : State) (g : Gang) (op : TileOp) : State × Gang :=
  match op.kind with
  | .mma | .mmag =>
    let r := g.halves.map fun h => s.mmaTile g op h
    (s, (g.setTiles (g.halves.map fun h => (op.tiles.getD h 0, (r.getD h ([], 0)).1))).keepOp op (r.foldl (fun a x => a ||| x.2) 0) none)
  | .mxscale =>
    let r := g.halves.map (scaleTile g op)
    (s, (g.setTiles (g.halves.map fun h => (op.tiles.getD h 0, (r.getD h ([], 0)).1))).keepOp op (r.foldl (fun a x => a ||| x.2) 0) none)
  | .mxv =>
    let (s1, g1, fl, ft) := s.streamMxv g op
    (s1, g1.keepOp op fl ft)
  | .mxzero => (s, (g.retile op fun _ => []).dropOp op.id)
  | .mxload => (s, (g.retile op fun _ => s.loadTile g op).dropOp op.id)
  | .amask => (s, (g.retile op (maskTile g op)).dropOp op.id)
  | .asoft => (s, (g.setTiles (g.halves.flatMap (softTiles g op))).dropOp op.id)
  | .heat => (s, { g.dropOp op.id with heats := g.heats ++ mapI (fun i (x : HeatAdd) => { x with id := 64 * op.id + i }) 0 (s.heatAdds g op) })
  | .drainReg =>
    let g1 := s.drainRegs g op
    (s, (if op.params.getD 2 0 = 1 then g1.retile op fun _ => [] else g1).dropOp op.id)
  | .drainScratch =>
    let (s1, g1, fl) := s.drainOut g op
    (s1, (if op.params.getD 2 0 = 1 then g1.retile op fun _ => [] else g1).keepOp op fl none)

/-- Whether an earlier operation of the gang on one of its tiles is not complete. -/
def Gang.opWaits (g : Gang) (op : TileOp) : Bool :=
  (g.tileOps.takeWhile fun o => o.id ≠ op.id).any fun o => !o.done && meets o.tiles op.tiles

/-- Kinds whose record can hold a fault. -/
def TileKind.recorded : TileKind → Bool
  | .mma | .mmag | .mxv | .mxscale => true
  | _ => false

/-- Whether an operation reads a line of the scratchpad that an uncorrectable error has spoilt (10 R267). -/
def State.linesSpoilt (s : State) (g : Gang) (op : TileOp) : Bool :=
  op.fault.isSome || op.lines.any fun l => decide (Sparse.get [] op.snap l = []) && s.spoilt (s.localPlace g 1 (128 * l))

/-- An operation that meets a tile or a scratch line spoilt by an uncorrectable error (18 R454): one that makes its tiles
anew mends them; one with a record of its own faults with status POISON; any other leaves what it would have written
spoilt as well. -/
def State.spoiltOp (s : State) (g : Gang) (op : TileOp) : State × Gang :=
  let spoil (l : List EccTarget) : State := { s with damaged := (s.damaged ++ l).eraseDups }
  match op.kind with
  | .mxzero | .mxload =>
    if s.linesSpoilt g op then (spoil (op.tiles.map (EccTarget.tile g.gid)), g.dropOp op.id)
    else
      let t := { s with damaged := s.damaged.filter fun d => !op.tiles.any fun n => decide (d = EccTarget.tile g.gid n) }
      t.tileOp g op
  | .drainReg =>
    (spoil ((vCodes (op.params.getD 0 0) (Accept.drainRegs (BitVec.ofNat 4 (op.params.getD 1 0)))).map (EccTarget.row g.gid)), g.dropOp op.id)
  | .drainScratch =>
    let fail (k : Cmd) : Cmd := if k.id = op.id then { k with fault := some Status.poison } else k
    (s, { g.keepOp op 0 none with cmds := g.cmds.map fail })
  | k =>
    if k.recorded then (s, g.keepOp op 0 (some Status.poison))
    else (spoil (op.tiles.map (EccTarget.tile g.gid)), g.dropOp op.id)

/-- What an operation meets that an uncorrectable error has spoilt. -/
def State.opSpoilt (s : State) (g : Gang) (op : TileOp) : Bool :=
  (op.tiles.any fun n => s.damaged.contains (EccTarget.tile g.gid n)) || s.linesSpoilt g op

/-- A tile operation performed. -/
def State.runOp (s : State) (g : Gang) (op : TileOp) : State × Gang :=
  if s.opSpoilt g op then s.spoiltOp g op else s.tileOp g op

/-- One tile operation completed; a fault that no fence can report any more is reported at once (R343, R312). -/
def State.tileStep (s : State) (g : Gang) (op : TileOp) : State :=
  if op.done || g.opWaits op then s
  else
    let s := if op.kind = .drainReg then s.drainRoom g.gid op 0xA0 else s
    let (s1, g1) := s.runOp ((s.anyGang? g.gid).getD g) op
    let lost := if g1.isLive then [] else g1.tileOps.filterMap (openReport g1 (s1.tmplOf g1).asid)
    let calm (o : TileOp) : TileOp := if !g1.isLive && o.isOpen then { o with fault := none } else o
    lost.foldl State.report (s1.setAnyGang { g1 with tileOps := g1.tileOps.map calm }.retire)

/-- TILE_OP_COMPLETE. -/
def execTileOpComplete (gang id : Nat) (s : State) : Host.Outcome State Fault Refusal :=
  match s.anyGang? gang with
  | none => .next s
  | some g =>
    match g.tileOps.find? fun o => decide (o.id = id) with
    | some op => .next (s.tileStep g op)
    | none => .next s

/-! ## Batches (R343) -/

/-- The record of a batch: the first fault among its operations; `params` holds the operations that faulted (DEDUCED, log 61). -/
def Batch.record (b : Batch) (bad : List TileOp) : Cmd :=
  { id := b.id, kind := .mxv, path := .mx, scope := 3, cache := 0, lcreg := none, lines := [], rows := [], pc := b.pc, word := b.word
    params := bad.map fun o => o.id, entries := [], built := true, replay := false, fault := bad.head?.bind fun o => o.fault
    bounded := none, born := 0, order := 0 }

/-- BATCH_COMPLETE. -/
def execBatchComplete (gang id : Nat) (s : State) : Host.Outcome State Fault Refusal :=
  match s.anyGang? gang with
  | none => .next s
  | some g =>
    match g.batches.find? fun b => decide (b.id = id) with
    | none => .next s
    | some b =>
      let mine := g.tileOps.filter fun o => b.ops.contains o.id
      if mine.all fun o => o.done then
        let bad := mine.filter fun o => o.fault.isSome
        let k := b.record bad
        let g := { g.showFlags (mine.foldl (fun a o => a ||| o.flags) 0) with
          batches := g.batches.filter fun x => x.id ≠ id
          tileOps := g.tileOps.filter fun o => !b.ops.contains o.id || (o.fault.isSome && g.isLive) }
        let (s, g) := s.recordOf g k (g.issuedAfter k)
        .next (s.setAnyGang g.retire)
      else .next s

/-! ## HEAT_ADD (14 R377) -/

def execHeatAdd (gang id : Nat) (s : State) : Host.Outcome State Fault Refusal :=
  match s.anyGang? gang with
  | none => .next s
  | some g =>
    match g.heats.find? fun x => decide (x.id = id) with
    | some x => .next ((s.setAnyGang { g with heats := g.heats.filter fun y => y.id ≠ id }).heatPerform x)
    | none => .next s

/-! ## COMMAND_REPLAY_COMPLETE (R311) -/

/-- A faulted operation performed again, its sources read afresh. -/
def State.rerunOp (s : State) (g : Gang) (op : TileOp) : State × Gang := s.runOp g { op with fault := none, snap := [] }

/-- The faulted matrix operations of a batch performed again. -/
def State.replayMxv (s : State) (gid : Nat) (k : Cmd) : State × Cmd :=
  k.params.foldl (fun (r : State × Cmd) id =>
    match r.1.anyGang? gid with
    | none => r
    | some g =>
      match g.tileOps.find? fun o => decide (o.id = id) with
      | none => r
      | some op =>
        let (s1, g1) := r.1.rerunOp g op
        match (g1.tileOps.find? fun o => decide (o.id = id)).map fun o => (o.fault, o.flags) with
        | some (some st, _) => (s1.setAnyGang g1, { r.2 with fault := some (r.2.fault.getD st) })
        | some (none, fl) => (s1.setAnyGang ((g1.dropOp id).showFlags fl), { r.2 with params := r.2.params.filter fun x => x ≠ id })
        | none => (s1.setAnyGang g1, r.2))
    (s, k)

/-- A ring command's destination and status word written again; a step that never completed stays broken (18 R450). -/
def State.replayRing (s : State) (gid : Nat) (k : Cmd) : State × Cmd :=
  let whole := k.built && k.rows.all fun r => match r with
    | .done _ => true
    | _ => false
  let landed := if whole then s.landAll gid k.id (k.lines.filter fun l => !l.written) else (s, none)
  match landed with
  | (s1, some f) => (s1, { k with fault := some f.toStatus })
  | (s1, none) =>
    match s1.anyGang? gid with
    | none => (s1, k)
    | some g =>
      let x := s1.ringAt (k.param 1)
      let rev := if k.param 15 = 3 then k.param 6 else x.revNo
      match s1.gangWrite g (k.param 13) (leBytes 8 (ringWord (if whole then 0 else 1) x.lastStep rev)) with
      | .error f => (s1, { k with fault := some f.toStatus })
      | .ok s2 => (s2, k)

/-- COMMAND_REPLAY_COMPLETE. -/
def execCommandReplayComplete (gang cmd : Nat) (s : State) : Host.Outcome State Fault Refusal :=
  onCmd s gang cmd fun g k =>
    if !k.replay then s
    else if k.isRing && !k.built then s
    else if k.kind.elsewhere then
      let (s1, k1) := if k.kind = .mxv then s.replayMxv gang k else s.replayRing gang k
      match s1.anyGang? gang with
      | some g1 => s1.replayDone g1 k1
      | none => s1
    else if g.frozen k.kind then s
    else
      match g.tileOps.find? fun o => decide (k.kind = .drain) && decide (o.id = k.id) && k.fault.isNone && k.rows.contains (.entry 0) with
      | some op =>
        let (s1, g1) := s.rerunOp g op
        s1.setAnyGang g1
      | none =>
        let (s1, k1) := s.build g k
        if k1.finished then s1.replayDone (g.drainDone k1) k1 else s

end Sys2Proof.Machine
end

