-- ==== Sys2Proof/Machine/Faults.lean ====
section
/-! DEFINITION. The system fault queue, replies, pre-emption requests and halting (17 R427 to R435). -/

namespace Sys2Proof.Machine

open Sys2Proof

/-! ## Records (R429, R430) -/

/-- The 64 bytes of a record. -/
def recordBytes (r : Report) (reply : Bool) (seq : Nat) : List Byte :=
  leBytes 1 r.info.kind ++ leBytes 1 r.info.reason ++ leBytes 1 (r.info.flags + b2n reply) ++ leBytes 1 r.part ++ leBytes 2 r.core ++
  leBytes 2 r.asid ++ leBytes 8 r.grid ++ leBytes 4 r.team ++ leBytes 1 r.gang ++ leBytes 3 0 ++ leBytes 8 r.info.pc ++
  leBytes 8 r.info.addr ++ leBytes 8 r.info.word ++ leBytes 8 r.info.arg ++ leBytes 8 seq

/-- Every gang there is, those of saved teams among them. -/
def State.allGangs (s : State) : List Gang := s.gangs ++ s.saved.flatMap fun v => v.gangs

/-- A gang's fault that has not been posted. -/
def State.unposted (s : State) (g : Gang) : Option (Report × Option Nat) :=
  g.fault.bind fun f => if f.seq.isNone then some (g.named f.info (s.tmplOf g).asid f.order, some g.gid) else none

/-- The record that comes next in the arbiter's order, with the gang that awaits a reply to it. -/
def State.nextRecord (s : State) : Option (Report × Option Nat) :=
  match (s.reports.map fun r => (r, none)) ++ s.allGangs.filterMap s.unposted with
  | [] => none
  | x :: l => some (l.foldl (fun a b => if b.1.order < a.1.order then b else a) x)

/-- Entries of the queue, 0 while it takes none. -/
def State.fqSize (s : State) : Nat :=
  let b := s.mg Mgmt.fqbase
  if bitOf b 63 && decide (field b 3 0 ≤ 10) then 2 ^ (field b 3 0 + 6) else 0

def State.fqRoom (s : State) : Bool :=
  decide (0 < s.fqSize) && decide ((s.fqprod + 2 ^ 32 - s.mg Mgmt.fqcons % 2 ^ 32) % 2 ^ 32 ≠ s.fqSize)

/-- FAULT_RECORD_POST: the next record written and PROD raised, where the queue has room. -/
def execFaultRecordPost (s : State) : Host.Outcome State Fault Refusal :=
  match s.nextRecord with
  | none => .next s
  | some (r, who) =>
    if !s.fqRoom then .next s
    else
      let i := s.fqprod
      let at' := field (s.mg Mgmt.fqbase) 51 12 * 2 ^ 12 + 64 * (i % s.fqSize)
      let s := (s.arbitrate 0 20).performWrites none (physWrites at' (recordBytes r who.isSome i))
      let s := { s with fqprod := (i + 1) % 2 ^ 32 }
      match who with
      | none =>
        let s := { s with reports := s.reports.filter fun x => x.order ≠ r.order }
        .next s
      | some gid =>
        match s.anyGang? gid with
        | none => .next s
        | some g =>
          let mark (f : GangFault) : GangFault := { f with seq := some i }
          let p : Posted := { seq := i, gang := gid }
          let s := { s with posted := s.posted ++ [p] }
          .next (s.setAnyGang { g with fault := g.fault.map mark })

/-! ## Replies (R431) -/

/-- Whether an action (0 REPLAY, 1 ABORT, 2 CONTINUE) is allowed for a kind (R427). -/
def replyAllowed (kind action : Nat) : Bool := if action = 2 then decide (kind = 9) else decide (kind ≤ 6) || decide (kind = 9)

/-- REPLAY: the gang issues its instruction again, or the command that faulted runs again first (R311, R427, R428). -/
def State.replay (s : State) (g : Gang) (f : GangFault) : State :=
  match f.cmd with
  | some (owner, id) =>
    match (s.anyGang? owner).bind fun o => (o.records.find? fun r => decide (r.cmd.id = id)).map fun r => (o, r) with
    | some (o, r) => { s with seq := s.seq + 1 }.setAnyGang { o with cmds := o.cmds ++ [s.retry r.cmd] }
    | none => s.setAnyGang { g with fault := none }
  | none =>
    if f.info.kind = 6 ∧ f.info.reason = 2 then s.setAnyGang { g with fault := none, watchdog := 0, limitRaised := false }
    else s.setAnyGang { g with fault := none }

/-- CONTINUE: SYSC's destination written, its strand goes on after it (R426). -/
def State.continueSysc (s : State) (g : Gang) (f : GangFault) : State :=
  let v := w64 (s.mg Mgmt.fqrval)
  let g := match f.sd with
    | some n => g.setS n v (exact64 v)
    | none => g
  let next (st : Strand) : Strand := if st.slices.contains f.slice then { st with pc := f.next, wait := .none } else st
  s.setAnyGang { g with fault := none, strands := g.strands.map next }

/-- A reply applied to the gang it is for. -/
def State.applyReply (s : State) (gid action : Nat) : State :=
  match (s.anyGang? gid).bind fun g => g.fault.map fun f => (g, f) with
  | none => s
  | some (g, f) =>
    match action with
    | 0 => s.replay g f
    | 1 => (s.abortGrid g.grid).sweep
    | _ => s.continueSysc g f

def State.isSaved (s : State) (gid : Nat) : Bool := s.saved.any fun v => v.gangs.any fun g => decide (g.gid = gid)

/-- A write to FQREPLY: applied once, kept back while the gang is halted or saved, ignored where it is not allowed. -/
def reply (s : State) (seq action : Nat) : Host.Outcome State Fault Refusal :=
  match s.posted.find? fun p => decide (p.seq = seq % 2 ^ 32) with
  | none => .next s
  | some p =>
    match (s.anyGang? p.gang).bind fun g => g.fault.map fun f => (g, f) with
    | none => .next s
    | some (g, f) =>
      if !replyAllowed f.info.kind action then .next s
      else
        let s := { s with posted := s.posted.filter fun x => x.seq ≠ p.seq }
        if s.isSaved p.gang || decide (∃ e, g.halt = .halted e) then
          .next (s.setAnyGang { g with fault := some { f with reply := some action } })
        else .next (s.applyReply p.gang action)

def execReplyReplay (seq : Nat) (s : State) : Host.Outcome State Fault Refusal := reply s seq 0
def execReplyAbort (seq : Nat) (s : State) : Host.Outcome State Fault Refusal := reply s seq 1
def execReplyContinue (seq : Nat) (s : State) : Host.Outcome State Fault Refusal := reply s seq 2

/-- The latches that a halt saved are valid again (04 R87). -/
def Gang.relatch (g : Gang) : Gang :=
  { g with latches := [], slices := mapI (fun k (sl : Slice) => { sl with latValid := g.latches.getD k sl.latValid }) 0 g.slices }

/-- A gang that resumes after a halt: its latches are valid as they were, a reply kept back is applied. -/
def State.resumeGang (s : State) (gid : Nat) : State :=
  match s.anyGang? gid with
  | none => s
  | some g =>
    let s := s.setAnyGang { g.relatch with halt := .running }
    match g.fault.bind fun f => f.reply with
    | some action => s.applyReply gid action
    | none => s

/-! ## Pre-emption requests (R433, R435) -/

/-- A gang that a request finds: EVICT upgrades a HALT. -/
def Gang.request (g : Gang) (evict : Bool) : Gang :=
  match g.halt with
  | .running => { g with halt := .halting evict }
  | .halting e => { g with halt := .halting (e || evict) }
  | .halted e => { g with halt := .halted (e || evict) }

/-- The gangs of a grid that a request names, those of saved teams among them. -/
def State.targetsOf (s : State) (grid : Nat) : List Gang :=
  s.allGangs.filter fun g => decide (g.grid = grid) && g.isLive

def preempt (s : State) (grid : Nat) (evict : Bool) : State :=
  let ids := (s.targetsOf grid).map fun g => g.gid
  { s with
    preemptReq := (if evict then 2 else 1, grid)
    haltTargets := ids
    gangs := s.gangs.map fun g => if ids.contains g.gid then g.request evict else g }

def execPreemptHalt (grid : Nat) (s : State) : Host.Outcome State Fault Refusal := .next (preempt s grid false)
def execPreemptEvict (grid : Nat) (s : State) : Host.Outcome State Fault Refusal := .next (preempt s grid true)

/-- RELEASE: gangs halted by HALT go on (DEDUCED, log 71). -/
def execPreemptRelease (grid : Nat) (s : State) : Host.Outcome State Fault Refusal :=
  let ids := ((s.targetsOf grid).filter fun g => decide (g.halt = .halted false)).map fun g => g.gid
  .next (ids.foldl State.resumeGang { s with preemptReq := (3, grid) })

def Gang.isHalted (g : Gang) : Bool := decide (∃ e, g.halt = .halted e)

/-- PREEMPTSTAT: BUSY and HALTED (R433). A target that has died counts no more; a saved one counts as halted. -/
def State.preemptStat (s : State) : Nat :=
  let going := s.haltTargets.any fun id => match s.gang? id with
    | some g => g.isLive && !g.isHalted
    | none => false
  let waiting := match s.preemptReq.1 with
    | 1 => going
    | 2 => s.haltTargets.any fun id => match s.gang? id with
      | some g => g.isLive && decide (g.halt ≠ .running)
      | none => false
    | 3 => (s.targetsOf s.preemptReq.2).any fun g => decide (g.halt = .halted false)
    | _ => false
  b2n waiting * 2 ^ 63 + b2n (!s.haltTargets.isEmpty && !going) * 2 ^ 62

/-! ## Halting (R434) -/

/-- Waits that a halt leaves as they are: arrivals that count already, deadlines, a committed round. -/
def Wait.survives : Wait → Bool
  | .meet | .met | .resume | .barrier _ | .cluster _ | .gridBarrier | .sleep _ _ | .resample => true
  | _ => false

/-- GANG_HALTED: every strand is at a boundary; waits end, reservations are lost, a latch hold and the operand latch end,
an arrival in a round is withdrawn, the latches' validity is saved (R87, R434), the context area is written (12 R319). -/
def execGangHalted (gang : Nat) (s : State) : Host.Outcome State Fault Refusal :=
  match s.gang? gang with
  | none => .next s
  | some g =>
    match g.halt with
    | .halting e =>
      let s := s.withdraw gang
      let g := ((s.gang? gang).getD g).clearReservations
      let stop (st : Strand) : Strand := { st.endEmpty with hold := none, behind := none, wait := (if st.wait.survives then st.wait else .none) }
      let s := { s with
        opLatch := s.opLatch.filter fun x => x.2.1 ≠ gang + 1 }
      .next ((s.setGang { g with halt := .halted e, strands := g.strands.map stop, latches := g.slices.map fun sl => sl.latValid }).pokeFree
        ((s.bases g).flatMap contextCells))
    | _ => .next s

end Sys2Proof.Machine
end

