-- ==== Sys2Proof/Machine/Admit.lean ====
section
/-! DEFINITION. Admission, the distributor's pre-emption, teams saved and readmitted (05 R117 to R121; 17 R435 to R437). -/

namespace Sys2Proof.Machine

open Sys2Proof

/-! ## TEAM_ADMIT, CLUSTER_GROUP_ADMIT (R116 to R119) -/

/-- The active slot that a newly admitted gang takes, if it takes one (R118). -/
def enterSlot (s : State) (g : Gang) : Option Nat := if s.canEnter g then some (s.freeSlot g) else none

/-- The next teams admitted: one team (or a whole population) where `cluster` is false, else a cluster group. -/
def State.admitNext (s : State) (cluster : Bool) : State :=
  if !s.admitting then s
  else
    match s.nextAdmission with
    | some (w, places) => if w.tmpl.cluster = cluster ∧ s.savedFirst w.prio = false then s.seat enterSlot w places else s
    | none => s

def execTeamAdmit (s : State) : Host.Outcome State Fault Refusal := .next (s.admitNext false)
def execClusterGroupAdmit (s : State) : Host.Outcome State Fault Refusal := .next (s.admitNext true)

/-! ## Teams (R436) -/

def State.teamGangs (s : State) (t : Team) : List Gang :=
  s.gangs.filter fun g => decide (g.grid = t.grid) && decide (g.team = t.idx)

/-- The teams that are evicted and readmitted together: a cluster group, or the team alone (R433). -/
def State.together (s : State) (t : Team) : List Team :=
  match s.grid? t.grid with
  | some G => if G.tmpl.cluster then s.teams.filter fun x => decide (x.grid = t.grid) && decide (x.group = t.group) && !x.retired else [t]
  | none => [t]

def Gang.evicting (g : Gang) : Bool := decide (g.halt = .halting true) || decide (g.halt = .halted true)

/-- Teams that are on their way to a save record. -/
def State.leaving (s : State) : List Team := s.teams.filter fun t => !t.retired && (s.teamGangs t).any Gang.evicting

/-- Save records that no team holds. -/
def State.freeRecords (s : State) : List Nat :=
  if bitOf (s.mg Mgmt.savebase) 0 then (List.range 1024).filter fun r => !(s.saved.any fun v => decide (v.record = r)) else []

/-! ## DISTRIBUTOR_PREEMPT (R121) -/

def State.teamPrio (s : State) (t : Team) : Nat :=
  match s.grid? t.grid with
  | some G => G.prio
  | none => 0

/-- The machine as if some teams were gone. -/
def State.lessTeams (s : State) (ts : List Team) : State :=
  { s with
    teams := s.teams.filter fun t => !(ts.any fun x => decide (x.key = t.key))
    gangs := s.gangs.filter fun g => !(ts.any fun x => decide (x.grid = g.grid) && decide (x.idx = g.team)) }

/-- Sublists of `n` elements, those with earlier elements first. -/
def choose {α : Type} : Nat → List α → List (List α)
  | 0, _ => [[]]
  | _ + 1, [] => []
  | n + 1, a :: l => (choose n l).map (a :: ·) ++ choose (n + 1) l

/-- Lowest priority first, the most recently admitted first among equals. -/
def State.victimBefore (s : State) (a b : Team) : Bool :=
  decide (s.teamPrio a < s.teamPrio b) || (decide (s.teamPrio a = s.teamPrio b) && decide (b.key ≤ a.key))

def State.insertVictim (s : State) (t : Team) : List Team → List Team
  | [] => [t]
  | x :: l => if s.victimBefore t x then t :: x :: l else x :: s.insertVictim t l

/-- `n` more teams of a launch fit on one core. -/
def State.coreTakes (s : State) (w : Waiting) (core : Nat) : Nat → List Placed → Bool
  | 0, _ => true
  | n + 1, extra =>
    match s.place everyGang w.tmpl w.order extra [core] with
    | some p => s.coreTakes w core n (extra ++ [p])
    | none => false

/-- The fewest teams of lower priority on a core that make room for `n` teams of the launch. -/
def State.victimsOn (s : State) (w : Waiting) (core n : Nat) : List Team :=
  let low := (s.teams.filter fun t => decide (t.core = core) && !t.retired && decide (s.teamPrio t < w.prio)).foldl (fun l t => s.insertVictim t l) []
  let sets := (List.range (low.length + 1)).flatMap fun k => choose k low
  (sets.find? fun v => (s.lessTeams v).coreTakes w core n []).getD low

/-- Teams that a waiting launch pre-empts: none where it need not wait for more than teams already leaving (DEDUCED, log 72). -/
def State.victims (s : State) (w : Waiting) : List Team :=
  let s1 := s.lessTeams s.leaving
  let lower := s1.teams.filter fun t => !t.retired && decide (s1.teamPrio t < w.prio)
  if !w.preempt || !s.chipFree w || (s1.nextPlaces w).isSome then []
  else
    match (s1.lessTeams lower).nextPlaces w with
    | none => []
    | some places =>
      let cores := (places.map fun p => p.1).eraseDups
      ((cores.flatMap fun c => s1.victimsOn w c (places.filter fun p => decide (p.1 = c)).length).flatMap s1.together).eraseDups

/-- DISTRIBUTOR_PREEMPT: the first launch in the distributor's order that has teams to pre-empt; a free record each. -/
def execDistributorPreempt (s : State) : Host.Outcome State Fault Refusal :=
  match s.inOrder.find? fun w => !(s.victims w).isEmpty with
  | none => .next s
  | some w =>
    let v := s.victims w
    if v.length + s.leaving.length ≤ s.freeRecords.length then
      let mine (g : Gang) : Bool := g.isLive && v.any fun t => decide (t.grid = g.grid) && decide (t.idx = g.team)
      .next { s with gangs := s.gangs.map fun g => if mine g then g.request true else g }
    else .next s

/-! ## TEAM_SAVE (R344, R392, R319, R436) -/

def recordAt (s : State) (r : Nat) : Nat := field (s.mg Mgmt.savebase) 51 33 * 2 ^ 33 + r * 2 ^ 23

/-- Commands that are captured with their contexts, or that touch nothing of the core while they run on. -/
def Cmd.savable (k : Cmd) : Bool :=
  k.kind.copy || k.kind.scan || decide (k.kind = .frame) || decide (k.kind = .sread) ||
  (k.isRing && decide (k.param 11 = 0) && k.lines.all fun l => l.virt.isSome)

/-- A gang that can be saved: halted for EVICT, its accesses, tile operations and gather commands complete. -/
def Gang.savable (g : Gang) : Bool :=
  g.released ||
  (decide (g.halt = .halted true) && g.accesses.isEmpty && g.heats.isEmpty && (g.tileOps.all fun o => o.done) && g.cmds.all Cmd.savable)

/-- A SLEEP's deadline as the cycles that remain (DEDUCED, log 70). -/
def Strand.remaining (st : Strand) (now : Nat) : Strand :=
  match st.wait with
  | .sleep d next => { st with wait := .sleep (d - now) next }
  | _ => st

/-- Record offsets of a gang's images. -/
def State.saveBases (s : State) (record : Nat) (g : Gang) : List Nat :=
  g.halves.map fun h => recordAt s record + 0x20000 * (g.halves.length * g.g + h)

/-- A gang as its record holds it: what firn lost is free, every register is in the record. -/
def State.saveGang (s : State) (record : Nat) (g : Gang) : State × Gang :=
  if g.released then (s, g)
  else
    let g := s.scrambleChanged (if g.active then g else s.reloadAt g (s.bases g)) (s.bases g)
    let codes := (s.tmplOf g).codes
    let g := codes.foldl Gang.filled { g with images := [] }
    let s := { s with free := s.free + 2 ^ 17 }
    let bases := s.saveBases record g
    let r := s.writeImages g bases codes
    let whole : Gang := { g with slices := g.slices.map fun sl => { sl with below := sl.stack.length }
                                 strands := g.strands.map fun st => { st with below := st.ret.length } }
    (r.1.pokeFree (bases.flatMap innerCells ++ Gang.movedOut g.noEntries whole bases), { r.2 with
      active := false, parking := false, eligible := false, readySince := none, frames := [], parkQ := []
      strands := r.2.strands.map fun st => st.remaining (s.cycleOf g.core) })

/-- The state byte of a line (R236). -/
def lineState (p : Nat) (z : Bool) : Byte := BitVec.ofNat 8 (b2n (decide (p = 0)) + 2 * b2n z + 4 * p)

/-- The scratchpad and line states of a team as its record holds them: bytes by address. -/
def State.scratchCells (s : State) (record : Nat) (t : Team) : List (Nat × Byte) :=
  let base := recordAt s record
  ((List.range (4096 * t.blocks.length)).map fun i => (base + 0x400000 + i, t.byte i)) ++
  (List.range (32 * t.blocks.length)).map fun l =>
    (base + 0x440000 + l, lineState (Sparse.get 0 t.pending l) ((List.range 128).all fun i => decide (t.byte (128 * l + i) = 0)))

/-- One team written to a record and off its core. -/
def State.saveTeam (s : State) (t : Team) (record : Nat) : State :=
  let gangs := s.teamGangs t
  let ids := gangs.map fun g => g.gid
  let s := (s.near.filter fun n => ids.contains n.1.1).foldl State.writeBackNear s
  let r := gangs.foldl (fun (r : State × List Gang) g =>
    let x := r.1.saveGang record g
    (x.1, r.2 ++ [x.2])) (s, [])
  let s := (r.1.pokeCells (r.1.scratchCells record t)).pokeFree [(recordAt r.1 record + 0x441000, 0xF000)]
  let v : SavedTeam := { record := record, team := t, gangs := r.2, prio := s.teamPrio t }
  { s with
    saved := s.saved ++ [v]
    teams := s.teams.filter fun x => x.key ≠ t.key
    gangs := s.gangs.filter fun g => !ids.contains g.gid
    near := s.near.filter fun n => !ids.contains n.1.1
    token := s.token.filter fun e => !ids.any fun id => decide (e.2 = id + 1)
    pipes := s.pipes.filter fun e => !ids.any fun id => decide (e.2 = id + 1)
    first := s.first.filter fun e => !ids.contains e.2.1 }

/-- TEAM_SAVE: the teams that leave together are all halted and quiet, and a record is free for each. What the save reads from
firn may be poisoned, which ends the grid (06 R160). -/
def execTeamSave (team : Nat) (s : State) : Host.Outcome State Fault Refusal :=
  match s.teamByKey? team with
  | none => .next s
  | some t =>
    let ts := s.together t
    let ready := !t.retired && ts.all fun x => (s.teamGangs x).all Gang.savable && (s.teamGangs x).any Gang.evicting
    let spoilt := (ts.flatMap s.teamGangs).findSome? fun g => (s.savePoisoned g).map fun line => (g, line)
    if ready && decide (ts.length ≤ s.freeRecords.length) then
      match spoilt with
      | some (g, line) => .next (s.firnFault g none line)
      | none => .next ((ts.zip s.freeRecords).foldl (fun s tr => s.saveTeam tr.1 tr.2) s)
    else .next s

/-! ## TEAM_READMIT (R121, R437) -/

/-- The places of teams saved together, if they can be readmitted now. -/
def State.readmitPlaces (s : State) (v : SavedTeam) : Option (List (SavedTeam × Placed)) :=
  match s.grid? v.team.grid with
  | none => none
  | some G =>
    let vs := if G.tmpl.cluster then s.saved.filter fun x => decide (x.team.grid = v.team.grid) && decide (x.team.group = v.team.group) else [v]
    let places := if G.tmpl.cluster then s.placeGroup G.tmpl G.order [] vs.length (List.range Config.clusters)
      else (s.place everyGang G.tmpl G.order [] (List.range Config.cores)).map ([·])
    places.map vs.zip

/-- A gang as it comes back to a core: its images checked against the record, then in frames of its new partition. -/
def State.restoreGang (s : State) (record : Nat) (core P : Nat) (g : Gang) : State :=
  let t := s.tmplOf g
  if g.released then { s with gangs := s.gangs ++ [{ g with core := core, part := (P + g.g) % 8 }] }
  else
    let x := s.reloadAt (s.scrambleChanged g (s.saveBases record g)) (s.saveBases record g)
    let s := { s with free := s.free + 2 ^ 17 }
    let part := (P + g.g) % 8
    let now := s.cycleOf core
    let wake (st : Strand) : Strand :=
      match st.wait with
      | .sleep d next => { st with wait := .sleep (d + now) next, since := now, lastIssue := now }
      | _ => { st with since := now, lastIssue := now }
    let x := { x with core := core, part := part, frames := s.takeFrames core part t.halves, images := [], slotSince := now,
                      strands := x.strands.map wake }
    let s := { s with gangs := s.gangs ++ [x] }
    if x.issues = 0 then s else s.parkImages x

/-- Scratch bytes and line states that have been written over in the record are free values. -/
def State.restoreScratch (s : State) (record : Nat) (t : Team) : Team :=
  let base := recordAt s record
  let lost := (s.scratchCells record t).filter fun ab => decide (s.physByte ab.1 ≠ ab.2)
  (mapI (fun i ab => (i, ab)) 0 lost).foldl (fun (t : Team) iab =>
    let ab := iab.2
    let v := Config.freeValue (s.free + iab.1)
    if ab.1 < base + 0x440000 then { t with scratch := Sparse.set 0 t.scratch (ab.1 - base - 0x400000) (BitVec.ofNat 8 v) }
    else { t with pending := Sparse.set 0 t.pending (ab.1 - base - 0x440000) (v % 16) }) t

/-! ## Spill blocks (09 R236, R240, R243) -/

/-- Where a team's spill blocks lie. -/
def State.spillBase (s : State) (t : Team) : Nat := field (s.mg (Mgmt.spillbase t.core)) 51 20 * 2 ^ 20 + 0x41000 * t.slot

/-- The lines of a team that lie in spill blocks. -/
def Team.spillLines (t : Team) : List Nat :=
  (mapI (fun k b => (k, b)) 0 t.blocks).flatMap fun kb => if 64 ≤ kb.2 then (List.range 32).map (32 * kb.1 + ·) else []

def Team.lineZero (t : Team) (l : Nat) : Bool := (List.range 128).all fun i => decide (t.byte (128 * l + i) = 0)

def Team.stateByte (t : Team) (l : Nat) : Byte := lineState (Sparse.get 0 t.pending l) (t.lineZero l)

/-- What the core writes into spill blocks: the state of a line that changed, the bytes that changed, and all 128 of a line
that was zero-flagged (R243); `old` is the team before, none where its blocks are new (DEDUCED, log 37). -/
def State.spillCells (s : State) (old : Option Team) (t : Team) : List (Nat × Byte) :=
  let base := s.spillBase t
  let was := old.getD { t with scratch := [], pending := [] }
  t.spillLines.flatMap fun l =>
    (if old.isNone || decide (was.stateByte l ≠ t.stateByte l) then [(base + 0x40000 + l, t.stateByte l)] else []) ++
    ((List.range 128).filter fun i => decide (was.byte (128 * l + i) ≠ t.byte (128 * l + i)) || (was.lineZero l && !t.lineZero l)).map
      fun i => (base + 128 * l + i, t.byte (128 * l + i))

/-- A team whose spill blocks system software has written over between `before` and `s` (R236, 06 R159, DESIGN CHOICE, log 15). -/
def State.spillLost (before s : State) (t : Team) : Team :=
  let base := s.spillBase t
  let wrote (a : Nat) : Bool := decide (before.physByte a ≠ s.physByte a)
  t.spillLines.foldl (fun (t : Team) l =>
    let t := (List.range 128).foldl (fun (t : Team) i =>
      if wrote (base + 128 * l + i) then
        { t with scratch := Sparse.set 0 t.scratch (128 * l + i) (BitVec.ofNat 8 (Config.freeValue (s.free + 128 * l + i))) }
      else t) t
    if wrote (base + 0x40000 + l) then { t with pending := Sparse.set 0 t.pending l (Config.freeValue (s.free + 2 ^ 18 + l) % 16) } else t) t

/-- Spill blocks after a move: what software wrote there makes the bytes free values, what the core wrote stands there. -/
def State.reflectSpill (before s : State) : State :=
  let ts := s.teams.filter fun t => (t.blocks.any fun b => decide (64 ≤ b)) && !s.scratchFree t
  ts.foldl (fun s t =>
    let old := before.teams.find? fun x => decide (x.key = t.key) && decide (x.core = t.core)
    let lost := if old.isSome then State.spillLost before s t else t
    let cells := s.spillCells old t
    let s := if lost = t then s else { s.setTeam lost with free := s.free + 2 ^ 19 }
    s.pokeCells cells) s

/-- One team put back on a core at an offset. For the distributor's 'most recently admitted' (R121) it keeps the place of its
first admission (DESIGN CHOICE, log 105). -/
def State.restoreTeam (s : State) (v : SavedTeam) (place : Placed) : State :=
  let slots := (s.holders place.1).map fun x => x.slot
  let t := s.restoreScratch v.record v.team
  let t := { t with
    core := place.1, offset := place.2, blocks := s.mapBlocks place.1 t.blocks.length 0 []
    slot := ((List.range 256).find? fun n => !slots.contains n).getD 0 }
  let s := { s with free := s.free + 2 ^ 19, saved := s.saved.filter (fun x => x.record ≠ v.record), teams := s.teams ++ [t] }
  let s := (if t.blocks.isEmpty then s else s.trimNear place.1).wakeClock place.1
  let s := v.gangs.foldl (fun s g => s.restoreGang v.record place.1 place.2 g) s
  v.gangs.foldl (fun s g => s.resumeGang g.gid) s

/-- Whether something of higher priority than `prio` could be admitted instead. -/
def State.outranked (s : State) (prio : Nat) : Bool :=
  (match s.nextAdmission with
   | some (w, _) => decide (prio < w.prio)
   | none => false) ||
  s.saved.any fun v => decide (prio < v.prio) && (s.readmitPlaces v).isSome

/-- TEAM_READMIT. -/
def execTeamReadmit (record : Nat) (s : State) : Host.Outcome State Fault Refusal :=
  match s.saved.find? fun v => decide (v.record = record) with
  | none => .next s
  | some v =>
    if !s.admitting || s.outranked v.prio then .next s
    else
      match s.readmitPlaces v with
      | some l => .next (l.foldl (fun s vp => s.restoreTeam vp.1 vp.2) s)
      | none => .next s

end Sys2Proof.Machine
end

