-- ==== Sys2Proof/Machine/Control.lean ====
section
/-! DEFINITION. Row 0x10, FENCEI, IPF, PASSPRI and the barriers: branches with the rimes they narrow, CALL and RET,
JOIN, EXIT, YIELD, SLEEP (02 R50, R51; 04 R91 to R112; 05 R129; 07 R186 to R188; 16 R412). -/

namespace Sys2Proof.Machine

open Sys2Proof

/-! ## Conditional transfer (04 R91) -/

/-- The lanes of slice k that take the transfer. -/
def Ctx.taken (c : Ctx) (cond : Nat → Nat → Bool) (k : Nat) : BitVec 4 :=
  BitVec.ofNat 4 (ofBits (lanes4.map fun j => c.active k j && cond k j))

def Ctx.enabledMask (c : Ctx) (k : Nat) : BitVec 4 := BitVec.ofNat 4 (ofBits (lanes4.map (c.enabled k)))

/-- Every thread of the slice that could transfer takes it. -/
def Ctx.allTaken (c : Ctx) (cond : Nat → Nat → Bool) (k : Nat) : Bool := decide (c.taken cond k = c.enabledMask k)

def maxDepth : Nat := 255

/-- The slices after the transfer: a SPLIT slice pushes PEND and keeps the threads that stay (R90, R91). -/
def Ctx.split (c : Ctx) (cond : Nat → Nat → Bool) (target : Nat) (g : Gang) : Gang :=
  g.mapSlices c.st.slices fun k sl =>
    let t := c.taken cond k
    if t = 0 || c.allTaken cond k then sl
    else
      { sl with
        mask := sl.mask &&& ~~~t
        stack := { reconv := false, pc := target, pm := t, fm := sl.mask, depth := c.st.ret.length } :: sl.stack }

/-- R91 for strand S: TARGET if the target breaks R25, STACK_DEPTH if a push would be too deep, in this order (DESIGN
CHOICE, log 101), else the strand goes on whole or parts. `narrow` narrows rimes on the paths (07 R186 to R188). -/
def transfer (s : State) (c : Ctx) (target : Nat) (cond : Nat → Nat → Bool) (narrow : Gang → Gang) : State :=
  let gt := c.st.slices.filter (c.allTaken cond)
  let gf := c.st.slices.filter fun k => !c.allTaken cond k
  let any := c.st.slices.any fun k => decide (c.taken cond k ≠ 0)
  let (s1, bad) := if any then s.badTarget c.g target false else (s, false)
  if bad then s1.userTrap c c.g { cause := 11, tmask := 0, taddr := target }
  else if c.st.slices.any fun k =>
      decide (c.taken cond k ≠ 0) && !c.allTaken cond k && decide (maxDepth ≤ (c.g.slice k).stack.length) then
    s.gangFault c c.g (c.info 6 1 0 0) none none
  else
    let g := c.split cond target (narrow c.g)
    if gf.isEmpty then s1.put g { c.st with pc := target, wait := .none, hold := none }
    else if gt.isEmpty then s1.done c g
    else
      let part (slices : List Nat) (pc : Nat) : Strand :=
        { c.st with slices := slices, pc := pc, wait := .none, fair := 0, hold := none }
      s1.setGang { g with strands :=
        (g.strands.filter fun x => x.slices ≠ c.st.slices) ++ [part gf c.is.fall, part gt target] }

/-- The address an offset word names (02 R34). -/
def Ctx.offsetTarget (c : Ctx) (off : W32) : Nat := wrapTo 64 (c.is.pc + off.toInt)

def execBr (off : W32) (s : State) : Host.Outcome State Fault Refusal :=
  instr s (fun _ => Accept.offset off) [] [] fun c => transfer s c (c.offsetTarget off) (fun _ _ => true) id

def execBp (sel : BitVec 4) (off : W32) (s : State) : Host.Outcome State Fault Refusal :=
  instr s (fun _ => Accept.offset off) [] [] fun c =>
    transfer s c (c.offsetTarget off) (fun k j => predSel (c.g.thread k j).p sel.toNat) id

def execJmpi (a : Src) (s : State) : Host.Outcome State Fault Refusal :=
  instr s (fun _ => Accept.srcS64 a) [] [] fun c => transfer s c (c.val64 s a).toNat (fun _ _ => true) id

/-! ## Compare and branch, with the rimes it narrows (07 R186 to R188) -/

/-- A slice whose live threads are all active with one direction (R186). -/
def Ctx.uniform (c : Ctx) (cond : Nat → Nat → Bool) (k : Nat) : Bool :=
  let t := c.taken cond k
  let live := (c.g.slice k).liveMask
  decide (live ≠ 0) &&
  (lanes4.all fun j => !(c.g.thread k j).live || c.active k j) && (decide (t = live) || decide (t = 0))

/-- The interval that a compared operand brings in slice k; one of rime TOP brings the whole range of its width (R175). -/
def Ctx.cmpIv (s : State) (c : Ctx) (w : Nat) (a : Src) (k : Nat) : Iv :=
  match a with
  | .id i =>
    if w = 64 then (hullOf 64 (c.liveLanes.filterMap fun kj =>
      if kj.1 = k then some (c.ident s i k kj.2 : Int) else none)).bounds 64
    else (c.rimeOf s 32 a k).bounds 32
  | .s _ | .imm64 _ | .imm _ | .zero => (c.rimeOf s w a k).bounds w
  | .lat _ => (rangeLo w, rangeHi w)
  | _ => (c.rimeOf s 32 a k).bounds 32

/-- Whether an x operand may be narrowed: not by an unsigned 64-bit comparison with a negative lower endpoint (R187). -/
def narrowable (w : Nat) (rel : Rel) (a : Iv) : Bool :=
  !(decide (w = 64) && (decide (rel = .ltu) || decide (rel = .geu)) && decide (a.1 < 0))

def meetIv (a b : Iv) : Iv := (max a.1 b.1, min a.2 b.2)

/-- The new intervals of a and b; one register as both takes the intersection (R187). -/
def narrowPair (rel : Rel) (same : Bool) (A B : Iv) : Iv × Iv :=
  let r := rel.narrow A B
  if same then (let i := meetIv r.1 r.2; (i, i)) else r

/-- Rimes narrowed on the path each uniform slice takes; s operands only where the whole gang goes one way (R188). -/
def Ctx.narrowCmp (s : State) (c : Ctx) (rel : Rel) (a b : Src) (cond : Nat → Nat → Bool) (g : Gang) : Gang :=
  let w := if wide a || wide b then 64 else 32
  let same := decide (a = b)
  let relOf (k : Nat) : Rel := if c.taken cond k = 0 then rel.not else rel
  let ivs (k : Nat) : Iv × Iv := (c.cmpIv s w a k, c.cmpIv s w b k)
  let xOf (sl : Slice) (old new : Iv) (rel : Rel) (x : Src) : Slice :=
    match x with
    | .x n => if narrowable w rel old then sl.setRime n.toNat (Rime.mk 32 new.1 new.2) else sl
    | _ => sl
  let g1 := g.mapSlices (c.st.slices.filter (c.uniform cond)) fun k sl =>
    let r := relOf k
    let n := narrowPair r same (ivs k).1 (ivs k).2
    xOf (xOf sl (ivs k).1 n.1 r a) (ivs k).2 n.2 r b
  let whole := decide (c.g.liveSlices.all c.st.slices.contains) && (c.g.liveSlices.all (c.uniform cond)) &&
    (c.g.liveSlices.all fun k => decide (relOf k = relOf (c.st.slices.headD 0)))
  if !whole then g1
  else
    let k := c.g.liveSlices.headD 0
    let hulls (f : Nat → Iv) : Iv := c.g.liveSlices.foldl (fun p k => (min p.1 (f k).1, max p.2 (f k).2)) (f k)
    let A := match a with
      | .s _ => (ivs k).1
      | _ => hulls fun k => (ivs k).1
    let B := match b with
      | .s _ => (ivs k).2
      | _ => hulls fun k => (ivs k).2
    let n := narrowPair (relOf k) same A B
    let put (g : Gang) (x : Src) (i : Iv) : Gang :=
      match x with
      | .s m => g.setSRime m.toNat (Rime.mk 64 i.1 i.2)
      | _ => g
    put (put g1 a n.1) b n.2

/-- A compare-and-branch instruction (04 R100). -/
def bcc (s : State) (rel : Rel) (a b : Src) (off : W32) : Host.Outcome State Fault Refusal :=
  instr s (fun _ => Accept.offset off && Accept.srcCmp a && Accept.srcCmp b) [] [a, b] fun c =>
    let w := wide a || wide b
    let u := decide (rel = .ltu) || decide (rel = .geu)
    let holds (x y : Int) : Bool :=
      match rel with
      | .eq => decide (x = y)
      | .ne => decide (x ≠ y)
      | .lt | .ltu => decide (x < y)
      | .ge | .geu => decide (y ≤ x)
    let cond : Nat → Nat → Bool := fun k j => holds (c.cmpVal s w u a k j) (c.cmpVal s w u b k j)
    transfer s c (c.offsetTarget off) cond (c.narrowCmp s rel a b cond)

def execBeq (a b : Src) (off : W32) (s : State) := bcc s .eq a b off
def execBne (a b : Src) (off : W32) (s : State) := bcc s .ne a b off
def execBlt (a b : Src) (off : W32) (s : State) := bcc s .lt a b off
def execBge (a b : Src) (off : W32) (s : State) := bcc s .ge a b off
def execBltu (a b : Src) (off : W32) (s : State) := bcc s .ltu a b off
def execBgeu (a b : Src) (off : W32) (s : State) := bcc s .geu a b off

/-! ## JOIN, CALL, RET, EXIT (04 R102 to R106) -/

/-- JOIN ignores the guard (R102). -/
def execJoin (s : State) : Host.Outcome State Fault Refusal :=
  instr s (fun _ => true) [] [] fun c => c.meetAt s .meet fun c => s.done c c.g

/-- CALL: the return address pushed, the target word 2 of a line (R103) (DEDUCED, log 42); TARGET comes before STACK_DEPTH
(DESIGN CHOICE, log 101). -/
def execCall (off : W32) (s : State) : Host.Outcome State Fault Refusal :=
  instr s (fun _ => Accept.offset off) [] [] fun c =>
    if !c.gate then s.skip c
    else
      let target := c.offsetTarget off
      let (s1, bad) := s.badTarget c.g target true
      if bad then s1.userTrap c c.g { cause := 11, tmask := 0, taddr := target }
      else if maxDepth ≤ c.st.ret.length then s.gangFault c c.g (c.info 6 1 0 0) none none
      else s1.put c.g { c.st with pc := target, ret := c.is.fall :: c.st.ret, wait := .none, hold := none }

/-- Slices of the strand whose top entry has the strand's depth (R104). -/
def heldAtDepth (g : Gang) (st : Strand) : List Nat :=
  st.slices.filter fun k => (g.slice k).isLive && (match (g.slice k).stack with
    | e :: _ => decide (e.depth = st.ret.length)
    | [] => false)

/-- The return address popped (R104). -/
def popReturn (s : State) (c : Ctx) : State :=
  s.put c.g { c.st with pc := c.st.ret.headD 0, ret := c.st.ret.drop 1, wait := .none, hold := none }

/-- RET: gated as CALL; first the JOIN rows at its own address while slices hold entries of the strand's depth; with
an empty return stack EXIT for every enabled thread (R104). -/
def execRet (s : State) : Host.Outcome State Fault Refusal :=
  instr s (fun _ => true) [] [] fun c =>
    if decide (c.st.wait ≠ .met) && decide (c.st.wait ≠ .meet) && !c.gate then s.skip c
    else if c.st.ret.isEmpty then s.endThreads c.g c.st c.is.fall c.enabled
    else if (heldAtDepth c.g c.st).isEmpty && decide (c.st.wait ≠ .meet) then popReturn s c
    else
      let c := if c.st.wait = .met then { c with st := { c.st with wait := .none } } else c
      c.meetAt s .meet fun c =>
        if (heldAtDepth c.g c.st).isEmpty then popReturn s c else s.put c.g { c.st with wait := .none }

/-- EXIT: the active threads end, the others go on (R106). -/
def execExit (s : State) : Host.Outcome State Fault Refusal :=
  instr s (fun _ => true) [] [] fun c =>
    if !c.gate then s.skip c else s.endThreads c.g c.st c.is.fall c.active

/-! ## YIELD, SLEEP, PASSPRI (04 R107, R108; 05 R129) -/

/-- The strand's next turn given up: the fairness timer restarts (R107). -/
def yields (s : State) (c : Ctx) : State :=
  s.put c.g { c.st with pc := c.is.fall, wait := .none, fair := 0, yielded := true }

def execYield (s : State) : Host.Outcome State Fault Refusal := instr s (fun _ => true) [] [] fun c => yields s c

/-- SLEEP: blocks until CYCLE reaches the deadline, which is kept with the strand (R108). -/
def execSleep (a : Src) (s : State) : Host.Outcome State Fault Refusal :=
  instr s (fun _ => Accept.srcSZ a) [] [] fun c =>
    let now := s.cycleOf c.g.core
    match c.st.wait with
    | .sleep d next => if d ≤ now then s.put c.g { c.st with pc := next, wait := .none } else s
    | _ =>
      if !c.gate then s.skip c
      else
        let n := (c.val64 s a).toNat % 2 ^ 32
        if n = 0 then yields s c
        else s.put c.g { c.st with wait := .sleep (now + n) c.is.fall, since := now }

/-- PASSPRI (05 R129). -/
def execPasspri (rel : BitVec 1) (g : BitVec 5) (s : State) : Host.Outcome State Fault Refusal :=
  instr s (fun _ => Accept.passpri rel g) [] [] fun c =>
    let key := tokenKey c.g.core c.g.part
    let holder := Sparse.get 0 s.token key
    let s1 := s.skip c
    if c.gate && (decide (holder = 0) || decide (holder = c.g.gid + 1)) then
      let heir := s.gangs.find? fun x => decide (x.grid = c.g.grid) && decide (x.team = c.g.team) &&
        decide (x.g = g.toNat) && x.isLive && decide (x.core = c.g.core) && decide (x.part = c.g.part)
      let v := match rel, heir with
        | 0, some x => x.gid + 1
        | _, _ => 0
      { s1 with token := Sparse.set 0 s1.token key v }
    else s1

/-! ## Barriers (04 R111, R112; 16 R412) -/

/-- A gang's stores performed before it arrives: the arrival releases them. -/
def releaseGang (s : State) (c : Ctx) : State × Ctx :=
  let s := (s.setGang c.g).flush c.g.gid (List.range c.g.slices.length)
  (s, c.refresh s)

/-- The barrier's wait: it ends, or the strand waits on. -/
def barrierWait (s : State) (c : Ctx) (n : Nat) : State :=
  match s.team? c.g.grid c.g.team with
  | none => s.skip c
  | some t =>
    match (t.barrier n).pass c.g.g with
    | some b => (s.setTeam (t.setBarrier n b)).done c c.g
    | none => s.block c c.g (.barrier n)

/-- An arrival of the gang at team barrier n. -/
def barrierArrive (s : State) (c : Ctx) (n count : Nat) : State :=
  match s.team? c.g.grid c.g.team with
  | none => s
  | some t => s.setTeam (t.setBarrier n ((t.barrier n).arrive c.g.g count (s.liveInTeam c.g.grid c.g.team)))

def execBar (count : BitVec 6) (b : BitVec 4) (s : State) : Host.Outcome State Fault Refusal :=
  instr s (fun _ => decide (count.toNat ≤ 32)) [] [] fun c =>
    if c.st.wait = .barrier b.toNat then barrierWait s c b.toNat
    else
      c.meetAt s .meet fun c =>
        let (s, c) := releaseGang s c
        barrierWait (barrierArrive s c b.toNat count.toNat) c b.toNat

def execBara (count : BitVec 6) (b : BitVec 4) (s : State) : Host.Outcome State Fault Refusal :=
  instr s (fun _ => decide (count.toNat ≤ 32)) [] [] fun c =>
    c.meetAt s .meet fun c =>
      let (s, c) := releaseGang s c
      (barrierArrive s c b.toNat count.toNat).done c c.g

def execBarw (b : BitVec 4) (s : State) : Host.Outcome State Fault Refusal :=
  instr s (fun _ => true) [] [] fun c =>
    if c.st.wait = .barrier b.toNat then barrierWait s c b.toNat
    else c.meetAt s .meet fun c => barrierWait (s.setGang c.g) c b.toNat

/-- CBAR's wait, by gang of the group. -/
def cbarWait (s : State) (c : Ctx) (n : Nat) : State :=
  match s.grid? c.g.grid with
  | none => s.skip c
  | some G =>
    let k := G.cbarKey c.g.team n
    match (G.cbar k).pass (32 * c.g.team + c.g.g) with
    | some b => (s.setGrid (G.setCbar k b)).done c c.g
    | none => s.block c c.g (.cluster n)

/-- A gang's part in its team's arrival at cluster barrier n (R112). -/
def cbarArrive (s : State) (c : Ctx) (n : Nat) : State :=
  match s.team? c.g.grid c.g.team with
  | none => s
  | some t =>
    let b := t.barrier (16 + n)
    (s.setTeam (t.setBarrier (16 + n) { b with m := if b.m.contains c.g.g then b.m else b.m ++ [c.g.g] })).cbarTeam
      c.g.grid c.g.team n

def execCbar (b : BitVec 4) (s : State) : Host.Outcome State Fault Refusal :=
  instr s (fun _ => true) [] [] fun c =>
    if c.st.wait = .cluster b.toNat then cbarWait s c b.toNat
    else
      c.meetAt s .meet fun c =>
        let (s, c) := releaseGang s c
        cbarWait (cbarArrive s c b.toNat) c b.toNat

/-- GBAR: a barrier over every live gang of a population grid (16 R412). -/
def gbarWait (s : State) (c : Ctx) : State :=
  match s.grid? c.g.grid with
  | none => s.skip c
  | some G =>
    match G.barrier.pass c.g.gid with
    | some b => (s.setGrid { G with barrier := b }).done c c.g
    | none => s.block c c.g .gridBarrier

def Ctx.isPop (s : State) (c : Ctx) : Bool :=
  match s.grid? c.g.grid with
  | some G => G.pop.isSome
  | none => false

def execGbar (s : State) : Host.Outcome State Fault Refusal :=
  instr s (fun c => c.isPop s) [] [] fun c =>
    if c.st.wait = .gridBarrier then gbarWait s c
    else
      c.meetAt s .meet fun c =>
        let (s, c) := releaseGang s c
        let s := match s.grid? c.g.grid with
          | some G => s.setGrid { G with barrier := G.barrier.arrive c.g.gid 0 (s.liveGids c.g.grid) }
          | none => s
        gbarWait s c

/-! ## FENCEI and IPF (02 R50, R51) -/

/-- FENCEI: every earlier store of the gang performed, then the core's instruction cache and buffers invalid. -/
def execFencei (s : State) : Host.Outcome State Fault Refusal :=
  instr s (fun _ => true) [] [] fun c =>
    if !c.gate then s.skip c
    else if c.g.accesses.any fun a => !a.load then s.block c c.g .fence
    else (s.fenceI c.g.core).skip c

/-- IPF: code lines requested, none of them validated (R51). -/
def execIpf (lines : BitVec 25) (count : BitVec 4) (s : State) : Host.Outcome State Fault Refusal :=
  instr s (fun _ => true) [] [] fun c =>
    if !c.gate then s.skip c
    else
      let first : Int := (c.is.pc / 128 * 128 : Nat) + 128 * lines.toInt
      let s := (List.range (count.toNat + 1)).foldl (fun s i => s.prefetchLine c.g (wrapTo 64 (first + 128 * (i : Int)))) s
      s.skip c

end Sys2Proof.Machine
end

