-- ==== Sys2Proof/Machine/Links.lean ====
section
/-! DEFINITION. What comes from outside the cores: translation-cache and instruction-cache events, ECC errors, other
members, links, attestation, power, reset and start (02 R30; 10 R261, R267, R275, R276; 18 R438 to R455). -/

namespace Sys2Proof.Machine

open Sys2Proof

/-! ## Translations and code lines (10 R275, R276; 02 R30) -/

/-- PAGE_WALK_COMPLETE: a walk fills the core's and its base die's caches; one that finds no valid entry fills nothing. An
entry that took the place of a cached one of the same leaf's table entry remembers the touch bits set while that was
cached (R274). -/
def execPageWalkComplete (core asid va : Nat) (s : State) : Host.Outcome State Fault Refusal :=
  match s.walk asid va with
  | none => .next s
  | some (a, leaf, big) =>
    let was := s.tlb.find? fun e => e.hits core asid va || e.hits (baseHolder core) asid va
    let s := { s with tlb := s.tlb.filter fun e => !(e.hits core asid va || e.hits (baseHolder core) asid va) }
    let e : TlbEntry :=
      { holder := core, asid := asid, page := pageOf big va, big := big, leaf := leaf, entry := a
        touched := match was with
          | some x => x.touched
          | none => field leaf 57 54 }
    .next ((s.tlbAdd { e with holder := baseHolder core }).tlbAdd e)

/-- Entries that an invalidation of KIND `kind` drops. -/
def TlbEntry.dropped (e : TlbEntry) (kind asid va : Nat) : Bool :=
  match kind with
  | 0 => e.hits e.holder asid va
  | 1 => decide (e.asid = asid) || bitOf e.leaf 5
  | _ => true

/-- A write to TINVCTL starts an invalidation; until it is done an access uses the old entry or the new one. -/
def tinvStart (s : State) (kind asid : Nat) : State :=
  (({ s with tinv := s.tinv ++ [(kind, asid % 2 ^ 16, s.mg Mgmt.tinvaddr)] }).setMg Mgmt.tinvctl (kind * 2 ^ 16 + asid % 2 ^ 16))

def execTinvPage (asid : Nat) (s : State) : Host.Outcome State Fault Refusal := .next (tinvStart s 0 asid)
def execTinvAsid (asid : Nat) (s : State) : Host.Outcome State Fault Refusal := .next (tinvStart s 1 asid)
def execTinvAll (s : State) : Host.Outcome State Fault Refusal := .next (tinvStart s 2 0)

/-- TINV_DONE: every cache has dropped the entries; BUSY reads 0 (DEDUCED, log 73). -/
def execTinvDone (s : State) : Host.Outcome State Fault Refusal :=
  .next { s with tinv := [], tlb := s.tlb.filter fun e => !s.tinv.any fun t => e.dropped t.1 t.2.1 t.2.2 }

/-- LINE_FILL: one fill delivers the same bytes to every core of the cluster that joined it; a core that executed FENCEI
since requests the line again. -/
def execLineFill (core pa : Nat) (s : State) : Host.Outcome State Fault Refusal :=
  .next (if s.fills.any fun f => sameCluster f.core core && decide (f.pa = pa) then s.fillReturn core pa else s)

/-- MSC_COUNTED_DROP (R261). -/
def execMscCountedDrop (line : Nat) (s : State) : Host.Outcome State Fault Refusal := .next (s.dropCounted line)

/-! ## ECC errors (R267, R454; 06 R160) -/

/-- ECCSTAT[k] of a base die, saturating. -/
def State.countEcc (s : State) (die k : Nat) : State :=
  s.setMg (Mgmt.eccstat die k) (min (2 ^ 64 - 1) (s.mg (Mgmt.eccstat die k) + 1))

/-- The base die of a physical address of local HBM, and of a core. -/
def hbmDie (pa : Nat) : Nat := pa / 2 ^ 36 / 3
def coreDie (core : Nat) : Nat := core / 384

def State.poisonLine (s : State) (pa k : Nat) : State :=
  let p := s.norm pa
  if p < Config.localHbm then
    { s with poison := if s.poison.contains (p / 128) then s.poison else s.poison ++ [p / 128] }.countEcc (hbmDie p) k
  else s

def State.damage (s : State) (d : EccTarget) (core : Nat) : State :=
  { s with damaged := if s.damaged.contains d then s.damaged else s.damaged ++ [d] }.countEcc (coreDie core) 5

/-- The error of a target that a gang's core holds. -/
def State.damageIn (s : State) (gid : Nat) (d : EccTarget) : State :=
  match s.gang? gid with
  | some g => s.damage d g.core
  | none => s

/-- The error of a near line. -/
def State.spoilNear (s : State) (key : Nat × Nat × Nat) : State :=
  match s.near.find? fun n => decide (n.1 = key), s.gang? key.1 with
  | some _, some g =>
    let hit (n : (Nat × Nat × Nat) × NearLine) : (Nat × Nat × Nat) × NearLine := if n.1 = key then (n.1, { n.2 with spoilt := true, written := [] }) else n
    { s with near := s.near.map hit }.countEcc (coreDie g.core) 5
  | _, _ => s

/-- ECC_ERROR: an uncorrectable error poisons a line of memory, a scratch or near line, a register row, a tile, a tree file
or a key table and is counted; a corrected one is only counted (DEDUCED, log 77). -/
def execEccError (target : EccTarget) (s : State) : Host.Outcome State Fault Refusal :=
  match target with
  | .hbm pa => .next (s.poisonLine pa 1)
  | .cache pa => .next (s.poisonLine pa 3)
  | .scratch t l => .next (match s.teamByKey? t with
      | some tm => s.damage (.scratch t l) tm.core
      | none => s)
  | .row g n => .next (s.damageIn g (.row g n))
  | .tile g n => .next (s.damageIn g (.tile g n))
  | .tree g n => .next (s.damageIn g (.tree g n))
  | .keys g n => .next (s.damageIn g (.keys g n))
  | .near g t l => .next (s.spoilNear (g, t, l))
  | .corrected die k => .next (if decide (die < Config.baseDies) && (decide (k = 0) || decide (k = 2) || decide (k = 4)) then s.countEcc die k else s)

def execEccstatClear (die k : Nat) (s : State) : Host.Outcome State Fault Refusal :=
  .next (if die < Config.baseDies ∧ k < 8 then s.setMg (Mgmt.eccstat die k) 0 else s)

/-! ## Attestation (R454) -/

/-- An attestation request that arrives: queued, or answered with DONE = 2 (DEDUCED, log 79). -/
def State.attest (s : State) (data : List Byte) : State :=
  if data.length ≠ 64 then s.apertureReport 0xFF00004000
  else
    let dest := le data 32 8
    let doneAt := le data 40 8
    if dest % 16 ≠ 0 ∨ le data 48 16 ≠ 0 ∨ 16 ≤ s.quotes.length then s.performWrites none (physWrites doneAt (leBytes 8 2))
    else { s with quotes := s.quotes ++ [{ nonce := data.take 32, dest := dest, done := doneAt }] }

def execAttestationRequest (data : List Byte) (s : State) : Host.Outcome State Fault Refusal := .next (s.attest data)

/-- The bytes of a quote that the signature covers: 0 to 623. Identity key and signature are the device's (DESIGN CHOICE, log 31). -/
def State.quoteHead (s : State) (q : Quote) : List Byte :=
  leBytes 4 1 ++ leBytes 4 30416 ++ (List.range 64).map (Config.attestByte []) ++ q.nonce ++ leBytes 8 s.member ++ s.meas.flatten

/-- QUOTE_COMPLETE: the oldest request's quote written, then DONE. -/
def execQuoteComplete (s : State) : Host.Outcome State Fault Refusal :=
  match s.quotes with
  | [] => .next s
  | q :: l =>
    let head := s.quoteHead q
    let sig := (List.range 29792).map (Config.attestByte head)
    let s := ({ s with quotes := l }).performWrites none (physWrites q.dest (head ++ sig))
    .next (s.performWrites none (physWrites q.done (leBytes 8 1)))

/-- Stores from inside the package that its event arbiter holds reach the launch window or the attestation line; on-package
units are the arbiter's sources from 20 on, by base die (01 R20). -/
def State.drainWindow (s : State) : State :=
  s.windowQ.foldl (fun s w =>
    let s := s.arbitrate 2 (20 + w.1)
    if w.2.1 = 0xFF00004000 then s.attest w.2.2 else s.launchWindow (w.2.1 - 0xFF00000000) w.2.2) { s with windowQ := [] }

/-! ## Links (R438, R444, R446) -/

def State.link (s : State) (port : Nat) : Link := s.links.getD port Link.fresh
def State.setLink (s : State) (port : Nat) (l : Link) : State := { s with links := modifyAt (fun _ => l) port s.links }

/-- The base die of a link port (01 R12). -/
def portDie (port : Nat) : Nat := if port < 5 then 0 else if port < 9 then 1 else if port < 13 then 2 else 3

/-- The first port of a base die and how many it has. -/
def diePorts (d : Nat) : Nat × Nat :=
  match d with
  | 0 => (0, 5)
  | 1 => (5, 4)
  | 2 => (9, 4)
  | _ => (13, 5)

/-- What a change of the links makes of rings and of the directory: members that are not reachable hold no copy (R445, R450). -/
def State.linksChanged (s : State) : State :=
  let s := { s with copies := s.copies.filter fun c => s.reachable c.2 }
  s.checkRings

/-- A port down: rings that run a step through it break (R450); it stays down until it is retrained. -/
def State.portDown (s : State) (port : Nat) : State :=
  ((s.setLink port { s.link port with up := false, training := false, failed := 0 }).countEcc (portDie port) 7).linksChanged

/-- FLIT_CRC_FAIL: the flit is replayed; `again` says that what failed is such a replay. After 8 of one flit the port is
down (DEDUCED, log 78). -/
def execFlitCrcFail (port : Nat) (again : Bool) (s : State) : Host.Outcome State Fault Refusal :=
  let l := s.link port
  if Config.linkPorts ≤ port ∨ l.up = false then .next s
  else
    let n := if again then l.failed + 1 else 0
    if 8 ≤ n then .next (s.portDown port)
    else
      let s := s.setLink port { l with failed := n, replays := (l.replays + 1) % 2 ^ 32 }
      .next (s.countEcc (portDie port) 6)

def execLaneLockLoss (port : Nat) (s : State) : Host.Outcome State Fault Refusal :=
  .next (if port < Config.linkPorts ∧ (s.link port).up = true then s.portDown port else s)

/-- LINK_RETRAIN: the replay count is cleared and the port trains. -/
def execLinkRetrain (port : Nat) (s : State) : Host.Outcome State Fault Refusal :=
  .next (if port < Config.linkPorts then s.setLink port { s.link port with training := true, replays := 0, failed := 0 } else s)

/-- The members that a port leads to. -/
def State.behindPort (s : State) (port : Nat) : List Nat := (List.range 64).filter fun m => decide (s.mg (Mgmt.linkmap m) % 32 = port)

/-- Whether a virtual address maps to memory of one of some members. -/
def State.mapsTo (s : State) (asid va : Nat) (members : List Nat) : Bool :=
  match (s.paOf asid va).map s.region with
  | some (.remote m _) => members.contains m
  | _ => false

/-- The remote or host addresses that a command has still to read or write. -/
def State.farVas (s : State) (asid : Nat) (k : Cmd) : List Nat :=
  let vas := (k.lines.filter fun l => !l.written).flatMap fun l => l.virt.toList ++ l.bytes.filterMap fun b => match b with
    | .virt va => some va
    | _ => none
  vas.filter fun va => match (s.paOf asid va).map s.region with
    | some (.remote _ _) | some .host => true
    | _ => false

/-- A command ended by a link error: a gather's rows that are not read are zeros (12 R310; 15 R386; 18 R446). -/
def Cmd.lose (k : Cmd) (st : Status) : Cmd :=
  let zero (v : RowState) : RowState := match v with
    | .entry _ => zeroRow (gathOf k.params)
    | v => v
  { k with fault := some st, rows := if k.kind = .gath then k.rows.map zero else k.rows }

/-- Accesses in flight to members behind a port that has come up again: the home may have been reset after they issued,
which they then report (R446 REASON 3; DESIGN CHOICE, log 40). -/
def State.mayReset (s : State) (port : Nat) : State :=
  let members := s.behindPort port
  let hit (n : Nat) : Bool := decide (Config.freeValue (s.free + n) % 2 = 1)
  let strand (g : Gang) (st : Strand) : Strand := if st.wait = .remote ∧ hit g.gid = true then { st with wait := .homeReset } else st
  let cmd (g : Gang) (k : Cmd) : Cmd :=
    match (s.farVas (s.tmplOf g).asid k).filter fun va => s.mapsTo (s.tmplOf g).asid va members with
    | va :: _ => if hit (s.nextGid + k.order) && !k.kind.elsewhere && k.fault.isNone then k.lose (linkStatus 3 va) else k
    | [] => k
  { s with
    free := s.free + s.nextGid + s.seq
    gangs := s.gangs.map fun g => { g with strands := g.strands.map (strand g), cmds := g.cmds.map (cmd g) } }

def execLinkTrained (port : Nat) (s : State) : Host.Outcome State Fault Refusal :=
  .next (if port < Config.linkPorts ∧ (s.link port).training = true then
      (s.setLink port { s.link port with up := true, training := false }).mayReset port
    else s)

/-! ## Other members (R439, R445, R446) -/

/-- REMOTE_ACCESS: another member's access performed here at its home: a read that may leave it a copy, a write or an
addition after which no other member holds one (DESIGN CHOICE, log 83). -/
def execRemoteAccess (member : Nat) (op : RemoteOp) (s : State) : Host.Outcome State Fault Refusal :=
  let port := 2 + s.mg (Mgmt.linkmap member) % 32
  match op with
  | .read pa cached =>
    let p := pa % 2 ^ 40
    let s := (s.arbitrate 1 port).noteFill p
    .next (if cached && decide (p < Config.localHbm) && s.reachable member && !s.copies.contains (p / 128, member) then
        { s with copies := s.copies ++ [(p / 128, member)] }
      else s)
  | .write pa data =>
    let p := pa % 2 ^ 40
    let s := s.arbitrate (if p < Config.localHbm then 1 else 2) port
    if p < Config.localHbm then .next (s.performWrites none (physWrites p data))
    else if 0xFF00000000 ≤ p ∧ p < 0xFF00004000 then .next (s.launchWindow (p - 0xFF00000000) data)
    else if p = 0xFF00004000 then .next (s.attest data)
    else .next (s.apertureReport p)
  | .add pa bytes value =>
    let p := pa % 2 ^ 40
    let s := s.arbitrate 1 port
    if p < Config.localHbm then .next (s.performWrites none (physWrites p (leBytes bytes (s.readPhys p bytes + value))))
    else .next (s.apertureReport p)

/-- REMOTE_COPY_INVALIDATE: the home of a remote line has let another agent write it, so what this member reads there next
is whatever the home then holds (DESIGN CHOICE, log 74). -/
def execRemoteCopyInvalidate (line : Nat) (s : State) : Host.Outcome State Fault Refusal :=
  match s.region (128 * line) with
  | .remote _ _ =>
    let s1 := { s with free := s.free + 128 }
    .next (s1.performWrites none (physWrites (128 * line) ((List.range 128).map fun i => BitVec.ofNat 8 (Config.freeValue (s.free + i)))))
  | _ => .next s

/-- The memory instructions that can wait for a remote reply. -/
def memOf : Instr → Option (State → Host.Outcome State Fault Refusal)
  | .ld d a r w => some (execLd d a r w)
  | .st d a r w => some (execSt d a r w)
  | .atom d f a r w => some (execAtom d f a r w)
  | .cas d a r w => some (execCas d a r w)
  | .ldx d a r w => some (execLdx d a r w)
  | .stx d p a r w => some (execStx d p a r w)
  | .ldrc d a r w => some (execLdrc d a r w)
  | .strc d n a r w => some (execStrc d n a r w)
  | .prf a r w => some (execPrf a r w)
  | .cctl o a r w => some (execCctl o a r w)
  | .coll a k => some (execColl a k)
  | .ring a => some (execRing a)
  | _ => none

/-- RINGTMO in base cycles, 4,096 at least (R444). -/
def State.replyLimit (s : State) : Nat := max 4096 (s.mg Mgmt.ringtmo)

/-- A command whose remote or host access has had no reply in time ends with status 4, TIMEOUT. -/
def State.loseCommand (s : State) (g : Gang) (k : Cmd) : State :=
  match s.farVas (s.tmplOf g).asid k with
  | va :: _ =>
    if k.born + s.replyLimit ≤ s.base && !k.kind.elsewhere && k.fault.isNone then s.setAnyGang (g.setCmd (k.lose (linkStatus 1 va)))
    else s
  | [] => s

/-- REMOTE_ACCESS_TIMEOUT: no reply to a strand's access or a command's within RINGTMO, at the core's clock for a strand
(DEDUCED, log 75). -/
def execRemoteAccessTimeout (gang : Nat) (who : Waiter) (s : State) : Host.Outcome State Fault Refusal :=
  match who with
  | .command id => onCmd s gang id fun g k => s.loseCommand g k
  | .strand slice =>
    match (s.gang? gang).bind fun g => (g.strand? slice).map fun st => (g, st) with
    | none => .next s
    | some (g, st) =>
      let waited := s.cycleOf g.core - st.since
      if st.wait = .remote ∧ s.replyLimit * s.mhz.getD (g.core / Config.coresPerDie) 4000 ≤ 2000 * waited then
        (s.put g { st with wait := .lost }).issueWith gang slice memOf
      else .next s

/-! ## Power (R455, R13) -/

/-- A write of POWERCTL. -/
def State.powerWrite (s : State) (st cap : Nat) : State := s.setMg Mgmt.powerctl (st * 2 ^ 16 + cap % 2 ^ 13)

def execPowerRun (cap : Nat) (s : State) : Host.Outcome State Fault Refusal := .next { s.powerWrite 0 cap with power := 0 }
def execPowerHold (cap : Nat) (s : State) : Host.Outcome State Fault Refusal := .next { s.powerWrite 1 cap with power := 1 }

/-- POWER_LOW requests the low state; the state that stands goes on until it is entered. -/
def execPowerLow (cap : Nat) (s : State) : Host.Outcome State Fault Refusal := .next (s.powerWrite 2 cap)

/-- DEDUCED, log 80. -/
def State.noGang (s : State) : Bool := s.gangs.all fun g => g.released

def execLowPowerEntry (s : State) : Host.Outcome State Fault Refusal :=
  .next (if field (s.mg Mgmt.powerctl) 17 16 = 2 ∧ s.noGang = true then { s with power := 2 } else s)

/-- CLOCK_STEP: 100 MHz up, 4,000 at most, or down, not below 3,200 while a gang is admitted. -/
def execClockStep (die : Nat) (up : Bool) (s : State) : Host.Outcome State Fault Refusal :=
  let f (m : Nat) : Nat := if up then min 4000 (m + 100) else if (s.noGang = false ∧ m < 3300) ∨ m ≤ 100 then m else m - 100
  .next { s with mhz := modifyAt f die s.mhz }

/-! ## Reset and start (R453) -/

/-- The state that reset leaves: a cold one takes what local HBM held (DEDUCED, log 81). -/
def State.restart (s : State) (cold : Bool) : State :=
  let outside := s.mem.filter fun c => decide (Config.localHbm ≤ c.1)
  { State.reset with
    agenda := s.agenda, free := s.free, mem := (if cold then outside else s.mem), poison := (if cold then [] else s.poison), coldStart := cold }

def execColdReset (s : State) : Host.Outcome State Fault Refusal := .next (s.restart true)
def execWarmReset (s : State) : Host.Outcome State Fault Refusal := .next (s.restart false)

/-- A measurement register extended. -/
def State.extend (s : State) (k : Nat) (data : List Byte) : State :=
  { s with meas := modifyAt (fun m => shake256 (m ++ data) 64) k s.meas }

/-- FIRMWARE_MEASURE: the boot ROM's first step; the firmware starts whatever the measurement. -/
def execFirmwareMeasure (image : List Byte) (s : State) : Host.Outcome State Fault Refusal :=
  .next (if s.boot.1 = 0 then { s.extend 0 image with boot := (1, 0) } else s)

/-- MEASUREMENT_EXTEND: MEAS1 to MEAS7, by the firmware. -/
def execMeasurementExtend (k : Nat) (data : List Byte) (s : State) : Host.Outcome State Fault Refusal :=
  .next (if s.boot.1 ≠ 0 ∧ 1 ≤ k ∧ k ≤ 7 then s.extend k data else s)

/-- BOOT_READY: after a cold reset every HBM line has been written with zero; a nonzero code says that start failed. -/
def execBootReady (code : Nat) (s : State) : Host.Outcome State Fault Refusal :=
  if s.boot.1 ≠ 1 then .next s
  else if code % 256 ≠ 0 then .next { s with boot := (1, code % 256) }
  else
    let zeroed := s.mem.filter fun c => decide (Config.localHbm ≤ c.1)
    .next { s with boot := (2, 0), mem := (if s.coldStart then zeroed else s.mem), poison := (if s.coldStart then [] else s.poison) }

end Sys2Proof.Machine
end

