-- ==== Sys2Proof/Machine/Popul.lean ====
section
/-! DEFINITION. RESAMPLE, PSTAT, RNG, the release of a round's gangs and pushes onto page pools
(16 R398, R400, R401, R407, R410, R411). -/

namespace Sys2Proof.Machine

open Sys2Proof

def Ctx.inPop (s : State) (c : Ctx) : Option Population := (s.grid? c.g.grid).bind fun G => G.pop

/-! ## RESAMPLE (R400, R401) -/

/-- Dirty near lines of the gang's threads written back; the lines stay, clean. -/
def State.cleanNear (s : State) (gid : Nat) : State :=
  let mine := s.near.filter fun n => n.1.1 = gid
  let s := mine.foldl State.writeBackNear s
  let clean (n : (Nat × Nat × Nat) × NearLine) : (Nat × Nat × Nat) × NearLine :=
    if n.1.1 = gid then (n.1, { n.2 with written := [], spoilt := false }) else n
  { s with near := s.near.map clean }

/-- The gang arrives at its population's round. -/
def arriveRound (s : State) (c : Ctx) (d : Dst) (a b : Src) : State :=
  let s := (s.setGang c.g).cleanNear c.g.gid
  let arrival : Arrival :=
    { issue := c.is, dst := d, n := (c.val64 s b).toNat
      weights := c.liveLanes.map fun kj => (4 * kj.1 + kj.2, (c.val s a kj.1 kj.2).toNat) }
  let s := s.block c (c.refresh s).g .resample
  let s := s.setPop c.g.grid fun P => { P with arrivals := P.arrivals ++ [arrival], phase := .gathering }
  s.popStep c.g.grid

/-- The wait for the six path counters; a fault that it covers surfaces here. -/
def drainPaths (s : State) (c : Ctx) (d : Dst) (a b : Src) : State :=
  match c.g.oldestRecord fun _ => true with
  | some r => s.surface c c.g r
  | none =>
    if !c.g.paths.isEmpty then s.block c c.g .paths
    else
      match c.inPop s with
      | some P => if P.phase = .committed then s.block c c.g .paths else arriveRound s c d a b
      | none => s.encoding c

/-- DEDUCED, log 60. -/
def execResample (d : Dst) (a b : Src) (s : State) : Host.Outcome State Fault Refusal :=
  instr s (fun c => Accept.resample d a b && (c.inPop s).isSome) [d] [a] fun c =>
    if c.st.wait = .paths then drainPaths s c d a b
    else
      c.meetAt s .meet fun c =>
        let lanes := lanesWhere (List.range c.g.slices.length) fun k j =>
          (c.g.thread k j).live && !(c.st.slices.contains k && c.enabled k j)
        if lanes.isEmpty && c.st.ret.isEmpty then drainPaths s c d a b
        else s.userTrap c c.g { cause := 5, tmask := maskOf lanes, taddr := c.is.pc }

/-- RESAMPLE_RELEASE: every write of the round for the gang is done, it goes on after the RESAMPLE (R407). -/
def execResampleRelease (gang : Nat) (s : State) : Host.Outcome State Fault Refusal :=
  match s.anyGang? gang with
  | none => .next s
  | some g =>
    match (s.grid? g.grid).bind fun G => G.pop with
    | none => .next s
    | some P =>
      if P.phase = .committed ∧ gang ∈ P.releasing then
        let s := s.setAnyGang { g with strands := g.strands.map fun st => if st.wait = .resample then { st with wait := .none } else st }
        let left := P.releasing.filter fun x => x ≠ gang
        .next (s.setPop g.grid fun P => { P with releasing := left, phase := if left.isEmpty then .idle else .committed })
      else .next s

/-- Rounds that wait for pages of a pool that has been pushed to are counted again (R404). -/
def State.recount (s : State) : State :=
  (s.grids.filter fun G => match G.pop with
    | some P => decide (P.phase = .counting) && meets P.short s.pushed
    | none => false).foldl (fun s G => s.popStep G.serial) { s with pushed := [] }

/-- A store to PPPUSH of stack h (R398). -/
def State.pushPage (s : State) (h page : Nat) : State := (s.poolPush h page).recount

def execPoolPush (stack : Nat) (value : W64) (s : State) : Host.Outcome State Fault Refusal :=
  if stack < Config.hbmStacks then .next (s.pushPage stack value.toNat) else .next s

/-! ## PSTAT (R410) -/

/-- A natural number times 2^(-149) as a binary64 bit pattern, rounded to nearest even. -/
def scaled64 (w : Nat) : Nat :=
  if w = 0 then 0
  else
    let e := ilog2 w
    let m :=
      if e ≤ 52 then w * 2 ^ (52 - e)
      else
        let d := 2 ^ (e - 52)
        let q := w / d
        let r := w % d
        if d < 2 * r ∨ (2 * r = d ∧ q % 2 = 1) then q + 1 else q
    (e + 1023 - 149) * 2 ^ 52 + (m - 2 ^ 52)

def State.liveThreads (s : State) (grid : Nat) : Nat :=
  ((s.gangsOf grid).map fun g => (g.slices.map fun sl => (sl.threads.filter fun t => t.live).length).foldl (· + ·) 0).foldl (· + ·) 0

def State.popField (s : State) (grid : Nat) (P : Population) (f : Nat) : Nat :=
  match f with
  | 0 => P.slots
  | 1 => P.round
  | 2 => if P.round = 0 then P.slots else P.lastN
  | 3 => P.lastParents
  | 4 => s.liveThreads grid
  | _ => scaled64 P.lastW

def execPstat (d : Dst) (f : BitVec 4) (s : State) : Host.Outcome State Fault Refusal :=
  instr s (fun _ => Accept.dstIsS d && decide (f.toNat ≤ 5)) [] [] fun c =>
    if !c.gate then s.skip c
    else
      let v := match c.inPop s with
        | some P => s.popField c.g.grid P f.toNat
        | none => 0
      match d with
      | .s n => s.done c (c.g.setS n.toNat (w64 v) (exact64 (w64 v)))
      | _ => s.skip c

/-! ## RNG (R411) -/

def Ctx.rngWord (s : State) (c : Ctx) (k j : Nat) : Nat :=
  streamWord (c.seed s) (c.streamG s k j) 0x524E0000 ((c.g.thread k j).rngs % 2 ^ 64)

def Ctx.rngRime (s : State) (c : Ctx) (a b : Src) (k : Nat) : Rime :=
  match c.rimeOf s 32 a k with
  | .iv lo hi =>
    if 1 ≤ lo ∧ hi < 2 ^ 31 then
      let B := (c.rimeOf s 32 b k).bounds 32
      Rime.mk 32 B.1 (B.2 + hi - 1)
    else .top
  | .top => .top

def execRng (d : Dst) (a b : Src) (s : State) : Host.Outcome State Fault Refusal :=
  instr s (fun _ => Accept.dstVX d && Accept.src32 a && Accept.src32 b) [d] [a, b] fun c =>
    let f : LaneFn := fun k j =>
      if c.active k j then
        let n := (c.val s a k j).toNat
        let n := if n = 0 then 2 ^ 32 else n
        some (c.val s b k j + BitVec.ofNat 32 (c.rngWord s k j * n / 2 ^ 32))
      else none
    let g := c.g.writeVX c.st.slices d f (c.rngRime s a b)
    s.done c (g.mapThreads c.st.slices fun k j t => if c.active k j then { t with rngs := (t.rngs + 1) % 2 ^ 64 } else t)

end Sys2Proof.Machine
end

