-- ==== Sys2Proof/Machine/Registers.lean ====
section
/-! DEFINITION. The management space: what a host write does to each register and what a host read gives (18 R443, R444,
R454, R455; 06 R153; 09 R236; 10 R263, R268, R276; 16 R398; 17 R427 to R436). -/

namespace Sys2Proof.Machine

open Sys2Proof

/-- The bits of a value that lie in fields (high, low); the other bits are reserved (DEDUCED, log 82). -/
def onlyFields (v : Nat) (fs : List (Nat × Nat)) : Nat := (fs.map fun f => field v f.1 f.2 * 2 ^ f.2).foldl (· + ·) 0

/-- Fields that a plain register holds: FQBASE, ASTBASE and the rest of R443's package-wide part. -/
def packageFields (o : Nat) : List (Nat × Nat) :=
  if o = Mgmt.astbase then [(63, 0)]
  else if o = Mgmt.tinvaddr then [(56, 16)]
  else if o = Mgmt.lttbase then [(63, 60), (51, 6)]
  else if o = Mgmt.cttbase then [(63, 60), (56, 6)]
  else if o = Mgmt.fqbase then [(63, 63), (51, 12), (3, 0)]
  else if o = Mgmt.fqcons then [(31, 0)]
  else if o = Mgmt.fqrval then [(63, 0)]
  else if o = Mgmt.savebase then [(51, 33), (0, 0)]
  else if o = Mgmt.groupcfg then [(8, 8), (5, 0)]
  else if o = Mgmt.ringtmo then [(31, 0)]
  else if 0x1140 ≤ o ∧ o < 0x1180 then [(63, 63), (29, 24), (21, 16), (13, 8), (5, 0)]
  else if 0x1200 ≤ o ∧ o < 0x1400 then [(4, 0)]
  else if 0x1400 ≤ o ∧ o < 0x1800 then
    if o % 32 = 0 then [(63, 32), (23, 16), (8, 8), (7, 0)] else if o % 32 = 8 then [(63, 0)] else []
  else []

/-- A format-region word; lines filled before may carry the scales that the registers gave then (10 R263, R264). -/
def frFields (o : Nat) : List (Nat × Nat) :=
  if o % 32 = 0 then [(63, 0)] else if o % 32 = 24 then [(11, 0)] else [(51, 0)]

def State.writeRegion (s : State) (die o v : Nat) : State :=
  let old : OldRegions := { die := die, regs := s.regionRegs die }
  let s := { s with regions := s.regions ++ [old] }
  s.setMg (0x100000 * die + o) (onlyFields v (frFields o))

/-- A write to a word of base die `die`'s own registers, at offset `o` of its block. -/
def State.dieWrite (s : State) (die o v : Nat) : State :=
  if o < 0x200 then s.writeRegion die o v
  else if o < 0x260 then
    let h := 3 * die + (o - 0x200) / 0x20
    if o % 0x20 = 0 then s.setMg (Mgmt.ppbase h) (onlyFields v [(51, 16), (0, 0)])
    else if o % 0x20 = 0x10 then s.pushPage h v
    else s
  else if 0x300 ≤ o ∧ o < 0x340 then s.setMg (Mgmt.eccstat die ((o - 0x300) / 8)) 0
  else if 0x400 ≤ o ∧ (o - 0x400) / 8 < (diePorts die).2 then
    let port := (diePorts die).1 + (o - 0x400) / 8
    if bitOf v 62 then s.setLink port { s.link port with training := true, replays := 0, failed := 0 } else s
  else s

/-- A write to FQREPLY, PREEMPTCTL, TINVCTL or POWERCTL, as its row of the table does it; none for other offsets. -/
def commandWrite (o v : Nat) (s : State) : Option (Host.Outcome State Fault Refusal) :=
  if o = 0x1068 then
    some (if field v 63 60 < 3 then reply s (v % 2 ^ 32) (field v 63 60) else .next s)
  else if o = 0x1080 then
    let grid := field v 47 0
    some (match field v 63 62 with
      | 1 => execPreemptHalt grid s
      | 2 => execPreemptEvict grid s
      | 3 => execPreemptRelease grid s
      | _ => .next s)
  else if o = Mgmt.tinvctl then
    some (.next (if field v 17 16 < 3 then tinvStart s (field v 17 16) (v % 2 ^ 16) else s))
  else if o = Mgmt.powerctl then
    let cap := v % 2 ^ 13
    some (match field v 17 16 with
      | 0 => execPowerRun cap s
      | 1 => execPowerHold cap s
      | 2 => execPowerLow cap s
      | _ => .next s)
  else none

/-- A write to a core's configuration block: FIRNBASE and SPILLBASE stand while the core is in use. -/
def State.coreWrite (s : State) (core o v : Nat) : State :=
  if o = 0 then
    if s.gangs.any fun g => decide (g.core = core) && !g.released then s
    else s.setMg (Mgmt.firnbase core) (onlyFields v [(51, 25), (0, 0)])
  else if o = 8 then
    if s.teams.any fun t => decide (t.core = core) && !t.retired then s
    else s.setMg (Mgmt.spillbase core) (onlyFields v [(51, 20), (0, 0)])
  else if o = 16 then s.setMg (Mgmt.wdlimit core) v
  else s

/-- REGISTER_WRITE: a host write of a 64-bit word of the management space. Reserved offsets and read-only registers
ignore it; an offset whose register has a row of its own does what that row does. -/
def execRegisterWrite (offset : Nat) (value : W64) (s : State) : Host.Outcome State Fault Refusal :=
  let v := value.toNat
  if offset % 8 ≠ 0 then .next s
  else if offset < 0x400000 then
    let die := offset / 0x100000
    let o := offset % 0x100000
    if o < 0x1000 then .next (s.dieWrite die o v)
    else if die ≠ 0 then .next s
    else match commandWrite o v s with
      | some r => r
      | none =>
        if (packageFields o).isEmpty then .next s
        else
          let s := s.setMg o (onlyFields v (packageFields o))
          .next (if 0x1200 ≤ o ∧ o < 0x1400 then s.linksChanged else s)
  else if offset < 0xA00000 then .next (s.coreWrite ((offset - 0x400000) / 0x1000) (offset % 0x1000) v)
  else .next s

/-! ## Host reads -/

/-- POWERSTAT: whether the clock's floor overrides CAP is not the model's to say (DESIGN CHOICE, log 32). -/
def State.powerStat (s : State) : Nat :=
  Config.freeValue s.free % 2 * 2 ^ 18 + s.power * 2 ^ 16 + s.mhz.foldl min 4000

/-- BOOTSTAT: READY and the code of a failed start. -/
def State.bootStat (s : State) : Nat := b2n (decide (s.boot.1 = 2)) + s.boot.2 * 256

def State.linkStat (s : State) (port : Nat) : Nat := b2n (s.link port).up * 2 ^ 63 + (s.link port).replays

/-- What a host read of the word at an offset gives. -/
def State.mgmtRead (s : State) (offset : Nat) : Nat :=
  let die := offset / 0x100000
  let o := offset % 0x100000
  if offset % 8 ≠ 0 ∨ 0xA00000 ≤ offset then 0
  else if 0x400000 ≤ offset then (if offset % 0x1000 ≤ 16 then s.mg offset else 0)
  else if o < 0x1000 then
    if 0x400 ≤ o ∧ (o - 0x400) / 8 < (diePorts die).2 then s.linkStat ((diePorts die).1 + (o - 0x400) / 8) else s.mg offset
  else if die ≠ 0 then 0
  else if o = Mgmt.tinvctl then b2n (!s.tinv.isEmpty) * 2 ^ 63 + s.mg Mgmt.tinvctl
  else if o = 0x1048 then s.fqprod
  else if o = 0x1058 then s.fqlost
  else if o = 0x1088 then s.preemptStat
  else if 0x1800 ≤ o ∧ o < 0x1A00 then le (s.meas.getD ((o - 0x1800) / 64) []) (o % 64) 8
  else if o = 0x1A08 then s.powerStat
  else if o = 0x1A10 then s.bootStat
  else s.mg offset

end Sys2Proof.Machine
end

