-- ==== Sys2Proof/Machine/Traps.lean ====
section
/-! DEFINITION. The trap instructions: TRAP, RESUME, TWR, BRK and SYSC (17 R421 to R426). -/

namespace Sys2Proof.Machine

open Sys2Proof

/-- TRAP (R422). -/
def execTrap (a : Src) (s : State) : Host.Outcome State Fault Refusal :=
  instr s (fun _ => Accept.srcSZ64 a) [] [] fun c =>
    if c.gate then s.userTrap c c.g { cause := 10, tmask := c.tmask, taddr := (c.val64 s a).toNat } else s.skip c

/-- BRK (R423). -/
def execBrk (code : BitVec 16) (s : State) : Host.Outcome State Fault Refusal :=
  instr s (fun _ => true) [] [] fun c =>
    if c.gate then s.userTrap c c.g { cause := 9, tmask := c.tmask, taddr := code.toNat } else s.skip c

/-- SYSC: a release of the gang's accesses, then a gang fault that CONTINUE ends after it (R426). -/
def execSysc (d : Dst) (a : Src) (svc : BitVec 8) (s : State) : Host.Outcome State Fault Refusal :=
  instr s (fun _ => Accept.dstSZ d && Accept.srcSZ64 a) [] [] fun c =>
    if !c.gate then s.skip c
    else
      let s1 := s.flush c.g.gid (List.range c.g.slices.length)
      let c1 := c.refresh s1
      let sd := match d with
        | .s n => some n.toNat
        | _ => none
      s1.gangFault c1 c1.g (c.info 9 svc.toNat 0 (c.val64 s a).toNat) sd none

/-- Whether the gang's handler is active and the strand is in it (R424, R425). -/
def Ctx.inHandler (c : Ctx) : Bool := c.g.handler.isSome && !c.st.held

/-! ## RESUME (R425) -/

/-- Where RESUME.skip goes on: after the instruction whose main word is at TPC; for LINE word 2 of the next line; at
TPC itself where that names no marked word or its line cannot be fetched, so that LINE or the fetch fault is raised
there once the handler has ended. -/
def Ctx.skipTarget (s : State) (c : Ctx) : State × Nat :=
  let tpc := c.g.trap.tpc.toNat
  if c.g.trap.tcause.toNat % 256 = 12 then (s, wrapTo 64 ((tpc / 128 * 128 + 136 : Nat) : Int))
  else
    match s.fetch c.g tpc with
    | (s1, .ok _ fall) => (s1, fall)
    | (s1, .badLine _) => (s1, tpc)
    | (s1, .fault _) => (s1, tpc)

def execResume (again : BitVec 1) (s : State) : Host.Outcome State Fault Refusal :=
  instr s (fun c => c.inHandler) [] [] fun c =>
    c.meetAt s .resume fun c =>
      match c.g.handler with
      | none => s.setGang c.g
      | some h =>
        let (s1, pc) := if again = 1 then (s, c.g.trap.tpc.toNat) else c.skipTarget s
        s1.trapReturn c.g c.st h pc

/-! ## TWR (R424) -/

/-- Opcodes whose entry defines D as an operand code that is written. -/
def dIsCode (op : Nat) : Bool :=
  decide (op = 0x03) || decide (op = 0x09) || (decide (0x20 ≤ op ∧ op ≤ 0x3C) && decide (op ≠ 0x30)) ||
  (decide (0x40 ≤ op ∧ op ≤ 0x6C) && decide (op ≠ 0x49) && decide (op ≠ 0x67)) ||
  (match op with
   | 0x70 | 0x76 | 0x77 | 0x79 | 0x7B | 0x80 | 0x83 | 0x84 | 0x85 | 0x86 | 0x87 | 0x8A | 0xA1
   | 0xC1 | 0xC5 | 0xC6 | 0xC7 | 0xE4 | 0xE6 | 0xE7 | 0xE8 => true
   | _ => false)

/-- Opcodes that write a predicate which D bits 2:0 name. -/
def dIsPred (op : Nat) : Bool := decide (op = 0x30) || decide (op = 0x49) || decide (op = 0x67)

/-- Registers of the trapped instruction's destination, from its TWORD. -/
def destRegs (tword : Nat) : Nat :=
  let op := field tword 31 24
  let size : BitVec 3 := BitVec.ofNat 3 (field tword 39 37)
  match op with
  | 0x80 | 0x85 | 0x87 | 0x8A => Accept.regsOf size
  | 0x86 => 2 * Accept.regsOf size
  | 0x59 => 2
  | 0x03 => if field tword 7 0 = 0x0E ∨ field tword 7 0 = 0x0F then 2 else 1
  | _ => 1

/-- The threads that TWR writes: live, in TMASK, in the issuing strand. -/
def Ctx.twrLanes (c : Ctx) : LaneFn → LaneFn := fun f k j =>
  if c.st.slices.contains k && (c.g.thread k j).live && bitOf c.g.trap.tmask.toNat (4 * k + j) then f k j else none

/-- Saved L0 replaced for the lanes written, where the trapped instruction shifted the latches. -/
def HandlerCtx.setL0 (h : HandlerCtx) (f : LaneFn) : HandlerCtx :=
  if !h.shifted then h
  else
    { h with saved := h.saved.map fun v =>
        { v with latches := mapI (fun j q => match f v.slice j with
            | some w => (w, q.2)
            | none => q) 0 v.latches } }

/-- DEDUCED, log 48. -/
def execTwr (a : Src) (elem : BitVec 3) (s : State) : Host.Outcome State Fault Refusal :=
  instr s (fun c => Accept.twr a && c.inHandler) [] [a] fun c =>
    let tw := c.g.trap.tword.toNat
    let op := field tw 31 24
    let f : LaneFn := c.twrLanes fun k j => some (c.val s a k j)
    let ks := c.st.slices
    let saved (g : Gang) : Gang := { g with handler := g.handler.map fun h => h.setL0 f }
    if dIsPred op then s.done c (c.g.writeP ks (field tw 18 16) f)
    else if !dIsCode op then s.skip c
    else
      match Dst.ofCode (BitVec.ofNat 8 (field tw 23 16)) with
      | .error _ => s.skip c
      | .ok (.v n) =>
        if !c.vOk s n.toNat 1 then s.skip c
        else if destRegs tw ≤ elem.toNat ∨ c.vOk s (n.toNat + elem.toNat) 1 = false then s.encoding c
        else s.done c (saved (c.g.writeV ks (n.toNat + elem.toNat) f))
      | .ok (.x n) =>
        if !c.xOk s n.toNat then s.skip c
        else
          s.done c (saved (c.g.writeX ks n.toNat f fun k =>
            Rime.hullW 32 ((c.g.slice k).rime n.toNat) (c.rimeOf s 32 a k)))
      | .ok (.s n) =>
        if Accept.srcSZ a then s.done c (saved (c.g.setS n.toNat (c.val64 s a) (c.rimeOf s 64 a 0))) else s.encoding c
      | .ok .l0 => s.done c (saved c.g)
      | .ok .zero => s.skip c

end Sys2Proof.Machine
end

