-- ==== Sys2Proof/Machine/Dispatch.lean ====
section
/-! DEFINITION. One arm per instruction: what executing it does. -/

namespace Sys2Proof.Machine

open Sys2Proof

def exec (i : Instr) (s : State) : Host.Outcome State Fault Refusal :=
  match i with
  | .nop => Sys2Proof.Machine.execNop s
  | .mode ty rnd sat guard ftz => Sys2Proof.Machine.execMode ty rnd sat guard ftz s
  | .fpctl a op => Sys2Proof.Machine.execFpctl a op s
  | .getsr d n => Sys2Proof.Machine.execGetsr d n s
  | .setsr a n => Sys2Proof.Machine.execSetsr a n s
  | .trap a => Sys2Proof.Machine.execTrap a s
  | .resume again => Sys2Proof.Machine.execResume again s
  | .twr a elem => Sys2Proof.Machine.execTwr a elem s
  | .brk code => Sys2Proof.Machine.execBrk code s
  | .sysc d a svc => Sys2Proof.Machine.execSysc d a svc s
  | .fence scope order => Sys2Proof.Machine.execFence scope order s
  | .fencei => Sys2Proof.Machine.execFencei s
  | .ipf lines count => Sys2Proof.Machine.execIpf lines count s
  | .br off => Sys2Proof.Machine.execBr off s
  | .beq a b off => Sys2Proof.Machine.execBeq a b off s
  | .bne a b off => Sys2Proof.Machine.execBne a b off s
  | .blt a b off => Sys2Proof.Machine.execBlt a b off s
  | .bge a b off => Sys2Proof.Machine.execBge a b off s
  | .bltu a b off => Sys2Proof.Machine.execBltu a b off s
  | .bgeu a b off => Sys2Proof.Machine.execBgeu a b off s
  | .bp sel off => Sys2Proof.Machine.execBp sel off s
  | .join => Sys2Proof.Machine.execJoin s
  | .call off => Sys2Proof.Machine.execCall off s
  | .ret => Sys2Proof.Machine.execRet s
  | .jmpi a => Sys2Proof.Machine.execJmpi a s
  | .exit => Sys2Proof.Machine.execExit s
  | .yield => Sys2Proof.Machine.execYield s
  | .sleep a => Sys2Proof.Machine.execSleep a s
  | .passpri rel g => Sys2Proof.Machine.execPasspri rel g s
  | .add d a b => Sys2Proof.Machine.execAdd d a b s
  | .sub d a b => Sys2Proof.Machine.execSub d a b s
  | .mul d a b => Sys2Proof.Machine.execMul d a b s
  | .mulh d a b => Sys2Proof.Machine.execMulh d a b s
  | .mad d a b => Sys2Proof.Machine.execMad d a b s
  | .min d a b => Sys2Proof.Machine.execMin d a b s
  | .max d a b => Sys2Proof.Machine.execMax d a b s
  | .shl d a b => Sys2Proof.Machine.execShl d a b s
  | .shr d a b => Sys2Proof.Machine.execShr d a b s
  | .sar d a b => Sys2Proof.Machine.execSar d a b s
  | .and d a b => Sys2Proof.Machine.execAnd d a b s
  | .or d a b => Sys2Proof.Machine.execOr d a b s
  | .xor d a b => Sys2Proof.Machine.execXor d a b s
  | .div d a b => Sys2Proof.Machine.execDiv d a b s
  | .rem d a b => Sys2Proof.Machine.execRem d a b s
  | .clamp d a b => Sys2Proof.Machine.execClamp d a b s
  | .cmp cond p a b => Sys2Proof.Machine.execCmp cond p a b s
  | .seli d a b => Sys2Proof.Machine.execSeli d a b s
  | .widen d a b => Sys2Proof.Machine.execWiden d a b s
  | .rimeget d a b => Sys2Proof.Machine.execRimeget d a b s
  | .narrow d a b => Sys2Proof.Machine.execNarrow d a b s
  | .clz d a => Sys2Proof.Machine.execClz d a s
  | .popc d a => Sys2Proof.Machine.execPopc d a s
  | .brev d a => Sys2Proof.Machine.execBrev d a s
  | .bfx d a b => Sys2Proof.Machine.execBfx d a b s
  | .bfi d a b => Sys2Proof.Machine.execBfi d a b s
  | .abs d a => Sys2Proof.Machine.execAbs d a s
  | .not d a => Sys2Proof.Machine.execNot d a s
  | .lea d a b => Sys2Proof.Machine.execLea d a b s
  | .fadd d a b => Sys2Proof.Machine.execFadd d a b s
  | .fsub d a b => Sys2Proof.Machine.execFsub d a b s
  | .fmul d a b => Sys2Proof.Machine.execFmul d a b s
  | .ffma d a b => Sys2Proof.Machine.execFfma d a b s
  | .ffma3 d a b c negp negc => Sys2Proof.Machine.execFfma3 d a b c negp negc s
  | .fmin d a b => Sys2Proof.Machine.execFmin d a b s
  | .fmax d a b => Sys2Proof.Machine.execFmax d a b s
  | .fneg d a => Sys2Proof.Machine.execFneg d a s
  | .fabs d a => Sys2Proof.Machine.execFabs d a s
  | .fcmp cond p a b => Sys2Proof.Machine.execFcmp cond p a b s
  | .fsel d a b => Sys2Proof.Machine.execFsel d a b s
  | .frcp d a => Sys2Proof.Machine.execFrcp d a s
  | .frsq d a => Sys2Proof.Machine.execFrsq d a s
  | .fsqrt d a => Sys2Proof.Machine.execFsqrt d a s
  | .fdiv d a b => Sys2Proof.Machine.execFdiv d a b s
  | .fexp2 d a => Sys2Proof.Machine.execFexp2 d a s
  | .flog2 d a => Sys2Proof.Machine.execFlog2 d a s
  | .fsin d a => Sys2Proof.Machine.execFsin d a s
  | .fcos d a => Sys2Proof.Machine.execFcos d a s
  | .ftanh d a => Sys2Proof.Machine.execFtanh d a s
  | .fclass d a => Sys2Proof.Machine.execFclass d a s
  | .fround d a m => Sys2Proof.Machine.execFround d a m s
  | .fscale d a b => Sys2Proof.Machine.execFscale d a b s
  | .fdot2 d a b => Sys2Proof.Machine.execFdot2 d a b s
  | .cvt d a sel src => Sys2Proof.Machine.execCvt d a sel src s
  | .req d a b => Sys2Proof.Machine.execReq d a b s
  | .pack d a b => Sys2Proof.Machine.execPack d a b s
  | .unpack d a sel => Sys2Proof.Machine.execUnpack d a sel s
  | .iadd d a b => Sys2Proof.Machine.execIadd d a b s
  | .isub d a b => Sys2Proof.Machine.execIsub d a b s
  | .imul d a b => Sys2Proof.Machine.execImul d a b s
  | .imad d a b => Sys2Proof.Machine.execImad d a b s
  | .imin d a b => Sys2Proof.Machine.execImin d a b s
  | .imax d a b => Sys2Proof.Machine.execImax d a b s
  | .ishl d a b => Sys2Proof.Machine.execIshl d a b s
  | .ishr d a b => Sys2Proof.Machine.execIshr d a b s
  | .iand d a b => Sys2Proof.Machine.execIand d a b s
  | .ior d a b => Sys2Proof.Machine.execIor d a b s
  | .ixor d a b => Sys2Proof.Machine.execIxor d a b s
  | .icmp cond p a b => Sys2Proof.Machine.execIcmp cond p a b s
  | .shfl d a b => Sys2Proof.Machine.execShfl d a b s
  | .vote d a b => Sys2Proof.Machine.execVote d a b s
  | .gred d a b => Sys2Proof.Machine.execGred d a b s
  | .gscan d a b => Sys2Proof.Machine.execGscan d a b s
  | .bcast d a b => Sys2Proof.Machine.execBcast d a b s
  | .mov d a => Sys2Proof.Machine.execMov d a s
  | .pand p a b => Sys2Proof.Machine.execPand p a b s
  | .por p a b => Sys2Proof.Machine.execPor p a b s
  | .pxor p a b => Sys2Proof.Machine.execPxor p a b s
  | .pnot p a => Sys2Proof.Machine.execPnot p a s
  | .pmov p a imm value => Sys2Proof.Machine.execPmov p a imm value s
  | .pget d single sel => Sys2Proof.Machine.execPget d single sel s
  | .sel d a b => Sys2Proof.Machine.execSel d a b s
  | .aset n a half => Sys2Proof.Machine.execAset n a half s
  | .aget d n half => Sys2Proof.Machine.execAget d n half s
  | .hset n a half => Sys2Proof.Machine.execHset n a half s
  | .hget d n half => Sys2Proof.Machine.execHget d n half s
  | .park first count => Sys2Proof.Machine.execPark first count s
  | .unpark first count => Sys2Proof.Machine.execUnpark first count s
  | .ld d a arr w => Sys2Proof.Machine.execLd d a arr w s
  | .st d a arr w => Sys2Proof.Machine.execSt d a arr w s
  | .femark land a arr w => Sys2Proof.Machine.execFemark land a arr w s
  | .feprobe d a arr w => Sys2Proof.Machine.execFeprobe d a arr w s
  | .zprobe d a arr w => Sys2Proof.Machine.execZprobe d a arr w s
  | .atom d func a arr w => Sys2Proof.Machine.execAtom d func a arr w s
  | .cas d a arr w => Sys2Proof.Machine.execCas d a arr w s
  | .ldx d a arr w => Sys2Proof.Machine.execLdx d a arr w s
  | .stx d p a arr w => Sys2Proof.Machine.execStx d p a arr w s
  | .prf a arr w => Sys2Proof.Machine.execPrf a arr w s
  | .ldrc d a arr w => Sys2Proof.Machine.execLdrc d a arr w s
  | .strc d count a arr w => Sys2Proof.Machine.execStrc d count a arr w s
  | .cctl op a arr w => Sys2Proof.Machine.execCctl op a arr w s
  | .cpy a darr sarr w => Sys2Proof.Machine.execCpy a darr sarr w s
  | .cpym d a darr sarr w => Sys2Proof.Machine.execCpym d a darr sarr w s
  | .kvcpy a darr sarr w => Sys2Proof.Machine.execKvcpy a darr sarr w s
  | .waitc path n => Sys2Proof.Machine.execWaitc path n s
  | .waitz a => Sys2Proof.Machine.execWaitz a s
  | .cpst a w => Sys2Proof.Machine.execCpst a w s
  | .frame a engine w => Sys2Proof.Machine.execFrame a engine w s
  | .sread a drive w => Sys2Proof.Machine.execSread a drive w s
  | .mma t a b w => Sys2Proof.Machine.execMma t a b w s
  | .mmag t a b w => Sys2Proof.Machine.execMmag t a b w s
  | .mxfence => Sys2Proof.Machine.execMxfence s
  | .mxdrainReg t n z f => Sys2Proof.Machine.execMxdrainReg t n z f s
  | .mxdrainScratch t hs he z f => Sys2Proof.Machine.execMxdrainScratch t hs he z f s
  | .mxzero t => Sys2Proof.Machine.execMxzero t s
  | .mxv a arr => Sys2Proof.Machine.execMxv a arr s
  | .mxload t h off => Sys2Proof.Machine.execMxload t h off s
  | .mxscale t a m => Sys2Proof.Machine.execMxscale t a m s
  | .akeys a k => Sys2Proof.Machine.execAkeys a k s
  | .aclass d sr k => Sys2Proof.Machine.execAclass d sr k s
  | .amask t sr tree k => Sys2Proof.Machine.execAmask t sr tree k s
  | .asoft st o noo first t => Sys2Proof.Machine.execAsoft st o noo first t s
  | .ttset g a n => Sys2Proof.Machine.execTtset g a n s
  | .ttmask d sr n => Sys2Proof.Machine.execTtmask d sr n s
  | .ttpos d a sr n => Sys2Proof.Machine.execTtpos d a sr n s
  | .prune d a n sr => Sys2Proof.Machine.execPrune d a n sr s
  | .heat t a arr => Sys2Proof.Machine.execHeat t a arr s
  | .evsel mark a harr larr => Sys2Proof.Machine.execEvsel mark a harr larr s
  | .gath tarr a darr larr w => Sys2Proof.Machine.execGath tarr a darr larr w s
  | .gath2 tarr iarr a darr larr w => Sys2Proof.Machine.execGath2 tarr iarr a darr larr w s
  | .gath3 tarr iarr a darr larr w => Sys2Proof.Machine.execGath3 tarr iarr a darr larr w s
  | .scat tarr a sarr larr w => Sys2Proof.Machine.execScat tarr a sarr larr w s
  | .scata tarr a sarr larr w => Sys2Proof.Machine.execScata tarr a sarr larr w s
  | .nzscan a larr varr w => Sys2Proof.Machine.execNzscan a larr varr w s
  | .bar count b => Sys2Proof.Machine.execBar count b s
  | .bara count b => Sys2Proof.Machine.execBara count b s
  | .barw b => Sys2Proof.Machine.execBarw b s
  | .cbar b => Sys2Proof.Machine.execCbar b s
  | .launch d a b => Sys2Proof.Machine.execLaunch d a b s
  | .waitch n => Sys2Proof.Machine.execWaitch n s
  | .resample d a b => Sys2Proof.Machine.execResample d a b s
  | .pstat d f => Sys2Proof.Machine.execPstat d f s
  | .rng d a b => Sys2Proof.Machine.execRng d a b s
  | .gbar => Sys2Proof.Machine.execGbar s
  | .coll a kind => Sys2Proof.Machine.execColl a kind s
  | .ring a => Sys2Proof.Machine.execRing a s
  | .firmwareMeasure image => Sys2Proof.Machine.execFirmwareMeasure image s
  | .launchStore source offset data => Sys2Proof.Machine.execLaunchStore source offset data s
  | .copyLaunch source offset data => Sys2Proof.Machine.execCopyLaunch source offset data s
  | .bulkCopyComplete id => Sys2Proof.Machine.execBulkCopyComplete id s
  | .gateEvaluate id => Sys2Proof.Machine.execGateEvaluate id s
  | .gateRecheck id => Sys2Proof.Machine.execGateRecheck id s
  | .teamReadmit record => Sys2Proof.Machine.execTeamReadmit record s
  | .gangRelease gang => Sys2Proof.Machine.execGangRelease gang s
  | .swapOut gang => Sys2Proof.Machine.execSwapOut gang s
  | .parkComplete gang => Sys2Proof.Machine.execParkComplete gang s
  | .swapIn gang => Sys2Proof.Machine.execSwapIn gang s
  | .swapEligible gang => Sys2Proof.Machine.execSwapEligible gang s
  | .forcedSwap gang => Sys2Proof.Machine.execForcedSwap gang s
  | .starvationPick gang slice => Sys2Proof.Machine.execStarvationPick gang slice s
  | .fairnessSwitch gang slice => Sys2Proof.Machine.execFairnessSwitch gang slice s
  | .latchHoldExpiry gang slice => Sys2Proof.Machine.execLatchHoldExpiry gang slice s
  | .sleepExpiry gang slice => Sys2Proof.Machine.execSleepExpiry gang slice s
  | .watchdogLimit gang => Sys2Proof.Machine.execWatchdogLimit gang s
  | .emptyTimeout gang slice => Sys2Proof.Machine.execEmptyTimeout gang slice s
  | .spillAccepted gang reg => Sys2Proof.Machine.execSpillAccepted gang reg s
  | .fillReturn gang reg => Sys2Proof.Machine.execFillReturn gang reg s
  | .commandAccept gang slice => Sys2Proof.Machine.execCommandAccept gang slice s
  | .lineLanding gang cmd line => Sys2Proof.Machine.execLineLanding gang cmd line s
  | .commandComplete gang cmd => Sys2Proof.Machine.execCommandComplete gang cmd s
  | .accessPerformed gang id => Sys2Proof.Machine.execAccessPerformed gang id s
  | .commandReplayComplete gang cmd => Sys2Proof.Machine.execCommandReplayComplete gang cmd s
  | .tileOpComplete gang id => Sys2Proof.Machine.execTileOpComplete gang id s
  | .batchComplete gang id => Sys2Proof.Machine.execBatchComplete gang id s
  | .heatAdd gang id => Sys2Proof.Machine.execHeatAdd gang id s
  | .pageWalkComplete core asid va => Sys2Proof.Machine.execPageWalkComplete core asid va s
  | .lineFill core pa => Sys2Proof.Machine.execLineFill core pa s
  | .mscCountedDrop line => Sys2Proof.Machine.execMscCountedDrop line s
  | .eccError target => Sys2Proof.Machine.execEccError target s
  | .remoteAccess member op => Sys2Proof.Machine.execRemoteAccess member op s
  | .remoteAccessTimeout gang who => Sys2Proof.Machine.execRemoteAccessTimeout gang who s
  | .replyReplay seq => Sys2Proof.Machine.execReplyReplay seq s
  | .replyAbort seq => Sys2Proof.Machine.execReplyAbort seq s
  | .replyContinue seq => Sys2Proof.Machine.execReplyContinue seq s
  | .preemptHalt grid => Sys2Proof.Machine.execPreemptHalt grid s
  | .preemptEvict grid => Sys2Proof.Machine.execPreemptEvict grid s
  | .preemptRelease grid => Sys2Proof.Machine.execPreemptRelease grid s
  | .gangHalted gang => Sys2Proof.Machine.execGangHalted gang s
  | .teamSave team => Sys2Proof.Machine.execTeamSave team s
  | .resampleRelease gang => Sys2Proof.Machine.execResampleRelease gang s
  | .poolPush stack value => Sys2Proof.Machine.execPoolPush stack value s
  | .tinvPage asid => Sys2Proof.Machine.execTinvPage asid s
  | .tinvAsid asid => Sys2Proof.Machine.execTinvAsid asid s
  | .attestationRequest data => Sys2Proof.Machine.execAttestationRequest data s
  | .eccstatClear die k => Sys2Proof.Machine.execEccstatClear die k s
  | .linkRetrain port => Sys2Proof.Machine.execLinkRetrain port s
  | .linkTrained port => Sys2Proof.Machine.execLinkTrained port s
  | .flitCrcFail port again => Sys2Proof.Machine.execFlitCrcFail port again s
  | .laneLockLoss port => Sys2Proof.Machine.execLaneLockLoss port s
  | .ringTileArrival ring rev stp data => Sys2Proof.Machine.execRingTileArrival ring rev stp data s
  | .ringAckArrival ring rev stp => Sys2Proof.Machine.execRingAckArrival ring rev stp s
  | .ringStepComplete ring => Sys2Proof.Machine.execRingStepComplete ring s
  | .ringTimeout ring => Sys2Proof.Machine.execRingTimeout ring s
  | .breakReceived ring rev => Sys2Proof.Machine.execBreakReceived ring rev s
  | .collectiveComplete ring => Sys2Proof.Machine.execCollectiveComplete ring s
  | .nvmeCompletion gang cmd ok data => Sys2Proof.Machine.execNvmeCompletion gang cmd ok data s
  | .storageTimeout gang cmd => Sys2Proof.Machine.execStorageTimeout gang cmd s
  | .powerRun cap => Sys2Proof.Machine.execPowerRun cap s
  | .powerHold cap => Sys2Proof.Machine.execPowerHold cap s
  | .powerLow cap => Sys2Proof.Machine.execPowerLow cap s
  | .clockStep die up => Sys2Proof.Machine.execClockStep die up s
  | .registerWrite offset value => Sys2Proof.Machine.execRegisterWrite offset value s
  | .collectiveChunkArrival ring chunk params data => Sys2Proof.Machine.execCollectiveChunkArrival ring chunk params data s
  | .remoteCopyInvalidate line => Sys2Proof.Machine.execRemoteCopyInvalidate line s
  | .measurementExtend k data => Sys2Proof.Machine.execMeasurementExtend k data s
  | .bootReady code => Sys2Proof.Machine.execBootReady code s
  | .coldReset => Sys2Proof.Machine.execColdReset s
  | .warmReset => Sys2Proof.Machine.execWarmReset s
  | .teamAdmit => Sys2Proof.Machine.execTeamAdmit s
  | .clusterGroupAdmit => Sys2Proof.Machine.execClusterGroupAdmit s
  | .coreReserve => Sys2Proof.Machine.execCoreReserve s
  | .distributorPreempt => Sys2Proof.Machine.execDistributorPreempt s
  | .faultRecordPost => Sys2Proof.Machine.execFaultRecordPost s
  | .tinvAll => Sys2Proof.Machine.execTinvAll s
  | .tinvDone => Sys2Proof.Machine.execTinvDone s
  | .quoteComplete => Sys2Proof.Machine.execQuoteComplete s
  | .lowPowerEntry => Sys2Proof.Machine.execLowPowerEntry s

end Sys2Proof.Machine
end

