-- ==== Sys2Proof/Machine/Run.lean ====
section
/-! DEFINITION. The moves that a step makes: a strand's issue, an event, a clock's tick; what follows every move; and the
move that is made where the agenda names none (01 R13; 02 R19, R20; 04 R93; 05 R122; 17 R427; DESIGN CHOICE, log 1). -/

namespace Sys2Proof.Machine

open Sys2Proof

/-! ## Clocks -/

/-- A core clock runs on: the watchdog counts of gangs on cores with a limit go with it; gated in the low state (R455). -/
def State.tick (s : State) (die n : Nat) : State :=
  if s.power = 2 then s
  else
    { s with
      cycles := modifyAt (fun c => c + n) die s.cycles
      gangs := s.gangs.map fun g =>
        if g.core / Config.coresPerDie = die ∧ g.released = false ∧ s.mg (Mgmt.wdlimit g.core) ≠ 0 then { g with watchdog := g.watchdog + n }
        else g }

def State.baseTick (s : State) (n : Nat) : State := { s with base := s.base + n }

/-! ## Moves -/

/-- A move before what follows it. Before an event other than the performing of one access, what only some scope instance
reads is performed for all (11 R292, R297). -/
def State.perform (s : State) : Move → Host.Outcome State Fault Refusal
  | .issue gang slice => s.issueWith gang slice fun i => some (exec i)
  | .event i => match i with
    | .accessPerformed _ _ => exec i s
    | i => exec i s.drainSeen
  | .tick die n => .next (s.tick die n)
  | .baseTick n => .next (s.baseTick n)

/-- Rounds counted again for the pages that a move pushed, those that a recount's own commits push among them (16 R404). -/
def State.recounts (s : State) : Nat → State
  | 0 => s
  | n + 1 => if s.pushed.isEmpty then s else s.recount.recounts n

/-- What follows every move from `before`: stores that reached the launch window are taken up, spill blocks stand in memory,
waiting rounds see pushed pages, stacks move between the partitions and firn, readiness and the waiting launch are noted. -/
def State.settle (before s : State) : State :=
  let s := State.reflectSpill before s.drainWindow
  let s := s.recounts (s.grids.length + 1)
  (State.moveStacks before s).noteUnready.noteReady.noteHead

/-- A move made: no strand is issuing when it begins. -/
def State.move (s : State) (m : Move) : Host.Outcome State Fault Refusal :=
  match ({ s with issue := none }).perform m with
  | .next s' => .next (State.settle s s')
  | r => r

/-! ## The device's own choice -/

/-- Whether a move has an effect. -/
def State.acts (s : State) (m : Move) : Bool :=
  match s.perform m with
  | .next s' => decide (s' ≠ s)
  | _ => false

/-- Events of a gang's accepted work. -/
def Gang.work (g : Gang) : List Instr :=
  (g.accesses.map fun a => Instr.accessPerformed g.gid a.id) ++
  (g.cmds.flatMap fun k =>
    (if k.built then k.lines.map fun l => Instr.lineLanding g.gid k.id l.id else [Instr.lineLanding g.gid k.id 0]) ++
    [.commandComplete g.gid k.id, .commandReplayComplete g.gid k.id, .storageTimeout g.gid k.id, .remoteAccessTimeout g.gid (.command k.id)]) ++
  (g.tileOps.map fun o => Instr.tileOpComplete g.gid o.id) ++ (g.batches.map fun b => Instr.batchComplete g.gid b.id) ++
  (g.heats.map fun x => Instr.heatAdd g.gid x.id)

/-- Events of a gang and its strands. -/
def Gang.events (g : Gang) : List Instr :=
  [.gangHalted g.gid, .gangRelease g.gid, .resampleRelease g.gid, .watchdogLimit g.gid] ++
  (g.strands.flatMap fun st =>
    let k := st.low
    [Instr.sleepExpiry g.gid k, .commandAccept g.gid k, .emptyTimeout g.gid k, .latchHoldExpiry g.gid k, .starvationPick g.gid k, .fairnessSwitch g.gid k,
      .remoteAccessTimeout g.gid (.strand k)]) ++
  [.swapEligible g.gid, .swapOut g.gid, .forcedSwap g.gid, .parkComplete g.gid, .swapIn g.gid] ++
  (if g.parkQ.isEmpty && g.strands.all (fun st => decide (st.wait ≠ .spill)) then [] else
    (List.range 0xA0).flatMap fun r => [Instr.fillReturn g.gid r, .spillAccepted g.gid r])

/-- Events of the package. -/
def State.packageEvents (s : State) : List Instr :=
  [.faultRecordPost, .teamAdmit, .clusterGroupAdmit, .coreReserve, .distributorPreempt, .tinvDone, .quoteComplete, .lowPowerEntry] ++
  (s.pendings.flatMap fun p => [Instr.gateEvaluate p.id, .gateRecheck p.id]) ++ (s.bulk.map fun b => Instr.bulkCopyComplete b.id) ++
  (s.teams.map fun t => Instr.teamSave t.key) ++ (s.saved.map fun v => Instr.teamReadmit v.record) ++
  (s.fills.map fun f => Instr.lineFill f.core f.pa) ++
  (List.range 8).flatMap fun r => [Instr.ringStepComplete r, .collectiveComplete r, .ringTimeout r]

/-- The events that the device may find due by itself, in the order it is asked for them. -/
def State.due (s : State) : List Instr :=
  s.packageEvents ++ (s.gangs ++ s.saved.flatMap fun v => v.gangs).flatMap Gang.work ++ s.gangs.flatMap Gang.events

/-- A strand put in its place in R122's order. -/
def State.insertIssue (s : State) (x : Gang × Strand) : List (Gang × Strand) → List (Gang × Strand)
  | [] => [x]
  | y :: l => if rankBefore (s.rank y.1 y.2) (s.rank x.1 x.2) then y :: s.insertIssue x l else x :: y :: l

/-- Strands that may issue, first the one that R122 picks. -/
def State.issuable (s : State) : List Move :=
  let all := s.gangs.flatMap fun g => (g.strands.filter fun st => s.mayIssue g st && s.wouldRun g st).map fun st => (g, st)
  (all.foldl (fun l x => s.insertIssue x l) []).map fun x => .issue x.1.gid x.2.low

/-- A beat of every clock. -/
def beat : List Move := ((List.range Config.computeDies).map fun d => .tick d 4) ++ [.baseTick 2]

/-- The moves made where the agenda names none: an event that is due, a strand's issue and a beat of every clock, or such a
beat. -/
def State.auto (s : State) : List Move :=
  match ((s.due.map Move.event) ++ s.issuable).find? s.acts with
  | some (.issue gang slice) => .issue gang slice :: beat
  | some m => [m]
  | none => beat

/-- Moves made one after another, up to the first that stops. -/
def State.moves (s : State) : List Move → Host.Outcome State Fault Refusal
  | [] => .next s
  | m :: l =>
    match s.move m with
    | .next s' => s'.moves l
    | r => r

/-! ## A program placed (DESIGN CHOICE, log 33) -/

/-- Where the placed program's tables and code lie: address-space record 1, one table of each level, a code page. -/
def placed : Nat := 2 ^ 20

/-- A table entry that points to a table, and the leaf of the code page: valid, read, write, execute, U, ANCHOR none. -/
def tableEntry (pa : Nat) : Nat := pa + 1
def codeLeaf (pa : Nat) : Nat := pa + 0xF000 + 0x1F

/-- The template a placed program runs under: one gang of 32 threads, every v and x register, a tile store, tree files. -/
def placedTemplate : Template :=
  { entry := 0x10008, asid := 1, gangs := 1, vregs := 128, xregs := 32, pack := 0, accs := 8, trees := 1, scratch := 1, chip := 0
    width := 2, tflags := 0, clteams := 0 }

def placedLaunch : LaunchRec :=
  { template := 0, flags := 0, prio := 0, teams := 1, gaddr := 0, gval := 0, saddr := 0, seed := 0, arg0 := 0, arg1 := 0, arg2 := 0 }

/-- The code line that holds one instruction, at word 2: STARTS marks it, TARGETS marks it. -/
def placedLine (ws : List W32) : List Byte := leBytes 8 (1 + 2 ^ 30) ++ ws.flatMap fun w => leBytes 4 w.toNat

/-- The tables and the code line in memory. -/
def State.placeMemory (s : State) (ws : List W32) : State :=
  let s := s.pokePhys (s.astRecord 1) (leBytes 8 placed ++ leBytes 8 0 ++ leBytes 8 1)
  let s := s.pokePhys placed (leBytes 8 (tableEntry (placed + 0x10000)))
  let s := s.pokePhys (placed + 0x10000) (leBytes 8 (tableEntry (placed + 0x20000)))
  let s := s.pokePhys (placed + 0x20000) (leBytes 8 (tableEntry (placed + 0x30000)))
  let s := s.pokePhys (placed + 0x30008) (leBytes 8 (codeLeaf (placed + 0x40000)))
  s.pokePhys (placed + 0x40000) (placedLine ws)

/-- The grid that runs the placed program. -/
def State.placedGrid (s : State) : Grid :=
  { serial := s.started + 1, order := s.seq, tmpl := placedTemplate, launch := placedLaunch, queue := none, depth := 0, prio := 0, preempt := false
    parent := none, parentGrid := 0, admitted := 0, retired := 0, chip := [], gridrec := 0, cpytab := 0, status := none, pop := none
    barrier := Barrier.fresh, clusters := [], nextTeam := 0 }

/-- A program of one instruction placed and its gang started on core 0: what TEAM_ADMIT does for a launch of it; the next
move is its issue. -/
def State.placeProgram (s : State) (ws : List W32) : State :=
  let gid := s.nextGid
  let s := s.placeMemory ws
  let G := s.placedGrid
  let s := { s with
    tlb := s.tlb.filter fun e => e.asid ≠ 1 ∧ bitOf e.leaf 5 = false
    poison := s.poison.filter fun l => l ≠ (placed + 0x40000) / 128
    first := s.first.filter fun f => f.1 ≠ tokenKey 0 0
    started := s.started + 1, grids := s.grids ++ [G], issue := none, agenda := [.issue gid 0] }
  s.addTeam (fun s g => some (s.freeSlot g)) G.serial 0 0 0

end Sys2Proof.Machine
end

