-- ==== Sys2Proof/Machine/Step.lean ====
section
/-! DEFINITION. One step of the package, and a program placed where it runs next. -/

namespace Sys2Proof.Machine

open Sys2Proof

/-- One step: the first move of the agenda, or the device's own choice where the agenda is empty (DESIGN CHOICE, log 1). -/
def step (s : State) : Host.Outcome State Fault Refusal :=
  match s.agenda with
  | m :: rest => ({ s with agenda := rest }).move m
  | [] => s.moves s.auto

/-- The state in which the next step issues the instruction whose words the table's bits `w` give (DESIGN CHOICE, log 33). -/
def State.withFetchWord (s : State) (nbits w : Nat) : State :=
  s.placeProgram ((List.range 4).map fun k => BitVec.ofNat 32 (w % 2 ^ nbits / 2 ^ (32 * k)))

end Sys2Proof.Machine
end

