-- ==== Sys2Proof/WellFormed.lean ====
section
/-! DEFINITION. Well-formed instructions: those whose operand classes and fields their entries accept (02 R42) and whose
words are four at most (02 R35). A term that its entry does not accept raises ENCODING when it executes. The device's own
steps have no words and are well formed as they are. -/

namespace Sys2Proof

open Accept in
/-- Every check of an instruction's operand classes and fields that its words alone decide. -/
def Instr.accepts : Instr → Bool
  | .mode ty rnd _ _ _ => modeFields ty rnd
  | .fpctl a _ => srcSZ a
  | .getsr d n => Accept.getsr d n
  | .setsr a n => srcSZ64 a && writableSr n
  | .trap a => srcSZ64 a
  | .twr a _ => Accept.twr a
  | .sysc d a _ => dstSZ d && srcSZ64 a
  | .fence scope order => Accept.fence scope order
  | .br off => offset off
  | .beq a b off | .bne a b off | .blt a b off | .bge a b off | .bltu a b off | .bgeu a b off =>
    srcCmp a && srcCmp b && offset off
  | .bp _ off => offset off
  | .call off => offset off
  | .jmpi a => srcS64 a
  | .sleep a => srcSZ a
  | .passpri rel g => Accept.passpri rel g
  | .add d a b | .sub d a b | .mul d a b | .mulh d a b | .min d a b | .max d a b | .shl d a b | .shr d a b
  | .sar d a b | .and d a b | .or d a b | .xor d a b | .div d a b | .rem d a b | .bfx d a b => idx3 d a b
  | .mad d a b | .clamp d a b | .seli d a b | .bfi d a b | .lea d a b => idx3r d a b
  | .cmp cond _ a b => decide (cond.toNat ≤ 9) && srcCmp a && srcCmp b
  | .widen d a b | .narrow d a b => bounds d a b
  | .rimeget d a b => Accept.rimeget d a b
  | .clz d a | .popc d a | .brev d a | .abs d a | .not d a => idx2 d a
  | .fadd d a b | .fsub d a b | .fmul d a b | .fmin d a b | .fmax d a b | .fdiv d a b | .fscale d a b =>
    dstF d && srcVec a && srcVec b
  | .ffma d a b | .fsel d a b | .fdot2 d a b => dstIsV d && srcVec a && srcVec b
  | .ffma3 d a b c _ _ => Accept.ffma3 d a b c
  | .fneg d a | .fabs d a | .frcp d a | .frsq d a | .fsqrt d a | .fexp2 d a | .flog2 d a | .fsin d a | .fcos d a
  | .ftanh d a | .fclass d a => dstF d && srcVec a
  | .fround d a m => dstF d && srcVec a && decide (m ≠ 6)
  | .fcmp cond _ a b => decide (cond.toNat ≤ 7) && srcVec a && srcVec b
  | .icmp cond _ a b => decide (cond.toNat ≤ 5) && srcVec a && srcVec b
  | .cvt d a _ src => dstVX d && srcVec a && decide (src.toNat ≤ 10)
  | .req d a b =>
    (match d with
     | .v n => decide (n.toNat ≤ 126)
     | _ => false) && srcVec a && srcVec b
  | .pack d a b => dstVX d && srcVec a && srcVec b
  | .unpack d a _ => dstVX d && srcVec a
  | .iadd d a b | .isub d a b | .imul d a b | .imin d a b | .imax d a b | .ishl d a b | .ishr d a b | .iand d a b
  | .ior d a b | .ixor d a b => dstVX d && srcVec a && srcVec b
  | .imad d a b => dstVXonly d && srcVec a && srcVec b
  | .shfl d a b | .gscan d a b => dstVX d && gang a b
  | .vote _ a b | .gred _ a b | .bcast _ a b => gang a b
  | .mov d a => Accept.mov d a
  | .pmov _ a imm _ => decide (imm = 0) || decide (a = 0)
  | .pget d single s => dstVX d && (decide (single = 1) || decide (s = 0))
  | .sel d a b => dstVX d && srcVec a && srcVec b
  | .aset n a _ => decide (4 ≤ n.toNat) && srcSZ64 a
  | .aget d _ _ | .hget d _ _ => dstIsS d
  | .hset _ a _ => srcSZ64 a
  | .park r _ | .unpark r _ => decide (r.toNat ≤ 0x9F)
  | .ld d a _ w => Accept.ld d a w
  | .st d a _ w => Accept.st d a w
  | .femark _ a _ w => Accept.femark a w
  | .feprobe d a _ w => Accept.feprobe d a w
  | .zprobe d a _ w => Accept.zprobe d a w
  | .atom d f a _ w => Accept.atom d f a w
  | .cas d a _ w => Accept.cas d a w
  | .ldx d a _ w => Accept.ldx d a w
  | .stx d _ a _ w => Accept.stx d a w
  | .prf a _ w => Accept.prf a w
  | .ldrc d a _ w => Accept.ld d a w
  | .strc d _ a _ w => Accept.st d a w
  | .cctl op a _ w => Accept.cctl op a w
  | .cpy a _ _ w => Accept.cpy a w
  | .cpym d a _ _ w => Accept.cpym d a w
  | .kvcpy a _ _ w => Accept.kvcpy a w
  | .waitc path _ => decide (path.toNat ≤ 5)
  | .waitz a => isS a
  | .cpst a w => Accept.cpst a w
  | .frame a _ w => Accept.frame a w
  | .sread a _ w => Accept.sread a w
  | .mma _ a b w => Accept.mma a b w
  | .mmag _ a b w => Accept.mmag a b w
  | .mxdrainReg _ n _ f => Accept.mxdrainReg n f
  | .mxdrainScratch _ _ _ _ f => Accept.mxdrainScratch f
  | .mxv a _ => srcS64 a
  | .mxscale _ a m => Accept.mxscale a m
  | .akeys a _ => Accept.akeys a
  | .aclass d _ _ => dstSZ d
  | .asoft sc o noo _ t => Accept.asoft sc o noo t
  | .ttset _ a _ => isV a
  | .ttmask d _ _ => dstVX d
  | .ttpos d a _ _ => dstVX d && srcVec a
  | .prune d a _ _ => dstSZ d && srcSZ a
  | .heat _ a _ => srcSZ a
  | .evsel _ a _ _ => Accept.evsel a
  | .gath _ a _ larr w | .gath2 _ _ a _ larr w => Accept.gath a larr w
  | .gath3 _ _ a _ larr w => Accept.gath3 a larr w
  | .scat _ a _ larr w => Accept.scat a larr w
  | .scata _ a _ larr w => Accept.scata a larr w
  | .nzscan a _ _ w => Accept.nzscan a w
  | .bar count _ | .bara count _ => decide (count.toNat ≤ 32)
  | .launch d a b => Accept.launch d a b
  | .resample d a b => Accept.resample d a b
  | .pstat d f => dstIsS d && decide (f.toNat ≤ 5)
  | .rng d a b => dstVX d && src32 a && src32 b
  | .coll a kind => isS a && decide (kind.toNat ≤ 2)
  | .ring a => isS a
  | .nop | .resume _ | .brk _ | .fencei | .ipf _ _ | .join | .ret | .exit | .yield | .pand _ _ _ | .por _ _ _
  | .pxor _ _ _ | .pnot _ _ | .mxfence | .mxzero _ | .mxload _ _ _ | .amask _ _ _ _ | .barw _ | .cbar _ | .waitch _
  | .gbar => true
  | .coldReset | .warmReset | .firmwareMeasure _ | .launchStore _ _ _ | .copyLaunch _ _ _ | .bulkCopyComplete _
  | .gateEvaluate _ | .gateRecheck _ | .teamAdmit | .clusterGroupAdmit | .coreReserve | .distributorPreempt
  | .teamReadmit _ | .gangRelease _ | .swapOut _ | .parkComplete _ | .swapIn _ | .swapEligible _ | .forcedSwap _
  | .starvationPick _ _ | .fairnessSwitch _ _ | .latchHoldExpiry _ _ | .sleepExpiry _ _ | .watchdogLimit _
  | .emptyTimeout _ _ | .spillAccepted _ _ | .fillReturn _ _ | .commandAccept _ _ | .lineLanding _ _ _
  | .commandComplete _ _ | .accessPerformed _ _ | .commandReplayComplete _ _ | .tileOpComplete _ _
  | .batchComplete _ _ | .heatAdd _ _ | .pageWalkComplete _ _ _ | .lineFill _ _ | .mscCountedDrop _ | .eccError _
  | .remoteAccess _ _ | .remoteAccessTimeout _ _ | .faultRecordPost | .replyReplay _ | .replyAbort _
  | .replyContinue _ | .preemptHalt _ | .preemptEvict _ | .preemptRelease _ | .gangHalted _ | .teamSave _
  | .resampleRelease _ | .poolPush _ _ | .tinvPage _ | .tinvAsid _ | .tinvAll | .tinvDone | .attestationRequest _
  | .quoteComplete | .eccstatClear _ _ | .linkRetrain _ | .linkTrained _ | .flitCrcFail _ _ | .laneLockLoss _
  | .ringTileArrival _ _ _ _ | .ringAckArrival _ _ _ | .ringStepComplete _ | .ringTimeout _ | .breakReceived _ _
  | .collectiveComplete _ | .nvmeCompletion _ _ _ _ | .storageTimeout _ _ | .powerRun _ | .powerHold _ | .powerLow _
  | .lowPowerEntry | .clockStep _ _ | .registerWrite _ _ | .collectiveChunkArrival _ _ _ _ | .remoteCopyInvalidate _
  | .measurementExtend _ _ | .bootReady _ => true

/-- Accepted by its entry, and four words at most. -/
def Instr.wf (i : Instr) : Bool := i.accepts && decide ((encode i).length ≤ 4)

end Sys2Proof
end

