-- ==== Sys2Proof/Safety.lean ====
section
/-! DEFINITION. What counts as a safe run: one that never stops. A step stops only where the agenda asks for an
instruction's effect though no strand issues it (`Fault.noIssue`); no agenda of proper moves does. And the words in which
the statements say what an instruction writes and what it leaves as it was (namespace `Sys2Proof.Claims`). -/

namespace Sys2Proof.Machine

open Sys2Proof

/-- The rows of the table that are instructions, as against the device's and the outside's own steps. -/
def isInstruction (i : Instr) : Bool := i.raw.isSome

/-- A move that the package can make: events are the device's or the outside's own steps. -/
def Move.proper : Move → Bool
  | .event i => !isInstruction i
  | .issue _ _ | .tick _ _ | .baseTick _ => true

/-- A step answers a next state. -/
def State.goesOn (s : State) : Prop := ∃ t, step s = .next t

/-- `n` steps, none of which stops. -/
def State.runs : Nat → State → Prop
  | 0, _ => True
  | n + 1, s => ∃ t, step s = .next t ∧ t.runs n

/-- A safe run: no number of steps stops it. -/
def State.Safe (s : State) : Prop := ∀ n, s.runs n

end Sys2Proof.Machine

namespace Sys2Proof.Claims

open Sys2Proof Sys2Proof.Machine

/-! ## What an instruction leaves as it was -/

/-- `t` is `s` but for its gangs, and among those only gang `gid` may differ: memory, every other gang, teams, grids,
caches, management registers, clocks are unchanged. -/
def OnlyGang (s t : State) (gid : Nat) : Prop :=
  { t with gangs := s.gangs } = s ∧ ∀ n, n ≠ gid → t.gang? n = s.gang? n

/-- Everything of a gang but its slices and strands is unchanged: s, a and h registers with their rimes, FPFLAGS, FPTRAP,
the trap registers, tiles, keys, trees, path counters and all work in flight. -/
def GangKept (g g' : Gang) : Prop := { g' with slices := g.slices, strands := g.strands } = g

/-- The issuing strand goes on at `pc` and waits for nothing; its mode, return stack and slices and every other strand
are unchanged. -/
def GoesOn (c : Ctx) (g' : Gang) (pc : Nat) : Prop :=
  g'.strands = c.g.strands.map fun x => if x.slices = c.st.slices then { c.st with pc := pc, wait := .none } else x

/-- The strand goes on at `pc` having raised the flags `F`: FPFLAGS takes them, the strand sees them from now on, and another
strand need not see those that it did not see before (03 R71, R73). -/
def Raises (c : Ctx) (F : Fp.Flags) (g' : Gang) (pc : Nat) : Prop :=
  g'.fpflags = c.g.fpflags ||| F ∧
  g'.strands = c.g.strands.map fun x =>
    if x.slices = c.st.slices then { c.st with pc := pc, wait := .none, unseen := c.st.unseen &&& ~~~F }
    else { x with unseen := x.unseen ||| (F &&& ~~~(c.g.fpflags &&& ~~~x.unseen)) }

/-- The flags that the active lanes raise (08 R204). -/
def raised (c : Ctx) (f : Nat → Nat → LaneRes) : Fp.Flags :=
  c.activeLanes.foldl (fun F kj => F ||| (f kj.1 kj.2).flags) 0

/-- The registers that the operands name are declared (06 R145) and the latches among them are valid (04 R87). -/
def Ready (s : State) (c : Ctx) (ds : List Dst) (srcs : List Src) : Prop :=
  ds.all (c.dstOk s) = true ∧ srcs.all (c.srcOk s) = true ∧ c.badLatch srcs = none

/-! ## What a destination takes (02 R38, 04 R86) -/

def namesV (d : Dst) (n : Nat) : Bool :=
  match d with
  | .v r => decide (r.toNat = n)
  | _ => false

def namesX (d : Dst) (n : Nat) : Bool :=
  match d with
  | .x r => decide (r.toNat = n)
  | _ => false

/-- A thread before and after an instruction whose destination is `d`: `w` is what it writes, none where it does not write;
`kept` is what its L0 takes in that case. The named register takes the value, every other register keeps its own; the
latches shift where `d` is a v or x register or 0xE0; predicates, liveness, stream counters but `draws`, lineage and
reservation are unchanged. -/
def ThreadGets (d : Dst) (w : Option W32) (kept : W32) (draws : Nat) (t t' : Thread) : Prop :=
  (∀ n, t'.vreg n = if namesV d n then w.getD (t.vreg n) else t.vreg n) ∧
  (∀ n, t'.xreg n = if namesX d n then w.getD (t.xreg n) else t.xreg n) ∧
  (if dstShifts d then t'.l0 = w.getD kept ∧ t'.l1 = t.l0 ∧ t'.l2 = t.l1 ∧ t'.l3 = t.l2
   else t'.l0 = t.l0 ∧ t'.l1 = t.l1 ∧ t'.l2 = t.l2 ∧ t'.l3 = t.l3) ∧
  { t' with v := t.v, x := t.x, l0 := t.l0, l1 := t.l1, l2 := t.l2, l3 := t.l3, draws := t.draws } = t ∧
  t'.draws = t.draws + draws

/-- Every thread of the issuing slices gets what `f` says, every slice that does not issue is unchanged, and so are the
masks and mask stacks, those in firn among them. -/
def LanesGet (c : Ctx) (d : Dst) (f : Nat → Nat → Option W32) (draws : Nat → Nat → Nat) (g' : Gang) : Prop :=
  (∀ k, k ∉ c.st.slices → g'.slice k = c.g.slice k) ∧
  ∀ k ∈ c.st.slices,
    (g'.slice k).mask = (c.g.slice k).mask ∧ (g'.slice k).stack = (c.g.slice k).stack ∧
    (g'.slice k).below = (c.g.slice k).below ∧
    (∀ j, ThreadGets d (f k j) ((c.g.slice k).keptL0 d (c.g.thread k j)) (draws k j) (c.g.thread k j) (g'.thread k j))

/-- The rimes of a slice's x registers after a result of rime `r k` to `d`: a register that `d` names keeps its rime where no
thread of the slice writes, takes `r k` where every live thread does, else the hull of both; every other register keeps
its own (06 R165). -/
def RimesGet (c : Ctx) (d : Dst) (f : Nat → Nat → Option W32) (r : Nat → Rime) (g' : Gang) : Prop :=
  ∀ k ∈ c.st.slices, ∀ n, (g'.slice k).rime n =
    if namesX d n = false ∨ (∀ j ∈ lanes4, f k j = none) then (c.g.slice k).rime n
    else if ∀ j ∈ lanes4, (c.g.thread k j).live = true → (f k j).isSome = true then r k
    else Rime.hullW 32 ((c.g.slice k).rime n) (r k)

/-- The instruction answers a next state in which only its own gang may differ, and that gang is as `P` says. -/
def Answers (i : Instr) (s : State) (c : Ctx) (P : Gang → Prop) : Prop :=
  ∃ t g', exec i s = .next t ∧ OnlyGang s t c.g.gid ∧ t.gang? c.g.gid = some g' ∧ P g'

/-- A per-thread result of rime `r` in each slice and nothing else: the strand goes on at its fall-through address. -/
def Writes (i : Instr) (s : State) (c : Ctx) (d : Dst) (f : Nat → Nat → Option W32) (r : Nat → Rime) : Prop :=
  Answers i s c fun g' => GangKept c.g g' ∧ GoesOn c g' c.is.fall ∧ LanesGet c d f (fun _ _ => 0) g' ∧ RimesGet c d f r g'

/-- What the active threads write, the others nothing. -/
def whenActive (c : Ctx) (f : Nat → Nat → W32) (k j : Nat) : Option W32 := if c.active k j then some (f k j) else none

/-- A gang-uniform result of rime `r` in s register `n`: it is written where some thread of the strand is active, a pending
register's rime being TOP (12 R316), every other s register keeps value and rime, and nothing else changes. -/
def WritesS (i : Instr) (s : State) (c : Ctx) (n : BitVec 6) (v : W64) (r : Rime) : Prop :=
  Answers i s c fun g' =>
    (∀ m, g'.sreg m = if c.gate ∧ m = n.toNat then v else c.g.sreg m) ∧
    (∀ m, g'.srime m = if c.gate ∧ m = n.toNat then (if n.toNat ∈ c.g.pends then .top else r) else c.g.srime m) ∧
    { g' with s := c.g.s, sr := c.g.sr, strands := c.g.strands } = c.g ∧ GoesOn c g' c.is.fall

/-- A predicate written by the active threads: p7 keeps its value, and nothing but predicate `p` of the strand's threads
changes. -/
def WritesP (i : Instr) (s : State) (c : Ctx) (p : Nat) (f : Nat → Nat → Bool) : Prop :=
  Answers i s c fun g' => GangKept c.g g' ∧ GoesOn c g' c.is.fall ∧
    (∀ k, k ∉ c.st.slices → g'.slice k = c.g.slice k) ∧
    ∀ k ∈ c.st.slices, { g'.slice k with threads := (c.g.slice k).threads } = c.g.slice k ∧
      ∀ j, { g'.thread k j with p := (c.g.thread k j).p } = c.g.thread k j ∧
        ∀ m, m < 8 → (g'.thread k j).p.getLsbD m =
          if c.active k j = true ∧ m = p ∧ m ≠ 7 then f k j else (c.g.thread k j).p.getLsbD m

/-- Results that carry flags, no enabled exception among them: every active thread writes, an x register of slice k with
rime `r k`, FPFLAGS gathers every flag, a result that rounds stochastically advances its thread's draw counter; nothing
else changes (03 R65, R71, R73; 08 R202). -/
def WritesRaising (i : Instr) (s : State) (c : Ctx) (d : Dst) (f : Nat → Nat → LaneRes) (r : Nat → Rime) : Prop :=
  (∀ k j, c.active k j = true → (f k j).flags &&& c.g.fptrap = 0) →
  Answers i s c fun g' =>
    GangKept { c.g with fpflags := g'.fpflags } g' ∧
    Raises c (raised c f) g' c.is.fall ∧
    LanesGet c d (whenActive c fun k j => (f k j).val) (fun k j => if c.active k j then (f k j).draws else 0) g' ∧
    RimesGet c d (whenActive c fun k j => (f k j).val) r g'

/-- Flagged results whose x destination has rime TOP (07 R178). -/
def WritesFlagged (i : Instr) (s : State) (c : Ctx) (d : Dst) (f : Nat → Nat → LaneRes) : Prop :=
  WritesRaising i s c d f fun _ => .top

/-- The exact hull of what each slice gets, as signed values (07 R175). -/
def writtenRime (f : Nat → Nat → Option W32) (k : Nat) : Rime :=
  hullOf 32 (lanes4.filterMap fun j => (f k j).map fun w => w.toInt)

end Sys2Proof.Claims
end

