-- ==== Sys2Proof/Certificates/Slice0/Obligations.lean ====
section
/-! DEFINITION. The statements for the provers. The words they are written in stand in Safety.lean and here
(namespace `Sys2Proof.Claims`). -/

open Sys2Proof Sys2Proof.Machine Sys2Proof.Claims

/-! ## Index arithmetic (07) -/

namespace Sys2Proof.Claims

/-- A rime from the rimes of a, b and the old destination at a width. -/
abbrev RimeFn := Nat → Rime → Rime → Rime → Rime

/-- Rows 0x20 and 0x30: the value that each instruction computes at width `w` from operand values a and b and the old
destination d, before it wraps, and the rime that it records (07 R180 to R183, R185). A unary instruction ignores b. -/
def indexOps : List ((Dst → Src → Src → Instr) × (Nat → Int → Int → Int → Int) × RimeFn) :=
  [(.add, fun _ a b _ => a + b, IdxOp.add.rime),
   (.sub, fun _ a b _ => a - b, IdxOp.sub.rime),
   (.mul, fun _ a b _ => a * b, IdxOp.mul.rime),
   (.mulh, fun w a b _ => a * b / 2 ^ w, IdxOp.mulh.rime),
   (.mad, fun _ a b d => a * b + d, IdxOp.mad.rime),
   (.min, fun _ a b _ => if a ≤ b then a else b, IdxOp.min.rime),
   (.max, fun _ a b _ => if a ≤ b then b else a, IdxOp.max.rime),
   (.shl, fun w a b _ => a * 2 ^ (b % w).toNat, IdxOp.shl.rime),
   (.shr, fun w a b _ => a % 2 ^ w / 2 ^ (b % w).toNat, IdxOp.shr.rime),
   (.sar, fun w a b _ => a / 2 ^ (b % w).toNat, IdxOp.sar.rime),
   (.and, fun w a b _ => (BitVec.ofInt w a &&& BitVec.ofInt w b).toInt, IdxOp.and.rime),
   (.or, fun w a b _ => (BitVec.ofInt w a ||| BitVec.ofInt w b).toInt, IdxOp.or.rime),
   (.xor, fun w a b _ => (BitVec.ofInt w a ^^^ BitVec.ofInt w b).toInt, IdxOp.xor.rime),
   (.div, fun _ a b _ => if b = 0 then -1 else a.tdiv b, IdxOp.div.rime),
   (.rem, fun _ a b _ => if b = 0 then a else a.tmod b, IdxOp.rem.rime),
   (.clamp, fun _ a b d => Min.min (Max.max d a) b, IdxOp.clamp.rime),
   (.lea, fun _ a b d => d * a + b, IdxOp.lea.rime),
   (.seli, fun _ a b d => if d = 0 then b else a,
     fun w ra rb rd => if rd = .iv 0 0 then rb else if rd.holds 0 then Rime.hullW w ra rb else ra),
   (fun d a _ => .abs d a, fun _ a _ _ => a.natAbs, IdxOp.abs.rime),
   (fun d a _ => .not d a, fun _ a _ _ => -a - 1, IdxOp.not.rime)]

/-- The bit instructions of row 0x30 (07 R182, R183): leading zeros, ones, reversed bits, bit-field extract and insert;
their values are the functions of the same names over the operand's w-bit image. -/
def bitOps : List ((Dst → Src → Src → Instr) × (Nat → Int → Int → Int → Int) × RimeFn) :=
  [(fun d a _ => .clz d a, fun w a _ _ => leadingZeros w (a % 2 ^ w).toNat, IdxOp.clz.rime),
   (fun d a _ => .popc d a, fun w a _ _ => popcount w (a % 2 ^ w).toNat, IdxOp.popc.rime),
   (fun d a _ => .brev d a, fun w a _ _ => reverseBits w (a % 2 ^ w).toNat, IdxOp.brev.rime),
   (.bfx, fun w a b _ => bfxVal w a b, IdxOp.bfx.rime),
   (.bfi, fun w a b d => bfiVal w d a b, IdxOp.bfi.rime)]

/-- The rime that MOV and SEL take from a source in slice `k`, where `f` is what they write from it: an x register's own, an s
register's where its bounds are 32-bit numbers, the exact hull of the values written from an immediate, an identity operand
or zero, TOP from a v register or a latch (06 R166). -/
def movedRime (c : Ctx) (a : Src) (f : Nat → Nat → Option W32) (k : Nat) : Rime :=
  match a with
  | .x n => (c.g.slice k).rime n.toNat
  | .s n =>
    let r := c.g.srime n.toNat
    if r ≠ .top ∧ -2 ^ 31 ≤ (r.bounds 64).1 ∧ (r.bounds 64).2 < 2 ^ 31 then Rime.mk 32 (r.bounds 64).1 (r.bounds 64).2 else .top
  | .imm _ | .id _ | .zero => writtenRime f k
  | .imm64 w => Rime.mk 32 w.toInt w.toInt
  | .v _ | .lat _ => .top

/-- The rime of a 64-bit value. -/
def exactly (v : W64) : Rime := .iv v.toInt v.toInt

/-- The counters of PATHS, 8 bits apart (12 R307, R309). -/
def pathCounts (g : Gang) : Nat :=
  ([Path.ld, .st, .cp, .mx, .gx, .cl].zip (List.range 6)).foldl
    (fun x p => x + (g.paths.filter fun i => decide (i.path = p.1)).length * 2 ^ (8 * p.2)) 0

/-- The special registers that GETSR reads into an s register, but for FPFLAGS, LINEAGE and POPIX: their numbers and values
for a strand of a gang of grid `G` (06 R163; 02 R43; 05 R128, R141; 12 R309; 17 R414). Every other number reads zero. -/
def specialRegs (s : State) (c : Ctx) (G : Grid) : List (Nat × W64) :=
  let T := c.g.trap
  let t := G.tmpl
  [(0x00, BitVec.ofNat 64 (s.cycleOf c.g.core)), (0x01, T.tvec), (0x02, T.tcause), (0x03, T.tpc), (0x04, T.tmask),
   (0x05, T.tword), (0x06, T.topa), (0x07, T.topb), (0x08, T.topd), (0x09, T.taddr),
   (0x0B, c.g.fptrap.zeroExtend 64), (0x0C, c.st.mode.zeroExtend 64), (0x0D, BitVec.ofNat 64 (pathCounts c.g)),
   (0x10, BitVec.ofNat 64 G.launch.seed), (0x11, G.cpytab), (0x12, G.gridrec),
   (0x13, BitVec.ofNat 64 (G.serial % 2 ^ 48 * 2 ^ 16 + G.prio * 2 ^ 8 + G.depth)),
   (0x14, BitVec.ofNat 64 (t.gangs * t.threads * 2 ^ 16 + t.threads * 2 ^ 8 + t.gangs)),
   (0x15, BitVec.ofNat 64 ((if G.pop.isSome then 2 ^ 48 else 0) + t.clteams * 2 ^ 32 + G.launch.teams)),
   (0x16, BitVec.ofNat 64 (4096 * t.scratch)),
   (0x17, match Sparse.get 0 s.token (Config.partitions * c.g.core + c.g.part) with
     | 0 => BitVec.ofNat 64 (2 ^ 63)
     | n + 1 => match s.gang? n with
       | some h => BitVec.ofNat 64 (h.g % 32 + h.team % 2 ^ 32 * 2 ^ 16)
       | none => BitVec.ofNat 64 (2 ^ 63))]

end Sys2Proof.Claims

/-- Index arithmetic with an x, 0xE0 or 0xE4 destination: each active thread writes the value of its entry wrapped to 32
bits, an x register takes the rime of its entry; the latches shift (0xE4: not); nothing else changes (07 R177, R179 to R183,
R185; 02 R38; 06 R165). -/
def Obligations.IndexResultPerThread : Prop :=
  ∀ p ∈ indexOps ++ bitOps, ∀ (d : Dst) (a b : Src) (s : State) (c : Ctx), s.ctx = some c →
    (p.1 d a b).wf = true → Accept.dstIsS d = false → Ready s c [d] [a, b] →
    Writes (p.1 d a b) s c d
      (whenActive c fun k j => BitVec.ofInt 32 (p.2.1 32 (c.sval s a k j) (c.sval s b k j) (c.sval s (dstAsSrc d) k j)))
      fun k => p.2.2 32 (c.rimeOf s 32 a k) (c.rimeOf s 32 b k) (c.rimeOf s 32 (dstAsSrc d) k)

/-- Index arithmetic with an s destination: 64 bits wide and gang-uniform, the register taking the rime of its entry (07 R177,
R179 to R183, R185; 02 R38). -/
def Obligations.IndexResultGangUniform : Prop :=
  ∀ p ∈ indexOps ++ bitOps, ∀ (n : BitVec 6) (a b : Src) (s : State) (c : Ctx), s.ctx = some c →
    (p.1 (.s n) a b).wf = true → Ready s c [] [a, b] →
    WritesS (p.1 (.s n) a b) s c n
      (BitVec.ofInt 64 (p.2.1 64 (c.val64 s a).toInt (c.val64 s b).toInt (c.g.sreg n.toNat).toInt))
      (p.2.2 64 (c.rimeOf s 64 a 0) (c.rimeOf s 64 b 0) (c.g.srime n.toNat))

/-- The rime that an index instruction records holds its result: for every operation, every width of 32 or 64, rimes that
are TOP or lie within the register's range, and operand values within their rimes, the wrapped result lies within the
result rime, which again is TOP or lies within the range, and is not empty (07 R175, R177, R180 to R183). -/
def Obligations.IndexRimeHoldsResult : Prop :=
  ∀ (op : IdxOp) (w : Nat), w = 32 ∨ w = 64 → ∀ (ra rb rd : Rime) (a b d : Int),
    (∀ p ∈ [(ra, a), (rb, b), (rd, d)], rangeLo w ≤ p.2 ∧ p.2 ≤ rangeHi w ∧ p.1.holds p.2 = true ∧
      rangeLo w ≤ (p.1.bounds w).1 ∧ (p.1.bounds w).2 ≤ rangeHi w) →
    let r := op.rime w ra rb rd
    r.holds (sintOf w (wrapTo w (op.exact w a b d))) = true ∧ (r.bounds w).1 ≤ (r.bounds w).2 ∧
      rangeLo w ≤ (r.bounds w).1 ∧ (r.bounds w).2 ≤ rangeHi w

/-- PAND, POR, PXOR, PNOT and PMOV: each active thread writes the selected predicates combined, ¬sel(A), sel(A), or VALUE
where IMM is 1; a write to p7 is ignored; IMM = 1 with A nonzero raises ENCODING, cause 1 (R168). -/
def Obligations.PredicateLogic : Prop :=
  ∀ (p : BitVec 3) (a b : BitVec 4) (v : BitVec 1) (s : State) (c : Ctx), s.ctx = some c →
    let q (k j : Nat) (x : BitVec 4) : Bool := predSel (c.g.thread k j).p x.toNat
    WritesP (.pand p a b) s c p.toNat (fun k j => q k j a && q k j b) ∧
    WritesP (.por p a b) s c p.toNat (fun k j => q k j a || q k j b) ∧
    WritesP (.pxor p a b) s c p.toNat (fun k j => q k j a != q k j b) ∧
    WritesP (.pnot p a) s c p.toNat (fun k j => !q k j a) ∧
    WritesP (.pmov p a 0 v) s c p.toNat (fun k j => q k j a) ∧
    WritesP (.pmov p 0 1 v) s c p.toNat (fun _ _ => decide (v = 1)) ∧
    (a ≠ 0 → exec (.pmov p a 1 v) s = .next (s.userTrap c c.g { cause := 1, tmask := c.tmask, taddr := c.is.pc }))

/-- MOV, SEL and PGET with a v, x, 0xE0 or 0xE4 destination: MOV copies the low 32 bits in each active thread; SEL's GUARD
chooses in every enabled thread between a and b; PGET reads p7 to p0, or one selected predicate. An x register takes the
source's rime, in SEL the hull of the rimes of those sources that some thread of the slice takes, in PGET the exact hull of
the values written (06 R165 to R167, R169). -/
def Obligations.MovesPerThread : Prop :=
  ∀ (d : Dst) (a b : Src) (single : BitVec 1) (sel : BitVec 4) (s : State) (c : Ctx), s.ctx = some c →
    Accept.dstIsS d = false → Ready s c [d] [a, b] →
    ((Instr.mov d a).wf = true →
      let f := whenActive c fun k j => c.val s a k j
      Writes (.mov d a) s c d f (movedRime c a f)) ∧
    ((Instr.sel d a b).wf = true →
      let pick (k j : Nat) : Bool := predSel (c.g.thread k j).p (modeGuard c.st.mode)
      let fa (k j : Nat) : Option W32 := if c.enabled k j && pick k j then some (c.val s a k j) else none
      let fb (k j : Nat) : Option W32 := if c.enabled k j && !pick k j then some (c.val s b k j) else none
      Writes (.sel d a b) s c d (fun k j =>
          if c.enabled k j then some (if pick k j then c.val s a k j else c.val s b k j) else none)
        fun k =>
          if ∀ j ∈ lanes4, fb k j = none then movedRime c a fa k
          else if ∀ j ∈ lanes4, fa k j = none then movedRime c b fb k
          else Rime.hullW 32 (movedRime c a fa k) (movedRime c b fb k)) ∧
    ((Instr.pget d single sel).wf = true →
      let f := whenActive c fun k j =>
        let p := (c.g.thread k j).p
        if single = 1 then (if predSel p sel.toNat then 1 else 0) else (0x80#32 ||| (p &&& 0x7F#8).zeroExtend 32)
      Writes (.pget d single sel) s c d f (writtenRime f))

/-- Gang-uniform moves: MOV to an s register, AGET and HGET of the named half, GETSR of a special register, whose values stand
in the table of special registers; each writes where some thread of the strand is active, with the exact rime, MOV of an s
register with that register's (06 R163, R166, R171, R173; 02 R38). GETSR of FPFLAGS shows every flag that the strand has
raised and some of those that strands not joined yet have raised (03 R73). GETSR of LINEAGE and POPIX: each active thread
writes bits 31:0 to vn and bits 63:32 to the next register; only the first write shifts the latches (06 R173; one shift, of
the low word, is log 107). -/
def Obligations.MovesGangUniform : Prop :=
  (∀ (n : BitVec 6) (s : State) (c : Ctx), s.ctx = some c →
     (∀ a, (Instr.mov (.s n) a).wf = true → Ready s c [] [a] → WritesS (.mov (.s n) a) s c n (c.val64 s a) (match a with
       | .s m => c.g.srime m.toNat
       | _ => exactly (c.val64 s a))) ∧
     (∀ (r : BitVec 4) (h : BitVec 1),
       let v := (c.g.areg r.toNat).extractLsb' (64 * h.toNat) 64
       WritesS (.aget (.s n) r h) s c n v (exactly v)) ∧
     (∀ (r : BitVec 3) (h : BitVec 1),
       let v := (c.g.hreg r.toNat).extractLsb' (64 * h.toNat) 64
       WritesS (.hget (.s n) r h) s c n v (exactly v)) ∧
     (∀ (r : BitVec 8) (G : Grid), r ≠ 0x0A → r ≠ 0x0E → r ≠ 0x0F → s.grid? c.g.grid = some G →
       let v : W64 := match (specialRegs s c G).find? fun x => decide (x.1 = r.toNat) with
         | some x => x.2
         | none => 0
       WritesS (.getsr (.s n) r) s c n v (exactly v)) ∧
     ∃ (t : State) (g' : Gang) (v : W64), exec (.getsr (.s n) 0x0A) s = .next t ∧ OnlyGang { s with free := t.free } t c.g.gid ∧
       (c.st.unseen = 0 → t.free = s.free) ∧ t.gang? c.g.gid = some g' ∧
       (∀ b, v.getLsbD b = true → b < 5 ∧ c.g.fpflags.getLsbD b = true) ∧
       (∀ b, c.g.fpflags.getLsbD b = true → c.st.unseen.getLsbD b = false → v.getLsbD b = true) ∧
       (∀ m, g'.sreg m = if c.gate ∧ m = n.toNat then v else c.g.sreg m) ∧
       { g' with s := c.g.s, sr := c.g.sr, strands := c.g.strands } = c.g ∧ GoesOn c g' c.is.fall) ∧
  ∀ (n : BitVec 7) (r : BitVec 8) (s : State) (c : Ctx), s.ctx = some c → r = 0x0E ∨ r = 0x0F → n.toNat ≤ 126 →
    c.vOk s n.toNat 2 = true →
    Answers (.getsr (.v n) r) s c fun g' => GangKept c.g g' ∧ GoesOn c g' c.is.fall ∧
      ∀ k j, c.active k j = true →
        let x := if r = 0x0E then (c.g.thread k j).lineage else (c.g.thread k j).popix
        (g'.thread k j).vreg n.toNat = BitVec.ofNat 32 x ∧
        (g'.thread k j).vreg (n.toNat + 1) = BitVec.ofNat 32 (x / 2 ^ 32) ∧
        (g'.thread k j).l0 = BitVec.ofNat 32 x ∧
        ∀ m, m ≠ n.toNat → m ≠ n.toNat + 1 → (g'.thread k j).vreg m = (c.g.thread k j).vreg m

/-- ASET and HSET replace one 64-bit half of an array register or shape record, reserved bits stored as zero, where some
thread of the strand is active; no other register changes (06 R161, R162, R170). SETSR and FPCTL: the written register
takes the operand's defined bits where some thread of the strand is active; TVEC keeps no bit 1, TCAUSE keeps all but bits
8:0, FPFLAGS and FPTRAP take five bits; FPCTL replaces, sets or clears traps or clears flags. Nothing else changes (06
R163, R173; 08 R222; 17 R414). -/
def Obligations.ControlRegisterWrites : Prop :=
  (∀ (a : Src) (half : BitVec 1) (s : State) (c : Ctx), s.ctx = some c → c.gate = true → Ready s c [] [a] →
     let v := c.val64 s a
     (∀ r : BitVec 4, (Instr.aset r a half).wf = true → Answers (.aset r a half) s c fun g' =>
       let old := c.g.areg r.toNat
       let new : W128 := if half = 1 then v ++ old.extractLsb' 0 64 else old.extractLsb' 64 64 ++ v
       (∀ m, m ≠ r.toNat → g'.areg m = c.g.areg m) ∧
       (∀ i, i < 128 → (g'.areg r.toNat).getLsbD i = (if 57 ≤ i ∧ i ≤ 77 then false else new.getLsbD i)) ∧
       { g' with a := c.g.a, strands := c.g.strands } = c.g ∧ GoesOn c g' c.is.fall) ∧
     ∀ r : BitVec 3, (Instr.hset r a half).wf = true → Answers (.hset r a half) s c fun g' =>
       let old := c.g.hreg r.toNat
       let new : W128 := if half = 1 then v ++ old.extractLsb' 0 64 else old.extractLsb' 64 64 ++ v
       (∀ m, m ≠ r.toNat → g'.hreg m = c.g.hreg m) ∧
       (∀ i, i < 128 → (g'.hreg r.toNat).getLsbD i = (if i ≤ 28 then false else new.getLsbD i)) ∧
       { g' with h := c.g.h, strands := c.g.strands } = c.g ∧ GoesOn c g' c.is.fall) ∧
  ∀ (a : Src) (s : State) (c : Ctx), s.ctx = some c → c.gate = true → Accept.srcSZ64 a = true → Ready s c [] [a] →
    let v := c.val64 s a
    let done (g : Gang) : Gang := g.setStrand { c.st with pc := c.is.fall, wait := .none }
    let T := c.g.trap
    exec (.setsr a 1) s = .next (s.setGang (done { c.g with trap := { T with tvec := v &&& 0x01FFFFFFFFFFFFFD#64 } })) ∧
    exec (.setsr a 2) s = .next (s.setGang (done { c.g with trap := { T with
      tcause := (T.tcause &&& 0xFFFFFFFFFFFFFE00#64) ||| (v &&& 0x1FF#64) } })) ∧
    exec (.setsr a 3) s = .next (s.setGang (done { c.g with trap := { T with tpc := v } })) ∧
    exec (.setsr a 4) s = .next (s.setGang (done { c.g with trap := { T with tmask := v } })) ∧
    exec (.setsr a 10) s = .next (s.setGang (({ c.g with
      fpflags := v.extractLsb' 0 5, strands := c.g.strands.map fun y => { y with unseen := 0 } } : Gang).setStrand
        { c.st with pc := c.is.fall, wait := .none, unseen := 0 })) ∧
    exec (.setsr a 11) s = .next (s.setGang (done { c.g with fptrap := v.extractLsb' 0 5 })) ∧
    (Accept.srcSZ a = true →
      exec (.fpctl a 0) s = .next (s.setGang (done { c.g with fptrap := v.extractLsb' 0 5 })) ∧
      exec (.fpctl a 1) s = .next (s.setGang (done { c.g with fptrap := c.g.fptrap ||| v.extractLsb' 0 5 })) ∧
      exec (.fpctl a 2) s = .next (s.setGang (done { c.g with fptrap := c.g.fptrap &&& ~~~(v.extractLsb' 0 5) })) ∧
      exec (.fpctl a 3) s = .next (s.setGang (done { c.g with fpflags := c.g.fpflags &&& ~~~(v.extractLsb' 0 5) })))

/-- MODE, and SETSR to GMODE with a legal image, replace the strand's mode whatever the guard says; NOP only goes on
(02 R37, R40, R49; 06 R173). -/
def Obligations.ModeWrites : Prop :=
  ∀ (s : State) (c : Ctx), s.ctx = some c →
    (∀ (ty g : BitVec 4) (rnd : BitVec 3) (sat ftz : BitVec 1), ty.toNat ≤ 10 → rnd.toNat ≤ 5 →
      exec (.mode ty rnd sat g ftz) s = .next (s.setGang (c.g.setStrand
        { c.st with pc := c.is.fall, wait := .none, mode := ty ++ rnd ++ sat ++ g ++ ftz ++ 0#11 }))) ∧
    (∀ a, Accept.srcSZ64 a = true → Ready s c [] [a] →
      let m := (c.val64 s a).extractLsb' 0 24
      (m.extractLsb' 20 4).toNat ≤ 10 → (m.extractLsb' 17 3).toNat ≤ 5 → m.extractLsb' 0 11 = 0 →
      exec (.setsr a 12) s = .next (s.setGang (c.g.setStrand { c.st with pc := c.is.fall, wait := .none, mode := m }))) ∧
    exec .nop s = .next (s.setGang (c.g.setStrand { c.st with pc := c.is.fall, wait := .none }))

/-- WIDEN replaces a rime by the stated interval that contains it, else by TOP; NARROW replaces it by its intersection with
the bounds where every value lies within them, and raises RIME (cause 4) where one does not; bounds are clamped to the
register's range; no value changes; both ignore the guard (07 R190, R191). RIMEGET writes a rime's two halves to two s
registers: an s register's, an x register's in one slice or its hull over the strand's live slices (07 R192). -/
def Obligations.RimeInstructions : Prop :=
  ∀ (a b : Src) (s : State) (c : Ctx), s.ctx = some c → Accept.srcSZ64 a = true → Accept.srcSZ64 b = true →
    let lo := (c.val64 s a).toInt
    let hi := (c.val64 s b).toInt
    let cl (x : Int) : Int := Max.max (-2 ^ 31) (Min.min (2 ^ 31 - 1) x)
    let wide (w : Nat) (r : Rime) (lo hi : Int) : Rime :=
      if r ≠ .top ∧ lo ≤ hi ∧ lo ≤ (r.bounds w).1 ∧ (r.bounds w).2 ≤ hi then Rime.mk w lo hi else .top
    let cut (w : Nat) (r : Rime) (lo hi : Int) : Rime := Rime.mk w (Max.max (r.bounds w).1 lo) (Min.min (r.bounds w).2 hi)
    let toS (n : BitVec 6) (r : Rime) (g' : Gang) : Prop := g'.srime n.toNat = r ∧ (∀ m, m ≠ n.toNat → g'.srime m = c.g.srime m) ∧
      { g' with sr := c.g.sr, strands := c.g.strands } = c.g ∧ GoesOn c g' c.is.fall
    let toX (n : BitVec 5) (f : Rime → Rime) (g' : Gang) : Prop := GangKept c.g g' ∧ GoesOn c g' c.is.fall ∧
      ∀ k, { g'.slice k with xr := (c.g.slice k).xr } = c.g.slice k ∧
        ∀ m, (g'.slice k).rime m = if k ∈ c.st.slices ∧ m = n.toNat ∧ (c.g.slice k).isLive = true then f ((c.g.slice k).rime m)
          else (c.g.slice k).rime m
    (∀ n : BitVec 6, c.g.sPending n.toNat = false →
      Answers (.widen (.s n) a b) s c (toS n (wide 64 (c.g.srime n.toNat) lo hi)) ∧
      (lo ≤ (c.g.sreg n.toNat).toInt → (c.g.sreg n.toNat).toInt ≤ hi →
        Answers (.narrow (.s n) a b) s c (toS n (cut 64 (c.g.srime n.toNat) lo hi))) ∧
      ((c.g.sreg n.toNat).toInt < lo ∨ hi < (c.g.sreg n.toNat).toInt ∨ hi < lo →
        exec (.narrow (.s n) a b) s = .next (s.userTrap c c.g
          { cause := 4, tmask := maskOf c.liveLanes, taddr := (c.g.sreg n.toNat).toNat }))) ∧
    (∀ n : BitVec 5, Ready s c [.x n] [] →
      let v (k j : Nat) : Int := ((c.g.thread k j).xreg n.toNat).toInt
      Answers (.widen (.x n) a b) s c (toX n fun r => wide 32 r (cl lo) (cl hi)) ∧
      (lo ≤ hi → (∀ k ∈ c.st.slices, ∀ j, j < 4 → (c.g.thread k j).live = true → lo ≤ v k j ∧ v k j ≤ hi) →
        Answers (.narrow (.x n) a b) s c (toX n fun r => cut 32 r (cl lo) (cl hi))) ∧
      (∀ k j, (k, j) ∈ c.liveLanes → v k j < cl lo ∨ cl hi < v k j →
        ∃ tmask taddr, exec (.narrow (.x n) a b) s = .next (s.userTrap c c.g { cause := 4, tmask := tmask, taddr := taddr }) ∧
          ∀ k, ∀ j < 4, (tmask.testBit (4 * k + j) = true ↔ (k, j) ∈ c.liveLanes ∧ (cl hi < cl lo ∨ v k j < cl lo ∨ cl hi < v k j)))) ∧
    ∀ n : BitVec 6, n.toNat ≤ 62 → c.gate = true →
      let record (r : Rime) (g' : Gang) : Prop := g'.sreg n.toNat = BitVec.ofNat 64 r.record.1 ∧
        g'.sreg (n.toNat + 1) = BitVec.ofNat 64 r.record.2 ∧ (∀ i, i ≠ n.toNat → i ≠ n.toNat + 1 → g'.sreg i = c.g.sreg i) ∧
        GoesOn c g' c.is.fall
      (∀ m : BitVec 6, Answers (.rimeget (.s n) (.s m) .zero) s c (record (c.g.srime m.toNat))) ∧
      ∀ m : BitVec 5, Ready s c [] [.x m] →
        (∀ k : W32, k.toNat < 8 → (c.g.slice k.toNat).isLive = true →
          Answers (.rimeget (.s n) (.x m) (.imm k)) s c (record ((c.g.slice k.toNat).rime m.toNat))) ∧
        Answers (.rimeget (.s n) (.x m) .zero) s c
          (record (hullRimes ((c.st.slices.filter fun k => (c.g.slice k).isLive).map fun k => (c.g.slice k).rime m.toNat)))

/-! ## Vector arithmetic (08) -/

namespace Sys2Proof.Claims

/-- Rounded instructions of class F: the exact result of each element from the values of a, b and the old destination's
element; a unary instruction ignores b (08 R206, R207, R210; 03 R63). -/
def exactOps : List ((Dst → Src → Src → Instr) × (Nat → Fp.Val → Fp.Val → Fp.Val → Fp.Ex × Fp.Flags)) :=
  [(.fadd, fun r a b _ => Fp.exAdd r a b),
   (.fsub, fun r a b _ => Fp.exAdd r a b.flip),
   (.fmul, fun _ a b _ => Fp.exMul a b),
   (.fdiv, fun _ a b _ => Fp.exDiv a b),
   (.ffma, fun r a b d => Fp.exFma r false false a b d),
   (fun d a _ => .fsqrt d a, fun _ a _ _ => Fp.exSqrt a)]

/-- Instructions of class F that work on element codes of format `f` under FTZ and SAT: codes of a, b and the old
destination to the result's code and flags (08 R208 to R210). -/
def codeOps : List ((Dst → Src → Src → Instr) × (Fp.Fmt → Bool → Bool → Nat → Nat → Nat → Nat × Fp.Flags)) :=
  [(.fmin, fun f z _ a b _ => Fp.minMax f false z a b),
   (.fmax, fun f z _ a b _ => Fp.minMax f true z a b),
   (fun d a _ => .fneg d a, fun f _ _ a _ _ => (a ^^^ 2 ^ (f.width - 1), 0)),
   (fun d a _ => .fabs d a, fun f _ _ a _ _ => (a % 2 ^ (f.width - 1), 0)),
   (.fsel, fun f _ _ a b d => (if d.testBit (f.width - 1) then b else a, 0)),
   (fun d a _ => .fclass d a, fun f _ _ a _ _ => (Fp.classOf f a, 0)),
   (fun d a _ => .frcp d a, fun f z t a _ _ => Fp.trans .rcp f t z a),
   (fun d a _ => .frsq d a, fun f z t a _ _ => Fp.trans .rsq f t z a),
   (fun d a _ => .fexp2 d a, fun f z t a _ _ => Fp.trans .exp2 f t z a),
   (fun d a _ => .flog2 d a, fun f z t a _ _ => Fp.trans .log2 f t z a),
   (fun d a _ => .fsin d a, fun f z t a _ _ => Fp.trans .sin f t z a),
   (fun d a _ => .fcos d a, fun f z t a _ _ => Fp.trans .cos f t z a),
   (fun d a _ => .ftanh d a, fun f z t a _ _ => Fp.trans .tanh f t z a)]

/-- Integer instructions of class I: the exact element and whether SAT applies (08 R215). -/
def integerOps : List ((Dst → Src → Src → Instr) × Bool × (Nat → Int → Int → Int → Int)) :=
  [(.iadd, true, fun _ a b _ => a + b),
   (.isub, true, fun _ a b _ => a - b),
   (.imul, true, fun _ a b _ => a * b),
   (.imad, true, fun _ a b d => a * b + d),
   (.imin, true, fun _ a b _ => if a ≤ b then a else b),
   (.imax, true, fun _ a b _ => if a ≤ b then b else a),
   (.ishl, false, fun w a b _ => a * 2 ^ (b % w).toNat),
   (.ishr, false, fun w a b _ => a / 2 ^ (b % w).toNat)]

end Sys2Proof.Claims

/-- FADD, FSUB, FMUL, FDIV, FFMA, FSQRT, FFMA3 and FSCALE: each element is its exact result rounded once in the format of
TYPE under ROUND, SAT and FTZ (08 R206, R207; 03 R63). -/
def Obligations.FloatRounded : Prop :=
  (∀ p ∈ exactOps, ∀ (d : Dst) (a b : Src) (s : State) (c : Ctx), s.ctx = some c → (p.1 d a b).wf = true →
    classF c.ty = true → Ready s c [d] [a, b] →
    WritesFlagged (p.1 d a b) s c d fun k j =>
      c.elems s (typeElem c.ty).2 c.fmt.width (decide (c.rnd = 5))
        (fun i w => c.round w (p.2 c.rnd (c.fval s a k j i) (c.fval s b k j i) (c.fval s (dstAsSrc d) k j i))) k j) ∧
  ∀ (d : Dst) (a b e : Src) (np nc : BitVec 1) (s : State) (c : Ctx), s.ctx = some c → classF c.ty = true →
    ((Instr.ffma3 d a b e np nc).wf = true → Ready s c [d] [a, b, e] → WritesFlagged (.ffma3 d a b e np nc) s c d fun k j =>
      c.elems s (typeElem c.ty).2 c.fmt.width (decide (c.rnd = 5)) (fun i w => c.round w
        (Fp.exFma c.rnd (decide (np = 1)) (decide (nc = 1)) (c.fval s a k j i) (c.fval s b k j i) (c.fval s e k j i))) k j) ∧
    ((Instr.fscale d a b).wf = true → Ready s c [d] [a, b] → WritesFlagged (.fscale d a b) s c d fun k j =>
      c.elems s (typeElem c.ty).2 c.fmt.width (decide (c.rnd = 5)) (fun i w => c.round w
        (Fp.exScale (c.fval s a k j i) (sintOf c.fmt.width (c.fcode s b k j i)))) k j)

/-- FMIN, FMAX, FNEG, FABS, FSEL, FCLASS, the approximations and FROUND: element by element on the codes of TYPE's format
(08 R208 to R211); only FROUND under RSR draws. -/
def Obligations.FloatByCode : Prop :=
  (∀ p ∈ codeOps, ∀ (d : Dst) (a b : Src) (s : State) (c : Ctx), s.ctx = some c → (p.1 d a b).wf = true →
    classF c.ty = true → Ready s c [d] [a, b] →
    WritesFlagged (p.1 d a b) s c d fun k j =>
      c.elems s (typeElem c.ty).2 c.fmt.width false
        (fun i _ => p.2 c.fmt c.ftz c.sat (c.fcode s a k j i) (c.fcode s b k j i) (c.fcode s (dstAsSrc d) k j i)) k j) ∧
  ∀ (d : Dst) (a : Src) (m : BitVec 3) (s : State) (c : Ctx), s.ctx = some c → (Instr.fround d a m).wf = true →
    classF c.ty = true → Ready s c [d] [a] →
    let r := if m = 7 then c.rnd else m.toNat
    WritesFlagged (.fround d a m) s c d fun k j =>
      c.elems s (typeElem c.ty).2 c.fmt.width (decide (r = 5))
        (fun i w => Fp.fround c.fmt c.ftz r w (c.fcode s a k j i)) k j

/-- The vector integer instructions: each element exact, then wrapped, or clamped under SAT; no flag, no draw. IAND, IOR and
IXOR work on the whole 32-bit images under any TYPE. An x register takes rime TOP (08 R215, 03 R53, 07 R178). -/
def Obligations.IntegerVector : Prop :=
  (∀ p ∈ integerOps, ∀ (d : Dst) (a b : Src) (s : State) (c : Ctx), s.ctx = some c → (p.1 d a b).wf = true →
    classI c.ty = true → Ready s c [d] [a, b] →
    let t := c.ifmt
    let v (x : Src) (k j i : Nat) : Int := t.value (elemAt t.w (c.val s x k j) i)
    Writes (p.1 d a b) s c d (whenActive c fun k j =>
      (c.elems s (typeElem c.ty).2 t.w false (fun i _ =>
        (t.fit (p.2.1 && c.sat) (p.2.2 t.w (v a k j i) (v b k j i) (v (dstAsSrc d) k j i)), 0)) k j).val) fun _ => .top) ∧
  ∀ (d : Dst) (a b : Src) (s : State) (c : Ctx), s.ctx = some c → (Instr.iand d a b).wf = true → Ready s c [d] [a, b] →
    Writes (.iand d a b) s c d (whenActive c fun k j => c.val s a k j &&& c.val s b k j) (fun _ => .top) ∧
    Writes (.ior d a b) s c d (whenActive c fun k j => c.val s a k j ||| c.val s b k j) (fun _ => .top) ∧
    Writes (.ixor d a b) s c d (whenActive c fun k j => c.val s a k j ^^^ c.val s b k j) fun _ => .top

/-- CVT, PACK, UNPACK and FDOT2: elements converted from SRC's type to TYPE's; halves or bytes rearranged; one element
widened; products of the elements and the FP32 addend summed exactly and rounded once (08 R217 to R220). REQ: the
requantised block's elements to d and its scale code to the next register, in every active thread; the latches shift once,
with the element word (08 R221). -/
def Obligations.ConversionsAndPacking : Prop :=
  (∀ (d : Dst) (a b : Src) (s : State) (c : Ctx), s.ctx = some c →
     (∀ (sel : BitVec 2) (src : BitVec 4), src.toNat ≤ 10 → dstFor c.ty d = true → Accept.srcVec a = true → Ready s c [d] [a] →
       let ns := (typeElem src.toNat).2
       let nd := (typeElem c.ty).2
       let se := (typeElem src.toNat).1
       let de := (typeElem c.ty).1
       (if nd ≤ ns then sel.toNat < ns / nd else sel = 0) →
       WritesFlagged (.cvt d a sel src) s c d fun k j =>
         c.elems s (Min.min ns nd) de.width (decide (c.rnd = 5) && cvtRounds se de) (fun i w =>
           convert se de c.rnd w c.sat c.ftz
             (elemAt se.width (c.val s a k j) (if nd ≤ ns then sel.toNat * nd + i else i))) k j) ∧
     (classP c.ty = true → dstFor c.ty d = true → Accept.srcVec a = true → Accept.srcVec b = true → Ready s c [d] [a, b] →
       Writes (.pack d a b) s c d (whenActive c fun k j =>
         let x := c.val s a k j
         let y := c.val s b k j
         if (typeElem c.ty).2 = 2 then (x &&& 0xFFFF) ||| (y <<< 16)
         else (x &&& 0xFF) ||| ((x >>> 8) &&& 0xFF00) ||| ((y &&& 0xFF) <<< 16) ||| ((y <<< 8) &&& 0xFF000000)) fun _ => .top) ∧
     (∀ sel : BitVec 2, classP c.ty = true → dstFor c.ty d = true → Accept.srcVec a = true → Ready s c [d] [a] →
       sel.toNat < (typeElem c.ty).2 →
       WritesFlagged (.unpack d a sel) s c d fun k j =>
         let x := elemAt (typeElem c.ty).1.width (c.val s a k j) sel.toNat
         match (typeElem c.ty).1 with
         | .flt f => { val := BitVec.ofNat 32 (Fp.cvtFF f .f32 0 0 false c.ftz x).1, flags := (Fp.cvtFF f .f32 0 0 false c.ftz x).2, draws := 0 }
         | .int t => { val := BitVec.ofInt 32 (t.value x), flags := 0, draws := 0 }) ∧
     (classF c.ty = true → classP c.ty = true → (Instr.fdot2 d a b).wf = true → Ready s c [d] [a, b] →
       WritesFlagged (.fdot2 d a b) s c d fun k j =>
         c.elems s 1 32 (decide (c.rnd = 5)) (fun _ w =>
           let add := Fp.Fmt.f32.decode c.ftz (c.val s (dstAsSrc d) k j).toNat
           let acc := (List.range (typeElem c.ty).2).foldl (fun (acc : Fp.Acc) i =>
             acc.add (Fp.exProd (c.fval s a k j i) (c.fval s b k j i)).1 (Fp.exProd (c.fval s a k j i) (c.fval s b k j i)).2) ({} : Fp.Acc)
           let r := (acc.add add (Fp.snanFlag [add])).result
           let v := Fp.deliver .f32 c.rnd w c.sat c.ftz r.1
           (v.1, v.2 ||| r.2)) k j)) ∧
  ∀ (n : BitVec 7) (a b : Src) (s : State) (c : Ctx), s.ctx = some c → (Instr.req (.v n) a b).wf = true →
    c.vOk s n.toNat 2 = true → Ready s c [.v n] [a, b] →
    let q (k j : Nat) := requant c.rnd ((List.range 8).map (c.word s k j)) (c.val s a k j) (c.val s b k j)
    (∀ k j, c.active k j = true → (q k j).2.2.1 &&& c.g.fptrap = 0) →
    Answers (.req (.v n) a b) s c fun g' =>
      Raises c (raised c fun k j => { val := 0, flags := (q k j).2.2.1, draws := 0 }) g' c.is.fall ∧
      (∀ k, k ∉ c.st.slices → g'.slice k = c.g.slice k) ∧
      GangKept { c.g with fpflags := g'.fpflags } g' ∧
      ∀ k j, c.active k j = true →
        (g'.thread k j).vreg n.toNat = BitVec.ofNat 32 (q k j).1 ∧
        (g'.thread k j).vreg (n.toNat + 1) = BitVec.ofNat 32 (q k j).2.1 ∧
        (g'.thread k j).l0 = BitVec.ofNat 32 (q k j).1 ∧ (g'.thread k j).l1 = (c.g.thread k j).l0 ∧
        (g'.thread k j).draws = (c.g.thread k j).draws + (q k j).2.2.2 ∧
        ∀ m, m ≠ n.toNat → m ≠ n.toNat + 1 → (g'.thread k j).vreg m = (c.g.thread k j).vreg m

/-- CMP and ICMP write one predicate of each active thread: the comparison that COND names, CMP at 64 bits where an operand is
an s register or a 64-bit immediate, ICMP over every element of the TYPE (07 R184, 08 R216). FCMP writes a predicate true
exactly where the condition holds for every element; its flags join FPFLAGS (08 R212). -/
def Obligations.Comparisons : Prop :=
  ((∀ (cond : BitVec 4) (p : BitVec 3) (a b : Src) (s : State) (c : Ctx), s.ctx = some c →
     (Instr.cmp cond p a b).wf = true → Ready s c [] [a, b] →
     WritesP (.cmp cond p a b) s c p.toNat fun k j =>
       let u := decide (6 ≤ cond.toNat)
       let x := c.cmpVal s (wide a || wide b) u a k j
       let y := c.cmpVal s (wide a || wide b) u b k j
       match cond.toNat with
       | 0 => decide (x = y)
       | 1 => decide (x ≠ y)
       | 2 | 6 => decide (x < y)
       | 3 | 7 => decide (y ≤ x)
       | 4 | 8 => decide (x ≤ y)
       | _ => decide (y < x)) ∧
   ∀ (cond : BitVec 4) (p : BitVec 3) (a b : Src) (s : State) (c : Ctx), s.ctx = some c →
     (Instr.icmp cond p a b).wf = true → Ready s c [] [a, b] → classI c.ty = true →
     WritesP (.icmp cond p a b) s c p.toNat fun k j =>
       (List.range (typeElem c.ty).2).all fun i =>
         let x := c.ifmt.value (elemAt c.ifmt.w (c.val s a k j) i)
         let y := c.ifmt.value (elemAt c.ifmt.w (c.val s b k j) i)
         match cond.toNat with
         | 0 => decide (x = y)
         | 1 => decide (x ≠ y)
         | 2 => decide (x < y)
         | 3 => decide (x ≤ y)
         | 4 => decide (y < x)
         | _ => decide (y ≤ x)) ∧
  ∀ (cond : BitVec 4) (p : BitVec 3) (a b : Src) (s : State) (c : Ctx), s.ctx = some c →
    (Instr.fcmp cond p a b).wf = true → classF c.ty = true → Ready s c [] [a, b] →
    let e (k j i : Nat) := Fp.fcmp c.fmt c.ftz cond.toNat (c.fcode s a k j i) (c.fcode s b k j i)
    let n := (typeElem c.ty).2
    (∀ k j, c.active k j = true → ∀ i, i < n → (e k j i).2 &&& c.g.fptrap = 0) →
    Answers (.fcmp cond p a b) s c fun g' =>
      GangKept { c.g with fpflags := g'.fpflags } g' ∧
      Raises c (raised c fun k j =>
        { val := 0, flags := (List.range n).foldl (fun x i => x ||| (e k j i).2) 0, draws := 0 }) g' c.is.fall ∧
      (∀ k, k ∉ c.st.slices → g'.slice k = c.g.slice k) ∧
      ∀ k ∈ c.st.slices, ∀ j, { g'.thread k j with p := (c.g.thread k j).p } = c.g.thread k j ∧
        ∀ m, m < 8 → (g'.thread k j).p.getLsbD m =
          if c.active k j = true ∧ m = p.toNat ∧ m ≠ 7 then (List.range n).all fun i => (e k j i).1
          else (c.g.thread k j).p.getLsbD m

/-! ## Gang-wide operations (08 R224 to R229) -/

namespace Sys2Proof.Claims

/-- The member rule holds: every active thread is named, every named live thread is active (08 R225). -/
def MembersOk (c : Ctx) (ctl : W64) : Prop :=
  ∀ t, t < c.nthreads → (c.activeT t = true → named ctl t = true) ∧
    (named ctl t = true → c.liveT t = true → c.activeT t = true)

/-- One uniform value to every member: an s destination takes it whole where there is a member, with its exact rime; an x
register takes the exact hull of what is written (08 R224). -/
def WritesUniform (i : Instr) (s : State) (c : Ctx) (d : Dst) (whole : Nat) (lane : Nat → Nat → W32) : Prop :=
  match d with
  | .s n => WritesS i s c n (BitVec.ofNat 64 whole) (exactly (BitVec.ofNat 64 whole))
  | d => Writes i s c d (whenActive c lane) (writtenRime (whenActive c lane))

end Sys2Proof.Claims

/-- SHFL, VOTE and BCAST where the member rule holds: each member receives its source's value, or its own where the source is
no member; the vote's result; the value of thread SRC, 0 where it has exited or is not there; an x register takes the exact hull of
the values written (08 R224 to R227, R229). -/
def Obligations.GangWideExchange : Prop :=
  ∀ (d : Dst) (a b : Src) (s : State) (c : Ctx), s.ctx = some c → Accept.gang a b = true → Ready s c [d] [a] →
    let ctl := c.val64 s b
    let f := (ctl.extractLsb' 32 4).toNat
    let arg := (ctl.extractLsb' 40 6).toNat
    MembersOk c ctl →
    (f < 4 → (if f = 0 then Accept.dstVXonly d else Accept.dstVX d) = true →
      let got := whenActive c fun k j =>
        let t := 4 * k + j
        let src : Option Nat :=
          match f with
          | 0 => some ((c.valT s (dstAsSrc d) t).toNat % c.numbering)
          | 1 => if arg ≤ t then some (t - arg) else none
          | 2 => some (t + arg)
          | _ => some (t ^^^ arg)
        match src with
        | some u => if c.activeT u then c.valT s a u else c.val s a k j
        | none => c.val s a k j
      Writes (.shfl d a b) s c d got (writtenRime got)) ∧
    (f < 4 →
      let members := (List.range c.nthreads).filter c.activeT
      let yes := members.filter fun t => decide (c.valT s a t ≠ 0)
      let v := match f with
        | 0 => if yes = [] then 0 else 1
        | 1 => if members.all fun t => decide (c.valT s a t ≠ 0) then 1 else 0
        | 2 => maskOfT yes
        | _ => yes.length
      WritesUniform (.vote d a b) s c d v fun k _ =>
        BitVec.ofNat 32 (if f = 2 ∧ 8 ≤ k then v / 2 ^ 32 else v)) ∧
    (f = 0 → arg < c.numbering → (c.liveT arg = true → c.activeT arg = true) →
      let v := if c.activeT arg then c.valT s a arg else 0
      WritesUniform (.bcast d a b) s c d v.toNat fun _ _ => v)

/-- GRED and GSCAN where the member rule holds and no enabled exception is raised: the reduction over the balanced tree of
all leaves, absent and inactive ones replaced by the identity; in GSCAN thread i's leaves above i too; an x register takes
the exact hull of the values written (08 R224, R228, 03 R77). -/
def Obligations.GangWideReduction : Prop :=
  ∀ (d : Dst) (a b : Src) (s : State) (c : Ctx), s.ctx = some c → Accept.gang a b = true → Ready s c [d] [a] →
    let ctl := c.val64 s b
    let f := (ctl.extractLsb' 32 4).toNat
    MembersOk c ctl → f < 6 →
    (Accept.dstIsS d = false →
      let r := c.reduce s f a fun _ => true
      WritesRaising (.gred d a b) s c d (fun _ _ => { val := r.1, flags := r.2, draws := 0 })
        (writtenRime (whenActive c fun _ _ => r.1))) ∧
    (∀ n, d = .s n →
      let r := c.reduce s f a fun _ => true
      r.2 &&& c.g.fptrap = 0 → c.gate = true →
      Answers (.gred d a b) s c fun g' => g'.sreg n.toNat = r.1.zeroExtend 64 ∧ (∀ m, m ≠ n.toNat → g'.sreg m = c.g.sreg m) ∧
        { g' with s := c.g.s, sr := c.g.sr, strands := c.g.strands, fpflags := c.g.fpflags } = c.g ∧
        Raises c r.2 g' c.is.fall) ∧
    (Accept.dstVX d = true →
      let r (k j : Nat) := c.reduce s f a fun u => if ctl.getLsbD 36 then decide (u < 4 * k + j) else decide (u ≤ 4 * k + j)
      WritesRaising (.gscan d a b) s c d (fun k j => { val := (r k j).1, flags := (r k j).2, draws := 0 })
        (writtenRime (whenActive c fun k j => (r k j).1)))

namespace Sys2Proof.Claims

/-- The memory instructions of 09 R248 whose W comes from SIZE, with destination or data `d`, `sd`: whether each writes, the
spaces its entry takes, and whether the registers it names are declared (09 R250, R251; 10 R279, R281, R283, R284, R286,
R287; 06 R145). -/
def memForms (s : State) (c : Ctx) (d : Dst) (sd a : Src) (arr func : BitVec 4) (p : BitVec 3) (w : AccWord) :
    List (Instr × Bool × List Nat × Bool) :=
  let r := Accept.regsOf w.size
  [(.ld d a arr w, false, [0, 1, 2, 3, 4], c.rangeOk s d r), (.ldx d a arr w, false, [1, 2, 3, 4], c.rangeOk s d r),
   (.ldrc d a arr w, false, [4], c.rangeOk s d r), (.atom d func a arr w, true, [1, 2, 3, 4], c.rangeOk s d r),
   (.cas d a arr w, true, [1, 2, 3, 4], c.rangeOk s d (2 * r)), (.st sd a arr w, true, [0, 1, 2, 3, 4], c.srcRangeOk s sd r),
   (.stx sd p a arr w, true, [1, 2, 3, 4], c.srcRangeOk s sd r), (.strc sd func a arr w, true, [4], c.srcRangeOk s sd r)]

/-- The traps of CPY and CPYM through the arrays `d` and `r`, with `n` bytes, in the order of 12 R314: ALIGN, then COPY_RANGE with
the byte address of the destination or the source range. -/
def copyTrap (s : State) (c : Ctx) (d r : Arr) (w : CmdWord) (n : Nat) (spaces : List Nat) : Option TrapArgs :=
  let x := (c.g.sreg w.doff.toNat).toInt
  let y := (c.g.sreg w.soff.toNat).toInt
  let da : Int := d.base + 2 ^ d.logsz * x
  let sa : Int := r.base + 2 ^ r.logsz * y
  let outside (a : Arr) : Bool := decide (a.space ≤ 3 ∧ s.spaceLimit c.g a.space < a.base + 2 ^ a.logsz * a.extent)
  let bad (a : Arr) (o : Int) (ok : List Nat) (we : Bool) : Bool :=
    decide (a.space ∉ ok ∨ o < 0 ∨ 2 ^ a.logsz * (a.extent : Int) < 2 ^ a.logsz * o + n ∨ we = false) || outside a
  let trap (cause addr : Nat) : Option TrapArgs := some { cause := cause, tmask := c.tmask, taddr := addr }
  if d.space ≤ 3 ∧ d.base % 2 ^ d.logsz ≠ 0 then trap 13 d.base
  else if r.space ≤ 3 ∧ r.base % 2 ^ r.logsz ≠ 0 then trap 13 r.base
  else if da % 16 ≠ 0 ∨ sa % 16 ≠ 0 ∨ n % 16 ≠ 0 then trap 13 c.is.pc
  else if 2 ^ 36 < n ∨ bad d x spaces d.we = true then trap 8 (da % 2 ^ 64).toNat
  else if bad r y [1, 2, 3, 4] true = true then trap 8 (sa % 2 ^ 64).toNat
  else none

end Sys2Proof.Claims

/-- An enabled exception traps: where some active lane of a two-source F instruction raises a flag whose FPTRAP bit is set,
FPFLAGS still takes every flag, the lanes that raised none are written, and a user trap of cause 2 (FP) is entered with
those lanes in TMASK and the raised enabled flags in TADDR (08 R223, 17 R419). MEMBER: where the member rule fails a
gang-wide instruction has no effect but the trap of cause 5, with every offending thread in TMASK and the control value in
TADDR (08 R225). Memory instructions: a misaligned BASE raises ALIGN (13); an active thread that offends, by its range or
because the array's region, write enable or space fails, raises BOUNDS (3) through a TRAP-mode array, with the offending
threads in TMASK and E of the first in TADDR; then a width below the element's, or an address that is not aligned, raises
ALIGN; each has no other effect (07 R193, R194; 09 R232, R247, R248). A load whose lines are empty 2^24 cycles after it first
found one so raises EMPTY_TIMEOUT (7) with those lanes and the first one's address (09 R244). CPY and CPYM raise ALIGN and
COPY_RANGE (8) in the order of 12 R314 (12 R322, R323). -/
def Obligations.ResultTraps : Prop :=
  (∀ p ∈ exactOps, ∀ (d : Dst) (a b : Src) (s : State) (c : Ctx), s.ctx = some c → (p.1 d a b).wf = true →
     classF c.ty = true → Ready s c [d] [a, b] →
     let lane (k j : Nat) : LaneRes := c.elems s (typeElem c.ty).2 c.fmt.width (decide (c.rnd = 5))
       (fun i w => c.round w (p.2 c.rnd (c.fval s a k j i) (c.fval s b k j i) (c.fval s (dstAsSrc d) k j i))) k j
     let bad := c.activeLanes.filter fun kj => decide ((lane kj.1 kj.2).flags &&& c.g.fptrap ≠ 0)
     bad ≠ [] →
     ∃ g', exec (p.1 d a b) s = .next (s.userTrap c g'
         { cause := 2, tmask := maskOf bad, shifted := dstShifts d
           taddr := (c.activeLanes.foldl (fun x kj => x ||| ((lane kj.1 kj.2).flags &&& c.g.fptrap)) 0).toNat }) ∧
       GangKept { c.g with fpflags := g'.fpflags } g' ∧ g'.fpflags = c.g.fpflags ||| raised c lane ∧
       g'.strands.map (fun x => { x with unseen := 0 }) = c.g.strands.map (fun x => { x with unseen := 0 }) ∧
       LanesGet c d (fun k j => if c.active k j = true ∧ (lane k j).flags &&& c.g.fptrap = 0 then some (lane k j).val else none)
         (fun k j => if c.active k j then (lane k j).draws else 0) g') ∧
  (∀ (d : Dst) (a b : Src) (s : State) (c : Ctx), s.ctx = some c → Accept.gang a b = true → Ready s c [d] [a] →
    let ctl := c.val64 s b
    let f := (ctl.extractLsb' 32 4).toNat
    let bad := (List.range c.nthreads).filter fun t =>
      (c.activeT t && !named ctl t) || (named ctl t && c.liveT t && !c.activeT t)
    let trap : State := s.userTrap c c.g { cause := 5, tmask := maskOfT bad, taddr := ctl.toNat }
    bad ≠ [] →
    (f < 4 → exec (.vote d a b) s = .next trap) ∧
    (f < 4 → (if f = 0 then Accept.dstVXonly d else Accept.dstVX d) = true → exec (.shfl d a b) s = .next trap) ∧
    (f < 6 → exec (.gred d a b) s = .next trap) ∧
    (f < 6 → Accept.dstVX d = true → exec (.gscan d a b) s = .next trap)) ∧
  (∀ (d : Dst) (sd a : Src) (arr func : BitVec 4) (p : BitVec 3) (w : AccWord) (s : State) (c : Ctx),
     ∀ i ∈ memForms s c d sd a arr func p w, s.ctx = some c → c.gate = true → i.1.wf = true → i.2.2.2 = true →
     Ready s c [d] [sd, a] →
     let ar := c.arr arr
     let size := 2 ^ w.size.toNat
     let wd : Int := ((size + 2 ^ ar.logsz - 1) / 2 ^ ar.logsz : Nat)
     let E (kj : Nat × Nat) : Int := c.index64 s a kj.1 kj.2 + w.disp.toInt
     let trap (cause : Nat) (lanes : List (Nat × Nat)) (taddr : Nat) : Prop :=
       exec i.1 s = .next (s.userTrap c c.g { cause := cause, tmask := maskOf lanes, taddr := taddr })
     let none4 : Prop := ar.space ∉ i.2.2.1 ∨ (i.2.1 = true ∧ ar.we = false) ∨
       (ar.space ≤ 3 ∧ s.spaceLimit c.g ar.space < ar.base + 2 ^ ar.logsz * ar.extent)
     let bad := c.activeLanes.filter fun kj => decide (E kj < 0 ∨ (ar.extent : Int) < E kj + wd)
     let addr (kj : Nat × Nat) : Nat := ar.base + 2 ^ ar.logsz * (E kj).toNat
     let crooked := c.activeLanes.filter fun kj => decide (addr kj % Min.min size 16 ≠ 0)
     let aligned : Prop := ar.space ≤ 3 → ar.base % 2 ^ ar.logsz = 0
     (¬aligned → trap 13 c.activeLanes ar.base) ∧
     (aligned → none4 → ar.trap = true → ∀ kj rest, c.activeLanes = kj :: rest → trap 3 c.activeLanes (E kj % 2 ^ 64).toNat) ∧
     (aligned → ¬none4 → (∀ lo hi, c.hull s a w.disp.toInt = .iv lo hi → lo < 0 ∨ (ar.extent : Int) < hi + wd) →
       ar.trap = true → ∀ kj rest, bad = kj :: rest → trap 3 bad (E kj % 2 ^ 64).toNat) ∧
     (aligned → ¬none4 → bad = [] → size < 2 ^ ar.logsz → trap 13 c.activeLanes c.is.pc) ∧
     (aligned → ¬none4 → bad = [] → 2 ^ ar.logsz ≤ size → ∀ kj rest, crooked = kj :: rest → trap 13 crooked (addr kj))) ∧
  (∀ (d : Dst) (a : Src) (arr : BitVec 4) (w : AccWord) (s s1 : State) (c : Ctx) (lanes : List LaneAddr) (off : List (Nat × Nat))
     (ls : List LanePlaces) (since : Nat) (l : LanePlaces) (rest : List LanePlaces), s.ctx = some c → c.gate = true →
     (Instr.ld d a arr w).wf = true → c.rangeOk s d (Accept.regsOf w.size) = true → Ready s c [d] [a] →
     (match c.prepSized s (c.arr arr) a w false false allSpaces with
       | .go x o => x = lanes ∧ o = off
       | .stop _ => False) →
     s.places c.g (c.arr arr).space (bytesOf w) true false lanes = .ok (s1, ls) →
     let empty := ls.filter fun x => x.places.any fun p => decide (s1.lineP p ≠ 0)
     empty = l :: rest → c.st.emptySince = some since → since + 2 ^ 24 ≤ s.cycleOf c.g.core →
     exec (.ld d a arr w) s = .next (s.userTrap c c.g
       { cause := 7, tmask := maskOf (empty.map fun x => (x.k, x.j)), taddr := l.addr })) ∧
  ∀ (a : Src) (darr sarr : BitVec 4) (m : BitVec 6) (w : CmdWord) (s : State) (c : Ctx) (t : TrapArgs), s.ctx = some c → c.gate = true →
    ((Instr.cpy a darr sarr w).wf = true → copyTrap s c (c.arr darr) (c.arr sarr) w (c.val64 s a).toNat [1, 2, 3, 4] = some t →
      exec (.cpy a darr sarr w) s = .next (s.userTrap c c.g t)) ∧
    ((Instr.cpym (.s m) a darr sarr w).wf = true → copyTrap s c (c.arr darr) (c.arr sarr) w (c.val64 s a).toNat [1] = some t →
      exec (.cpym (.s m) a darr sarr w) s = .next (s.userTrap c c.g t))


/-! ## Control flow (04) -/

namespace Sys2Proof.Claims

/-- A conditional comparison of compare-and-branch: 64 bits wide where an operand is an s register or a 64-bit immediate. -/
def cmpOf (s : State) (c : Ctx) (unsigned : Bool) (a b : Src) (rel : Int → Int → Bool) (k j : Nat) : Bool :=
  rel (c.cmpVal s (wide a || wide b) unsigned a k j) (c.cmpVal s (wide a || wide b) unsigned b k j)

/-- The target address and the condition per lane of an instruction that transfers control (04 R98 to R101). -/
def branchOf (s : State) (c : Ctx) : Instr → Option (Nat × (Nat → Nat → Bool))
  | .br off => some (c.offsetTarget off, fun _ _ => true)
  | .bp sel off => some (c.offsetTarget off, fun k j => predSel (c.g.thread k j).p sel.toNat)
  | .jmpi a => some ((c.val64 s a).toNat, fun _ _ => true)
  | .beq a b off => some (c.offsetTarget off, cmpOf s c false a b fun x y => decide (x = y))
  | .bne a b off => some (c.offsetTarget off, cmpOf s c false a b fun x y => decide (x ≠ y))
  | .blt a b off => some (c.offsetTarget off, cmpOf s c false a b fun x y => decide (x < y))
  | .bge a b off => some (c.offsetTarget off, cmpOf s c false a b fun x y => decide (y ≤ x))
  | .bltu a b off => some (c.offsetTarget off, cmpOf s c true a b fun x y => decide (x < y))
  | .bgeu a b off => some (c.offsetTarget off, cmpOf s c true a b fun x y => decide (y ≤ x))
  | _ => none

/-- The sources whose latches a transfer reads. -/
def branchSrcs : Instr → List Src
  | .beq a b _ | .bne a b _ | .blt a b _ | .bge a b _ | .bltu a b _ | .bgeu a b _ => [a, b]
  | _ => []

/-- The lanes of slice k that transfer, whether all its enabled threads do, and whether it splits (04 R91). -/
def takes (c : Ctx) (cond : Nat → Nat → Bool) (k j : Nat) : Bool := c.active k j && cond k j
def slicePasses (c : Ctx) (cond : Nat → Nat → Bool) (k : Nat) : Bool := lanes4.all fun j => takes c cond k j == c.enabled k j
def sliceTakes (c : Ctx) (cond : Nat → Nat → Bool) (k : Nat) : Bool := lanes4.any fun j => takes c cond k j
def sliceSplits (c : Ctx) (cond : Nat → Nat → Bool) (k : Nat) : Bool := sliceTakes c cond k && !slicePasses c cond k

/-- The relation that a compare-and-branch tests, and its operands (04 R100). -/
def branchRel : Instr → Option (Rel × Src × Src)
  | .beq a b _ => some (.eq, a, b)
  | .bne a b _ => some (.ne, a, b)
  | .blt a b _ => some (.lt, a, b)
  | .bge a b _ => some (.ge, a, b)
  | .bltu a b _ => some (.ltu, a, b)
  | .bgeu a b _ => some (.geu, a, b)
  | _ => none

/-- A uniform slice: it is live, every live thread of it is active, and all give one Cond (07 R186). -/
def Uniform (c : Ctx) (cond : Nat → Nat → Bool) (k : Nat) : Prop :=
  (∃ j ∈ lanes4, (c.g.thread k j).live = true) ∧
  (∀ j ∈ lanes4, (c.g.thread k j).live = true → c.active k j = true) ∧
  ((∀ j ∈ lanes4, (c.g.thread k j).live = true → cond k j = true) ∨
    ∀ j ∈ lanes4, (c.g.thread k j).live = true → cond k j = false)

/-- The interval that a compared operand brings in slice `k` at width `w` (07 R175, R176, R187). -/
def brings (s : State) (c : Ctx) (w : Nat) (a : Src) (k : Nat) : Int × Int :=
  match a with
  | .x n => ((c.g.slice k).rime n.toNat).bounds 32
  | .s n => (c.g.srime n.toNat).bounds 64
  | .zero => (0, 0)
  | .imm v => (v.toInt, v.toInt)
  | .imm64 v => (v.toInt, v.toInt)
  | .id i =>
    let live := lanes4.filter fun j => (c.g.thread k j).live
    if w = 64 then (hullOf 64 (live.map fun j => (c.ident s i k j : Int))).bounds 64
    else (hullOf 32 (live.map fun j => (BitVec.ofNat 32 (c.ident s i k j)).toInt)).bounds 32
  | .lat _ | .v _ => (-2 ^ (w - 1), 2 ^ (w - 1) - 1)

/-- The table of 07 R187: the new intervals of a and b where the relation holds. -/
def narrowTable (r : Rel) (A B : Int × Int) : (Int × Int) × (Int × Int) :=
  let without (A B : Int × Int) : Int × Int :=
    if B.1 = B.2 ∧ B.1 = A.1 then (A.1 + 1, A.2) else if B.1 = B.2 ∧ B.1 = A.2 then (A.1, A.2 - 1) else A
  let less : (Int × Int) × (Int × Int) := ((A.1, min A.2 (B.2 - 1)), (max B.1 (A.1 + 1), B.2))
  let notLess : (Int × Int) × (Int × Int) := ((max A.1 B.1, A.2), (B.1, min B.2 A.2))
  match r with
  | .eq => ((max A.1 B.1, min A.2 B.2), (max A.1 B.1, min A.2 B.2))
  | .ne => (without A B, without B A)
  | .lt => less
  | .ge => notLess
  | .ltu => if 0 ≤ A.1 ∧ 0 ≤ B.1 then less else if 0 ≤ B.1 then ((0, min A.2 (B.2 - 1)), B) else (A, B)
  | .geu => if 0 ≤ A.1 ∧ 0 ≤ B.1 then notLess else (A, B)

/-- The interval that the table leaves register `r` in, one that is both a and b taking the intersection; none for a register
that the path does not narrow, an x register that an unsigned 64-bit comparison reads with a negative bound among them
(07 R187). -/
def narrowOf (w : Nat) (rel : Rel) (a b r : Src) (A B : Int × Int) : Option (Int × Int) :=
  let N := narrowTable rel A B
  let may (I : Int × Int) : Bool := match r with
    | .x _ => !decide (w = 64 ∧ (rel = .ltu ∨ rel = .geu) ∧ I.1 < 0)
    | _ => true
  if a = r ∧ b = r then some (max N.1.1 N.2.1, min N.1.2 N.2.2)
  else if a = r then (if may A then some N.1 else none)
  else if b = r then (if may B then some N.2 else none)
  else none

/-- The width of a comparison: 64 where an operand is an s register or a 64-bit immediate (04 R100). -/
def cmpWidth (a b : Src) : Nat := if wide a || wide b then 64 else 32

/-- The rime of x register `n` of slice `k` after a compare-and-branch (07 R186, R187). -/
def XNarrowed (s : State) (c : Ctx) (cond : Nat → Nat → Bool) (k : Nat) (p : Rel × Src × Src) (n : BitVec 5) (r' : Rime) : Prop :=
  let w := cmpWidth p.2.1 p.2.2
  let rel := if sliceTakes c cond k then p.1 else p.1.not
  (Uniform c cond k →
    r' = match narrowOf w rel p.2.1 p.2.2 (.x n) (brings s c w p.2.1 k) (brings s c w p.2.2 k) with
      | some i => Rime.mk 32 i.1 i.2
      | none => (c.g.slice k).rime n.toNat) ∧
  (¬Uniform c cond k → r' = (c.g.slice k).rime n.toNat)

/-- The hull of an interval that each of some slices brings. -/
def overSlices (ks : List Nat) (f : Nat → Int × Int) : Int × Int :=
  ks.foldl (fun p k => (min p.1 (f k).1, max p.2 (f k).2)) (f (ks.headD 0))

/-- The whole gang goes one way: every live slice is in the strand, uniform, and takes the transfer as `dir` says (07 R188). -/
def OneWay (c : Ctx) (cond : Nat → Nat → Bool) (dir : Bool) : Prop :=
  ∀ k ∈ c.g.liveSlices, k ∈ c.st.slices ∧ Uniform c cond k ∧ sliceTakes c cond k = dir

/-- The rime of s register `n` after a compare-and-branch (07 R187, R188; 12 R316). -/
def SNarrowed (s : State) (c : Ctx) (cond : Nat → Nat → Bool) (p : Rel × Src × Src) (n : BitVec 6) (r' : Rime) : Prop :=
  let w := cmpWidth p.2.1 p.2.2
  (∀ dir, OneWay c cond dir → c.g.liveSlices ≠ [] → (∀ k ∈ c.st.slices, k ∈ c.g.liveSlices) →
    r' = match narrowOf w (if dir then p.1 else p.1.not) p.2.1 p.2.2 (.s n) (overSlices c.g.liveSlices (brings s c w p.2.1))
        (overSlices c.g.liveSlices (brings s c w p.2.2)) with
      | some i => if n.toNat ∈ c.g.pends then .top else Rime.mk 64 i.1 i.2
      | none => c.g.srime n.toNat) ∧
  ((∀ dir, ¬OneWay c cond dir) → r' = c.g.srime n.toNat)

/-- `t` is `s` but for its gangs and for what fetching code lines leaves: translations, cached lines, outstanding fills. -/
def OnlyFetched (s t : State) : Prop :=
  { t with gangs := s.gangs, tlb := s.tlb, icache := s.icache, fills := s.fills } = s

end Sys2Proof.Claims

/-- BR, BP, JMPI and the six compare-and-branch instructions. To a legal target, with room on the mask stacks: a slice all of
whose enabled threads transfer goes to the target, every other slice goes on, and where both are, the strand parts in two; a
slice that splits keeps the staying threads active and pushes a PEND entry of the target, the transferring threads, the old
mask and the return depth. A compare-and-branch narrows the rimes of its x operands in each uniform slice, for the relation
where the slice takes the transfer and for its negation where it stays, and of its s operands where the whole gang goes one
way; every other rime, every register value, predicate and latch, every other slice and strand stays, and apart from what
fetching the target's line did nothing else changes (04 R91, R98 to R101, R105; 07 R186 to R188). A taken transfer to an
address that is no target raises TARGET (cause 11) with the address in TADDR; one that would push onto a mask stack 255
deep is a STACK_DEPTH gang fault (kind 6, reason 1); nothing else takes effect (02 R25, 04 R89, R91; which of the two comes
first is log 101). -/
def Obligations.BranchTransfers : Prop :=
  ∀ (i : Instr) (s : State) (c : Ctx) (target : Nat) (cond : Nat → Nat → Bool), s.ctx = some c →
    branchOf s c i = some (target, cond) → i.wf = true → Ready s c [] (branchSrcs i) →
    let taken : Prop := ∃ k ∈ c.st.slices, sliceTakes c cond k = true
    let bad : Prop := taken ∧ (s.badTarget c.g target false).2 = true
    let deep : Prop := ∃ k ∈ c.st.slices, sliceSplits c cond k = true ∧ 255 ≤ (c.g.slice k).stack.length
    let gt := c.st.slices.filter (slicePasses c cond)
    let gf := c.st.slices.filter fun k => !slicePasses c cond k
    let going (pc : Nat) : Strand := { c.st with pc := pc, wait := .none }
    (bad → ∃ s1, OnlyFetched s s1 ∧ s1.gangs = s.gangs ∧
      exec i s = .next (s1.userTrap c c.g { cause := 11, tmask := 0, taddr := target })) ∧
    (¬bad → deep → exec i s = .next (s.gangFault c c.g (c.info 6 1 0 0) none none)) ∧
    (¬bad → ¬deep → ∃ t g', exec i s = .next t ∧ OnlyFetched s t ∧ (∀ n, n ≠ c.g.gid → t.gang? n = s.gang? n) ∧
      t.gang? c.g.gid = some g' ∧ { g' with slices := c.g.slices, strands := c.g.strands, sr := c.g.sr } = c.g ∧
      (gf = [] → g'.strands = c.g.strands.map fun x => if x.slices = c.st.slices then { going target with hold := none } else x) ∧
      (gf ≠ [] → gt = [] → g'.strands = c.g.strands.map fun x => if x.slices = c.st.slices then going c.is.fall else x) ∧
      (gf ≠ [] → gt ≠ [] → g'.strands = (c.g.strands.filter fun x => decide (x.slices ≠ c.st.slices)) ++
        [{ going c.is.fall with slices := gf, fair := 0, hold := none }, { going target with slices := gt, fair := 0, hold := none }]) ∧
      (∀ k, k ∉ c.st.slices → g'.slice k = c.g.slice k) ∧
      (∀ k ∈ c.st.slices, k < c.g.slices.length →
        { g'.slice k with mask := (c.g.slice k).mask, stack := (c.g.slice k).stack, xr := (c.g.slice k).xr } = c.g.slice k ∧
        (sliceSplits c cond k = false → (g'.slice k).mask = (c.g.slice k).mask ∧ (g'.slice k).stack = (c.g.slice k).stack) ∧
        (sliceSplits c cond k = true → ∃ e, (g'.slice k).stack = e :: (c.g.slice k).stack ∧ e.reconv = false ∧ e.pc = target ∧
          e.fm = (c.g.slice k).mask ∧ e.depth = c.st.ret.length ∧
          ∀ j, j < 4 → e.pm.getLsbD j = takes c cond k j ∧
            (g'.slice k).mask.getLsbD j = ((c.g.slice k).mask.getLsbD j && !takes c cond k j)) ∧
        (branchRel i = none → (g'.slice k).xr = (c.g.slice k).xr) ∧
        ∀ p, branchRel i = some p → ∀ n : BitVec 5, XNarrowed s c cond k p n ((g'.slice k).rime n.toNat)) ∧
      (branchRel i = none → g'.sr = c.g.sr) ∧
      ∀ p, branchRel i = some p → ∀ n : BitVec 6, SNarrowed s c cond p n (g'.srime n.toNat))

/-- CALL pushes the fall-through address and goes to word 2 of the target's line; RET with no entry of its depth left pops
it; both where some thread is active, else the strand falls through (04 R103, R104). -/
def Obligations.CallAndReturn : Prop :=
  ∀ (off : W32) (s : State) (c : Ctx), s.ctx = some c → off.toNat % 4 = 0 →
    let target := c.offsetTarget off
    let back (st : Strand) (s1 : State) : State := s1.setGang (c.g.setStrand st)
    (c.gate = true → (s.badTarget c.g target true).2 = false → c.st.ret.length < 255 →
      exec (.call off) s = .next (back { c.st with pc := target, ret := c.is.fall :: c.st.ret, wait := .none, hold := none }
        (s.badTarget c.g target true).1)) ∧
    (c.gate = false → exec (.call off) s = .next (back { c.st with pc := c.is.fall, wait := .none } s)) ∧
    (c.gate = true → c.st.wait = .none → heldAtDepth c.g c.st = [] → ∀ p rest, c.st.ret = p :: rest →
      exec .ret s = .next (back { c.st with pc := p, ret := rest, wait := .none, hold := none } s)) ∧
    (c.gate = false → c.st.wait = .none → exec .ret s = .next (back { c.st with pc := c.is.fall, wait := .none } s))

namespace Sys2Proof.Claims

/-- The JOIN rows of 04 R90 on a slice at address `J` and depth `d`: the slice after, and the PEND address it leaves for, none
where it arrives at `J`. -/
def joinRow (sl : Slice) (J d : Nat) : Slice × Option Nat :=
  match sl.stack with
  | [] => (sl, none)
  | e :: rest =>
    if e.depth ≠ d then (sl, none)
    else if e.reconv = false then
      ({ sl with mask := e.pm &&& sl.liveMask, stack := { e with reconv := true, pc := J } :: rest }, some e.pc)
    else if e.pc = J then ({ sl with mask := e.fm &&& sl.liveMask, stack := rest }, none)
    else (sl, none)

/-- The exit rows of 04 R90 on a mask stack, where `live` are the slice's live threads: the first entry with a live thread, its
threads, and the entries below it; none where no entry has one. -/
def exitRow (live : BitVec 4) : List MaskEntry → Option (MaskEntry × BitVec 4 × List MaskEntry)
  | [] => none
  | e :: rest =>
    let m := (if e.reconv then e.fm else e.pm) &&& live
    if m = 0 then exitRow live rest else some (e, m, rest)

/-- The strands of the gang but the one that issues. -/
def otherStrands (c : Ctx) : List Strand := c.g.strands.filter fun x => decide (x.slices ≠ c.st.slices)

/-- The live threads of slice `k` once the active ones have ended. -/
def leftLive (c : Ctx) (k : Nat) : BitVec 4 :=
  BitVec.ofNat 4 (ofBits (lanes4.map fun j => (c.g.thread k j).live && !c.active k j))

end Sys2Proof.Claims

/-- JOIN, whatever the guard. Each slice of the strand follows its row: a PEND entry of the strand's depth turns to RECONV at
the JOIN's address, the slice leaving for the entry's PC with the entry's threads; a RECONV entry of that depth and this
address is popped, its full mask active, and the slice arrives; any other slice, one of an empty stack among them, arrives.
The slices that arrive wait there, in strands of their own, until the gang re-forms: while a slice leaves or another strand
of the gang does not wait at a meeting point it does not. Where every other strand waits at this JOIN with this return
stack and every slice arrives, the gang is one strand of all their slices, with the mode of the strand that holds the
lowest, and goes on after the JOIN; so does a strand that has met. No register, predicate or latch changes (02 R39; 04 R90,
R94, R95, R102). -/
def Obligations.JoinMeets : Prop :=
  ∀ (s : State) (c : Ctx), s.ctx = some c →
    let row (k : Nat) := joinRow (c.g.slice k) c.is.pc c.st.ret.length
    let moved (g' : Gang) : Prop :=
      (∀ k, k ∉ c.st.slices → g'.slice k = c.g.slice k) ∧ ∀ k ∈ c.st.slices, g'.slice k = (row k).1
    (c.st.wait = .met → exec .join s = .next (s.setGang (c.g.setStrand { c.st with pc := c.is.fall, wait := .none }))) ∧
    (c.st.wait = .none → c.g.handler = none → c.st.slices ≠ [] → (∀ x ∈ otherStrands c, x.wait ≠ .met) →
      (∀ k ∈ c.st.slices, k < c.g.slices.length ∧ (row k).1.mask &&& (c.g.slice k).liveMask ≠ 0) →
      (((∃ k ∈ c.st.slices, (row k).2.isSome = true) ∨ ∃ x ∈ otherStrands c, x.wait ≠ .meet ∧ x.wait ≠ .resume) →
        ∃ t g', exec .join s = .next t ∧ OnlyGang s t c.g.gid ∧ t.gang? c.g.gid = some g' ∧ moved g' ∧
          { g' with slices := c.g.slices, strands := c.g.strands } = c.g ∧ (∀ x ∈ otherStrands c, x ∈ g'.strands) ∧
          ∀ k ∈ c.st.slices, ∃ st' ∈ g'.strands, k ∈ st'.slices ∧ st'.ret = c.st.ret ∧ st'.mode = c.st.mode ∧
            st'.held = c.st.held ∧ match (row k).2 with
            | some pc => st'.pc = pc ∧ st'.wait = .none
            | none => st'.pc = c.is.pc ∧ st'.wait = .meet) ∧
      ((∀ k ∈ c.st.slices, (row k).2 = none) →
        (∀ x ∈ otherStrands c, x.wait = .meet ∧ x.pc = c.is.pc ∧ x.ret = c.st.ret) →
        ∃ t g' st', exec .join s = .next t ∧ OnlyGang s t c.g.gid ∧ t.gang? c.g.gid = some g' ∧ moved g' ∧
          { g' with slices := c.g.slices, strands := c.g.strands, accesses := c.g.accesses } = c.g ∧ g'.strands = [st'] ∧
          st'.pc = c.is.fall ∧ st'.wait = .none ∧ st'.ret = c.st.ret ∧
          (∀ k, k ∈ st'.slices ↔ k < c.g.slices.length ∧ ∃ x ∈ c.g.strands, k ∈ x.slices) ∧
          ∃ x ∈ c.g.strands, (∀ y ∈ c.g.strands, x.slices.foldl min 64 ≤ y.slices.foldl min 64) ∧ st'.mode = x.mode))

/-- EXIT ends the active threads, which lose their reservations and near lines, and no other thread. A slice that keeps an
active thread goes on after the EXIT. One that keeps none follows the exit rows of its mask stack: entries whose threads
have all ended go; a PEND entry's threads go on at its PC, a RECONV entry's wait at its PC, each at the entry's call depth;
a slice with no live thread left is in no strand. Here where the gang stays live and does not re-form: some strand of it goes
on. Where no thread is active EXIT only goes on (04 R90, R96, R106; 09 R234). -/
def Obligations.ExitEndsThreads : Prop :=
  ∀ (s : State) (c : Ctx), s.ctx = some c →
    (c.gate = false → exec .exit s = .next (s.setGang (c.g.setStrand { c.st with pc := c.is.fall, wait := .none }))) ∧
    (c.gate = true → ∃ t, exec .exit s = .next t) ∧
    let stays (k : Nat) : Prop := (c.g.slice k).mask &&& leftLive c k ≠ 0
    let row (k : Nat) := exitRow (leftLive c k) (c.g.slice k).stack
    (c.gate = true → c.g.handler = none → c.st.wait = .none → (∀ k ∈ c.st.slices, k < c.g.slices.length) →
      ((∃ x ∈ otherStrands c, x.wait ≠ .meet ∧ x.wait ≠ .resume) ∨
        ∃ k ∈ c.st.slices, stays k ∨ ∃ e m rest, row k = some (e, m, rest) ∧ e.reconv = false) →
      (∃ k j, (c.g.thread k j).live = true ∧ ¬(k ∈ c.st.slices ∧ c.active k j = true)) →
      ∃ t g', exec .exit s = .next t ∧ t.gang? c.g.gid = some g' ∧
        { t with gangs := s.gangs, near := s.near } = s ∧ (∀ n, n ≠ c.g.gid → t.gang? n = s.gang? n) ∧
        (∀ n, n ∈ t.near ↔ n ∈ s.near ∧
          ¬(n.1.1 = c.g.gid ∧ n.1.2.1 / 4 ∈ c.st.slices ∧ c.active (n.1.2.1 / 4) (n.1.2.1 % 4) = true)) ∧
        (∀ k j, g'.thread k j = if k ∈ c.st.slices ∧ c.active k j = true then
          { c.g.thread k j with live := false, reservation := none } else c.g.thread k j) ∧
        { g' with slices := c.g.slices, strands := c.g.strands } = c.g ∧
        (∀ k, k ∉ c.st.slices → g'.slice k = c.g.slice k) ∧ (∀ x ∈ otherStrands c, x ∈ g'.strands) ∧
        ∀ k ∈ c.st.slices,
          (stays k → { g'.slice k with threads := (c.g.slice k).threads } = c.g.slice k ∧
            ∃ st' ∈ g'.strands, k ∈ st'.slices ∧ st'.pc = c.is.fall ∧ st'.wait = .none ∧ st'.mode = c.st.mode ∧ st'.ret = c.st.ret) ∧
          (¬stays k → match row k with
            | some (e, m, rest) =>
              { g'.slice k with threads := (c.g.slice k).threads } = { c.g.slice k with mask := m, stack := rest } ∧
              ∃ st' ∈ g'.strands, k ∈ st'.slices ∧ st'.pc = e.pc ∧ st'.wait = (if e.reconv then .meet else .none) ∧
                st'.mode = c.st.mode ∧ st'.ret = c.st.ret.drop (c.st.ret.length - e.depth)
            | none => (g'.slice k).isLive = false ∧ (g'.slice k).stack = [] ∧ (g'.slice k).latValid = 0 ∧
              ∀ st' ∈ g'.strands, k ∈ st'.slices → st' ∈ otherStrands c))

/-- YIELD, SLEEP and PASSPRI. YIELD goes on, its fairness timer restarted and its next turn given up; SLEEP of n ≠ 0 cycles
waits for CYCLE + n and goes on once that is reached, of 0 acts as YIELD; PASSPRI moves the priority token, where its gang
holds it or no gang does, to the gang it names in its team where that is live and on the same partition, else to none; a
token that another gang holds stays. SLEEP and PASSPRI only go on where no thread is active (04 R93, R107, R108; 05 R129). -/
def Obligations.YieldSleepPasspri : Prop :=
  ∀ (a : Src) (s : State) (c : Ctx), s.ctx = some c →
    let now := s.cycleOf c.g.core
    let put (st : Strand) : State := s.setGang (c.g.setStrand st)
    let skip := put { c.st with pc := c.is.fall, wait := .none }
    let yielded := put { c.st with pc := c.is.fall, wait := .none, fair := 0, yielded := true }
    let n := ((c.val64 s a).extractLsb' 0 32).toNat
    exec .yield s = .next yielded ∧
    (Accept.srcSZ a = true →
      (∀ d next, c.st.wait = .sleep d next → d ≤ now → exec (.sleep a) s = .next (put { c.st with pc := next, wait := .none })) ∧
      ((∀ d next, c.st.wait ≠ .sleep d next) →
        (c.gate = false → exec (.sleep a) s = .next skip) ∧
        (c.gate = true → n = 0 → exec (.sleep a) s = .next yielded) ∧
        (c.gate = true → n ≠ 0 →
          exec (.sleep a) s = .next (put { c.st with wait := .sleep (now + n) c.is.fall, since := now })))) ∧
    ∀ (rel : BitVec 1) (g : BitVec 5), (rel = 1 → g = 0) →
      let key := Config.partitions * c.g.core + c.g.part
      let holder := Sparse.get 0 s.token key
      let heir (x : Gang) : Prop := x.grid = c.g.grid ∧ x.team = c.g.team ∧ x.g = g.toNat ∧ x.isLive = true ∧
        x.core = c.g.core ∧ x.part = c.g.part
      (c.gate = false → exec (.passpri rel g) s = .next skip) ∧
      (c.gate = true → holder ≠ 0 → holder ≠ c.g.gid + 1 → exec (.passpri rel g) s = .next skip) ∧
      (c.gate = true → holder = 0 ∨ holder = c.g.gid + 1 →
        ∃ t, exec (.passpri rel g) s = .next t ∧ { t with token := s.token } = skip ∧
          (∀ m, m ≠ key → Sparse.get 0 t.token m = Sparse.get 0 s.token m) ∧
          (rel = 1 ∨ (∀ x ∈ s.gangs, ¬heir x) → Sparse.get 0 t.token key = 0) ∧
          (rel = 0 → (∃ x ∈ s.gangs, heir x) → ∃ x ∈ s.gangs, heir x ∧ Sparse.get 0 t.token key = x.gid + 1))

/-- FENCE, FENCEI and IPF. A fence goes on once no earlier access of its strand is outstanding, an acquire fence at once; else
it waits. FENCEI, once no store of its gang is outstanding, discards every cached and buffered line of its core, its
outstanding fills among them, else it waits. IPF adds outstanding fills of lines that it names to those of its core, and what
translating them leaves in the translation caches; it changes nothing else. Where no thread is active each only goes on
(02 R30, R50, R51; 11 R306). -/
def Obligations.FencesAndPrefetch : Prop :=
  ∀ (s : State) (c : Ctx), s.ctx = some c →
    let skip (s : State) : State := s.setGang (c.g.setStrand { c.st with pc := c.is.fall, wait := .none })
    let waits : State := s.setGang (c.g.setStrand
      { c.st with wait := .fence, fair := 0, since := if c.st.wait = .fence then c.st.since else s.cycleOf c.g.core })
    (∀ scope order : BitVec 3, scope.toNat ≤ 4 → 1 ≤ order.toNat → order.toNat ≤ 4 →
      let outstanding : Prop := c.g.heats ≠ [] ∨ (∃ o ∈ c.g.tileOps, o.kind = .heat ∧ o.done = false) ∨
        ∃ a ∈ c.g.accesses, ∃ k ∈ a.slices, k ∈ c.st.slices
      (c.gate = false ∨ order = 2 ∨ ¬outstanding → exec (.fence scope order) s = .next (skip s)) ∧
      (c.gate = true → order ≠ 2 → outstanding → exec (.fence scope order) s = .next waits)) ∧
    (c.gate = false → exec .fencei s = .next (skip s)) ∧
    (c.gate = true → (∃ a ∈ c.g.accesses, a.load = false) → exec .fencei s = .next waits) ∧
    (c.gate = true → (∀ a ∈ c.g.accesses, a.load = true) →
      exec .fencei s = .next { skip s with
        icache := s.icache.filter fun l => decide (l.core ≠ c.g.core)
        fills := s.fills.map fun f => if f.core = c.g.core then { f with discard := true } else f }) ∧
    (∀ (lines : BitVec 25) (count : BitVec 4), (c.gate = false → exec (.ipf lines count) s = .next (skip s)) ∧
      (c.gate = true → ∃ t new, exec (.ipf lines count) s = .next t ∧ { t with fills := s.fills, tlb := s.tlb } = skip s ∧
        t.fills = s.fills ++ new ∧ new.length ≤ count.toNat + 1 ∧ ∀ f ∈ new, f.core = c.g.core ∧ f.discard = false))

/-! ## Barriers (04 R109 to R112, 16 R412) -/

/-- BAR, BARA, BARW, CBAR and GBAR of a gang that has met, with no access in flight. BARA arrives and goes on; BAR arrives and
goes on where that completes the phase it waits for; BARW goes on where the phase is complete; GBAR likewise at the barrier of
the grid. CBAR notes that the gang has executed it; once every live gang of the team has, the team arrives at the barrier of
its cluster group, the live teams of which complete its phase; the gang goes on where the phase it waits for is complete. The
arrival and the end of the wait change that one barrier of that one team, grid or cluster group, and with CBAR the team's
note; every other team, every other grid, every register and all else stay (04 R109 to R112, 16 R412). A barrier's phase
completes at the arrival that makes the count, or with no count at the one after which every live member has arrived; then C
advances by one and the arrivals are forgotten; ARR is kept on its 6 bits; a member's wait ends exactly when C has reached the
phase it waits for, taken modulo 2^16, and E then advances by one (04 R109, R110). -/
def Obligations.BarriersComplete : Prop :=
  (∀ (B : Barrier) (key k : Nat) (live : List Nat),
      let m := if key ∈ B.m then B.m else B.m ++ [key]
      let full : Prop := if 0 < k then k ≤ (B.arr + 1) % 2 ^ 6 else ∀ x ∈ live, x ∈ m
      let e := Sparse.get 1 B.e key
      (full → B.arrive key k live = { B with c := (B.c + 1) % 2 ^ 16, arr := 0, m := [], k := 0 }) ∧
      (¬full → B.arrive key k live = { B with arr := (B.arr + 1) % 2 ^ 6, m := m, k := k }) ∧
      (e < 2 ^ 16 → B.c < 2 ^ 16 → ((B.pass key).isSome = true ↔ (B.c + 2 ^ 16 - e) % 2 ^ 16 < 2 ^ 15)) ∧
      ∀ B', B.pass key = some B' → { B' with e := B.e } = B ∧
        ∀ x, Sparse.get 1 B'.e x = if x = key then (e + 1) % 2 ^ 16 else Sparse.get 1 B.e x) ∧
  ∀ (count : BitVec 6) (b : BitVec 4) (s : State) (c : Ctx) (T : Team) (G : Grid), s.ctx = some c → c.st.wait = .met →
    c.g.accesses = [] → count.toNat ≤ 32 → s.team? c.g.grid c.g.team = some T → s.grid? c.g.grid = some G →
    let s0 := s.setGang c.g
    let live := s0.liveInTeam c.g.grid c.g.team
    let arrived := (T.barrier b.toNat).arrive c.g.g count.toNat live
    let onward (i : Instr) (P : State → Prop) : Prop :=
      ∃ t, exec i s = .next t ∧ P t ∧
        { t with teams := s.teams, grids := s.grids } = s.setGang (c.g.setStrand { c.st with pc := c.is.fall, wait := .none })
    let teamAs (T' : Team) : List Team := s.teams.map fun x => if x.key = T.key then T' else x
    let gridAs (G' : Grid) : List Grid := s.grids.map fun x => if x.serial = G.serial then G' else x
    let inTeam (B : Barrier) (t : State) : Prop :=
      t.grids = s.grids ∧ ∃ T', t.teams = teamAs T' ∧ { T' with barriers := T.barriers } = T ∧
        ∀ n, T'.barrier n = if n = b.toNat then B else T.barrier n
    onward (.bara count b) (inTeam arrived) ∧
    (∀ B, arrived.pass c.g.g = some B → onward (.bar count b) (inTeam B)) ∧
    (∀ B, (T.barrier b.toNat).pass c.g.g = some B → onward (.barw b) (inTeam B)) ∧
    (∀ B, G.pop.isSome = true → (G.barrier.arrive c.g.gid 0 (s0.liveGids c.g.grid)).pass c.g.gid = some B →
      onward .gbar fun t => t.teams = s.teams ∧ t.grids = gridAs { G with barrier := B }) ∧
    (∀ B,
      let cl := Max.max 1 G.tmpl.clteams
      let key := 16 * (c.g.team / cl) + b.toNat
      let note := T.barrier (16 + b.toNat)
      let m := if c.g.g ∈ note.m then note.m else note.m ++ [c.g.g]
      let whole := live.all fun x => decide (x ∈ m)
      let members := (s0.liveTeams c.g.grid).filter fun x => decide (x / cl = c.g.team / cl)
      let before := if whole then (G.cbar key).arrive c.g.team 0 members else G.cbar key
      before.pass (32 * c.g.team + c.g.g) = some B →
      onward (.cbar b) fun t =>
        (∃ T', t.teams = teamAs T' ∧ { T' with barriers := T.barriers } = T ∧
          ∀ n, T'.barrier n = if n = 16 + b.toNat then { note with m := if whole then [] else m } else T.barrier n) ∧
        ∃ G', t.grids = gridAs G' ∧ { G' with clusters := G.clusters } = G ∧ ∀ n, G'.cbar n = if n = key then B else G.cbar n)

/-! ## Traps (17) -/

/-- TRAP raises the cause TRAP, 10, with the operand's 64-bit value in TADDR, an F0 immediate sign-extended, where a live
thread of the strand is active; otherwise it does nothing but go on (R422). -/
def Obligations.TrapInstruction : Prop :=
  ∀ (a : Src) (s : State) (c : Ctx), s.ctx = some c → Accept.srcSZ64 a = true → Ready s c [] [] →
    let some1 : Prop := ∃ k ∈ c.st.slices, ∃ j, j < 4 ∧ c.active k j = true
    (some1 → exec (.trap a) s = .next (s.userTrap c c.g { cause := 10, tmask := c.tmask, taddr := (c.val64 s a).toNat })) ∧
    (¬some1 → exec (.trap a) s = .next (s.setGang (c.g.setStrand { c.st with pc := c.is.fall, wait := .none }))) ∧
    (∀ n : BitVec 6, a = .s n → c.val64 s a = c.g.sreg n.toNat) ∧
    (∀ w : W32, a = .imm w → (c.val64 s a).toInt = w.toInt)

/-- BRK raises the cause BRK, 9, with its code, 0 to 65,535, in TADDR where a live thread of the strand is active; otherwise
it does nothing but go on (R423). -/
def Obligations.BreakInstruction : Prop :=
  ∀ (code : BitVec 16) (s : State) (c : Ctx), s.ctx = some c →
    let some1 : Prop := ∃ k ∈ c.st.slices, ∃ j, j < 4 ∧ c.active k j = true
    (some1 → exec (.brk code) s = .next (s.userTrap c c.g { cause := 9, tmask := c.tmask, taddr := code.toNat })) ∧
    (¬some1 → exec (.brk code) s = .next (s.setGang (c.g.setStrand { c.st with pc := c.is.fall, wait := .none })))

/-- Trap entry. With no handler active and TVEC enabled: TCAUSE takes the cause and HANDLER, TPC the address, TMASK and TADDR
what the trap carries, TWORD to TOPD the instruction's words; the mode, latches, masks and depths of the strand's slices
are saved; its latches become invalid, the gang's reservations are cleared; the strand goes to TVEC under mode 0x007000
and every other strand is held. No register value, rime, FPFLAGS, FPTRAP, path counter or draw count changes (17 R416).
A trap where a handler is active is the system fault DOUBLE_TRAP (kind 7) with the cause as its reason, and one where
TVEC is not enabled is NOVEC (kind 8): the gang's grid is aborted with status 9, its gangs are dead, and the record of the
fault, which awaits no reply, names the gang and the instruction (17 R416, R420, R432). -/
def Obligations.TrapEntry : Prop :=
  (∀ (s : State) (c : Ctx) (a : TrapArgs), s.ctx = some c → a.words = none →
      (c.g.trap.tcause.getLsbD 63 = true ∨ c.g.trap.tvec.getLsbD 0 = false) →
      let kind := if c.g.trap.tcause.getLsbD 63 then 7 else 8
      let t := s.userTrap c c.g a
      t.mem = s.mem ∧
      (∀ g ∈ t.gangs, g.grid = c.g.grid → g.isLive = false ∧ g.strands = []) ∧
      (∀ G ∈ t.grids, G.serial = c.g.grid → G.status = some 9) ∧
      ∃ r ∈ t.reports, r.info.kind = kind ∧ r.info.reason = a.cause ∧ r.info.pc = c.is.pc ∧ r.info.flags = 2 ∧
        r.grid = c.g.grid ∧ r.team = c.g.team ∧ r.gang = c.g.g ∧ r.core = c.g.core) ∧
  ∀ (s : State) (c : Ctx) (a : TrapArgs), s.ctx = some c → a.words = none → a.cause < 256 →
    c.g.trap.tcause.getLsbD 63 = false → c.g.trap.tvec.getLsbD 0 = true →
    ∃ g', (s.userTrap c c.g a).gang? c.g.gid = some g' ∧
      { s.userTrap c c.g a with gangs := s.gangs, opLatch := s.opLatch } = s ∧
      (∀ n, n ≠ c.g.gid → (s.userTrap c c.g a).gang? n = s.gang? n) ∧
      { g' with slices := c.g.slices, strands := c.g.strands, trap := c.g.trap, handler := c.g.handler } = c.g ∧
      g'.trap.tvec = c.g.trap.tvec ∧
      g'.trap.tcause.toNat = 2 ^ 63 + (if a.engine then 256 else 0) + a.cause ∧ g'.trap.tpc = BitVec.ofNat 64 c.is.pc ∧
      g'.trap.tmask = BitVec.ofNat 64 a.tmask ∧ g'.trap.taddr = BitVec.ofNat 64 a.taddr ∧
      g'.trap.tword = BitVec.ofNat 64 (trapWords c.is.words).1 ∧ g'.trap.topa = BitVec.ofNat 64 (trapWords c.is.words).2.1 ∧
      g'.trap.topb = BitVec.ofNat 64 (trapWords c.is.words).2.2.1 ∧ g'.trap.topd = BitVec.ofNat 64 (trapWords c.is.words).2.2.2 ∧
      (∃ h, g'.handler = some h ∧ h.mode = c.st.mode ∧ h.retDepth = c.st.ret.length ∧
        h.saved = c.st.slices.map fun k =>
          { slice := k, mask := (c.g.slice k).mask, depth := (c.g.slice k).stack.length, latValid := (c.g.slice k).latValid
            latches := (c.g.slice k).threads.map fun t => (t.l0, t.l1, t.l2, t.l3) }) ∧
      (∀ k j, g'.thread k j = { c.g.thread k j with reservation := none }) ∧
      (∀ k ∈ c.st.slices, (g'.slice k).latValid = 0) ∧
      (∀ k, (g'.slice k).mask = (c.g.slice k).mask ∧ (g'.slice k).stack = (c.g.slice k).stack ∧
        ∀ n, (g'.slice k).rime n = (c.g.slice k).rime n) ∧
      (g'.strands.map fun x => x.slices) = (c.g.strands.map fun x => x.slices) ∧
      ∀ x ∈ g'.strands,
        (x.slices = c.st.slices ∧ x.pc = (c.g.trap.tvec.toNat % 2 ^ 57) / 4 * 4 ∧ x.mode = 0x007000 ∧ x.wait = .none) ∨
        x.held = true

/-- A word that no entry accepts raises ENCODING, cause 1, at every instruction of the package: an operand of a class the entry
does not take, a field at a value it reserves (02 R42); so does, at the instructions of two sources, an undeclared register
named as destination or as either source (06 R145); and there a source latch that is not valid, of either source, raises
LATCH, cause 6, with the first such latch's number in TADDR (04 R87). -/
def Obligations.EncodingAndLatch : Prop :=
  (∀ (i : Instr) (s : State) (c : Ctx), s.ctx = some c → i.accepts = false →
      exec i s = .next (s.userTrap c c.g { cause := 1, tmask := c.tmask, taddr := c.is.pc })) ∧
  ∀ p ∈ (indexOps.take 18).map (fun p => (p.1, fun _ => true)) ++ (exactOps.take 5).map (fun p => (p.1, classF)) ++
      [(.fmin, classF), (.fmax, classF), (.fsel, classF)] ++ integerOps.map (fun p => (p.1, classI)),
    ∀ (d : Dst) (a b : Src) (s : State) (c : Ctx), s.ctx = some c →
    (c.dstOk s d = false ∨ c.srcOk s a = false ∨ c.srcOk s b = false →
      exec (p.1 d a b) s = .next (s.userTrap c c.g { cause := 1, tmask := c.tmask, taddr := c.is.pc })) ∧
    ((p.1 d a b).accepts = true → p.2 c.ty = true → c.dstOk s d = true → c.srcOk s a = true → c.srcOk s b = true →
      let dead (x : Src) (n : Nat) : Prop := ∃ m : BitVec 2, x = .lat m ∧ m.toNat = n ∧ ∃ k ∈ c.st.slices, (c.g.slice k).latValid ≤ n
      ∀ n, dead a n ∨ (dead b n ∧ ∀ m, ¬dead a m) →
        exec (p.1 d a b) s = .next (s.userTrap c c.g { cause := 6, tmask := c.tmask, taddr := n }))

/-- SYSC where some thread is active: the gang is suspended by a gang fault of kind 9 with SVC as its reason and the operand's
64 bits as ARG, which a CONTINUE reply ends after SYSC, writing the s register it names; TPC and TADDR take SYSC's address,
TWORD its word, TCAUSE, TMASK and TOPA to TOPD stay; empty-line stalls of the gang end; nothing else changes where no access
of the gang is in flight. Where some is, SYSC first releases them: none has a write left to perform, the gang is suspended
likewise. Where no thread is active SYSC only goes on (17 R413, R414, R426, R428). -/
def Obligations.SystemCall : Prop :=
  ∀ (d : Dst) (a : Src) (svc : BitVec 8) (s : State) (c : Ctx), s.ctx = some c → (Instr.sysc d a svc).wf = true →
    Ready s c [] [] →
    let faulted (seq : Nat) (g' : Gang) : Prop := ∃ f, g'.fault = some f ∧ f.info.kind = 9 ∧ f.info.reason = svc.toNat ∧
      f.info.arg = (c.val64 s a).toNat ∧ f.info.pc = c.is.pc ∧ f.info.word = (trapWords c.is.words).1 ∧ f.next = c.is.fall ∧
      f.order = seq ∧ f.cmd = none ∧ f.slice = c.is.slice ∧ f.sd = (match d with
        | .s n => some n.toNat
        | _ => none) ∧
      g'.trap = { c.g.trap with tpc := BitVec.ofNat 64 c.is.pc, taddr := BitVec.ofNat 64 c.is.pc
                                tword := BitVec.ofNat 64 (trapWords c.is.words).1 } ∧
      g'.strands = c.g.strands.map fun (x : Strand) => { x with
        wait := if x.wait = Wait.empty then Wait.none else x.wait, emptySince := Option.none, emptyAt := [] }
    (c.gate = false → exec (.sysc d a svc) s = .next (s.setGang (c.g.setStrand { c.st with pc := c.is.fall, wait := .none }))) ∧
    (c.gate = true → c.g.accesses = [] → ∃ t g', exec (.sysc d a svc) s = .next t ∧ t.gang? c.g.gid = some g' ∧
      { t with gangs := s.gangs, seq := s.seq } = s ∧ t.seq = s.seq + 1 ∧ (∀ n, n ≠ c.g.gid → t.gang? n = s.gang? n) ∧
      faulted s.seq g' ∧ { g' with fault := c.g.fault, trap := c.g.trap, strands := c.g.strands } = c.g) ∧
    (c.gate = true → ∃ t g' seq, exec (.sysc d a svc) s = .next t ∧ t.gang? c.g.gid = some g' ∧ faulted seq g' ∧
      ∀ x ∈ g'.accesses, (∃ k ∈ x.slices, k < c.g.slices.length) → x.writes = [] ∧ x.counted = 0)

/-- RESUME in a handler whose strand has met: HANDLER falls, held strands are released, the strand takes back its mode and
goes on at TPC (RESUME.again) or after the instruction there (RESUME.skip); masks, stack depth, latches and return depth
are as trap entry saved them (17 R418, R425). -/
def Obligations.ResumeReturns : Prop :=
  ∀ (again : BitVec 1) (s : State) (c : Ctx) (h : HandlerCtx) (pc : Nat), s.ctx = some c → c.st.wait = .met →
    c.st.held = false → c.g.handler = some h → (again = 1 → pc = c.g.trap.tpc.toNat) →
    (again = 0 → (c.skipTarget s).2 = pc) →
    ∃ t g', exec (.resume again) s = .next t ∧
      t = (if again = 1 then s else (c.skipTarget s).1).setGang g' ∧ g'.handler = none ∧
      g'.trap = { c.g.trap with tcause := c.g.trap.tcause &&& 0x7FFFFFFFFFFFFFFF#64 } ∧
      (∀ x ∈ g'.strands, x.held = false) ∧
      (∃ st' ∈ g'.strands, st'.slices = c.st.slices ∧ st'.pc = pc ∧ st'.mode = h.mode ∧ st'.wait = .none ∧
        st'.ret = c.st.ret.drop (c.st.ret.length - h.retDepth)) ∧
      { g' with slices := c.g.slices, strands := c.g.strands, trap := c.g.trap, handler := c.g.handler } = c.g ∧
      ∀ v ∈ h.saved, (∀ w ∈ h.saved, w.slice = v.slice → w = v) → v.slice < c.g.slices.length →
        (c.g.slice v.slice).isLive = true →
        (g'.slice v.slice).mask = v.mask &&& (c.g.slice v.slice).liveMask ∧ (g'.slice v.slice).latValid = v.latValid ∧
        (g'.slice v.slice).stack = (c.g.slice v.slice).stack.drop ((c.g.slice v.slice).stack.length - v.depth) ∧
        ∀ j, j < v.latches.length → j < (c.g.slice v.slice).threads.length →
          ((g'.thread v.slice j).l0, (g'.thread v.slice j).l1, (g'.thread v.slice j).l2, (g'.thread v.slice j).l3) =
            v.latches.getD j (0, 0, 0, 0)

namespace Sys2Proof.Claims

/-- The opcodes whose entry defines D as an operand code that it writes (02 R35, R47; 17 R424). -/
def writtenD : List Nat :=
  [0x03, 0x09] ++ List.range' 0x20 16 ++ List.range' 0x31 12 ++ List.range' 0x40 9 ++ List.range' 0x4A 29 ++ List.range' 0x68 5 ++
  [0x70, 0x76, 0x77, 0x79, 0x7B, 0x80, 0x83, 0x84, 0x85, 0x86, 0x87, 0x8A, 0xA1, 0xC1, 0xC5, 0xC6, 0xC7, 0xE4, 0xE6, 0xE7, 0xE8]

/-- How many v registers the destination of the instruction in TWORD has: two of REQ and of GETSR of LINEAGE or POPIX, as many as
SIZE asks of a load or an atomic, twice that of CAS (06 R173; 08 R220; 09 R250; 10 R279, R281). -/
def destCount (tword : Nat) : Nat :=
  let op := tword / 2 ^ 24 % 256
  let size := tword / 2 ^ 37 % 8
  let regs := if size ≤ 2 then 1 else 2 ^ (size - 2)
  if op ∈ [0x80, 0x85, 0x87, 0x8A] then regs
  else if op = 0x86 then 2 * regs
  else if op = 0x59 ∨ (op = 0x03 ∧ tword % 256 ∈ [0x0E, 0x0F]) then 2
  else 1

end Sys2Proof.Claims

/-- TWR. In a handler it writes, whatever the guard says, the live threads of TMASK that lie in its strand, into the
destination of the instruction in TWORD: a v register, of several the one ELEM names, ENCODING where there is none such; an x
register, its rime becoming the hull of the old one and the operand's; an s register, 64 bits and the operand's rime, whatever
the threads; the predicate of CMP, FCMP and ICMP, p7 ignoring it; 0xE0 no register. Where the trapped instruction shifted the
latches the saved L0 of those threads takes the value, where its D names an operand code. An undeclared register, an opcode
that writes no D: nothing. No other register, rime, latch, thread, strand or mask changes, and the strand goes on. Outside a
handler, or in a strand that a handler holds, TWR raises ENCODING (17 R424; 07 R200). -/
def Obligations.TrapWrite : Prop :=
  ∀ (a : Src) (elem : BitVec 3) (s : State) (c : Ctx), s.ctx = some c →
    let encoding : State := s.userTrap c c.g { cause := 1, tmask := c.tmask, taddr := c.is.pc }
    (c.g.handler = none ∨ c.st.held = true → exec (.twr a elem) s = .next encoding) ∧
    ∀ h, c.g.handler = some h → c.st.held = false → (Instr.twr a elem).wf = true → Ready s c [] [a] →
    let tw := c.g.trap.tword.toNat
    let op := tw / 2 ^ 24 % 256
    let d := tw / 2 ^ 16 % 256
    let goesOn : Prop := exec (.twr a elem) s = .next (s.setGang (c.g.setStrand { c.st with pc := c.is.fall, wait := .none }))
    let lane (k j : Nat) : Bool := decide (k ∈ c.st.slices) && (c.g.thread k j).live && c.g.trap.tmask.getLsbD (4 * k + j)
    let l0Saved (g' : Gang) : Prop := g'.handler = some (if h.shifted then { h with saved := h.saved.map fun v =>
      { v with latches := mapI (fun j q => if lane v.slice j then (c.val s a v.slice j, q.2) else q) 0 v.latches } } else h)
    let others (g' : Gang) : Prop := GoesOn c g' c.is.fall ∧ ∀ k, k ∉ c.st.slices → g'.slice k = c.g.slice k
    (op ∉ writtenD → op ∉ [0x30, 0x49, 0x67] → goesOn) ∧
    (op ∈ [0x30, 0x49, 0x67] → Answers (.twr a elem) s c fun g' => others g' ∧ GangKept c.g g' ∧
      ∀ k ∈ c.st.slices, { g'.slice k with threads := (c.g.slice k).threads } = c.g.slice k ∧
        ∀ j, { g'.thread k j with p := (c.g.thread k j).p } = c.g.thread k j ∧
          ∀ m, m < 8 → (g'.thread k j).p.getLsbD m =
            if lane k j = true ∧ m = d % 8 ∧ m ≠ 7 then (c.val s a k j).getLsbD 0 else (c.g.thread k j).p.getLsbD m) ∧
    (op ∈ writtenD →
      (d < 0x80 → c.vOk s d 1 = false → goesOn) ∧
      (d < 0x80 → c.vOk s d 1 = true → destCount tw ≤ elem.toNat ∨ c.vOk s (d + elem.toNat) 1 = false →
        exec (.twr a elem) s = .next encoding) ∧
      (d < 0x80 → c.vOk s (d + elem.toNat) 1 = true → elem.toNat < destCount tw →
        Answers (.twr a elem) s c fun g' => others g' ∧ GangKept { c.g with handler := g'.handler } g' ∧ l0Saved g' ∧
          ∀ k ∈ c.st.slices, { g'.slice k with threads := (c.g.slice k).threads, classes := (c.g.slice k).classes } = c.g.slice k ∧
            ∀ j, { g'.thread k j with v := (c.g.thread k j).v } = c.g.thread k j ∧ ∀ m, (g'.thread k j).vreg m =
              if m = d + elem.toNat ∧ lane k j = true then c.val s a k j else (c.g.thread k j).vreg m) ∧
      ∀ n, (d = 0x80 + n → n < 32 → c.xOk s n = false → goesOn) ∧
        (d = 0x80 + n → n < 32 → c.xOk s n = true →
          Answers (.twr a elem) s c fun g' => others g' ∧ GangKept { c.g with handler := g'.handler } g' ∧ l0Saved g' ∧
            ∀ k ∈ c.st.slices, { g'.slice k with threads := (c.g.slice k).threads, classes := (c.g.slice k).classes
                                                 xr := (c.g.slice k).xr } = c.g.slice k ∧
              (∀ m, (g'.slice k).rime m = if m = n ∧ (∃ j ∈ lanes4, lane k j = true)
                then Rime.hullW 32 ((c.g.slice k).rime n) (c.rimeOf s 32 a k) else (c.g.slice k).rime m) ∧
              ∀ j, { g'.thread k j with x := (c.g.thread k j).x } = c.g.thread k j ∧ ∀ m, (g'.thread k j).xreg m =
                if m = n ∧ lane k j = true then c.val s a k j else (c.g.thread k j).xreg m) ∧
        (d = 0xA0 + n → n < 64 → Accept.srcSZ a = true →
          Answers (.twr a elem) s c fun g' => others g' ∧ l0Saved g' ∧
            { g' with s := c.g.s, sr := c.g.sr, strands := c.g.strands, handler := c.g.handler } = c.g ∧
            (∀ m, g'.sreg m = if m = n then c.val64 s a else c.g.sreg m) ∧
            ∀ m, g'.srime m = if m = n then (if n ∈ c.g.pends then .top else c.rimeOf s 64 a 0) else c.g.srime m) ∧
        (d = 0xE0 → Answers (.twr a elem) s c fun g' => others g' ∧ GangKept { c.g with handler := g'.handler } g' ∧ l0Saved g' ∧
          g'.slices = c.g.slices))

/-! ## Memory instructions (09, 10) -/

namespace Sys2Proof.Claims

/-- Where a memory instruction of array register `arr` goes on to its access: the checks of 09 R248 let the lanes `lanes`
through and leave the offending lanes `off` out, their bytes have the places of `ls` in the state `s1` that translation
left, no line is empty, no byte lies in another member's or the host's memory, none was lost on a link, and its path has
room. -/
structure Located (s : State) (c : Ctx) (arr : BitVec 4) (a : Src) (w : AccWord) (p : Path) (rd wr waits : Bool)
    (spaces : List Nat) (s1 : State) (lanes : List LaneAddr) (off : List (Nat × Nat)) (ls : List LanePlaces) : Prop where
  gate : c.gate = true
  prep : (match c.prepSized s (c.arr arr) a w wr false spaces with
    | .go l o => l = lanes ∧ o = off
    | .stop _ => False)
  places : s.places c.g (c.arr arr).space (bytesOf w) rd wr lanes = .ok (s1, ls)
  full : waits = true → s1.emptyLanes ls = []
  near : s1.anyRemote ls = false
  room : (c.refresh s1).room p = true
  there : (s1.gang? c.g.gid).isSome = true
  lost : c.st.wait ≠ .lost ∧ c.st.wait ≠ .homeReset

/-- A thread before and after a load of `regs` registers to `d`: what it loads, none where it does not. -/
def ThreadLoads (d : Dst) (regs : Nat) (w : Option (Nat → W32)) (kept : W32) (t t' : Thread) : Prop :=
  (∀ n, t'.vreg n = (match d with
    | .v r => if r.toNat ≤ n ∧ n < r.toNat + Max.max regs 1 then (w.map fun f => f (n - r.toNat)).getD (t.vreg n) else t.vreg n
    | _ => t.vreg n)) ∧
  (∀ n, t'.xreg n = (match d with
    | .x r => if n = r.toNat then (w.map fun f => f 0).getD (t.xreg n) else t.xreg n
    | _ => t.xreg n)) ∧
  (if dstShifts d then t'.l0 = (w.map fun f => f 0).getD kept ∧ t'.l1 = t.l0 ∧ t'.l2 = t.l1 ∧ t'.l3 = t.l2
   else t'.l0 = t.l0 ∧ t'.l1 = t.l1 ∧ t'.l2 = t.l2 ∧ t'.l3 = t.l3) ∧
  { t' with v := t.v, x := t.x, l0 := t.l0, l1 := t.l1, l2 := t.l2, l3 := t.l3, p := t.p, reservation := t.reservation } = t

/-- p6 of a thread under an array in MASK mode, unchanged in TRAP mode (07 R194). -/
def p6After (c : Ctx) (ar : Arr) (off : List (Nat × Nat)) (k j : Nat) : BitVec 8 :=
  if ar.trap = false ∧ k ∈ c.st.slices ∧ c.active k j = true then ((c.g.thread k j).setP 6 (off.contains (k, j))).p else (c.g.thread k j).p

/-- The place of a byte, aliases of local memory taken away. -/
def canon (s : State) : Place → Place
  | .phys pa => .phys (s.norm pa)
  | p => p

/-- A place that holds a byte: memory outside any package's window, chip scratch, the scratchpad of a team that is there. -/
def Holds (s : State) : Place → Prop
  | .phys pa => match s.region pa with
    | .window _ => False
    | .remote _ off => off < Config.localHbm
    | _ => True
  | .scratch t _ => (s.teamByKey? t).isSome = true
  | .chip _ => True
  | .near _ _ _ => False

/-- A gang as it was, but that threads may have lost their reservations. -/
def Kept (g g' : Gang) : Prop :=
  { g' with slices := g.slices } = g ∧ g'.slices.length = g.slices.length ∧
    ∀ k, { g'.slice k with threads := (g.slice k).threads } = g.slice k ∧
      ∀ j, { g'.thread k j with reservation := (g.thread k j).reservation } = g.thread k j ∧
        ((g'.thread k j).reservation = (g.thread k j).reservation ∨ (g'.thread k j).reservation = none)

/-- Every gang but `gid` is as it was, but for lost reservations. -/
def OthersKept (s t : State) (gid : Nat) : Prop :=
  ∀ n, n ≠ gid → match s.gang? n, t.gang? n with
    | some g, some g' => Kept g g'
    | none, none => True
    | _, _ => False

/-- The page-table entries whose TOUCH bit the translation of `lanes` sets: of each page that has a mapping, and under `rd` read
permission, the entry that translates it, unless the cached entry has set the bit already (07 R199; 10 R274, R285). -/
def touchedEntries (g : Gang) (rd : Bool) : State → List LaneAddr → List Nat
  | _, [] => []
  | s, l :: ls =>
    let asid := (s.tmplOf g).asid
    match if 2 ^ 57 ≤ l.addr then none else s.translate g.core asid l.addr with
    | some (e, s1) =>
      if rd = true ∧ bitOf e.leaf 1 = false then touchedEntries g rd s ls
      else (if bitOf e.touched (g.core / 384) then [] else [e.entry]) ++ touchedEntries g rd (s1.touch g.core asid l.addr e) ls
    | none => touchedEntries g rd s ls

/-- A byte of physical memory that lies in none of some page-table entries. -/
def Untouched (s : State) (entries : List Nat) (pa : Nat) : Prop := ∀ e ∈ entries, ∀ i < 8, s.norm pa ≠ s.norm (e + i)

/-- The counted line that holds a byte. -/
def countedAt (s : State) (pa : Nat) : Option Counted :=
  (s.counted.find? fun x => decide (x.1 = s.norm pa / 128)).map fun x => x.2

end Sys2Proof.Claims

/-- LD: each lane that the checks let through loads its bytes, its strand's own stores among them, sign-extended or in words
of 32 bits; an offending lane of a MASK array loads zero; an x register takes rime TOP; p6 of each active thread says under a
MASK array whether it offended; no byte of any memory changes, no other register does, and one load counts on the LD path
(07 R178, R194; 09 R247, R248, R250). -/
def Obligations.LoadResult : Prop :=
  ∀ (d : Dst) (a : Src) (arr : BitVec 4) (w : AccWord) (s s1 : State) (c : Ctx) (lanes : List LaneAddr)
    (off : List (Nat × Nat)) (ls : List LanePlaces), s.ctx = some c → (Instr.ld d a arr w).wf = true →
    c.rangeOk s d (Accept.regsOf w.size) = true → Ready s c [d] [a] →
    Located s c arr a w .ld true false true allSpaces s1 lanes off ls → ls ≠ [] →
    let c1 := c.refresh s1
    let got (k j : Nat) : Option (Nat → W32) :=
      if off.contains (k, j) then some fun _ => 0
      else (ls.find? fun l => decide ((l.k, l.j) = (k, j))).map fun l => fun i =>
        (loadRegs (decide (w.ext = 1)) (l.places.map (s1.readOwn c1.g c.st.slices))).getD i 0
    ∃ t g', exec (.ld d a arr w) s = .next t ∧ { t with gangs := s1.gangs } = s1 ∧
      (∀ n, n ≠ c.g.gid → t.gang? n = s1.gang? n) ∧ t.gang? c.g.gid = some g' ∧ GoesOn c1 g' c.is.fall ∧
      (∀ k, k ∉ c.st.slices → g'.slice k = c1.g.slice k) ∧
      (∀ k ∈ c.st.slices, ∀ j,
        ThreadLoads d (Accept.regsOf w.size) (got k j) ((c1.g.slice k).keptL0 d (c1.g.thread k j)) (c1.g.thread k j) (g'.thread k j) ∧
        (g'.thread k j).p = p6After c1 (c.arr arr) off k j ∧ (g'.thread k j).reservation = (c1.g.thread k j).reservation) ∧
      RimesGet c1 d (fun k j => (got k j).map fun f => f 0) (fun _ => .top) g' ∧
      { g' with slices := c1.g.slices, strands := c1.g.strands, paths := c1.g.paths, accesses := c1.g.accesses, nextId := c1.g.nextId } = c1.g ∧
      g'.paths = c1.g.paths ++ [⟨.ld, c1.g.nextId⟩]

/-- LDX is a load that then holds each lane's granule; LDRC is a load that counts each reader-counted line it names once,
however many lanes name it: C falls by one, and a line whose C was 1 is dropped, its bytes becoming the pre-image again. Both
give the registers what LD gives them where no access of the gang is in flight, and go on; no other byte, no other line's
count and no reservation but those that a drop clears changes (10 R261, R283, R287). -/
def Obligations.LoadVariants : Prop :=
  ∀ (d : Dst) (a : Src) (arr : BitVec 4) (w : AccWord) (s s1 : State) (c : Ctx) (lanes : List LaneAddr)
    (off : List (Nat × Nat)) (ls : List LanePlaces), s.ctx = some c → c.rangeOk s d (Accept.regsOf w.size) = true →
    Ready s c [d] [a] → ls ≠ [] → (c.refresh s1).g.accesses = [] →
    let c1 := c.refresh s1
    let value (l : LanePlaces) (i : Nat) : W32 := (loadRegs (decide (w.ext = 1)) (l.places.map (s1.readOwn c1.g c.st.slices))).getD i 0
    let loaded (g' : Gang) : Prop := GoesOn c1 g' c.is.fall ∧ ∀ l ∈ ls, (∀ m ∈ ls, (m.k, m.j) = (l.k, l.j) → m = l) →
      l.k ∈ c.st.slices → l.k < c1.g.slices.length → l.j < (c1.g.slice l.k).threads.length → off.contains (l.k, l.j) = false →
      match d with
      | .v r => ∀ i, i < Accept.regsOf w.size → (g'.thread l.k l.j).vreg (r.toNat + i) = value l i
      | .x r => (g'.thread l.k l.j).xreg r.toNat = value l 0
      | _ => True
    ((Instr.ldx d a arr w).wf = true → Located s c arr a w .ld true false true devSpaces s1 lanes off ls →
      ∃ t g', exec (.ldx d a arr w) s = .next t ∧ { t with gangs := s1.gangs } = s1 ∧ t.gang? c.g.gid = some g' ∧ loaded g' ∧
        ∀ l ∈ ls, (∀ m ∈ ls, (m.k, m.j) = (l.k, l.j) → m = l) → l.k ∈ c.st.slices → l.k < c1.g.slices.length →
          l.j < (c1.g.slice l.k).threads.length →
          (g'.thread l.k l.j).reservation = l.places.head?.map Place.line) ∧
    ((Instr.ldrc d a arr w).wf = true → Located s c arr a w .ld true false true [4] s1 lanes off ls →
      (s1.counted.map fun x => x.1).Pairwise (· < ·) → (∀ x ∈ s1.counted, 128 * x.1 < Config.localHbm ∧ x.2.pre.length = 128) →
      let named (n : Nat) : Bool := ls.any fun l => l.places.any fun p => match p with
        | .phys pa => decide (s1.norm pa / 128 = n)
        | _ => false
      ∃ t g', exec (.ldrc d a arr w) s = .next t ∧ t.gang? c.g.gid = some g' ∧ loaded g' ∧ OthersKept s1 t c.g.gid ∧
        { t with gangs := s1.gangs, mem := s1.mem, counted := s1.counted, copies := s1.copies, poison := s1.poison } = s1 ∧
        (∀ n x, (n, x) ∈ t.counted ↔
          (named n = false ∧ (n, x) ∈ s1.counted) ∨
          (named n = true ∧ 1 ≤ x.count ∧ (n, { x with count := x.count + 1 }) ∈ s1.counted)) ∧
        ∀ pa, pa < Config.localHbm → t.physByte pa = match countedAt s1 pa with
          | some x => if named (pa / 128) = true ∧ x.count ≤ 1 then x.pre.getD (pa % 128) 0 else s1.physByte pa
          | none => s1.physByte pa)

/-- ST and STRC outside the private window: the access joins the ST path with, for each lane, the low bytes of its data
registers at its places, in the order performed; no byte changes yet, no register does (09 R251, 10 R286). -/
def Obligations.StoreResult : Prop :=
  ∀ (d a : Src) (arr : BitVec 4) (w : AccWord) (count : BitVec 4) (s s1 : State) (c : Ctx) (lanes : List LaneAddr)
    (off : List (Nat × Nat)) (ls : List LanePlaces), s.ctx = some c → c.srcRangeOk s d (Accept.regsOf w.size) = true →
    Ready s c [] [d, a] → ls ≠ [] → (∀ l ∈ ls, ∀ p ∈ l.places, ∀ g k o, p ≠ .near g k o) →
    let c1 := c.refresh s1
    let stored (i : Instr) (counted : Nat) : Prop :=
      ∃ t g' order, exec i s = .next t ∧ t.gang? c.g.gid = some g' ∧ { t with gangs := s1.gangs, free := s1.free } = s1 ∧
        (∀ p, t.byteAt p = s1.byteAt p) ∧ (∀ n, n ≠ c.g.gid → t.gang? n = s1.gang? n) ∧
        order.Perm ls ∧ (disjointLanes ls = true → order = ls) ∧
        g'.accesses = c1.g.accesses ++ [{ id := c1.g.nextId, load := false, slices := c.st.slices, scope := w.scope.toNat
                                          release := decide (w.order = 3), seen := none, counted := counted
                                          writes := order.flatMap (c1.laneWrites s1 d (bytesOf w)) }] ∧
        g'.paths = c1.g.paths ++ [⟨.st, c1.g.nextId⟩] ∧ GoesOn c1 g' c.is.fall ∧
        (∀ k j, { g'.thread k j with p := (c1.g.thread k j).p } = c1.g.thread k j) ∧
        (∀ k ∈ c.st.slices, ∀ j, (g'.thread k j).p = p6After c1 (c.arr arr) off k j)
    ((Instr.st d a arr w).wf = true → Located s c arr a w .st false true false allSpaces s1 lanes off ls →
      stored (.st d a arr w) 0) ∧
    ((Instr.strc d count a arr w).wf = true → Located s c arr a w .st false true false [4] s1 lanes off ls →
      stored (.strc d count a arr w) (count.toNat + 1))

/-- Writes performed: each byte written takes the value of the last write to it, and every other byte, of memory, of every
scratchpad and of chip scratch, keeps its value (10 R256, R258). -/
def Obligations.WritesLandWhereTheySay : Prop :=
  ∀ (s : State) (gid : Option Nat) (ws : List Write) (p : Place), (∀ w ∈ ws, Holds s w.place) → Holds s p →
    (s.performWrites gid ws).byteAt p =
      match (ws.reverse.find? fun w => decide (canon s w.place = canon s p)) with
      | some w => w.byte
      | none => s.byteAt p

/-- ATOM and CAS of one lane, no access of its gang in flight: the register takes the value that stood there, and the place
takes the function of it and the operand, for CAS the new value only where the expected one stood; every other byte keeps
its value (10 R279 to R281). -/
def Obligations.AtomicResult : Prop :=
  ∀ (d : Dst) (func : BitVec 4) (a : Src) (arr : BitVec 4) (w : AccWord) (s s1 : State) (c : Ctx) (lanes : List LaneAddr)
    (off : List (Nat × Nat)) (l : LanePlaces), s.ctx = some c → Ready s c [d] [a] →
    Located s c arr a w .ld true true false devSpaces s1 lanes off [l] → (c.refresh s1).g.accesses = [] →
    (∀ o ∈ (c.refresh s1).g.tileOps, o.done = true) → l.k ∈ c.st.slices → (c.refresh s1).active l.k l.j = true → off = [] →
    (c.arr arr).trap = true → (∀ p ∈ l.places, Holds s1 p) → (l.places.map (canon s1)).Nodup → l.places.length = bytesOf w →
    let c1 := c.refresh s1
    let n := bytesOf w
    let r := Accept.regsOf w.size
    let old := ofLe (l.places.map s1.byteAt)
    let performed (i : Instr) (new : Nat) : Prop :=
      ∃ t g', exec i s = .next t ∧ t.gang? c.g.gid = some g' ∧ (t.tlb = s1.tlb ∧ t.teams.map (fun T => T.key) = s1.teams.map fun T => T.key) ∧
        l.places.map t.byteAt = leBytes n new ∧
        (∀ p, Holds s1 p → canon s1 p ∉ l.places.map (canon s1) → t.byteAt p = s1.byteAt p) ∧
        GoesOn c1 g' c.is.fall ∧
        (match d with
         | .v m => ∀ i, i < r → (g'.thread l.k l.j).vreg (m.toNat + i) = BitVec.ofNat 32 (old / 2 ^ (32 * i))
         | .x m => (g'.thread l.k l.j).xreg m.toNat = BitVec.ofNat 32 old
         | _ => True)
    ((Instr.atom d func a arr w).wf = true → c.rangeOk s d r = true →
      performed (.atom d func a arr w) (atomFunc func.toNat n old (c1.dstVal d 0 r l.k l.j))) ∧
    ((Instr.cas d a arr w).wf = true → c.rangeOk s d (2 * r) = true →
      performed (.cas d a arr w) (if old = c1.dstVal d 0 r l.k l.j then c1.dstVal d r r l.k l.j else old))

/-- STX with no access of its gang in flight. A lane succeeds that holds a reservation on the granule it names, the lowest of
those that name one granule; the data of the lanes that succeed are written and no other byte changes; every named lane's
reservation is spent; predicate P says for each active thread whether it succeeded, under a MASK array p6 whether it offended;
a thread that names no lane keeps its reservation unless its granule is written; no other register changes (07 R194; 10 R282,
R284). -/
def Obligations.StoreExclusiveResult : Prop :=
  ∀ (d : Src) (p : BitVec 3) (a : Src) (arr : BitVec 4) (w : AccWord) (s s1 : State) (c : Ctx) (lanes : List LaneAddr)
    (off : List (Nat × Nat)) (ls : List LanePlaces), s.ctx = some c → (Instr.stx d p a arr w).wf = true →
    c.srcRangeOk s d (Accept.regsOf w.size) = true → Ready s c [] [d, a] →
    Located s c arr a w .st false true false devSpaces s1 lanes off ls → (c.refresh s1).g.accesses = [] →
    (∀ o ∈ (c.refresh s1).g.tileOps, o.done = true) → (∀ l ∈ ls, l.places ≠ [] ∧ ∀ q ∈ l.places, Holds s1 q) →
    let c1 := c.refresh s1
    let granule (l : LanePlaces) : Option Place := l.places.head?.map Place.line
    let holds (l : LanePlaces) : Prop := (c1.g.thread l.k l.j).reservation = granule l
    let wins (l : LanePlaces) : Bool := decide (holds l) &&
      ls.all fun m => !(decide (holds m) && decide (granule m = granule l)) || decide (4 * l.k + l.j ≤ 4 * m.k + m.j)
    let ws := (ls.filter wins).flatMap (c1.laneWrites s1 d (bytesOf w))
    ∃ t g', exec (.stx d p a arr w) s = .next t ∧ t.gang? c.g.gid = some g' ∧ GoesOn c1 g' c.is.fall ∧ OthersKept s1 t c.g.gid ∧
      (∀ q, Holds s1 q → t.byteAt q = match (ws.reverse.find? fun x => decide (canon s1 x.place = canon s1 q)) with
        | some x => x.byte
        | none => s1.byteAt q) ∧
      (∀ k, k ∉ c.st.slices → ∀ j, { g'.thread k j with reservation := (c1.g.thread k j).reservation } = c1.g.thread k j) ∧
      (∀ k ∈ c.st.slices, ∀ j,
        { g'.thread k j with p := (c1.g.thread k j).p, reservation := (c1.g.thread k j).reservation } = c1.g.thread k j ∧
        ∀ m, m < 8 → (g'.thread k j).p.getLsbD m =
          if c1.active k j = false then (c1.g.thread k j).p.getLsbD m
          else if (c.arr arr).trap = false ∧ m = 6 then off.contains (k, j)
          else if m = p.toNat ∧ p ≠ 7 then ls.any fun l => wins l && decide ((l.k, l.j) = (k, j))
          else (c1.g.thread k j).p.getLsbD m) ∧
      (∀ l ∈ ls, l.k ∈ c.st.slices → (g'.thread l.k l.j).reservation = none) ∧
      (∀ k j, (∀ l ∈ ls, (l.k, l.j) ≠ (k, j)) → (∀ x ∈ ws, (c1.g.thread k j).reservation ≠ some x.place.line) →
        (g'.thread k j).reservation = (c1.g.thread k j).reservation) ∧
      g'.paths = if ls = [] then c1.g.paths else c1.g.paths ++ [⟨.st, c1.g.nextId⟩]

/-- FEMARK arms or lands the scratch lines that its lanes name, each once; FEPROBE reads F, Z and P of each lane's line and
ZPROBE the Z flags of the 32 lines from it; no byte changes. Here with no access of the gang in flight (09 R245, R253 to
R255). -/
def Obligations.LineStateInstructions : Prop :=
  ∀ (d : Dst) (a : Src) (arr : BitVec 4) (w : AccWord) (s : State) (c : Ctx) (lanes : List LaneAddr), s.ctx = some c →
    c.gate = true → Ready s c [d] [a] → c.g.accesses = [] → (c.arr arr).trap = true →
    let ar := c.arr arr
    let line (l : LaneAddr) : Place := (s.localPlace c.g ar.space l.addr).line
    let lines := (lanes.map line).eraseDups
    let goes (i : Instr) (P : State → Gang → Prop) : Prop :=
      ∃ t g', exec i s = .next t ∧ t.gang? c.g.gid = some g' ∧ GoesOn c g' c.is.fall ∧ (∀ p, t.byteAt p = s.byteAt p) ∧
        { t with gangs := s.gangs, teams := s.teams } = s ∧ P t g'
    let at1 (writes : Bool) (n align : Nat) : Prop := match c.prep s ar a (dispOf w) n align false writes false lineSpaces with
      | .go l o => l = lanes ∧ o = []
      | .stop _ => False
    (at1 true 1 1 → (Instr.femark 0 a arr w).wf = true → (∀ p ∈ lines, s.lineP p ≠ 15 ∧ Holds s p) →
      goes (.femark 0 a arr w) fun t g' => (∀ k, g'.slice k = c.g.slice k) ∧
        ∀ p, Holds s p → t.lineP p = s.lineP p + if p.line ∈ lines then 1 else 0) ∧
    (at1 true 1 1 → (Instr.femark 1 a arr w).wf = true → (∀ p ∈ lines, Holds s p) →
      goes (.femark 1 a arr w) fun t g' => (∀ k, g'.slice k = c.g.slice k) ∧
        ∀ p, Holds s p → t.lineP p = s.lineP p - if p.line ∈ lines then 1 else 0) ∧
    (at1 false 1 1 → (Instr.feprobe d a arr w).wf = true →
      goes (.feprobe d a arr w) fun _ g' => LanesGet c d (fun k j =>
        (lanes.find? fun l => decide (l.k = k ∧ l.j = j)).map fun l => BitVec.ofNat 32
          ((if s.lineP (line l) = 0 then 1 else 0) + 2 * (if s.lineZ (line l) then 1 else 0) + 4 * s.lineP (line l))) (fun _ _ => 0) g') ∧
    (at1 false (4096 / 2 ^ ar.logsz) 128 → (Instr.zprobe d a arr w).wf = true →
      goes (.zprobe d a arr w) fun _ g' => ∀ k ∈ c.st.slices, ∀ j, ∀ l,
        (lanes.find? fun l => decide (l.k = k ∧ l.j = j)) = some l → ∀ i, i < 32 → ∀ r, d = .v r →
        ((g'.thread k j).vreg r.toNat).getLsbD i = s.lineZ (s.localPlace c.g ar.space (l.addr + 128 * i)))

/-- PRF and CCTL where some thread is active. PRF goes on: no register, no predicate and no byte changes but the TOUCH bits of
the page-table entries that translate the pages it fetches from, whose lines' counts, copies and reservations go as at any
write; in another space than 4 nothing at all changes. CCTL writes p6 under a MASK array and goes on, counting on the ST path
where some lane's page has a mapping; its OPs 0 to 3 change no byte but TOUCH bits, l2evict forgets the scales that its lines
were joined with; rcdrop, of a gang with no access in flight, drops the counted lines it names: they are counted no more and
their bytes become the pre-image; every other byte and line stays (07 R194, R199; 10 R261, R264, R274, R285, R288). -/
def Obligations.PrefetchAndCacheOps : Prop :=
  ∀ (op : BitVec 4) (a : Src) (arr : BitVec 4) (w : AccWord) (s : State) (c : Ctx) (lanes : List LaneAddr) (off : List (Nat × Nat)),
    s.ctx = some c → c.gate = true → Ready s c [] [a] →
    ((Instr.prf a arr w).wf = true → (c.arr arr).space ≠ 4 →
      exec (.prf a arr w) s = .next (s.setGang (c.g.setStrand { c.st with pc := c.is.fall, wait := .none }))) ∧
    ((Instr.prf a arr w).wf = true → (c.arr arr).space = 4 → (match c.prepSized s (c.arr arr) a w false true [4] with
        | .go l o => l = lanes ∧ o = off
        | .stop _ => False) →
      let pieces := lanes.flatMap fun l => (List.range ((bytesOf w + 15) / 16)).map fun i => { l with addr := l.addr + 16 * i }
      ∃ t g', exec (.prf a arr w) s = .next t ∧ t.gang? c.g.gid = some g' ∧
        Kept (c.g.setStrand { c.st with pc := c.is.fall, wait := .none }) g' ∧ OthersKept s t c.g.gid ∧
        { t with gangs := s.gangs, mem := s.mem, tlb := s.tlb, counted := s.counted, copies := s.copies, joins := s.joins
                 free := s.free } = s ∧
        ∀ pa, Untouched s (touchedEntries c.g true s pieces) pa → t.physByte pa = s.physByte pa) ∧
    ((Instr.cctl op a arr w).wf = true → (match c.prep s (c.arr arr) a (dispOf w) 1 1 false (decide (op = 4)) false [4] with
        | .go l o => l = lanes ∧ o = off
        | .stop _ => False) → c.room .st = true → (op = 4 → c.g.accesses = []) →
      (∀ x ∈ s.counted, 128 * x.1 < Config.localHbm ∧ x.2.pre.length = 128) →
      let found := s.mapped c.g false lanes
      let named (n : Nat) : Prop := ∃ l ∈ found.2, s.norm l.2 / 128 = n
      let touched := touchedEntries c.g false s lanes
      ∃ t g', exec (.cctl op a arr w) s = .next t ∧ t.gang? c.g.gid = some g' ∧ OthersKept s t c.g.gid ∧ GoesOn c g' c.is.fall ∧
        { t with gangs := s.gangs, mem := s.mem, tlb := s.tlb, counted := s.counted, copies := s.copies, joins := s.joins
                 poison := s.poison } = s ∧
        g'.paths = (if found.2 = [] then c.g.paths else c.g.paths ++ [⟨.st, c.g.nextId⟩]) ∧
        (∀ k, { g'.slice k with threads := (c.g.slice k).threads } = c.g.slice k) ∧
        (∀ k j, { g'.thread k j with p := (c.g.thread k j).p, reservation := (c.g.thread k j).reservation } = c.g.thread k j ∧
          (g'.thread k j).p = p6After c (c.arr arr) off k j) ∧
        (∀ n, Sparse.get 0 t.joins n = if op = 2 ∧ ∃ l ∈ found.2, s.norm l.2 / 128 = n then 0 else Sparse.get 0 s.joins n) ∧
        (op ≠ 4 → ∀ pa, Untouched s touched pa → t.physByte pa = s.physByte pa) ∧
        (op = 4 → (∀ x ∈ t.counted, x ∈ s.counted ∧ ¬named x.1) ∧
          ∀ pa, pa < Config.localHbm →
            (∀ x, named (pa / 128) → countedAt found.1 pa = some x → t.physByte pa = x.pre.getD (pa % 128) 0) ∧
            (¬named (pa / 128) ∨ countedAt found.1 pa = none → Untouched s touched pa → t.physByte pa = s.physByte pa)))

/-! ## Engine commands (12, 15, 18) -/

namespace Sys2Proof.Claims

/-- Nothing holds a command back: the accesses of its gang are performed, its path has room, it need not wait for another gang's
context of its engine to drain, no line that it arms has 15 pending writers (12 R308, R314, R318; 15 R392; 09 R245). -/
structure Acceptable (s : State) (c : Ctx) (k : Cmd) : Prop where
  quiet : c.g.accesses = []
  room : c.room k.path = true
  context : s.waitsBehind c.g c.st k.kind = none
  lines : ∀ p ∈ k.toArm, s.lineP p ≠ 15
  there : (s.gang? c.g.gid).isSome = true

/-- The command `k`, numbered within its gang and in the package's order of acceptance, joins the commands of its gang, its path
counts it and with it each faulted command of that path, its lines are armed, its landing-count registers pend, its strand
goes on; no byte of any memory and no register changes but p6 under a MASK array (`off`) and what `R` says of the s
registers. A command with no byte to move completes at once. `s1` is the state after what the command read at issue (12 R308,
R311, R314 to R316, R318). -/
def Accepted (i : Instr) (s s1 : State) (c : Ctx) (k : Cmd) (p6 : Nat → Nat → BitVec 8) (R : (Nat → W64) → Prop) : Prop :=
  ∃ t g', exec i s = .next t ∧ t.gang? c.g.gid = some g' ∧
    g'.cmds = (if k.built = true ∧ k.lines = [] then c.g.cmds
      else c.g.cmds ++ [{ k with id := c.g.nextId, order := s1.seq, born := s1.base }]) ∧ t.seq = s1.seq + 1 ∧
    g'.records = c.g.records.map (fun r => if r.cmd.path = k.path then { r with after := r.after + 1 } else r) ∧
    ((k.built = true ∧ k.lines = []) ∨ ⟨k.path, c.g.nextId⟩ ∈ g'.paths) ∧
    g'.nextId = c.g.nextId + 1 ∧ GoesOn c g' c.is.fall ∧
    (∀ k' j, { g'.thread k' j with p := (c.g.thread k' j).p } = c.g.thread k' j ∧ (g'.thread k' j).p = p6 k' j) ∧
    R g'.sreg ∧ (∀ n, n ∈ g'.pends ↔ n ∈ c.g.pends ∨ (c.g.gid, n) ∈ k.counts c.g.gid) ∧
    (∀ p, t.byteAt p = s1.byteAt p) ∧
    (∀ p, (match p with
        | .scratch key _ => (s1.teamByKey? key).isSome
        | _ => true) = true → t.lineP p = s1.lineP p + (match p with
        | .scratch _ _ => (k.toArm.filter fun q => decide (q = p.line)).length
        | _ => 0))

/-- Predicates as they are. -/
def samePred (c : Ctx) (k j : Nat) : BitVec 8 := (c.g.thread k j).p
def sameS (c : Ctx) (r : Nat → W64) : Prop := ∀ n, r n = c.g.sreg n

/-- What CPY and CPYM ask of their two ranges (12 R314, R322, R323). -/
def CopyOk (s : State) (c : Ctx) (d r : Arr) (w : CmdWord) (n : Nat) (spaces : List Nat) : Prop :=
  d.misaligned = false ∧ r.misaligned = false ∧ d.at (c.offset w.doff) % 16 = 0 ∧ r.at (c.offset w.soff) % 16 = 0 ∧
  n % 16 = 0 ∧ n ≤ 2 ^ 36 ∧ s.rangeBad c.g d (c.offset w.doff) n true spaces = false ∧
  s.rangeBad c.g r (c.offset w.soff) n false [1, 2, 3, 4] = false

end Sys2Proof.Claims

/-- CPY, CPYM, KVCPY and CPST are accepted: CPY's lines copy the source range to the destination range; CPYM's copy it to
each target that does not refuse, and its mask register takes the targets that do; KVCPY's copy, for each active thread,
the block its index names (zeros in an offending lane of a MASK array) to the thread's slot; CPST's copy the rows of the
template (12 R322 to R327). -/
def Obligations.CopyCommandsAccepted : Prop :=
  ∀ (s : State) (c : Ctx) (w : CmdWord), s.ctx = some c → c.gate = true →
    (∀ (a : Src) (darr sarr : BitVec 4), (Instr.cpy a darr sarr w).wf = true →
      let d := c.arr darr
      let r := c.arr sarr
      let n := (c.val64 s a).toNat
      let k := Cmd.offer c .cpy .cp w (mkLines (s.linePlace c.g d.space) (armedSpace d.space) (c.lc w) 0 0
        [{ dst := (d.at (c.offset w.doff)).toNat, src := s.srcBytes c.g r.space (r.at (c.offset w.soff)).toNat n }])
      CopyOk s c d r w n [1, 2, 3, 4] → Acceptable s c k → Accepted (.cpy a darr sarr w) s s c k (samePred c) (sameS c)) ∧
    (∀ (m : BitVec 6) (a : Src) (darr sarr : BitVec 4), (Instr.cpym (.s m) a darr sarr w).wf = true →
      let d := c.arr darr
      let r := c.arr sarr
      let n := (c.val64 s a).toNat
      let da := (d.at (c.offset w.doff)).toNat
      let t := s.targets c.g (decide (w.lcen = 1)) (c.g.sreg m.toNat).toNat da n
      let k := Cmd.offer c .cpym .cp w (s.multicast c.g w da (s.srcBytes c.g r.space (r.at (c.offset w.soff)).toNat n) 0 t.1)
      CopyOk s c d r w n [1] → t.1 ≠ [] → Acceptable s c k →
      Accepted (.cpym (.s m) a darr sarr w) s s c k (samePred c) fun reg =>
        (∀ i, i < 64 → (reg m.toNat).getLsbD i = t.2.contains i) ∧ ∀ x, x ≠ m.toNat → reg x = c.g.sreg x) ∧
    (∀ (a : Src) (darr sarr : BitVec 4), (Instr.kvcpy a darr sarr w).wf = true → Ready s c [] [a] →
      let d := c.arr darr
      let r := c.arr sarr
      let blk := 2 ^ (w.xtra.toNat / 16 + 7)
      let index (kj : Nat × Nat) : Int := (c.val s a kj.1 kj.2).toInt
      let slot (kj : Nat × Nat) : Int := d.at (c.offset w.doff) + ((4 * kj.1 + kj.2) * blk : Nat)
      let off := c.activeLanes.filter fun kj =>
        s.rangeBad c.g r 0 0 false [1, 2, 3, 4] || decide (index kj < 0) || decide ((r.bytes : Int) < (index kj + 1) * (blk : Nat))
      let run (kj : Nat × Nat) : Run :=
        { dst := (slot kj).toNat
          src := if off.contains kj then List.replicate blk (.lit 0)
            else (List.range blk).map fun i => s.srcByte c.g r.space
              (r.base + (index kj).toNat * blk + kvSource (w.xtra.toNat / 2 % 8) (decide (w.xtra.toNat % 2 = 1)) i) }
      let k := Cmd.offer c .kvcpy .cp w (mkLines (s.linePlace c.g d.space) (armedSpace d.space) (c.lc w) 0 0 (c.activeLanes.map run))
      d.misaligned = false → r.misaligned = false → d.base % 16 = 0 → r.base % 16 = 0 →
      (2 ^ d.logsz : Nat) * c.offset w.doff % 16 = 0 → s.rangeBad c.g d 0 0 true [1, 2, 3] = false →
      (∀ kj ∈ c.activeLanes, (d.base : Int) ≤ slot kj ∧ slot kj + (blk : Nat) ≤ ((d.base + d.bytes : Nat) : Int)) →
      (r.trap = true → off = []) → Acceptable s c k →
      Accepted (.kvcpy a darr sarr w) s s c k (p6After c r off) (sameS c)) ∧
    ∀ (a : Src) (s1 : State) (bs : List Byte), (Instr.cpst a w).wf = true → c.g.accesses = [] →
      let tab := ((s.grid? c.g.grid).map fun G => G.cpytab.toNat).getD 0
      let i := (c.val64 s a).toNat
      i < tableSize tab →
      (s.flush c.g.gid (List.range c.g.slices.length)).readVirt c.g.core (s.tmplOf c.g).asid (field tab 56 6 * 64 + 64 * i) 64 = .ok (s1, bs) →
      let c1 := c.refresh s1
      let t := parseCopy bs
      let rows := t.moves (c1.offset w.doff) (c1.offset w.soff)
      let lines := mkLines (s1.linePlace c1.g (if t.dscr then 1 else 4)) t.dscr (c1.lc w) 0 s1.free
        (rows.map fun r => { dst := wrapTo 64 r.2, src := s1.srcBytes c1.g 4 (wrapTo 64 r.1) t.rowBytes })
      let k := Cmd.offer c1 .cpst .cp w lines
      t.ok = true →
      (t.dscr = true → ∀ r ∈ rows, 0 ≤ r.2 ∧ r.2 + (t.rowBytes : Int) ≤ ((s1.tmplOf c1.g).scratchBytes : Int)) →
      Acceptable s1 c1 k → Accepted (.cpst a w) s s1 c1 k (samePred c1) (sameS c1)

namespace Sys2Proof.Claims

/-- What a gather-family command names: levels, rows, list; register form names no list. -/
structure GatherForm where
  levels : List (BitVec 4)
  rarr : BitVec 4
  larr : BitVec 4

/-- Its row size, whether it takes a list, the list's limit, and the positions of its rows. -/
def GatherForm.isList (a : Src) : Bool :=
  match a with
  | .x _ => false
  | _ => true

def GatherForm.nmax (s : State) (c : Ctx) (a : Src) : Nat := if GatherForm.isList a then (c.val64 s a).toNat else 0

def GatherForm.entries (s : State) (c : Ctx) (a : Src) : List (Nat × Int) :=
  if GatherForm.isList a then [] else c.activeLanes.map fun kj => (4 * kj.1 + kj.2, (c.val s a kj.1 kj.2).toInt)

def GatherForm.pos (s : State) (c : Ctx) (a : Src) : List Nat :=
  if GatherForm.isList a then List.range (GatherForm.nmax s c a) else (GatherForm.entries s c a).map fun e => e.1

/-- The command that a gather-family instruction offers (15 R379 to R381). -/
def GatherForm.cmd (x : GatherForm) (s : State) (c : Ctx) (kind : CmdKind) (a : Src) (w : CmdWord) : Cmd :=
  let rb := 2 ^ (w.xtra.toNat % 16)
  let ra := c.arr x.rarr
  let la := c.arr x.larr
  let rbase := (ra.at (c.offset w.doff)).toNat
  let pos := GatherForm.pos s c a
  let held : Gath := { row := w.xtra.toNat % 16, list := GatherForm.isList a, lspace := la.space, laddr := (la.at (c.offset w.soff)).toNat
                       nmax := GatherForm.nmax s c a, rspace := ra.space, raddr := rbase, fmt := w.xtra.toNat / 16, levels := x.levels.map c.arr }
  let runs := if kind = .gath then mapI (fun i r => ({ dst := rbase + r * rb, src := (List.range rb).map (ByteSrc.row i) } : Run)) 0 pos else []
  { Cmd.offer c kind .gx w (mkLines (s.linePlace c.g ra.space) true (c.lc w) 0 0 runs) with
    params := held.params (x.levels.map fun n => (c.g.areg n.toNat).toNat)
    entries := GatherForm.entries s c a, built := decide (pos = []) }

/-- The rows that a scatter reads: those of its entries, in list form as many as the list's header counts, at most the limit
(15 R379, R382). -/
def GatherForm.sources (x : GatherForm) (s : State) (c : Ctx) (a : Src) (w : CmdWord) : List Nat :=
  let la := c.arr x.larr
  let header := (List.range 4).map fun i => s.byteAt (s.localPlace c.g la.space ((la.at (c.offset w.soff)).toNat + i))
  if GatherForm.isList a then List.range (Min.min (ofLe header) (GatherForm.nmax s c a)) else GatherForm.pos s c a

/-- What the checks of 15 R382 ask: arrays that are aligned and within their spaces, the alignment of rows, the limits of
ranges, every entry that is tested at issue inside level 1, the list's and a scatter's source lines full. -/
structure GatherForm.Ok (x : GatherForm) (s : State) (c : Ctx) (kind : CmdKind) (a : Src) (w : CmdWord) : Prop where
  aligned : ∀ n ∈ x.levels ++ [x.rarr] ++ (if GatherForm.isList a then [x.larr] else []),
    (c.arr n).misaligned = false ∧ s.regionOk c.g (c.arr n) = true
  index : ∀ n ∈ x.levels.dropLast, (c.arr n).logsz = 2
  list : GatherForm.isList a = true → (c.arr x.larr).logsz = 2
  table : ∀ n, x.levels.getLast? = some n → (c.arr n).logsz ≤ w.xtra.toNat % 16 ∧ (c.arr n).base % Min.min (2 ^ (w.xtra.toNat % 16)) 128 = 0
  rows : (c.arr x.rarr).logsz ≤ w.xtra.toNat % 16 ∧
    (2 ^ (c.arr x.rarr).logsz : Nat) * c.offset w.doff % (Min.min (2 ^ (w.xtra.toNat % 16)) 16 : Nat) = 0
  limit : GatherForm.nmax s c a ≤ 65536
  tables : ∀ n ∈ x.levels, s.rangeBad c.g (c.arr n) 0 0 (decide (kind ≠ .gath) && decide (c.arr n = (x.levels.map c.arr).getLast?.getD (arrOf 0))) [3, 4] = false
  rowsIn : s.rangeBad c.g (c.arr x.rarr) (c.offset w.doff)
    ((if GatherForm.isList a then GatherForm.nmax s c a else if 8 < c.g.slices.length then 64 else 32) * 2 ^ (w.xtra.toNat % 16))
    (decide (kind = .gath)) [1, 2] = false
  listIn : GatherForm.isList a = true →
    s.rangeBad c.g (c.arr x.larr) (c.offset w.soff) (4 * (GatherForm.nmax s c a + 1)) false [1, 2] = false
  inside : GatherForm.isList a = false → ∀ kj ∈ c.activeLanes,
    offendsAt ((x.levels.map c.arr).headD (arrOf 0)) (if x.levels.length = 1 then 2 ^ (w.xtra.toNat % 16 - ((x.levels.map c.arr).headD (arrOf 0)).logsz) else 1)
      (c.val s a kj.1 kj.2).toInt = false
  trap : ((x.levels.map c.arr).headD (arrOf 0)).trap = true
  full : s.firstEmpty c.g
    ((if GatherForm.isList a then [((c.arr x.larr).space, ((c.arr x.larr).at (c.offset w.soff)).toNat, 4 * (GatherForm.nmax s c a + 1))] else []) ++
     (if kind = .gath then [] else (x.sources s c a w).map fun r =>
       ((c.arr x.rarr).space, ((c.arr x.rarr).at (c.offset w.doff)).toNat + r * 2 ^ (w.xtra.toNat % 16), 2 ^ (w.xtra.toNat % 16)))) = none

end Sys2Proof.Claims

/-- GATH, GATH2, GATH3, SCAT, SCATA and NZSCAN are accepted with their operands as they stand: the arrays' images, the
entries of register form, or where the list lies; the lines a gather or a scan is to fill are those of its rows, or of
its list (15 R379 to R382, R391). -/
def Obligations.GatherCommandsAccepted : Prop :=
  ∀ (s : State) (c : Ctx) (w : CmdWord) (a : Src), s.ctx = some c → c.gate = true →
    (∀ (tarr iarr rarr larr : BitVec 4), Ready s c [] [a] →
      let made (i : Instr) (x : GatherForm) (kind : CmdKind) : Prop :=
        i.wf = true → x.Ok s c kind a w → Acceptable s c (x.cmd s c kind a w) →
        Accepted i s s c (x.cmd s c kind a w) (samePred c) (sameS c)
      made (.gath tarr a rarr larr w) ⟨[tarr], rarr, larr⟩ .gath ∧
      made (.gath2 tarr iarr a rarr larr w) ⟨[iarr, tarr], rarr, larr⟩ .gath ∧
      made (.gath3 tarr iarr a rarr larr w) ⟨[w.xtra.extractLsb' 4 4, iarr, tarr], rarr, larr⟩ .gath ∧
      made (.scat tarr a rarr larr w) ⟨[tarr], rarr, larr⟩ .scat ∧
      made (.scata tarr a rarr larr w) ⟨[tarr], rarr, larr⟩ .scata) ∧
    ∀ (larr varr : BitVec 4), (Instr.nzscan a larr varr w).wf = true →
      let l := c.arr larr
      let v := c.arr varr
      let n := (c.val64 s a).toNat
      let la := (l.at (c.offset w.doff)).toNat
      let va := (v.at (c.offset w.soff)).toNat
      let es := 2 ^ v.logsz
      let k : Cmd := { Cmd.offer c .nzscan .gx w (mkLines (s.linePlace c.g l.space) true (c.lc w) 0 0
          [{ dst := la, src := (List.range (4 * (n + 1))).map (ByteSrc.row 0) }]) with
        params := [v.space, va, es, n, w.xtra.toNat % 2], built := false }
      l.misaligned = false → v.misaligned = false → s.regionOk c.g l = true → s.regionOk c.g v = true → l.logsz = 2 →
      v.logsz ≤ 2 → n ≤ 65536 →
      s.rangeBad c.g l (c.offset w.doff) (4 * (n + 1)) true [1, 2] = false →
      s.rangeBad c.g v (c.offset w.soff) (es * n) false [1, 2] = false →
      (∀ i, i < es * n → ∀ j, j < 4 * (n + 1) → s.localPlace c.g v.space (va + i) ≠ s.localPlace c.g l.space (la + j)) →
      s.firstEmpty c.g [(v.space, va, es * n)] = none → Acceptable s c k →
      Accepted (.nzscan a larr varr w) s s c k (samePred c) (sameS c)

namespace Sys2Proof.Claims

/-- The status of a record: the fault its command met, else its BOUNDS (12 R310; 15 R385, R386). -/
def statusOf (r : Completion) : Status :=
  match r.cmd.fault, r.cmd.bounded with
  | some x, _ => x
  | none, some x => x
  | none, none => { code := 0, reason := 0, addr := 0, shown := 0, topa := 0 }

/-- `r` is the oldest of the gang's records that `covers` holds of and that have not surfaced. -/
def Oldest (o : Gang) (covers : Completion → Prop) (r : Completion) : Prop :=
  r ∈ o.records ∧ r.reported = false ∧ covers r ∧
    ∀ x ∈ o.records, x.reported = false → covers x → x ≠ r → r.cmd.id < x.cmd.id

/-- Whether a record of gang `o` names landing-count register `n` of gang `gid`: a CPYM names those of its mirror gangs (12 R316,
R324). -/
def NamesReg (gid n : Nat) (o : Gang) (r : Completion) : Prop :=
  if r.cmd.kind = .cpym then ∃ l ∈ r.cmd.lines, l.lc = some (gid, n) else o.gid = gid ∧ r.cmd.lcreg = some n

/-- The gangs of the package, those of saved teams among them. -/
def everyGang (s : State) : List Gang := s.gangs ++ s.saved.flatMap fun v => v.gangs

/-- The record `r` of gang `o` surfaces at instruction `i`: BOUNDS as the user trap of cause 3 from an engine, its record gone,
TWORD the command's word, TOPA the entry, TOPB the command's address; any other status as a gang fault of its kind with the
command's word in TWORD and WORD and its address in TOPB and ARG, the record marked, which a replay runs again (12 R311; 15
R385; 17 R428). -/
def Surfaces (i : Instr) (s : State) (c : Ctx) (o : Gang) (r : Completion) : Prop :=
  let st := statusOf r
  let rest := { c.g with records := c.g.records.filter fun x => decide (x.cmd.id ≠ r.cmd.id) }
  let mark (l : List Completion) : List Completion := l.map fun x => if x.cmd.id = r.cmd.id then { x with reported := true } else x
  (st.code = 5 → exec i s = .next (s.userTrap { c with g := rest } rest
    { cause := 3, tmask := 0, taddr := st.addr, engine := true, words := some (r.cmd.word, st.topa, r.cmd.pc) })) ∧
  (st.code ≠ 5 → ∃ t g' f, exec i s = .next t ∧ { t with gangs := s.gangs, saved := s.saved, seq := s.seq } = s ∧
    t.seq = s.seq + 1 ∧ t.gang? c.g.gid = some g' ∧
    (∀ x, x ≠ c.g.gid → t.anyGang? x = (s.anyGang? x).map fun y => if y.gid = o.gid then { o with records := mark o.records } else y) ∧
    g'.records = (if o.gid = c.g.gid then mark c.g.records else c.g.records) ∧
    g'.fault = some f ∧ f.info.kind = (if st.code = 3 then 5 else st.code) ∧ f.info.reason = st.reason ∧ f.info.flags = 4 ∧
    f.info.pc = c.is.pc ∧ f.info.addr = st.shown ∧ f.info.word = r.cmd.word ∧ f.info.arg = r.cmd.pc ∧ f.order = s.seq ∧
    f.cmd = some (o.gid, r.cmd.id) ∧ f.sd = none ∧
    g'.trap = { c.g.trap with topb := BitVec.ofNat 64 r.cmd.pc, tpc := BitVec.ofNat 64 c.is.pc, taddr := BitVec.ofNat 64 st.addr
                              tword := BitVec.ofNat 64 r.cmd.word } ∧
    (g'.strands.map fun x => (x.slices, x.pc, x.mode, x.ret)) = (c.g.strands.map fun x => (x.slices, x.pc, x.mode, x.ret)) ∧
    { g' with records := c.g.records, fault := c.g.fault, trap := c.g.trap, strands := c.g.strands } = c.g)

end Sys2Proof.Claims

/-- WAITC, WAITZ, WAITCH and MXFENCE. WAITC covers the records of its path after which N commands of the path have been issued,
WAITZ those that name its register, a CPYM's of its mirror gang among them. Where one that has not surfaced is covered, the
oldest, its own gang's first, surfaces there. Where none is, WAITC goes on once its path counts N or fewer, WAITZ once its s
register is zero, whose rime is then [0, 0]; WAITCH once N or fewer children are incomplete; else each waits. MXFENCE closes
the gang's open matrix operations into one batch that counts on the MX path. Each only goes on where no thread is active (12
R307, R311, R324, R329, R330; 05 R139; 13 R343). -/
def Obligations.WaitsAndMatrixFence : Prop :=
  ∀ (s : State) (c : Ctx), s.ctx = some c →
    let skip : State := s.setGang (c.g.setStrand { c.st with pc := c.is.fall, wait := .none })
    let waits (w : Wait) : State := s.setGang (c.g.setStrand
      { c.st with wait := w, fair := 0, since := if c.st.wait = w then c.st.since else s.cycleOf c.g.core })
    (∀ (path : BitVec 3) (n : BitVec 8), path.toNat ≤ 5 →
      let p := pathOf path.toNat
      let covers (r : Completion) : Prop := r.cmd.path = p ∧ n.toNat ≤ r.after
      (c.gate = false → exec (.waitc path n) s = .next skip) ∧
      (c.gate = true → (∀ r, Oldest c.g covers r → Surfaces (.waitc path n) s c c.g r)) ∧
      (c.gate = true → (∀ r ∈ c.g.records, r.reported = false → ¬covers r) →
        exec (.waitc path n) s = .next (if c.g.counter p ≤ n.toNat then skip else waits .paths))) ∧
    (∀ n : BitVec 6, (c.gate = false → exec (.waitz (.s n)) s = .next skip) ∧
      (c.gate = true →
        let free (o : Gang) : Prop := ∀ r ∈ o.records, r.reported = false → ¬NamesReg c.g.gid n.toNat o r
        (∀ r, Oldest c.g (NamesReg c.g.gid n.toNat c.g) r → Surfaces (.waitz (.s n)) s c c.g r) ∧
        (free c.g → ∀ o ∈ everyGang s, o.gid ≠ c.g.gid → (∀ x ∈ everyGang s, x.gid = o.gid → x = o) →
          (∀ x ∈ everyGang s, x.gid ≠ o.gid → free x) →
          ∀ r, Oldest o (NamesReg c.g.gid n.toNat o) r → (statusOf r).code ≠ 5 → Surfaces (.waitz (.s n)) s c o r) ∧
        (free c.g → (∀ o ∈ everyGang s, free o) →
          (c.g.sreg n.toNat = 0 → Answers (.waitz (.s n)) s c fun g' => g'.srime n.toNat = .iv 0 0 ∧
            (∀ m, m ≠ n.toNat → g'.srime m = c.g.srime m) ∧ { g' with sr := c.g.sr, strands := c.g.strands } = c.g ∧ GoesOn c g' c.is.fall) ∧
          (c.g.sreg n.toNat ≠ 0 → exec (.waitz (.s n)) s = .next (waits .paths))))) ∧
    (∀ n : BitVec 8, exec (.waitch n) s = .next (if c.gate = true ∧ n.toNat < c.g.children then waits .children else skip)) ∧
    (c.gate = false → exec .mxfence s = .next skip) ∧
    (c.gate = true → c.room .mx = true → Answers .mxfence s c fun g' =>
      g'.batches = c.g.batches ++ [{ id := c.g.nextId, ops := (c.g.tileOps.filter fun o => o.isOpen).map fun o => o.id, pc := c.is.pc
                                     word := (trapWords c.is.words).1 }] ∧
      g'.paths = c.g.paths ++ [⟨.mx, c.g.nextId⟩] ∧ g'.nextId = c.g.nextId + 1 ∧
      g'.tileOps = (c.g.tileOps.map fun o => { o with isOpen := false }) ∧
      g'.records = c.g.records.map (fun r => if r.cmd.path = .mx then { r with after := r.after + 1 } else r) ∧
      { g' with batches := c.g.batches, paths := c.g.paths, nextId := c.g.nextId, tileOps := c.g.tileOps, records := c.g.records
                strands := c.g.strands } = c.g ∧
      GoesOn c g' c.is.fall)

/-! ## Tile operations (13, 14) -/

namespace Sys2Proof.Claims

/-- The strand holds every slice of its gang that has a live thread (13 R340). -/
def WholeGang (c : Ctx) : Prop := ∀ k, k < c.g.slices.length → k ∉ c.st.slices → ∀ j, j < 4 → (c.g.thread k j).live = false

/-- Scratch bytes that an operation touches lie in the scratchpad, the lines it reads are full (13 R342, R350). -/
def ScratchReady (s : State) (c : Ctx) (bytes reads : List Nat) : Prop :=
  (∀ b ∈ bytes, b < (s.tmplOf c.g).scratchBytes) ∧ s.firstEmpty c.g ((lineNumbers reads).map fun l => (1, 128 * l, 1)) = none

/-- The operation joins the tile operations of its gang; no tile, no register but p6 and no byte changes yet; its strand goes
on (13 R341). -/
def TileIssues (i : Instr) (s : State) (c : Ctx) (op : TileOp) (p6 : Nat → Nat → BitVec 8) : Prop :=
  ∃ t g', exec i s = .next t ∧ t.gang? c.g.gid = some g' ∧ { t with gangs := s.gangs, opLatch := s.opLatch } = s ∧
    (∀ n, n ≠ c.g.gid → t.gang? n = s.gang? n) ∧
    g'.tileOps = c.g.tileOps ++ [{ op with id := c.g.nextId }] ∧ g'.nextId = c.g.nextId + 1 ∧ GoesOn c g' c.is.fall ∧
    (∀ k j, { g'.thread k j with p := (c.g.thread k j).p } = c.g.thread k j ∧ (g'.thread k j).p = p6 k j) ∧
    g'.records = (if op.kind = .drainReg then c.g.records.map (fun r => if r.cmd.path = .mx then { r with after := r.after + 1 } else r)
      else c.g.records) ∧
    { g' with tileOps := c.g.tileOps, nextId := c.g.nextId, strands := c.g.strands, slices := c.g.slices, paths := c.g.paths
              records := c.g.records } = c.g

end Sys2Proof.Claims

/-- Every tile operation issues with its operands as they stand: MMA and MMAG the words of A and the rows of B, MXV its
descriptor and the base of W, MXSCALE its factors, AMASK the columns that each row admits, a drain its modes; MXDRAIN to
registers also counts on the MX path (13 R341, R346, R347, R352 to R359; 14 R366 to R369, R376). -/
def Obligations.TileOperationsIssue : Prop :=
  ∀ (t : BitVec 5) (a b : Src) (s : State) (c : Ctx), s.ctx = some c → c.gate = true → c.tileOk s t = true →
    c.g.accesses = [] → c.tileRoom = true →
    let all : State := s.flush c.g.gid (List.range c.g.slices.length)
    let same := samePred c
    (∀ w : ModWord, (Instr.mma t a b w).wf = true → c.srcRangeOk s a (Accept.mmaRegs w.fmta) = true → WholeGang c →
      let sh := c.shape w.shape
      let off := ((c.val64 s b).extractLsb' 0 32).toInt
      let rows := (List.range (mmaK w.fmta.toNat)).map fun (k : Nat) => off + (k : Int)
      let cells := sh.cells rows
      let bytes := sh.needs w.fmtb.toNat cells
      sh.reserved = false → sh.blockOk w.fmtb.toNat = true → sh.badB w.fmtb.toNat off cells = false → ScratchReady s c bytes bytes →
      TileIssues (.mma t a b w) s c (TileOp.of c .mma [t.toNat] (mmaParams c w (rows.map (wrapTo 32)))
        (c.g.aImage w.fmta.toNat (srcReg a)) (lineNumbers bytes) true) same) ∧
    (∀ w : ModWord, (Instr.mmag t a b w).wf = true → c.srcRangeOk s a (Accept.mmaRegs w.fmta) = true → WholeGang c →
      let sh := c.shape w.shape
      let off := (c.val64 s b).toNat % 2 ^ 32
      let list := (List.range (4 * mmaK w.fmta.toNat)).map (off + ·)
      let rows := (List.range (mmaK w.fmta.toNat)).map fun i =>
        ofLe ((List.range 4).map fun x => s.byteAt (s.localPlace c.g 1 (off + 4 * i + x)))
      let cells := sh.cells ((rows.filter fun r => !voidEntry sh r).map fun (r : Nat) => (r : Int))
      let bytes := sh.needs w.fmtb.toNat cells
      sh.reserved = false → off % 4 = 0 → (∀ b ∈ list, s.spoilt (s.localPlace c.g 1 b) = false) → ScratchReady s c list list →
      sh.misplaced w.fmtb.toNat cells = false → ScratchReady all c bytes bytes →
      (∀ i, i < 4 * mmaK w.fmta.toNat → all.byteAt (all.localPlace c.g 1 (off + i)) = s.byteAt (s.localPlace c.g 1 (off + i))) →
      TileIssues (.mmag t a b w) s c (TileOp.of c .mmag [t.toNat] (mmaParams c w rows) (c.g.aImage w.fmta.toNat (srcReg a))
        (lineNumbers bytes) true) same) ∧
    TileIssues (.mxzero t) s c (TileOp.of c .mxzero [t.toNat] [] [] [] false) same ∧
    (∀ arr : BitVec 4, (Instr.mxv a arr).wf = true →
      let x := mxvWord (c.val64 s a).toNat
      let ar := c.arr arr
      x.ok (s.tmplOf c.g).accs = true → ar.space = 4 → ar.base % 128 = 0 → x.bytes ≤ ar.bytes →
      TileIssues (.mxv a arr) s c (TileOp.of c .mxv ((List.range x.v).flatMap fun j => [x.xt + j, x.yt + j]) [(c.val64 s a).toNat, ar.base] [] [] true)
        (p6After c ar [])) ∧
    (∀ (h : BitVec 3) (off : BitVec 8),
      let sh := c.shape h
      let cells := sh.cells ((List.range 16).map fun i => ((off.toNat + i : Nat) : Int))
      let bytes := sh.needs sh.fmt cells
      (sh.fmt ≤ 2 ∨ sh.fmt = 5) → sh.misplaced sh.fmt cells = false → ScratchReady s c bytes bytes →
      TileIssues (.mxload t h off) s c (TileOp.of c .mxload [t.toNat] [(c.g.hreg h.toNat).toNat, off.toNat] [] (lineNumbers bytes) false) same) ∧
    (∀ m : BitVec 2, (Instr.mxscale t a m).wf = true → Ready s c [] [a] → (m ≠ 2 → WholeGang c) →
      TileIssues (.mxscale t a m) s c
        (TileOp.of c .mxscale [t.toNat] [m.toNat] (if m = 2 then [(c.val64 s a).extractLsb' 0 32] else
          c.g.halves.flatMap fun h => (List.range 32).map fun x =>
            if (c.g.halfThread h x).live then (c.g.halfThread h x).vreg (srcReg a) else 0x3F800000) [] true) same) ∧
    (∀ (n : BitVec 7) (z : BitVec 1) (f : BitVec 4), (Instr.mxdrainReg t n z f).wf = true → c.vOk s n.toNat (Accept.drainRegs f) = true →
      WholeGang c → c.room .mx = true →
      TileIssues (.mxdrainReg t n z f) s c (TileOp.of c .drainReg [t.toNat]
        [n.toNat, f.toNat, z.toNat, modeRound c.st.mode, b2n (modeSat c.st.mode), maskOf c.liveLanes] [] [] false) same ∧
      ∃ u g', exec (.mxdrainReg t n z f) s = .next u ∧ u.gang? c.g.gid = some g' ∧ g'.paths = c.g.paths ++ [⟨.mx, c.g.nextId⟩]) ∧
    (∀ (sr : BitVec 6) (tree : BitVec 1) (k : BitVec 2), (tree = 1 → c.treeOk s k = true) →
      TileIssues (.amask t sr tree k) s c (TileOp.of c .amask [t.toNat] (c.g.halves.flatMap fun h => (List.range 16).map fun i =>
        if tree = 1 then (c.g.tree k.toNat h).rowMask (c.g.sreg sr.toNat).toNat i
        else keyRowMask (c.g.keyTable k.toNat h) (c.g.sreg sr.toNat).toInt i) [] [] false) same) ∧
    (∀ (o u : BitVec 5) (noo first : BitVec 1), (Instr.asoft t o noo first u).wf = true → c.tileOk s u = true →
      (noo = 1 ∨ c.tileOk s o = true) →
      let ts := if noo = 1 then [t.toNat, u.toNat] else [t.toNat, u.toNat, o.toNat]
      TileIssues (.asoft t o noo first u) s c (TileOp.of c .asoft ts [first.toNat, ts.length] [] [] false) same) ∧
    ∀ (arr : BitVec 4) (l : LaneAddr) (ls : List LaneAddr) (off : List (Nat × Nat)), (Instr.heat t a arr).wf = true → (c.arr arr).logsz = 2 →
      (match c.prep s (c.arr arr) a 0 16 1 false true false [3] with
        | .go x o => x = l :: ls ∧ o = off
        | .stop _ => False) →
      TileIssues (.heat t a arr) s c (TileOp.of c .heat [t.toNat] [l.addr] [] [] false) (p6After c (c.arr arr) off)

/-- SREAD, EVSEL, FRAME, COLL and RING are accepted: a storage read, whose lines wait for the drive's bytes, with status 4 and
REASON 5 where its drive is not enabled, REASON 4 where its blocks lie beyond the drive's capacity; a scan of COUNT heat
counters for at most COUNT − BUDGET tokens; a frame command at an engine that has a context for its session; a ring command
whose collective engine runs an older one waits its turn. MXDRAIN to scratch is accepted as a command of its own whose lines
are those of the elements and scales it writes, and its tile operation waits beside it under the same number (12 R331 to R333;
13 R359; 14 R378; 18 R446, R448, R451, R452). -/
def Obligations.OtherCommandsAccepted : Prop :=
  (∀ (s : State) (c : Ctx) (w : CmdWord) (a : Src), s.ctx = some c → c.gate = true →
     (∀ drive : BitVec 5, (Instr.sread a drive w).wf = true →
       let d := c.arr (w.xtra.extractLsb' 0 4)
       let dr := s.drive drive.toNat
       let count := (c.g.sreg w.soff.toNat).toNat
       let lba := (c.val64 s a).toNat
       let n := count * 2 ^ dr.shift
       let da := (d.at (c.offset w.doff)).toNat
       let k : Cmd := { Cmd.offer c .sread .cp w (mkLines (s.linePlace c.g 4) false (c.lc w) 0 0
           [{ dst := da, src := (List.range n).map (ByteSrc.row 0) }]) with
         params := [s.base, n, drive.toNat, lba, count], rows := [.entry 0]
         fault := if dr.enabled = false then some ⟨4, 5, da, da, 0⟩ else if dr.capacity < lba + count then some ⟨4, 4, da, da, 0⟩ else none }
       d.misaligned = false → d.at (c.offset w.doff) % 16 = 0 → 1 ≤ count → count ≤ 65536 →
       s.rangeBad c.g d (c.offset w.doff) n true [4] = false →
       Acceptable s c k → Accepted (.sread a drive w) s s c k (samePred c) (sameS c)) ∧
     (∀ (mark : BitVec 1) (n : BitVec 6) (harr larr : BitVec 4), n.toNat ≤ 62 →
       let lo := (c.g.sreg n.toNat).toNat
       let hi := (c.g.sreg (n.toNat + 1)).toNat
       let count := field lo 63 32
       let first := field lo 31 0
       let budget := field hi 31 0
       let doff := field hi 47 32
       let most := if budget < count then Min.min (count - budget) 4095 else 0
       let h := c.arr harr
       let l := c.arr larr
       let k : Cmd := { Cmd.offer c .evsel .gx { scope := 3, cache := 0, lcen := 0, lcreg := 0, doff := 0, soff := 0, xtra := 0 }
           (mkLines (s.linePlace c.g l.space) true none 0 0 [{ dst := (l.at (doff : Int)).toNat, src := (List.range (4 * (most + 1))).map (ByteSrc.row 0) }]) with
         params := [h.base, first, count, most, b2n (decide (mark = 1) || hi.testBit 63)], built := false }
       h.misaligned = false → l.misaligned = false → h.logsz = 2 → l.logsz = 2 → 1 ≤ count → count ≤ 2 ^ 20 →
       s.rangeBad c.g h (first : Int) (4 * count) false [3] = false → s.rangeBad c.g l (doff : Int) (4 * (most + 1)) true [1, 2] = false →
       h.trap = true → l.trap = true → Acceptable s c k →
       Accepted (.evsel mark (.s n) harr larr) s s c k (samePred c) (sameS c)) ∧
     (∀ (engine : BitVec 3) (s1 s2 : State) (bs : List Byte), (Instr.frame a engine w).wf = true →
       let addr := (c.val64 s a).toNat
       let key := sessionKey (s.tmplOf c.g).asid (parseFrame bs).session
       addr % 128 = 0 → c.g.accesses = [] →
       (s.flush c.g.gid (List.range c.g.slices.length)).readVirt c.g.core (s.tmplOf c.g).asid addr 128 = .ok (s1, bs) →
       s.frameContext engine.toNat (some key) = some s2 →
       let k : Cmd := { Cmd.offer c .frame .cp w [] with params := [engine.toNat, key, addr, s2.seq, 0, 0], built := false }
       let s3 : State := { s2 with seq := s2.seq + 1 }
       Acceptable s3 c k → Accepted (.frame a engine w) s s3 c k (samePred c) (sameS c)) ∧
     ∀ (n : BitVec 6) (kind : Nat) (s1 : State) (ls : List LanePlaces) (old : Nat × Cmd), kind ≤ 3 →
       let i : Instr := if kind = 3 then .ring (.s n) else .coll (.s n) (BitVec.ofNat 2 kind)
       let addr := (c.g.sreg n.toNat).toNat
       addr % 64 = 0 → c.g.accesses = [] →
       (s.flush c.g.gid c.st.slices).places c.g 4 64 true false [{ k := c.st.slices.headD 0, j := 0, addr := addr }] = .ok (s1, ls) →
       s1.anyRemote ls = false →
       let c1 := c.refresh s1
       (s1.gang? c.g.gid).isSome = true → c1.g.accesses = [] → c.st.wait ≠ .lost → c.st.wait ≠ .homeReset →
       let d := ringDesc (ls.flatMap fun l => l.places.map s1.byteAt)
       let x := ringCfg (s1.mg (Mgmt.ringcfg d.ring))
       ringDescOk kind d x = true →
       (d.dscr = true → d.dst + (ringSizes kind d x).2 ≤ (s1.tmplOf c1.g).scratchBytes) →
       (d.sscr = true → d.src + (ringSizes kind d x).1 ≤ (s1.tmplOf c1.g).scratchBytes) →
       ((s1.setGang c1.g).ringHead d.ring).isSome = true →
       (s1.setGang c1.g).engineHead d.ring = some old → old.2.param 2 = 1 → old.2.param 0 < s1.seq →
       (d.dscr = true → ∀ l, s1.lineP (s1.localPlace c1.g 1 (128 * l)) ≠ 15) →
       c1.room .cl = true →
       ∃ t g' k, exec i s = .next t ∧ t.gang? c.g.gid = some g' ∧ g'.cmds = c1.g.cmds ++ [k] ∧ k.id = c1.g.nextId ∧ k.path = .cl ∧
         k.built = false ∧ k.param 1 = d.ring ∧ k.param 2 = 0 ∧ k.param 4 = d.count ∧ k.param 5 = d.stp ∧ k.param 6 = d.rev ∧
         k.param 10 = d.src ∧ k.param 12 = d.dst ∧ k.param 13 = d.stat ∧ k.param 15 = kind ∧ ⟨.cl, c1.g.nextId⟩ ∈ g'.paths ∧
         (∀ p, t.byteAt p = s1.byteAt p) ∧ GoesOn c1 g' c.is.fall) ∧
  ∀ (t : BitVec 5) (hs he : BitVec 3) (z : BitVec 1) (f : BitVec 4) (s : State) (c : Ctx), s.ctx = some c → c.gate = true →
    (Instr.mxdrainScratch t hs he z f).wf = true → c.tileOk s t = true → c.tileRoom = true →
    let e := c.shape he
    let x := c.shape hs
    let blk := isBlock f.toNat
    let cells := e.cells ((List.range 16).map fun (i : Nat) => (i : Int))
    let scales := if f.toNat = 8 then (List.range 32).map fun b => x.sbase + b / 2 * x.rstride + b % 2
      else if blk then (List.range 8).map fun q => x.sbase + q * x.rstride else []
    let written := cells.flatMap (fun rc => bitBytes (e.pos (elemBits f.toNat) rc.1 rc.2) (elemBits f.toNat)) ++ scales
    let reads := if f.toNat = 8 then [x.bn, x.bn + 1] else []
    let lines := drainLines (s.localPlace c.g 1) written
    let k : Cmd := { Cmd.offer c .drain .mx { scope := 1, cache := 0, lcen := 0, lcreg := 0, doff := 0, soff := 0, xtra := 0 } lines with
      rows := lines.map fun _ => RowState.entry 0 }
    e.reserved = false → (blk = true → x.reserved = false ∧ e.t = false ∧ 15 ≤ e.rows ∧ 15 ≤ e.cols) →
    e.misplaced f.toNat cells = false → (f.toNat = 8 → x.bn % 2 = 0) → ScratchReady s c (written ++ reads) reads →
    Acceptable s c k →
    Accepted (.mxdrainScratch t hs he z f) s s c k (samePred c) (sameS c) ∧
    ∃ u g', exec (.mxdrainScratch t hs he z f) s = .next u ∧ u.gang? c.g.gid = some g' ∧
      g'.tileOps = c.g.tileOps ++ [{ TileOp.of c .drainScratch [t.toNat]
        [(c.g.hreg hs.toNat).toNat, (c.g.hreg he.toNat).toNat, z.toNat, f.toNat, modeRound c.st.mode, b2n (modeSat c.st.mode)] []
        (lineNumbers reads) false with id := c.g.nextId }]


/-! ## Key tables and tree files (14) -/

/-- AKEYS writes a key table from the threads of its gang, ACLASS reads its class: 2 where every row admits all sixteen
columns, 0 where no row admits any, else 1; TTSET replaces a group of nodes and removes those above, or raises TREE
(cause 15) and changes nothing; TTMASK and TTPOS read a tree; PRUNE re-roots it, writes its list and reads its size
(14 R360, R361, R366, R367, R370 to R375). -/
def Obligations.KeysAndTrees : Prop :=
  ∀ (s : State) (c : Ctx), s.ctx = some c → c.gate = true →
    (∀ (n : BitVec 7) (k : BitVec 2), n.toNat ≤ 124 → c.vOk s n.toNat 4 = true → WholeGang c →
      Answers (.akeys (.v n) k) s c fun g' => GoesOn c g' c.is.fall ∧
        { g' with keys := c.g.keys, strands := c.g.strands } = c.g ∧
        ∀ q h, h < 2 → g'.keyTable q h = if q = k.toNat ∧ h ∈ c.g.halves then
            (List.range 16).map fun i => (List.range 4).map fun j =>
              let th := c.g.halfThread h (2 * i + j / 2)
              let r := n.toNat + 2 * (j % 2)
              if th.live then (th.vreg r, th.vreg (r + 1)) else (0, 0)
          else if q < 4 then c.g.keyTable q h else g'.keyTable q h) ∧
    (∀ (d sr : BitVec 6) (k : BitVec 2),
      let k0 := (c.g.sreg sr.toNat).toInt
      let admitted (h i col : Nat) : Prop := ∃ iv ∈ (c.g.keyTable k.toNat h).getD i [], iv.1.toInt ≤ k0 + col ∧ k0 + col < iv.2.toInt
      ∃ v : W64, WritesS (.aclass (.s d) sr k) s c d v (exactly v) ∧
        (v = 2 ↔ ∀ h ∈ c.g.halves, ∀ i, i < 16 → ∀ col, col < 16 → admitted h i col) ∧
        (v = 0 ↔ ∀ h ∈ c.g.halves, ∀ i, i < 16 → ∀ col, col < 16 → ¬admitted h i col) ∧ (v = 0 ∨ v = 1 ∨ v = 2)) ∧
    (∀ (grp n : BitVec 2) (r : BitVec 7), c.treeOk s n = true → c.vOk s r.toNat 1 = true → WholeGang c →
      let base := 32 * grp.toNat
      let word (h t : Nat) : Nat := if (c.g.halfThread h t).live then ((c.g.halfThread h t).vreg r.toNat).toNat else 2 ^ 31
      let absent (h t : Nat) : Prop := (word h t).testBit 31 = true
      let offends (h t : Nat) : Prop :=
        if base + t = 0 then word h t ≠ 0
        else ¬absent h t ∧ (128 ≤ word h t ∨ base + t ≤ word h t % 128 ∨
          (if base ≤ word h t % 128 then word h t % 128 ≠ 0 ∧ absent h (word h t % 128 - base)
           else (c.g.tree n.toNat h).present (word h t % 128) = false))
      ((∀ h ∈ c.g.halves, ∀ t, t < 32 → ¬offends h t) →
        Answers (.ttset grp (.v r) n) s c fun g' => GoesOn c g' c.is.fall ∧
          { g' with trees := c.g.trees, strands := c.g.strands } = c.g ∧
          ∀ h ∈ c.g.halves, ∀ m, m < 128 →
            (g'.tree n.toNat h).present m =
              (if m = 0 then true else if m < base then (c.g.tree n.toNat h).present m
               else if m < base + 32 then !(word h (m - base)).testBit 31 else false) ∧
            (base ≤ m → m ≠ 0 → m < base + 32 → (word h (m - base)).testBit 31 = false →
              (g'.tree n.toNat h).parent m = word h (m - base) % 128) ∧
            (m < base → (g'.tree n.toNat h).parent m = (c.g.tree n.toNat h).parent m)) ∧
      ((∃ h ∈ c.g.halves, ∃ t, t < 32 ∧ offends h t) →
        ∃ tmask taddr, exec (.ttset grp (.v r) n) s = .next (s.userTrap c c.g { cause := 15, tmask := tmask, taddr := taddr }) ∧
          ∀ h, h < 2 → ∀ t, t < 32 → tmask.testBit (32 * h + t) = true → h ∈ c.g.halves ∧ offends h t)) ∧
    (∀ (d : Dst) (sr : BitVec 6) (n : BitVec 2), Accept.dstVX d = true → c.treeOk s n = true → Ready s c [d] [] →
      Writes (.ttmask d sr n) s c d (whenActive c fun k j =>
        BitVec.ofNat 32 ((c.g.tree n.toNat (k / 8)).rowMask (c.g.sreg sr.toNat).toNat ((4 * (k % 8) + j) % 16)))
        fun _ => .iv 0 65535) ∧
    (∀ (d : Dst) (a : Src) (sr : BitVec 6) (n : BitVec 2), (Instr.ttpos d a sr n).wf = true → c.treeOk s n = true → Ready s c [d] [a] →
      Writes (.ttpos d a sr n) s c d (whenActive c fun k j =>
        let m := (c.val s a k j).toNat
        let t := c.g.tree n.toNat (k / 8)
        if m ≤ 127 ∧ t.present m = true then (c.g.sreg sr.toNat).extractLsb' 0 32 + BitVec.ofNat 32 (t.depth m) else 0xFFFFFFFF)
        fun _ => let r := c.g.srime sr.toNat
          if r ≠ .top ∧ -2 ^ 31 ≤ (r.bounds 64).1 ∧ (r.bounds 64).2 < 2 ^ 31 then
            Rime.mk 32 (Min.min (r.bounds 64).1 (-1)) (Max.max ((r.bounds 64).2 + 127) (-1)) else .top) ∧
    ∀ (d sr : BitVec 6) (a : Src) (n : BitVec 2), Accept.srcSZ a = true → c.treeOk s n = true → c.g.slices.length ≤ 8 → c.g.accesses = [] →
      (∀ o ∈ c.g.tileOps, o.done = true) →
      let off := (c.g.sreg sr.toNat).toNat % 2 ^ 32
      let leaf := (c.val64 s a).toNat
      let tree := c.g.tree n.toNat 0
      let list := tree.pruneList leaf
      off % 4 = 0 → tree.present leaf = true → off + 4 * list.length ≤ (s.tmplOf c.g).scratchBytes →
      ∃ t g', exec (.prune (.s d) a n sr) s = .next t ∧ t.gang? c.g.gid = some g' ∧ GoesOn c g' c.is.fall ∧
        g'.tree n.toNat 0 = (tree.prune leaf).2 ∧
        (∀ m, g'.sreg m = if m = d.toNat then BitVec.ofNat 64 (tree.depth leaf + 1 + 2 ^ 32 * ((tree.prune leaf).1.length + 1)) else c.g.sreg m) ∧
        (∀ k j, { g'.thread k j with reservation := (c.g.thread k j).reservation } = c.g.thread k j) ∧
        t.mem = s.mem ∧ t.chip = s.chip ∧
        ∀ T, s.teamByKey? (s.teamKey c.g.grid c.g.team) = some T → ∃ T', t.teamByKey? T.key = some T' ∧
          (∀ i, T'.byte i = if off ≤ i ∧ i < off + 4 * list.length then
            BitVec.ofNat 8 (list.getD ((i - off) / 4) 0 / 2 ^ (8 * ((i - off) % 4))) else T.byte i) ∧
          { T' with scratch := T.scratch } = T

/-! ## Child launches, populations, PARK and UNPARK (05, 06, 16) -/

namespace Sys2Proof.Claims

/-- The live threads of the grid's gangs, the saved ones among them. -/
def liveOf (s : State) (grid : Nat) : Nat :=
  ((s.gangsOf grid).flatMap fun g => g.slices.flatMap fun sl => sl.threads.filter fun t => t.live).length

/-- `bits` is w times 2^-149 as a binary64 pattern, rounded to nearest even; 0 for 0 (16 R410). -/
def Binary64Of (w bits : Nat) : Prop :=
  if w = 0 then bits = 0
  else ∃ e m, 2 ^ e ≤ w ∧ w < 2 ^ (e + 1) ∧ bits = (e + 874) * 2 ^ 52 + m - 2 ^ 52 ∧
    2 * m * 2 ^ e ≤ 2 * w * 2 ^ 52 + 2 ^ e ∧ 2 * w * 2 ^ 52 ≤ 2 * m * 2 ^ e + 2 ^ e ∧
    (2 * m * 2 ^ e = 2 * w * 2 ^ 52 + 2 ^ e ∨ 2 * w * 2 ^ 52 = 2 * m * 2 ^ e + 2 ^ e → m % 2 = 0)

/-- A weight that is NaN, infinite or negative, as an FP32 code (16 R403). -/
def weightBad (w : Nat) : Bool := decide (w / 2 ^ 23 % 256 = 255 ∨ (w / 2 ^ 31 % 2 = 1 ∧ w % 2 ^ 31 ≠ 0))

/-- A weight times 2^149, subnormals kept (16 R402). -/
def weightInt (w : Nat) : Nat :=
  if w / 2 ^ 23 % 256 = 0 then w % 2 ^ 23 else (2 ^ 23 + w % 2 ^ 23) * 2 ^ (w / 2 ^ 23 % 256 - 1)

/-- The parents of a round: every weight that arrived, with the slot of its thread (16 R402). -/
def parentsOf (s : State) (P : Population) : List Parent :=
  P.arrivals.flatMap fun x => match s.gang? x.issue.gang with
    | some g => x.weights.map fun w => { gid := g.gid, t := w.1, slot := (g.thread (w.1 / 4) (w.1 % 4)).popix, w := w.2 }
    | none => []

/-- The sum of the first i weights, C of i - 1 (16 R402). -/
def weightSum (l : List Parent) (i : Nat) : Nat := ((l.take i).map fun p => weightInt p.w).sum

/-- S of parent i, and with i + 1 the slot after its last: ⌊(N·C·2^32 + k·W) / (W·2^32)⌋ (16 R402). -/
def slotFrom (l : List Parent) (n k i : Nat) : Nat :=
  (n * weightSum l i * 2 ^ 32 + k * weightSum l l.length) / (weightSum l l.length * 2 ^ 32)

/-- The offspring count of parent i. -/
def childrenOf (l : List Parent) (n k i : Nat) : Nat := slotFrom l n k (i + 1) - slotFrom l n k i

/-- The leaves of the parents' windows, in slot order. -/
def parentLeaves (s : State) (asid : Nat) (l : List Parent) : List Nat := l.filterMap fun p => s.windowLeaf asid p.slot

/-- How many pages of stack h the round pops: one less than a page's offspring make runs of 63, for each page that parents'
windows map and that is copied from stack h (16 R406, R398). -/
def pagesPopped (s : State) (asid : Nat) (l : List Parent) (n k h : Nat) : Nat :=
  let leaves := parentLeaves s asid l
  (((leaves.map pageAddr).eraseDups.filter fun p =>
      decide ((leaves.find? fun e => decide (pageAddr e = p)).map leafStack = some h)).map fun p =>
    ((((List.range l.length).filter fun i => decide (((l[i]?).bind fun x => s.windowLeaf asid x.slot).map pageAddr = some p)).map
      (childrenOf l n k)).sum + 62) / 63 - 1).sum

/-- The arrivals are of different gangs, each names the live threads of its gang once, and each gang is of the grid, in its
slot with no register in firn, its strand there to go on. -/
def RoundSound (s : State) (grid : Nat) (P : Population) : Prop :=
  (P.arrivals.map fun x => x.issue.gang).Nodup ∧
  ∀ x ∈ P.arrivals, ∃ g, s.gang? x.issue.gang = some g ∧ g.grid = grid ∧ g.active = true ∧ (∀ code, g.spilled code = false) ∧
    (∀ sl ∈ g.slices, sl.threads.length = 4) ∧ (∃ st, g.strand? x.issue.slice = some st) ∧ (x.weights.map Prod.fst).Nodup ∧
    ∀ t, t ∈ x.weights.map Prod.fst ↔ t < 4 * g.slices.length ∧ (g.thread (t / 4) (t % 4)).live = true

/-- What the last arrival of a round makes of it, of `s`, where every live gang has arrived; `i` answers the state `t` (16 R402
to R405, R408). In order: a weight that is bad, W = 0, different N, N out of range: POPWEIGHT in every gang and the arrivals
withdrawn. A parent's window that no 64 KiB leaf maps: a translation fault of its gang, whose arrival is withdrawn. A pool
that holds too few pages: a POOL report for each, the unit waits. Else the commit: ROUND advances, and of the n offspring of
a parent the one of ordinal j lives with slot S + j, the parent's generation plus one, its registers but D's, which holds j. -/
def RoundEnds (s : State) (G : Grid) (P : Population) (n : Nat) (t : State) : Prop :=
  RoundSound s G.serial P →
  ∀ l : List Parent, l.Perm (parentsOf s P) → l.Pairwise (fun x y => x.slot < y.slot) →
    let asid := G.tmpl.asid
    let w := weightSum l l.length
    let k := G.roundWord P.round
    let lanes := (P.arrivals.map fun x => match s.gang? x.issue.gang with
      | some g => 4 * g.slices.length
      | none => 0).sum
    let pop : Option Population := (t.grid? G.serial).bind fun G => G.pop
    let bad : Prop := ∃ p ∈ l, weightBad p.w = true
    let differ : Prop := ∃ x ∈ P.arrivals, x.n ≠ n
    let counted : Prop := ¬bad ∧ w ≠ 0 ∧ ¬differ ∧ n ≠ 0 ∧ n ≤ lanes
    let fails (reason : Nat) : Prop :=
      (∀ x ∈ P.arrivals, ∀ g, s.gang? x.issue.gang = some g → g.trap.tvec.getLsbD 0 = true ∧ g.trap.tcause.getLsbD 63 = false) →
      pop = some { P with arrivals := [], phase := .idle } ∧
      ∀ x ∈ P.arrivals, ∀ g st, s.gang? x.issue.gang = some g → g.strand? x.issue.slice = some st →
        t.gang? x.issue.gang = (s.userTrap ⟨x.issue, g, { st with wait := .none }⟩ g
          { cause := 14, tmask := ((x.weights.filter fun w => weightBad w.2).map fun w => 2 ^ w.1).sum
            taddr := reason }).gang? x.issue.gang
    let missing (p : Parent) : Prop := s.windowLeaf asid p.slot = none
    let few (h : Nat) : Prop := pagesPopped s asid l n k h ≠ 0 ∧ (s.poolValid h = false ∨ s.poolCount h < pagesPopped s asid l n k h)
    (bad → fails 1) ∧ (¬bad → w = 0 → fails 2) ∧ (¬bad → w ≠ 0 → differ → fails 4) ∧
    (¬bad → w ≠ 0 → ¬differ → n = 0 ∨ lanes < n → fails 3) ∧
    (counted → (∃ p ∈ l, missing p) →
      (∃ P', pop = some P' ∧ P'.phase = (if P'.arrivals = [] then .idle else .gathering) ∧ P'.round = P.round ∧
        ∀ x, x ∈ P'.arrivals ↔ x ∈ P.arrivals ∧ ∀ p ∈ l, p.gid = x.issue.gang → ¬missing p) ∧
      ∀ x ∈ P.arrivals, ∀ g, s.gang? x.issue.gang = some g →
        ((∀ p ∈ l, p.gid = g.gid → ¬missing p) → t.gang? g.gid = some g) ∧
        ((∃ p ∈ l, p.gid = g.gid ∧ missing p) → ∃ g' f p, t.gang? g.gid = some g' ∧ g'.fault = some f ∧ g'.slices = g.slices ∧
          p ∈ l ∧ p.gid = g.gid ∧ missing p ∧ f.info.kind = 1 ∧ f.info.reason = 0 ∧ f.info.va = s.privbase asid + 65536 * p.slot ∧
          f.info.pc = x.issue.pc)) ∧
    (counted → (∀ p ∈ l, ¬missing p) → (∃ h, few h) → ∃ short : List Nat, short.Nodup ∧ (∀ h, h ∈ short ↔ few h) ∧
      t = short.foldl (fun u _ => u.report (packageReport 0x12 0 0 0 asid))
        (s.setPop G.serial fun P => { P with phase := .counting, short := short })) ∧
    (counted → (∀ p ∈ l, ¬missing p) → (¬∃ h, few h) →
      (∃ P', pop = some P' ∧ P'.round = P.round + 1 ∧ P'.lastN = n ∧ P'.lastW = w ∧ P'.arrivals = [] ∧ P'.phase = .committed ∧
        P'.lastParents = ((List.range l.length).filter fun i => decide (0 < childrenOf l n k i)).length ∧ P'.slots = P.slots) ∧
      ∀ i p, l[i]? = some p → ∀ j, j < childrenOf l n k i → ∃ gid th g' x, t.gang? gid = some g' ∧ x ∈ P.arrivals ∧ x.issue.gang = gid ∧
        (∀ g, s.gang? p.gid = some g → ∀ old, old = g.thread (p.t / 4) (p.t % 4) →
          let new := g'.thread (th / 4) (th % 4)
          (j = 0 → gid = p.gid ∧ th = p.t) ∧ new.live = true ∧ new.popix = slotFrom l n k i + j ∧
          new.lineage = (old.lineage / 2 ^ 48 + 1) % 2 ^ 16 * 2 ^ 48 + old.lineage % 2 ^ 48 ∧ new.p = old.p ∧ new.rngs = old.rngs ∧
          (∀ m, new.vreg m = if namesV x.dst m then BitVec.ofNat 32 j else old.vreg m) ∧
          ∀ m, new.xreg m = if namesX x.dst m then BitVec.ofNat 32 j else old.xreg m))

end Sys2Proof.Claims

/-- LAUNCH submits its child with the record it names and counts it, or writes the status that refuses it; RNG gives each
active thread a draw of its own stream scaled to n values, an x destination its rime; PSTAT reads its population, 0 outside one;
PARK hands the resident registers of its range to the spill engine, UNPARK fills them in order (05 R138; 16 R410, R411; 06
R172). RESAMPLE. A gang that has met, with every live thread active, an empty return stack and nothing in flight, arrives with
its threads' weights; while another live gang of its grid has not arrived it waits and nothing else changes; where it is the
last the round is counted: POPWEIGHT in every gang where the weights or N are wrong, a translation fault where a window is
missing, POOL reports where pages are short, else the commit, by which each parent's offspring live on in their slots. Here of
a gang with no near lines and of gangs in their slots with nothing in firn; of the windows' pages nothing is said (16 R400 to
R405, R408). -/
def Obligations.ChildrenAndPopulations : Prop :=
  (∀ (s : State) (c : Ctx), s.ctx = some c →
     (∀ (n m : BitVec 6) (a : Src) (s1 : State) (bs : List Byte) (G : Grid), Accept.srcSI a = true → c.gate = true → c.g.accesses = [] →
       s.launchStalls c.g = false → (c.g.sreg m.toNat).toNat % 64 = 0 → s.grid? c.g.grid = some G →
       (s.flush c.g.gid (List.range c.g.slices.length)).readVirt c.g.core (s.tmplOf c.g).asid (c.g.sreg m.toNat).toNat 64 = .ok (s1, bs) →
       let c1 := c.refresh s1
       (s1.gang? c.g.gid).isSome = true →
       let tm := (c.val64 s a).toNat
       let r := { parseLaunch bs with template := tm % 2 ^ 16 }
       let st := s1.childStatus G.depth tm r
       let goes (t : State) (g' : Gang) : Prop := exec (.launch (.s n) a (.s m)) s = .next t ∧ t.gang? c.g.gid = some g' ∧
         GoesOn c1 g' c.is.fall ∧ (∀ k j, g'.thread k j = c1.g.thread k j) ∧ ∀ x, x ≠ n.toNat → g'.sreg x = c1.g.sreg x
       (∀ tmpl, st = (0, some tmpl) → ∃ t g', goes t g' ∧ g'.sreg n.toNat = 0 ∧ g'.children = c1.g.children + 1 ∧
         t.pendings = s1.pendings ++
           [{ id := s1.seq, queue := none, tmpl := tmpl, launch := r, depth := G.depth + 1, prio := Max.max G.prio (r.prio % 4)
              preempt := G.preempt, parent := some c.g.gid, parentGrid := G.serial, gateOpen := !r.flags.testBit 0
              gateChecked := s1.base, since := s1.base }]) ∧
       (st.1 ≠ 0 → r.flags.testBit 2 = false → ∃ t g', goes t g' ∧ g'.sreg n.toNat = BitVec.ofNat 64 st.1 ∧
         g'.children = c1.g.children ∧ t.pendings = s1.pendings)) ∧
     (∀ (n : BitVec 6) (f : BitVec 4), f.toNat ≤ 5 →
       (((s.grid? c.g.grid).bind fun G => G.pop) = none → WritesS (.pstat (.s n) f) s c n 0 (exactly 0)) ∧
       ∀ P, ((s.grid? c.g.grid).bind fun G => G.pop) = some P → ∃ v : Nat,
         WritesS (.pstat (.s n) f) s c n (BitVec.ofNat 64 v) (exactly (BitVec.ofNat 64 v)) ∧
         (f = 0 → v = P.slots) ∧ (f = 1 → v = P.round) ∧ (f = 2 → v = if P.round = 0 then P.slots else P.lastN) ∧
         (f = 3 → v = P.lastParents) ∧ (f = 4 → v = liveOf s c.g.grid) ∧ (f = 5 → Binary64Of P.lastW v)) ∧
     (∀ (d : Dst) (a b : Src), (Instr.rng d a b).wf = true → Ready s c [d] [a, b] →
       let drawn (k j : Nat) : W32 :=
         let n := if (c.val s a k j).toNat = 0 then 2 ^ 32 else (c.val s a k j).toNat
         c.val s b k j + BitVec.ofNat 32 (c.rngWord s k j * n / 2 ^ 32)
       let rime (k : Nat) : Rime := match c.rimeOf s 32 a k with
         | .iv la ha => if 1 ≤ la ∧ ha ≤ 2 ^ 31 - 1 then
             Rime.mk 32 ((c.rimeOf s 32 b k).bounds 32).1 (((c.rimeOf s 32 b k).bounds 32).2 + ha - 1) else .top
         | .top => .top
       Answers (.rng d a b) s c fun g' => GangKept c.g g' ∧ GoesOn c g' c.is.fall ∧ RimesGet c d (whenActive c drawn) rime g' ∧
         (∀ k, k ∉ c.st.slices → g'.slice k = c.g.slice k) ∧
         ∀ k ∈ c.st.slices, (g'.slice k).mask = (c.g.slice k).mask ∧ (g'.slice k).stack = (c.g.slice k).stack ∧ ∀ j,
           let w := drawn k j
           let t' := g'.thread k j
           ThreadGets d (if c.active k j then some w else none) ((c.g.slice k).keptL0 d (c.g.thread k j)) 0 (c.g.thread k j)
             { t' with rngs := (c.g.thread k j).rngs } ∧
           t'.rngs = if c.active k j then ((c.g.thread k j).rngs + 1) % 2 ^ 64 else (c.g.thread k j).rngs) ∧
     ∀ (r : BitVec 8) (cnt : BitVec 5), c.parkOk s r cnt = true → c.gate = true →
       let codes := (List.range (cnt.toNat + 1)).map (r.toNat + ·)
       Answers (.park r cnt) s c (fun g' => GoesOn c g' c.is.fall ∧ { g' with parkQ := c.g.parkQ, strands := c.g.strands } = c.g ∧
         ∀ x, x ∈ g'.parkQ ↔ x ∈ c.g.parkQ ∨ (x ∈ codes ∧ c.g.spilled x = false)) ∧
       ((∀ x ∈ codes, s.firnPoisoned c.g x = none ∧ s.cellsHold (c.g.image x) = true) →
        Answers (.unpark r cnt) s c (fun g' => GoesOn c g' c.is.fall ∧ (∀ k j, g'.thread k j = c.g.thread k j) ∧
         (∀ x, x ∉ codes → ∀ k, (g'.slice k).cls x = (c.g.slice k).cls x) ∧
         (∀ x, g'.spilled x = true → c.g.spilled x = true) ∧
         ((∀ l, (l <+: codes) → (l.foldl (fun g x => if c.g.spilled x then g.filled x else g) c.g).fits (s.tmplOf c.g).budget = true) →
           ∀ x ∈ codes, g'.spilled x = false)))) ∧
  ∀ (d : Dst) (a b : Src) (s : State) (c : Ctx) (G : Grid) (P : Population), s.ctx = some c → (Instr.resample d a b).wf = true →
    Ready s c [d] [a] → s.grid? c.g.grid = some G → G.pop = some P → P.phase ≠ .committed → P.phase ≠ .counting →
    c.st.wait = .met → c.st.ret = [] → c.g.records = [] → c.g.paths = [] → (∀ n ∈ s.near, n.1.1 ≠ c.g.gid) →
    (∀ k, k < c.g.slices.length → ∀ j, j < 4 → (c.g.thread k j).live = true → k ∈ c.st.slices ∧ c.enabled k j = true) →
    (∀ x ∈ P.arrivals, x.issue.gang ∈ s.liveGids c.g.grid) → c.g.isLive = true →
    let mine : Arrival := { issue := c.is, dst := d, n := (c.val64 s b).toNat
                            weights := c.liveLanes.map fun kj => (4 * kj.1 + kj.2, (c.val s a kj.1 kj.2).toNat) }
    let waiting : Strand := { c.st with wait := .resample, fair := 0, since := s.cycleOf c.g.core }
    let P' : Population := { P with arrivals := P.arrivals ++ [mine], phase := .gathering }
    let arrived : State := (s.setGang (c.g.setStrand waiting)).setPop c.g.grid fun _ => P'
    ((∃ gid ∈ s.liveGids c.g.grid, gid ≠ c.g.gid ∧ ∀ x ∈ P.arrivals, x.issue.gang ≠ gid) →
      exec (.resample d a b) s = .next arrived) ∧
    ((∀ gid ∈ s.liveGids c.g.grid, gid = c.g.gid ∨ ∃ x ∈ P.arrivals, x.issue.gang = gid) →
      ∃ t, exec (.resample d a b) s = .next t ∧ RoundEnds arrived { G with pop := some P' } P' (c.val64 s b).toNat t)

/-! ## Events of the partition scheduler (04, 05, 06, 17) -/

namespace Sys2Proof.Claims

/-- A gang that leaves its slot: reservations and latches are lost, the operand latch too; nothing else of it changes. -/
def LeavesSlot (s : State) (g : Gang) (i : Instr) : Prop :=
  ∃ t g', exec i s = .next t ∧ t.gang? g.gid = some g' ∧ { t with gangs := s.gangs, opLatch := s.opLatch } = s ∧
    (∀ n, n ≠ g.gid → t.gang? n = s.gang? n) ∧ g'.parking = true ∧
    (∀ k, (g'.slice k).latValid = 0) ∧ (∀ k j, g'.thread k j = { g.thread k j with reservation := none }) ∧
    { g' with parking := g.parking, slices := g.slices } = g

end Sys2Proof.Claims

/-- Each event of the scheduler, where it is due, has its effect: a sleep ends, a latch hold ends, a starved strand goes
first, a fairness turn passes, a gang becomes eligible, leaves its slot, has left it, takes a slot, is released; a
register is spilled or filled; the watchdog raises a gang fault of kind 6, reason 2 (04 R93, R97, R108; 05 R122 to R126;
06 R150 to R152; 17 R427). -/
def Obligations.SchedulerEvents : Prop :=
  ∀ (s : State) (g : Gang), s.gang? g.gid = some g →
    let now := s.cycleOf g.core
    (∀ k st, g.strand? k = some st →
      let put (st : Strand) : State := s.setGang (g.setStrand st)
      (∀ d next, st.wait = .sleep d next → d ≤ now → st.held = false → g.stopped = false →
        exec (.sleepExpiry g.gid k) s = .next (put { st with pc := next, wait := .none })) ∧
      (∀ t, st.hold = some t → t + 64 ≤ now → exec (.latchHoldExpiry g.gid k) s = .next (put { st with hold := none })) ∧
      (∀ t, st.ready = true → g.active = true → g.stopped = false → st.readySince = some t → t + 128 ≤ now →
        (∀ f ∈ s.first, f.1 ≠ tokenKey g.core g.part) →
        (∀ x ∈ s.gangs, sameQuarter x g = true → x.active = true → x.parking = false → x.released = false → x.stopped = false →
          ∀ y ∈ x.strands, y.ready = true → ∀ u, y.readySince = some u → u + 128 ≤ s.cycleOf x.core → t ≤ u) →
        exec (.starvationPick g.gid k) s = .next { s with first := Sparse.insert s.first (tokenKey g.core g.part) (g.gid, k) }) ∧
      (st.ready = true → st.fair < 512 → (∃ y ∈ g.strands, 512 ≤ y.fair) →
        (∀ y ∈ g.strands, y.ready = true → y.fair < 512 → y = st ∨ st.lastIssue < y.lastIssue ∨
          (st.lastIssue = y.lastIssue ∧ st.low < y.low)) →
        exec (.fairnessSwitch g.gid k) s = .next (s.setGang { g with
          strands := g.strands.map fun y => if y.slices = st.slices then { y with fair := 0 } else { y with fair := 512 } }))) ∧
    (g.active = true → g.eligible = false → s.blocked g = true →
      (∀ st ∈ g.strands, s.blockedNow g st = true ∨ (st.blockedLong = true ∧ st.since + 2048 ≤ now)) →
      exec (.swapEligible g.gid) s = .next (s.setGang { g with eligible := true })) ∧
    (s.crowded g = true → s.swappable g = true →
      (∀ x ∈ s.gangs, sameQuarter x g = true → s.swappable x = true → g.blockedSince ≤ x.blockedSince) →
      LeavesSlot s g (.swapOut g.gid)) ∧
    (s.crowded g = true → g.active = true → g.parking = false → (∀ x ∈ s.gangs, sameQuarter x g = true → s.swappable x = false) →
      (∃ x ∈ s.gangs, sameQuarter x g = true ∧ ∃ t, x.readySince = some t ∧ Max.max t g.slotSince + 16000 ≤ now) →
      (∀ st ∈ g.strands, s.holding g st = false) →
      (∀ x ∈ s.gangs, sameQuarter x g = true → x.active = true → x.parking = false → g.slotSince ≤ x.slotSince) →
      LeavesSlot s g (.forcedSwap g.gid)) ∧
    (g.parking = true → (∀ op ∈ g.tileOps, op.kind = .drainReg → op.done = true) →
      ∃ t g', exec (.parkComplete g.gid) s = .next t ∧ t.gang? g.gid = some g' ∧ g'.active = false ∧
      g'.parking = false ∧ (∀ k, g'.slice k = g.slice k) ∧ g'.s = g.s ∧ g'.a = g.a ∧ g'.h = g.h ∧ g'.tiles = g.tiles ∧ t.teams = s.teams) ∧
    (g.readySince.isSome = true → s.gangReady g = true → s.canEnter g = true → (g.issues = 0 ∨ s.uniformPoisoned g = none) →
      (∀ x ∈ s.gangs, sameQuarter x g = true → ∀ a b, x.readySince = some a → g.readySince = some b → b ≤ a) →
      ∃ t g', exec (.swapIn g.gid) s = .next t ∧ t.gang? g.gid = some g' ∧ g'.active = true ∧ g'.readySince = none ∧
        g'.slotSince = now ∧
        g'.strands = g.strands.map fun st => if st.wait = .spill then { st with wait := .none } else st) ∧
    (g.isLive = false → g.released = false → g.idle = true →
      exec (.gangRelease g.gid) s = .next (s.setGang { g with released := true, active := false, parking := false, tileOps := [], tiles := []
                                                              trees := [], keys := [], frames := [], images := [] }).sweep) ∧
    (s.mg (Mgmt.wdlimit g.core) ≠ 0 → s.mg (Mgmt.wdlimit g.core) < g.watchdog → g.limitRaised = false → g.stopped = false →
      (∃ st ∈ g.strands, st.held = false) →
      ∃ t g' f, exec (.watchdogLimit g.gid) s = .next t ∧ t.gang? g.gid = some g' ∧ g'.fault = some f ∧ f.info.kind = 6 ∧
        f.info.reason = 2 ∧ g'.limitRaised = true ∧ g'.slices = g.slices) ∧
    ∀ reg,
      (reg ∈ g.parkQ → reg ∉ g.pendingRegs → ∃ t g', exec (.spillAccepted g.gid reg) s = .next t ∧ t.gang? g.gid = some g' ∧
        (∀ sl ∈ g'.slices, sl.cls reg = .spilled) ∧ (∀ k j, g'.thread k j = g.thread k j) ∧ reg ∉ g'.parkQ) ∧
      ((∃ names ∈ s.stalls g, reg ∈ names) → g.spilled reg = true → (g.filled reg).fits (s.tmplOf g).budget = true →
        s.firnPoisoned g reg = none → s.cellsHold (g.image reg) = true →
        ∃ t g', exec (.fillReturn g.gid reg) s = .next t ∧ t.gang? g.gid = some g' ∧ g'.spilled reg = false ∧
          (∀ st ∈ g'.strands, st.wait ≠ .spill) ∧
          (∀ k j, g'.thread k j = g.thread k j) ∧ { t with gangs := s.gangs } = s)

/-! ## Events of work that was accepted (12 to 15) -/

namespace Sys2Proof.Claims

/-- What a source gives where it needs no translation; none for a hole. -/
def plainByte (s : State) : ByteSrc → Option Byte
  | .lit b => some b
  | .place p => some (s.byteAt p)
  | _ => none

def isPlain : ByteSrc → Bool
  | .lit _ | .place _ | .hole => true
  | _ => false

end Sys2Proof.Claims

namespace Sys2Proof.Claims

/-! ### What the tile operations make of their tiles (13 R347, R348, R352 to R359; 14 R368, R369, R376) -/

/-- Element (i, k) of A in half h with its block scale, from the words captured: thread 2i holds the first half of row i,
thread 2i + 1 the second; a block format's scale bytes follow from the ninth word on (13 R347). -/
def elemA (op : TileOp) (f h i k : Nat) : FV :=
  let half := k / (512 / elemBits f / 2)
  let word (r : Nat) : Nat := (op.data.getD ((32 * h + 2 * i + half) * Accept.mmaRegs (BitVec.ofNat 4 f) + r) 0).toNat
  let bit := elemBits f * k % 256
  let block := k % (512 / elemBits f / 2) / (if f = 8 then 8 else 32)
  let v : Fp.Val := (elemFmt f).decode false (word (bit / 32) / 2 ^ (bit % 32) % 2 ^ elemBits f)
  let scale := word (8 + block / 4) / 2 ^ (8 * (block % 4)) % 256
  if f = 6 ∨ f = 7 then Fp.exProd v (Fp.e8m0 scale) else if f = 8 then Fp.exProd v (Fp.e3m5 scale) else (v, 0)

/-- The same element of an INT8 matrix. -/
def elemAInt (op : TileOp) (h i k : Nat) : Int :=
  sintOf 8 ((op.data.getD ((32 * h + 2 * i + k / 32) * 8 + k % 32 / 4) 0).toNat / 2 ^ (8 * (k % 4)) % 256)

/-- Where element (r, c) of width e begins, in bits (13 R348). -/
def bitOfB (sh : Shape) (e r c : Nat) : Nat :=
  let step := if sh.est = 0 then 1 else sh.est
  8 * sh.sbase + if sh.t then 8 * c * sh.rstride + e * step * r else 8 * r * sh.rstride + e * step * c

/-- The bits of element (r, c) of width e, read by `rd` from the scratchpad. -/
def codeB (sh : Shape) (rd : Nat → Nat) (e r c : Nat) : Nat :=
  let p := bitOfB sh e r c
  (rd (p / 8) + 256 * rd (p / 8 + 1) + 65536 * rd (p / 8 + 2) + 2 ^ 24 * rd (p / 8 + 3) + 2 ^ 32 * rd (p / 8 + 4)) / 2 ^ (p % 8) % 2 ^ e

/-- Whether element (r, c) lies in the matrix. -/
def inB (sh : Shape) (r : Int) (c : Nat) : Bool := decide (0 ≤ r ∧ r ≤ sh.rows ∧ c ≤ sh.cols)

/-- Element (r, c) of B with its block scale and, for NB4, the band scale; +0 outside the matrix. -/
def elemB (sh : Shape) (rd : Nat → Nat) (f : Nat) (r : Int) (c : Nat) : FV :=
  let v : Fp.Val := (elemFmt f).decode false (codeB sh rd (elemBits f) r.toNat c)
  let scale (q b : Nat) : Nat := rd (sh.bs + c * (sh.rstride / q) + r.toNat / b)
  if inB sh r c = false then (.fin false 0 0, 0)
  else if f = 6 then Fp.exProd v (Fp.e8m0 (scale 32 32))
  else if f = 7 then Fp.exProd v (Fp.e8m0 (scale 16 32))
  else if f = 8 then mulV (Fp.exProd v (Fp.e3m5 (scale 4 8))) (Fp.Fmt.bf16.decode false (rd sh.bn + 256 * rd (sh.bn + 1)), 0)
  else (v, 0)

/-- Products a(k)·b(k) in n chunks of 32: each chunk summed exactly, then added to the accumulator with one rounding to nearest
even, the first one rounded alone under ACCOFF; a term with no b forms no product, and a chunk that forms none leaves the
accumulator, or +0 where it is the first under ACCOFF (03 R74, R75; 13 R352, R353). -/
def dotWord (neg accoff : Bool) (n : Nat) (a : Nat → FV) (b : Nat → Option FV) (old : W32) : W32 × Fp.Flags :=
  (List.range n).foldl (fun r q =>
    let ps := (List.range' (32 * q) 32).filterMap fun k => (b k).map fun y => mulV (a k) y
    let sum := (ps.foldl (fun (x : Fp.Acc) p => x.add (if neg then p.1.flip else p.1) p.2) {}).result
    let alone := decide (q = 0) && accoff
    let y : Fp.Ex × Fp.Flags := if alone then (sum.1, 0) else Fp.exAdd 0 (Fp.Fmt.f32.decode false r.1.toNat) sum.1.toVal
    let z := Fp.deliver .f32 0 0 false false y.1
    if ps.isEmpty then (if alone then 0 else r.1, r.2) else (BitVec.ofNat 32 z.1, r.2 ||| z.2 ||| y.2 ||| sum.2)) (old, 0)

/-- The same over INT8: exact products into a wrapping 32-bit accumulator. -/
def dotInt (neg accoff : Bool) (n : Nat) (a : Nat → Int) (b : Nat → Option Int) (old : W32) : W32 :=
  let terms := (List.range (32 * n)).filterMap fun k => (b k).map fun y => a k * y
  let sum : Int := terms.foldl (fun x y => x + y) 0
  (if accoff && decide (0 < n) then 0 else old) + BitVec.ofInt 32 (if neg then -sum else sum)

/-- Row k of B that an MMA or MMAG pairs with column k of A, none where the list entry is void: all ones, beyond ROWS, or a row
all of whose lines are zero (13 R353). -/
def rowOf (s : State) (g : Gang) (op : TileOp) (sh : Shape) (f k : Nat) : Option Int :=
  let r := op.params.getD (5 + k) 0
  let lineOf (c : Nat) : List Nat := [bitOfB sh (elemBits f) r c / 8 / 128, (bitOfB sh (elemBits f) r c + elemBits f - 1) / 8 / 128]
  if op.kind ≠ .mmag then some (sintOf 32 r)
  else if r = 0xFFFFFFFF ∨ sh.rows < r ∨
      ∀ c ∈ List.range 16, c ≤ sh.cols → ∀ l ∈ lineOf c, ∀ i ∈ List.range 128, s.opByte g op (128 * l + i) = 0 then none
  else some (r : Int)

/-- Word n of half h's tile after an MMA or MMAG, with its flags (13 R352, R353). -/
def mmaMakes (s : State) (g : Gang) (op : TileOp) (h n : Nat) : W32 × Fp.Flags :=
  let fa := op.params.getD 0 0
  let fb := op.params.getD 1 0
  let neg := decide (op.params.getD 2 0 = 1)
  let accoff := decide (op.params.getD 3 0 = 1)
  let sh := shapeOf (op.params.getD 4 0)
  let old := tileWord (g.tile (op.tiles.getD h 0)) n
  let row := rowOf s g op sh fb
  if fa = 5 then
    (dotInt neg accoff 2 (elemAInt op h (n / 16)) (fun k => (row k).map fun r =>
      if inB sh r (n % 16) then sintOf 8 (codeB sh (s.opByte g op) (elemBits fb) r.toNat (n % 16)) else 0) old, 0)
  else
    dotWord neg accoff (512 / elemBits fa / 32) (elemA op fa h (n / 16))
      (fun k => (row k).map fun r => elemB sh (s.opByte g op) fb r (n % 16)) old

/-- Element m of W, with the block scale of its eight elements and the band scale of its line for NB4 (13 R354). -/
def elemW (w : Weights) (f m : Nat) : FV :=
  let e := elemBits f
  let byte (i : Nat) : Nat := (w.bytes.getD i 0).toNat
  let v : FV := ((elemFmt f).decode false ((byte (e * m / 8) + 256 * byte (e * m / 8 + 1)) / 2 ^ (e * m % 8) % 2 ^ e), 0)
  if f = 8 then mulV (mulV v (Fp.e3m5 (w.scales.getD (m / 8) 255), 0)) (Fp.Fmt.bf16.decode false (w.bands.getD (m / 32) 0x3F80), 0) else v

/-- Word r of output vector j of half h after an MXV over the weights w. -/
def mxvMakes (g : Gang) (x : MxvWord) (w : Weights) (h j r : Nat) : W32 × Fp.Flags :=
  dotWord false x.accoff (x.c / 32) (fun k => (Fp.Fmt.f32.decode false (tileWord (g.tile (x.xt + j + 32 * h)) k).toNat, 0))
    (fun k => some (elemW w x.fmt (r * x.c + k))) (tileWord (g.tile (x.yt + j + 32 * h)) r)

/-- Word n of half h's tile after an MXSCALE: one rounding of the word times the factor of its row, its column or the tile
(13 R357). -/
def scaleMakes (g : Gang) (op : TileOp) (h n : Nat) : W32 × Fp.Flags :=
  let factor := op.data.getD (if op.params.getD 0 0 = 0 then 32 * h + 2 * (n / 16) else if op.params.getD 0 0 = 1 then 32 * h + n % 16 else 0) 0
  let x := Fp.exMul (f32val (tileWord (g.tile (op.tiles.getD h 0)) n)) (f32val factor)
  let r := Fp.deliver .f32 0 0 false false x.1
  (BitVec.ofNat 32 r.1, r.2 ||| x.2)

/-- Word n of the tile that MXLOAD makes: FP32 copied, FP16 and BF16 widened, INT8 sign-extended, 0 outside the matrix
(13 R356). -/
def loadMakes (s : State) (g : Gang) (op : TileOp) (n : Nat) : W32 :=
  let sh := shapeOf (op.params.getD 0 0)
  let r := op.params.getD 1 0 + n / 16
  let code := codeB sh (s.opByte g op) (elemBits sh.fmt) r (n % 16)
  if inB sh (r : Int) (n % 16) = false then 0
  else if sh.fmt = 0 then BitVec.ofNat 32 code
  else if sh.fmt = 5 then BitVec.ofInt 32 (sintOf 8 code)
  else BitVec.ofNat 32 (Fp.cvtFF (elemFmt sh.fmt) .f32 0 0 false false code).1

/-- Row i of an ASOFT step on tiles S, T and O: its new words, maximum, sum and the factor of O (14 R369). -/
structure SoftRow where
  p : Nat → W32
  mx : W32
  sum : W32
  a : W32

def softMakes (first : Bool) (S T : Sparse W32) (i : Nat) : SoftRow :=
  let x (c : Nat) : W32 := tileWord S (16 * i + c)
  let fmax (a b : W32) : W32 := BitVec.ofNat 32 (Fp.minMax .f32 true false a.toNat b.toNat).1
  let e2 (a b : W32) : W32 := BitVec.ofNat 32 (Fp.trans .exp2 .f32 false false (rne (Fp.exAdd 0 (f32val a) (f32val b).flip).1).toNat).1
  let mo : W32 := if first then 0xFF800000 else tileWord T (16 * i)
  let lo : W32 := if first then 0 else tileWord T (16 * i + 1)
  let mn := fmax mo ((List.range' 1 15).foldl (fun m c => fmax m (x c)) (x 0))
  let a : W32 := if mn = 0xFF800000 then 0x3F800000 else e2 mo mn
  let p (c : Nat) : W32 := if mn = 0xFF800000 then (if (f32val (x c)).isNan then 0x7FC00000 else 0) else e2 (x c) mn
  { p := p, mx := mn, a := a
    sum := rne ((List.range 16).foldl (fun (y : Fp.Acc) c => y.add (f32val (p c)) 0)
      (({} : Fp.Acc).add (Fp.exProd (f32val a) (f32val lo)).1 0)).result.1 }

/-- The FP32 sum of column c of a tile, rounded once (14 R376). -/
def heatSum (tile : Sparse W32) (c : Nat) : W32 :=
  rne ((List.range 16).foldl (fun (x : Fp.Acc) i => x.add (f32val (tileWord tile (16 * i + c))) 0) {}).result.1

/-- Element (i, c) of a drained tile: its code and flags, raw or converted once under ROUND and SAT; under RSR with the word
that its thread draws (13 R359). -/
def drainCode (s : State) (g : Gang) (tile : Sparse W32) (h f rnd : Nat) (sat : Bool) (i c : Nat) : Nat × Fp.Flags :=
  let w := s.drainRnd g h rnd i c
  if f = 0 then ((tileWord tile (16 * i + c)).toNat, 0)
  else Fp.cvtFF .f32 (elemFmt f) w.1 w.2 sat false (tileWord tile (16 * i + c)).toNat

/-- What a drain to scratch writes of half h: position, width and code of each element that lies in record HE and of each block
scale, and its flags (13 R359; 03 R67 to R69). -/
def drainMakes (s : State) (g : Gang) (op : TileOp) (h : Nat) : List (Nat × Nat × Nat) × Fp.Flags :=
  let hs := shapeOf (op.params.getD 0 0)
  let he := shapeOf (op.params.getD 1 0)
  let f := op.params.getD 3 0
  let rnd := op.params.getD 4 0
  let tile := g.tile (op.tiles.getD h 0)
  let put (i c code : Nat) : List (Nat × Nat × Nat) := if inB he (i : Int) c then [(bitOfB he (elemBits f) i c, elemBits f, code)] else []
  let val (i c : Nat) : Fp.Val := f32val (tileWord tile (16 * i + c))
  let join (l : List Fp.Flags) : Fp.Flags := l.foldl (fun a b => a ||| b) 0
  if f = 8 then
    let band := Fp.Fmt.bf16.decode false (s.opByte g op hs.bn + 256 * s.opByte g op (hs.bn + 1))
    let block (t : Nat) : Nat × List Nat × Fp.Flags :=
      Fp.quantNb4 ((List.range 8).map fun j => s.drainRnd g h rnd (t / 2) (8 * (t % 2) + j))
        ((List.range 8).map fun j => val (t / 2) (8 * (t % 2) + j)) band
    ((List.range 32).flatMap fun t => (8 * (hs.sbase + t / 2 * hs.rstride + t % 2), 8, (block t).1) ::
        (List.range 8).flatMap fun j => put (t / 2) (8 * (t % 2) + j) ((block t).2.1.getD j 0),
      join ((List.range 32).map fun t => (block t).2.2))
  else if f = 6 ∨ f = 7 then
    let block (q : Nat) : Nat × List Nat × Fp.Flags :=
      Fp.quantMx (elemFmt f) ((List.range 32).map fun j => s.drainRnd g h rnd (2 * q + j / 16) (j % 16))
        ((List.range 32).map fun j => val (2 * q + j / 16) (j % 16))
    ((List.range 8).flatMap fun q => (8 * (hs.sbase + q * hs.rstride), 8, (block q).1) ::
        (List.range 32).flatMap fun j => put (2 * q + j / 16) (j % 16) ((block q).2.1.getD j 0),
      join ((List.range 8).map fun q => (block q).2.2))
  else
    let elem (n : Nat) : Nat × Fp.Flags := drainCode s g tile h f rnd (decide (op.params.getD 5 0 = 1)) (n / 16) (n % 16)
    ((List.range 256).flatMap fun n => put (n / 16) (n % 16) (elem n).1,
      join (((List.range 256).filter fun n => inB he ((n / 16 : Nat) : Int) (n % 16)).map fun n => (elem n).2))

/-- The rows of a drain's command hold, of each byte that a line takes, the bits that the writers `ws` put there and elsewhere
what the scratchpad holds. -/
def RowsHold (s : State) (k : Cmd) (ws : List (Nat × Nat × Nat)) : Prop :=
  ∀ (m : Nat) (l : Landing) (key off q : Nat), k.lines[m]? = some l → l.dst = .scratch key off → q < 128 → l.bytes.getD q .hole ≠ .hole →
    ∃ bs, k.rows[m]? = some (.done bs) ∧ ∀ b, b < 8 →
      (∀ w ∈ ws, w.1 ≤ 8 * (off + q) + b → 8 * (off + q) + b < w.1 + w.2.1 →
        (bs.getD q 0).getLsbD b = w.2.2.testBit (8 * (off + q) + b - w.1)) ∧
      ((∀ w ∈ ws, ¬(w.1 ≤ 8 * (off + q) + b ∧ 8 * (off + q) + b < w.1 + w.2.1)) →
        (bs.getD q 0).getLsbD b = (s.byteAt (l.dst.plus q)).getLsbD b)

/-- Every word of a tile. -/
def TileIs (g : Gang) (n : Nat) (f : Nat → W32) : Prop := ∀ w, w < 256 → tileWord (g.tile n) w = f w

/-- Flags joined. -/
def joined (l : List Fp.Flags) : Fp.Flags := l.foldl (fun a b => a ||| b) 0

/-- What operation `op`, of a gang `g` in the state `s`, leaves in the gang `g'`: its tiles, the v registers of a drain, the
additions of a HEAT, and the flags and the fault `rec` of its record. -/
def OpMakes (s : State) (g : Gang) (op : TileOp) (g' : Gang) (rec : Fp.Flags → Option Status → Prop) : Prop :=
  let p (n : Nat) : Nat := op.params.getD n 0
  let t (h : Nat) : Nat := op.tiles.getD h 0
  let one : Prop := (op.tiles.take g.halves.length).Nodup ∧ g.halves.length ≤ op.tiles.length
  let others : Prop := (∀ n, n ∉ op.tiles → g'.tile n = g.tile n)
  let threads : Prop := ∀ k j, g'.thread k j = g.thread k j
  match op.kind with
  | .mma | .mmag => op.params.length = 5 + 512 / elemBits (p 0) → one →
      (∀ h ∈ g.halves, TileIs g' (t h) fun n => (mmaMakes s g op h n).1) ∧ others ∧ threads ∧
      rec (joined (g.halves.flatMap fun h => (List.range 256).map fun n => (mmaMakes s g op h n).2)) none
  | .mxscale => one →
      (∀ h ∈ g.halves, TileIs g' (t h) fun n => (scaleMakes g op h n).1) ∧ others ∧ threads ∧
      rec (joined (g.halves.flatMap fun h => (List.range 256).map fun n => (scaleMakes g op h n).2)) none
  | .mxv =>
      let x := mxvWord (p 0)
      (x.fmt ∈ [1, 2, 3, 4, 8] → x.yt + x.v ≤ 32 → ∀ s1 w, s.readWeights g (p 1) x.bytes (decide (x.fmt = 8)) = .ok (s1, w) →
        (∀ h ∈ g.halves, ∀ j, j < x.v → TileIs g' (x.yt + j + 32 * h) fun n =>
          if n < x.rows then (mxvMakes g x w h j n).1 else tileWord (g.tile (x.yt + j + 32 * h)) n) ∧
        (∀ n, (∀ h ∈ g.halves, ∀ j, j < x.v → n ≠ x.yt + j + 32 * h) → g'.tile n = g.tile n) ∧ threads ∧
        rec (joined (g.halves.flatMap fun h => (List.range x.v).flatMap fun j => (List.range x.rows).map fun r => (mxvMakes g x w h j r).2)) none) ∧
      ∀ f, s.readWeights g (p 1) x.bytes (decide (x.fmt = 8)) = .error f →
        g'.tiles = g.tiles ∧ threads ∧ rec 0 (some f.toStatus)
  | .mxzero => one → (∀ h ∈ g.halves, TileIs g' (t h) fun _ => 0) ∧ others ∧ threads
  | .mxload => (shapeOf (p 0)).fmt ∈ [0, 1, 2, 5] → one → (∀ h ∈ g.halves, TileIs g' (t h) (loadMakes s g op)) ∧ others ∧ threads
  | .amask => one → (∀ h ∈ g.halves, TileIs g' (t h) fun n =>
      if (p (16 * h + n / 16)).testBit (n % 16) then tileWord (g.tile (t h)) n else 0xFF800000) ∧ others ∧ threads
  | .asoft =>
      let m := p 1
      let first := decide (p 0 = 1)
      let row (h : Nat) : Nat → SoftRow := softMakes first (g.tile (t (m * h))) (g.tile (t (m * h + 1)))
      (m = 2 ∨ m = 3) → op.tiles.Nodup → op.tiles.length = m * g.halves.length →
      (∀ h ∈ g.halves, TileIs g' (t (m * h)) (fun n => (row h (n / 16)).p (n % 16)) ∧
        TileIs g' (t (m * h + 1)) (fun n => if n % 16 = 0 then (row h (n / 16)).mx else if n % 16 = 1 then (row h (n / 16)).sum
          else tileWord (g.tile (t (m * h + 1))) n) ∧
        (m = 3 → TileIs g' (t (m * h + 2)) fun n => if first then tileWord (g.tile (t (m * h + 2))) n
          else rne (Fp.exMul (f32val (tileWord (g.tile (t (m * h + 2))) n)) (f32val (row h (n / 16)).a)).1)) ∧ others ∧ threads
  | .heat => g'.tiles = g.tiles ∧ threads ∧
      g'.heats.map (fun x => (x.va, x.place, x.value)) = g.heats.map (fun x => (x.va, x.place, x.value)) ++
        (g.halves.flatMap fun h => (List.range 16).map fun c =>
          (p 0 + 4 * c, some (s.localPlace g 3 (p 0 + 4 * c)), (heatSum (g.tile (t h)) c).toNat)).filter fun x => decide (x.2.2 % 2 ^ 31 ≠ 0)
  | .drainReg =>
      let takes (k j : Nat) : Bool := (g.thread k j).live && (p 5).testBit (4 * k + j)
      let code (k j c : Nat) : Nat := (drainCode s g (g.tile (t (k / 8))) (k / 8) (p 1) (p 3) (decide (p 4 = 1))
        ((4 * (k % 8) + j) / 2) (8 * ((4 * (k % 8) + j) % 2) + c)).1
      p 1 ≤ 2 → g.slices.length ≤ 16 → one →
      (∀ k, k < g.slices.length → ∀ j, j < 4 →
        { g'.thread k j with v := (g.thread k j).v, draws := (g.thread k j).draws } = g.thread k j ∧
        (g'.thread k j).draws = (if p 3 = 5 ∧ p 1 ≠ 0 ∧ (g.thread k j).live = true then (g.thread k j).draws + 8 else (g.thread k j).draws) ∧
        ∀ m, (g'.thread k j).vreg m = if takes k j = true ∧ p 0 ≤ m ∧ m < p 0 + (if p 1 = 0 then 8 else 4) then
            (if p 1 = 0 then BitVec.ofNat 32 (code k j (m - p 0))
             else BitVec.ofNat 32 (code k j (2 * (m - p 0)) + 65536 * code k j (2 * (m - p 0) + 1)))
          else (g.thread k j).vreg m) ∧
      (∀ h ∈ g.halves, TileIs g' (t h) fun n => if p 2 = 1 then 0 else tileWord (g.tile (t h)) n) ∧ others ∧
      ∀ b, b < 5 → g'.fpflags.getLsbD b = (g.fpflags.getLsbD b || g.halves.any fun h => (List.range 256).any fun n =>
        takes (8 * h + n / 32) (n / 8 % 4) &&
          (drainCode s g (g.tile (t h)) h (p 1) (p 3) (decide (p 4 = 1)) (n / 16) (n % 16)).2.getLsbD b)
  | .drainScratch =>
      let ws := g.halves.flatMap fun h => (drainMakes s g op h).1
      p 3 ∈ [0, 1, 2, 6, 7, 8] → one → (∀ w ∈ ws, w.1 % w.2.1 = 0) → ws.Pairwise (fun x y => x.1 + x.2.1 ≤ y.1 ∨ y.1 + y.2.1 ≤ x.1) →
      (∀ x ∈ g'.cmds, x.id = op.id → (∀ l ∈ x.lines, ∃ off, l.dst = s.localPlace g 1 off) → RowsHold s x ws) ∧
      (∀ h ∈ g.halves, TileIs g' (t h) fun n => if p 2 = 1 then 0 else tileWord (g.tile (t h)) n) ∧ others ∧
      (∀ k j, { g'.thread k j with draws := (g.thread k j).draws } = g.thread k j) ∧
      rec (joined (g.halves.map fun h => (drainMakes s g op h).2)) none

end Sys2Proof.Claims

/-- Each event of accepted work, where it is due, has its effect: an access is performed, its bytes take what it writes, a
counted store's lines their count, a release puts its strand's earlier stores before itself at its scope, and it leaves its
path in order; a line of a command lands, its bytes taking what their sources hold or keeping what an unordered command has
written there, P and the landing count falling; a command with every line written completes; a tile operation gives its tiles,
registers, counters or rows their new values and its record its flags or the fault of its stream; a batch reports its flags; a
HEAT addition is performed; a replay ends; a drive answers or times out (11 R293; 12 R308, R311, R315, R316; 13 R341, R343,
R352 to R359; 14 R368, R369, R376, R377; 18 R452). -/
def Obligations.WorkEvents : Prop :=
  ∀ (s : State) (g : Gang), s.gang? g.gid = some g →
    (∀ a, g.accesses.find? (fun x => decide (x.id = a.id)) = some a → g.blockedBy a = false →
      (∀ x ∈ s.gangs, ∀ y ∈ x.accesses, y.seen = none) → (∀ w ∈ a.writes, Holds s w.place) →
      let before := g.accesses.takeWhile fun x => x.id ≠ a.id
      ∃ t g', exec (.accessPerformed g.gid a.id) s = .next t ∧ t.gang? g.gid = some g' ∧
        g'.accesses = (g.accesses.filter fun x => x.id ≠ a.id).map (fun x =>
          if a.release ∧ (∃ y ∈ before, y.id = x.id ∧ y.writes ≠ [] ∧ meets y.slices a.slices = true) then { x with seen := some a.scope } else x) ∧
        (∀ q, Holds s q → t.byteAt q = match (a.writes.reverse.find? fun w => decide (canon s w.place = canon s q)) with
          | some w => w.byte
          | none => s.byteAt q) ∧
        (a.counted ≠ 0 → ∀ w ∈ a.writes, ∀ pa, w.place = .phys pa → ∃ x, countedAt t pa = some x ∧ x.count = a.counted ∧
          ∀ i, i < 128 → x.pre.getD i 0 = s.physByte (s.norm pa / 128 * 128 + i)) ∧
        (∀ q ∈ g'.paths, q ∈ g.paths) ∧ (∀ k j, { g'.thread k j with reservation := (g.thread k j).reservation } = g.thread k j)) ∧
    (∀ k, g.cmds.find? (fun x => decide (x.id = k.id)) = some k →
      (k.built = true → k.kind.elsewhere = false → k.stopped = false → g.frozen k.kind = false → k.replay = false →
        (∀ l ∈ k.lines, l.written = true) → k.fault = none → k.bounded = none → k.kind ≠ .drain →
        ∃ t g', exec (.commandComplete g.gid k.id) s = .next t ∧ t.gang? g.gid = some g' ∧ (∀ x ∈ g'.cmds, x.id ≠ k.id) ∧
          (∀ q ∈ g'.paths, q ∈ g.paths) ∧ g'.records = g.records ∧ g'.slices = g.slices ∧ g'.s = g.s ∧
          { t with gangs := s.gangs, saved := s.saved } = s) ∧
      (k.built = true → k.kind.elsewhere = false → g.frozen k.kind = false → k.replay = true →
        (∀ l ∈ k.lines, l.written = true) → k.fault = none → k.bounded = none → (∀ r ∈ k.rows, r ≠ .entry 0) →
        ∃ t g', exec (.commandReplayComplete g.gid k.id) s = .next t ∧ t.gang? g.gid = some g' ∧ (∀ x ∈ g'.cmds, x.id ≠ k.id) ∧
          (∀ r ∈ g'.records, r.cmd.id ≠ k.id) ∧
          g'.fault = (if (g.fault.bind fun f => f.cmd) = some (g.gid, k.id) then none else g.fault) ∧ g'.slices = g.slices) ∧
      (∀ l, k.kind = .cpy ∨ k.kind = .cpym ∨ k.kind = .kvcpy ∨ k.kind = .cpst → k.built = true → k.stopped = false → g.frozen k.kind = false →
        k.lines.find? (fun x => decide (x.id = l.id)) = some l → l.written = false → l.landed = false → l.virt = none →
        l.bytes.length = 128 → (∀ b ∈ l.bytes, isPlain b = true ∧ ∀ p, b = .place p → s.spoilt p = false) →
        (∃ key o, l.dst = .scratch key (128 * o) ∧ (s.teamByKey? key).isSome = true) →
        (∀ x, l.lc = some x → x.1 = g.gid) → (∀ f ∈ s.saved, ∀ x ∈ f.gangs, x.gid ≠ g.gid) →
        ∃ t g', exec (.lineLanding g.gid k.id l.id) s = .next t ∧ t.gang? g.gid = some g' ∧
          (∀ i, i < 128 → t.byteAt (l.dst.plus i) = (plainByte s (l.bytes.getD i .hole)).getD (s.byteAt (l.dst.plus i)) ∨
            (i ∈ l.raced ∧ t.byteAt (l.dst.plus i) = s.byteAt (l.dst.plus i))) ∧
          (∀ p, (∀ i, i < 128 → p ≠ l.dst.plus i) → t.byteAt p = s.byteAt p) ∧
          (l.armed = true → t.lineP l.dst = s.lineP l.dst - 1) ∧
          (∀ n, g'.sreg n = if l.lc = some (g.gid, n) then g.sreg n - BitVec.ofNat 64 l.size else g.sreg n) ∧
          ∀ x ∈ g'.cmds, x.id = k.id → ∀ y ∈ x.lines, y.id = l.id → y.landed = true ∧ y.written = true)) ∧
    (∀ op, g.tileOps.find? (fun x => decide (x.id = op.id)) = some op → op.done = false → g.opWaits op = false → g.isLive = true →
      (∀ n ∈ op.tiles, s.damaged.contains (EccTarget.tile g.gid n) = false) → op.fault = none →
      (∀ l ∈ op.lines, s.spoilt (s.localPlace g 1 (128 * l)) = false) →
      ∃ t g', exec (.tileOpComplete g.gid op.id) s = .next t ∧ t.gang? g.gid = some g' ∧ (∀ q ∈ g'.paths, q ∈ g.paths) ∧
        (∀ x ∈ g'.tileOps, x.id = op.id → x.done = true) ∧
        OpMakes s g op g' (fun flags fault => ∃ x ∈ g'.tileOps, x.id = op.id ∧ x.flags = flags ∧ x.fault = fault) ∧
        (op.kind ≠ .mxv → op.kind ≠ .drainReg → op.kind ≠ .drainScratch → { t with gangs := s.gangs, saved := s.saved } = s)) ∧
    (∀ b, g.batches.find? (fun x => decide (x.id = b.id)) = some b → (∀ o ∈ g.tileOps, o.id ∈ b.ops → o.done = true ∧ o.fault = none) →
      ∃ t g', exec (.batchComplete g.gid b.id) s = .next t ∧ t.gang? g.gid = some g' ∧ (∀ x ∈ g'.batches, x.id ≠ b.id) ∧
        (∀ x ∈ g'.tileOps, x.id ∉ b.ops) ∧ (∀ q ∈ g'.paths, q ∈ g.paths) ∧ g'.records = g.records ∧
        (∀ i, i < 5 → g'.fpflags.getLsbD i =
          (g.fpflags.getLsbD i || (g.tileOps.any fun o => b.ops.contains o.id && o.flags.getLsbD i)))) ∧
    (∀ x, g.heats.find? (fun y => decide (y.id = x.id)) = some x → ∀ p a, x.place = some p → p = .chip a →
      ∃ t g', exec (.heatAdd g.gid x.id) s = .next t ∧ t.gang? g.gid = some g' ∧ (∀ y ∈ g'.heats, y.id ≠ x.id) ∧
        (let old := BitVec.ofNat 32 (ofLe ((List.range 4).map fun i => s.byteAt (p.plus i)))
         (List.range 4).map (fun i => t.byteAt (p.plus i)) =
           leBytes 4 (rne (Fp.exAdd 0 (f32val old) (f32val (BitVec.ofNat 32 x.value))).1).toNat) ∧
        ∀ q, (∀ i, i < 4 → q ≠ p.plus i) → t.byteAt q = s.byteAt q) ∧
    ∀ k, g.cmds.find? (fun x => decide (x.id = k.id)) = some k → k.kind = .sread → k.fault = none → k.rows = [.entry 0] →
      let put (k : Cmd) : State := s.setAnyGang (g.setCmd k)
      (∀ data, data.length = k.param 1 → exec (.nvmeCompletion g.gid k.id true data) s = .next (put { k with rows := [.done data] })) ∧
      (∀ data, exec (.nvmeCompletion g.gid k.id false data) s = .next (put { k with fault := some (linkStatus 4 k.firstVa) })) ∧
      (k.param 0 + 2 ^ 28 ≤ s.base → exec (.storageTimeout g.gid k.id) s = .next (put { k with fault := some (linkStatus 4 k.firstVa) }))

/-- An event that lets a waiting strand issue again does what its issue does: COMMAND_ACCEPT for a strand that waits at
acceptance of an engine command, EMPTY_TIMEOUT for a load that has stalled 2^24 cycles, REMOTE_ACCESS_TIMEOUT for an
access that has waited RINGTMO, whose strand has lost its reply (09 R244; 12 R314; 18 R446). -/
def Obligations.WaitingStrandsIssueAgain : Prop :=
  ∀ (s : State) (g : Gang) (k : Nat) (st : Strand) (s1 : State) (ws : List W32) (fall : Nat) (i : Instr),
    s.gang? g.gid = some g → g.strand? k = some st → s.mayIssue g st = true →
    s.fetch g st.pc = (s1, .ok ws fall) → decode ws = .ok i →
    let again (s : State) : Host.Outcome State Fault Refusal := s.issueWith g.gid k fun i => some (exec i)
    (∃ t, again s = .next t) ∧
    (st.wait = .accept → (acceptOf i).isSome = true → exec (.commandAccept g.gid k) s = again s) ∧
    (∀ t, st.wait = .empty → st.emptySince = some t → t + 2 ^ 24 ≤ s.cycleOf g.core → (∃ d a r w, i = .ld d a r w ∨ i = .ldx d a r w) →
      exec (.emptyTimeout g.gid k) s = again s) ∧
    (st.wait = .remote → Max.max 4096 (s.mg Mgmt.ringtmo) * s.mhz.getD (g.core / Config.coresPerDie) 4000 ≤ 2000 * (s.cycleOf g.core - st.since) →
      (memOf i).isSome = true →
      (s.put g { st with wait := .lost }).fetch (g.setStrand { st with wait := .lost }) st.pc = (s1.put g { st with wait := .lost }, .ok ws fall) →
      exec (.remoteAccessTimeout g.gid (.strand k)) s = again (s.put g { st with wait := .lost }))

/-! ## Rings and collectives (18) -/

namespace Sys2Proof.Claims

/-- ⊕ of two elements of COLL: a sum rounded once to nearest even, FMIN or FMAX in FP32, BF16 or FP16; on i32 a wrapping sum,
the lesser or the greater (18 R449). -/
def oplus (elem op a b : Nat) : Nat :=
  let f : Fp.Fmt := if elem = 0 then .f32 else if elem = 1 then .bf16 else .f16
  let x := (BitVec.ofNat 32 a).toInt
  let y := (BitVec.ofNat 32 b).toInt
  if elem = 3 then (BitVec.ofInt 32 (if op = 0 then x + y else if op = 1 then Min.min x y else Max.max x y)).toNat
  else if op = 0 then (Fp.deliver f 0 0 false false (Fp.exAdd 0 (f.decode false a) (f.decode false b)).1).1
  else (Fp.minMax f (decide (op ≠ 1)) false a b).1

/-- Element e of a list of bytes, of n bytes each. -/
def elemOf (n : Nat) (bs : List Byte) (e : Nat) : Nat := ofLe ((bs.drop (n * e)).take n)

/-- `ws` are the last writes in `t`: each byte written has its value, every other byte is what it was in `s`. -/
def Lands (s t : State) (ws : List Write) : Prop :=
  ∀ q, Holds s q → t.byteAt q = match (ws.reverse.find? fun w => decide (canon s w.place = canon s q)) with
    | some w => w.byte
    | none => s.byteAt q

/-- The only command of its collective engine, in its first run, has begun; its status word is at `pa` in local memory once the
state `u` has translated it. -/
def RunsAlone (s : State) (ring gid : Nat) (k : Cmd) (g : Gang) : Prop :=
  ring < s.rings.length ∧ s.ringCmds [ring % 4, ring % 4 + 4] = [(gid, k)] ∧ k.param 1 = ring ∧ k.param 2 = 1 ∧ k.replay = false ∧
  k.fault = none ∧ k.bounded = none ∧ s.anyGang? gid = some g ∧ g.gid = gid ∧ g.isLive = true ∧ (g.cmds.map fun y => y.id).Nodup

/-- The status word of a ring command: code, the last completed step, the revolution (18 R447). -/
def ringStatusOf (k : Cmd) (x : RingState) (code : Nat) : Nat :=
  code + 2 ^ 16 * (x.lastStep % 2 ^ 16) + 2 ^ 48 * ((if k.param 15 = 3 then k.param 6 else x.revNo) % 2 ^ 16)

/-- The command ends with a status other than OK: its status word is written, its destination untouched, the ring broken, its
staging and partial results discarded (18 R450). -/
def Breaks (i : Instr) (s : State) (ring gid : Nat) (k : Cmd) (g : Gang) (code : Nat) : Prop :=
  ∀ s1 pa, s.access g.core (s.tmplOf g).asid (k.param 13) false true = .ok (s1, pa) → pa + 8 ≤ Config.localHbm →
    ∃ t g', exec i s = .next t ∧
      t.ringAt ring = { s.ringAt ring with ready := false, staged := [], chunks := [] } ∧
      Lands s1 t (physWrites pa (leBytes 8 (ringStatusOf k (s.ringAt ring) code))) ∧
      t.anyGang? gid = some g' ∧ (∀ y ∈ g'.cmds, y.id ≠ k.id) ∧ g'.records = g.records ∧ (∀ q ∈ g'.paths, q ∈ g.paths)

/-- The command ends with status OK: its rows are at its destination, here in the scratchpad, its status word after them, and it
has left its path (18 R449, R450). -/
def Finishes (i : Instr) (s : State) (gid : Nat) (k : Cmd) (g : Gang) (x : RingState) (rows : List RowState) : Prop :=
  ∀ s1 pa, s.access g.core (s.tmplOf g).asid (k.param 13) false true = .ok (s1, pa) → pa + 8 ≤ Config.localHbm →
    (∀ l ∈ k.lines, l.virt = none ∧ l.written = false ∧ l.landed = false ∧ l.raced = [] ∧ l.lc = none ∧ l.bytes.length = 128 ∧
      (∀ b ∈ l.bytes, b = .hole ∨ ∃ r j, b = .row r j) ∧ ∃ key o, l.dst = .scratch key (128 * o) ∧ (s.teamByKey? key).isSome = true) →
    (k.lines.map fun l => l.dst).Nodup →
    ∃ t g', exec i s = .next t ∧ t.anyGang? gid = some g' ∧ (∀ y ∈ g'.cmds, y.id ≠ k.id) ∧ g'.records = g.records ∧
      (∀ q ∈ g'.paths, q ∈ g.paths) ∧
      (∀ l ∈ k.lines, ∀ j, j < 128 → t.byteAt (l.dst.plus j) = match l.bytes.getD j .hole with
        | .row r m => (match rows[r]? with
          | some (.done bs) => bs.getD m 0
          | _ => 0)
        | _ => s.byteAt (l.dst.plus j)) ∧
      (List.range 8).map (fun j => t.byteAt (.phys (pa + j))) = leBytes 8 (ringStatusOf k x 0)

end Sys2Proof.Claims

/-- The events of a ring. A tile is staged, of at most two, unless it is of an older revolution; an acknowledgement is noted. A
step with its tile whole and its own acknowledged writes the tile and status OK and becomes the ring's last step. A time-out of
a command that is not whole and a BREAK of the ring's revolution end what it runs with RING_BROKEN, a neighbour's chunk of other
parameters with MISMATCH, and break the ring. A partial chunk is combined with this member's, element by element, a final one
kept; a collective with every chunk writes its results and status OK. Here of a command that is the only one of its engine
(18 R448 to R450). -/
def Obligations.RingEvents : Prop :=
  ∀ (s : State) (ring : Nat),
    let x := s.ringAt ring
    (∀ rev stp data, (∀ gid k, s.engineHead ring = some (gid, k) → k.param 2 = 1) → x.staged.length < 2 →
      exec (.ringTileArrival ring rev stp data) s =
        .next (if x.stale rev then s else s.setRing ring { x with staged := x.staged ++ [(tagOf rev stp, data)] })) ∧
    ∀ (gid : Nat) (k : Cmd) (g : Gang), RunsAlone s ring gid k g →
    (k.param 15 = 3 →
      (∀ rev stp s' bs g', tagOf rev stp = tagOf (k.param 6) (k.param 5) → s.ringSrc g k 0 (k.param 4) = (s', .ok bs) →
        s'.anyGang? gid = some g' → exec (.ringAckArrival ring rev stp) s = .next (s'.setAnyGang (g'.setCmd (k.setParam 16 1)))) ∧
      (∀ rev stp, tagOf rev stp ≠ tagOf (k.param 6) (k.param 5) → exec (.ringAckArrival ring rev stp) s = .next s) ∧
      ∀ tile, k.param 16 = 1 → tile.1 = tagOf (k.param 6) (k.param 5) → tile.2.length = k.param 4 →
        x.staged.find? (fun t => decide (t.1 = tile.1) && decide (t.2.length = k.param 4)) = some tile →
        let x' : RingState := { x with lastStep := k.param 5, staged := x.staged.filter fun y => decide (y.1 ≠ tile.1) }
        (∃ t, exec (.ringStepComplete ring) s = .next t ∧ t.ringAt ring = x') ∧
        Finishes (.ringStepComplete ring) s gid k g x' [.done tile.2] ∧
        exec (.ringTimeout ring) s = .next s) ∧
    (k.whole x = false → k.param 14 + Max.max 4096 (s.mg Mgmt.ringtmo % 2 ^ 32) ≤ s.base → Breaks (.ringTimeout ring) s ring gid k g 1) ∧
    (∀ rev, x.ready = true → x.revNo = rev % 2 ^ 16 → Breaks (.breakReceived ring rev) s ring gid k g 1) ∧
    (∀ q params data, k.param 15 ≤ 2 → q < k.cfg.m → data.length = (k.chunk q).2 →
      let ours (phase : Nat) : Nat := collParams phase (k.param 15) (k.param 7) (k.param 8) (k.param 4)
      (params ≠ ours (params % 2) → Breaks (.collectiveChunkArrival ring q params data) s ring gid k g 2) ∧
      (params = ours 1 → params % 2 = 1 → k.param 15 ≠ 1 → q ≠ k.cfg.pos → x.hasChunk (64 + q) = false →
        exec (.collectiveChunkArrival ring q params data) s =
          .next ((s.setRing ring { x with chunks := x.chunks ++ [(64 + q, data)] }).setAnyGang (g.setCmd (k.setRow q data)))) ∧
      (∀ s' mine g', params = ours 0 → params % 2 = 0 → k.param 15 ≠ 2 → (q + 1) % k.cfg.m ≠ k.cfg.pos → x.hasChunk q = false →
        s.ringSrc g k (k.chunk q).1 (k.chunk q).2 = (s', .ok mine) → s'.anyGang? gid = some g' →
        mine.length = data.length → data.length % elemSize (k.param 7) = 0 → k.param 7 ≤ 3 → k.param 8 ≤ 2 →
        ∃ y : List Byte, y.length = data.length ∧
          (∀ e, e < data.length / elemSize (k.param 7) → elemOf (elemSize (k.param 7)) y e =
            oplus (k.param 7) (k.param 8) (elemOf (elemSize (k.param 7)) data e) (elemOf (elemSize (k.param 7)) mine e)) ∧
          exec (.collectiveChunkArrival ring q params data) s =
            .next ((s'.setRing ring { x with chunks := x.chunks ++ [(q, y)] }).setAnyGang
              (g'.setCmd (if q = k.cfg.pos then k.setRow q y else k))))) ∧
    (k.param 15 ≤ 1 → k.collDone x = true →
      (∃ t, exec (.collectiveComplete ring) s = .next t ∧ t.ringAt ring = { x with chunks := [] }) ∧
      Finishes (.collectiveComplete ring) s gid k g x k.rows) ∧
    (∀ s' mine g', k.param 15 = 2 → k.collDone x = true → s.ringSrc g k 0 (k.chunk k.cfg.pos).2 = (s', .ok mine) →
      s'.anyGang? gid = some g' →
      (∃ t, exec (.collectiveComplete ring) s = .next t ∧ t.ringAt ring = { x with chunks := [] }) ∧
      (s' = s → Finishes (.collectiveComplete ring) s gid k g x (k.setRow k.cfg.pos mine).rows))

/-! ## Launches and admission (05, 12, 16) -/

namespace Sys2Proof.Claims

/-- The state once the arbiter has taken an event of class `cls` and source `n`: one that comes after a later one of its base
cycle counts as of the next cycle (01 R20). -/
def taken (s : State) (cls n : Nat) : State :=
  { s with
    base := if s.arrived.1 = s.base ∧ (cls < s.arrived.2.1 ∨ (cls = s.arrived.2.1 ∧ n < s.arrived.2.2)) then s.base + 1 else s.base
    arrived := (if s.arrived.1 = s.base ∧ (cls < s.arrived.2.1 ∨ (cls = s.arrived.2.1 ∧ n < s.arrived.2.2)) then s.base + 1 else s.base, cls, n) }

/-- `t` is `u` with the status word of a launch or a copy written at `saddr`, where one is asked for: in the address space
`asid`, a STATUS report where there is none or the word cannot be written (05 R137). -/
def StatusIn (u t : State) (asid : Option Nat) (stat : Bool) (saddr code : Nat) : Prop :=
  (stat = false → t = u) ∧ (stat = true → asid = none → t = u.report (packageReport 0x13 5 saddr code 0)) ∧
  ∀ a, stat = true → asid = some a →
    (∀ s1 pa, u.accessWith false 0 a saddr false true = .ok (s1, pa) → t = s1.performWrites none (physWrites pa (leBytes 8 code))) ∧
    ∀ f, u.accessWith false 0 a saddr false true = .error f → t = u.report (packageReport 0x13 f.status saddr code a)

/-- The 16-byte pieces of a bulk copy, row after row (12 R326). -/
def piecesOf (b : BulkCopy) : List (Nat × Nat) :=
  (List.range b.rows).flatMap fun r => (List.range (b.rowBytes / 16)).map fun i =>
    ((b.src + r * b.sstride + 16 * i) % 2 ^ 64, (b.dst + r * b.dstride + 16 * i) % 2 ^ 64)

/-- Pieces moved one after another through translation in an address space, up to the first that cannot be read or written; the
number is the status of that fault, 0 where there is none (12 R328). -/
inductive Moves (asid : Nat) : State → List (Nat × Nat) → State → Nat → Prop
  | done (s : State) : Moves asid s [] s 0
  | piece (s s1 s2 t : State) (a b pa pd code : Nat) (l : List (Nat × Nat))
      (hr : s.accessWith false 0 asid a true false = .ok (s1, pa)) (hw : s1.accessWith false 0 asid b false true = .ok (s2, pd))
      (h : Moves asid (s2.performWrites none (physWrites pd ((List.range 16).map fun i => s2.physByte (pa + i)))) l t code) :
      Moves asid s ((a, b) :: l) t code
  | unread (s : State) (a b : Nat) (f : Fail) (l : List (Nat × Nat)) (hr : s.accessWith false 0 asid a true false = .error f) :
      Moves asid s ((a, b) :: l) s f.status
  | unwritten (s s1 : State) (a b pa : Nat) (f : Fail) (l : List (Nat × Nat))
      (hr : s.accessWith false 0 asid a true false = .ok (s1, pa)) (hw : s1.accessWith false 0 asid b false true = .error f) :
      Moves asid s ((a, b) :: l) s1 f.status

end Sys2Proof.Claims

/-- A launch store and a copy-launch store that pass their checks join their queue in arbiter order, one that does not writes
or reports its status; the gate at the head of a queue is read; a bulk copy moves its rows, oldest first on its engine, and
reports; admission puts the next teams of the first launch that fits on their cores, each gang at its entry with its arguments;
a core is reserved after 2^20 base cycles; a committed round releases its gangs; a page is pushed onto its pool and a round that
waits for it is counted again (01 R20; 05 R116 to R120, R130 to R137; 12 R326, R328; 16 R398, R404, R407). -/
def Obligations.LaunchEvents : Prop :=
  ∀ (s : State),
    (∀ (src off : Nat) (data : List Byte), data.length = 64 → off % 64 = 0 →
      let q := off / 64 % 64
      let cfg := s.queues.getD q Queue.fresh
      let a := taken s 2 src
      let full := 256 ≤ s.pendingOf q
      (off < 0x1000 →
        let r := parseLaunch data
        let space : Option Nat := match s.templateAt r.template with
          | some (t, _) => if s.astOk t.asid then some t.asid else none
          | none => none
        let refused (code : Nat) : Prop := ∃ t, exec (.launchStore src off data) s = .next t ∧ StatusIn a t space (r.flags.testBit 2) r.saddr code
        (cfg.enable = false → refused 7) ∧ (cfg.enable = true → full → refused 6) ∧
        (cfg.enable = true → ¬full → s.templateAt r.template = none → refused 3) ∧
        ∀ t ok, cfg.enable = true → ¬full → s.templateAt r.template = some (t, ok) →
          (∀ code, s.checkLaunch t ok r false = code → code ≠ 0 → refused code) ∧
          (s.checkLaunch t ok r false = 0 → exec (.launchStore src off data) s = .next { a with
            seq := s.seq + 1
            pendings := s.pendings ++ [{ id := s.seq, queue := some q, tmpl := t, launch := r, depth := 0, prio := cfg.prio
                                         preempt := cfg.preempt, parent := none, parentGrid := 0, gateOpen := !r.flags.testBit 0
                                         gateChecked := a.base, since := a.base }] })) ∧
      (0x1000 ≤ off → off < 0x2000 →
        let c := parseCopy data
        let refused (code : Nat) : Prop := ∃ t, exec (.copyLaunch src off data) s = .next t ∧
          StatusIn a t (if s.astOk c.asid then some c.asid else none) c.stat c.saddr code
        let legal := c.ok = true ∧ c.dscr = false ∧ s.astOk c.asid = true ∧ (c.stat = true → c.saddr % 8 = 0)
        (cfg.enable = false → refused 7) ∧ (cfg.enable = true → full → refused 6) ∧ (cfg.enable = true → ¬full → ¬legal → refused 3) ∧
        (cfg.enable = true → ¬full → legal → (∀ b ∈ s.bulk, b.id < s.seq) →
          ∃ t b, exec (.copyLaunch src off data) s = .next t ∧ { t with bulk := s.bulk } = { a with seq := s.seq + 1 } ∧
            t.bulk.map (fun x => { x with started := false }) = s.bulk.map (fun x => { x with started := false }) ++ [{ b with started := false }] ∧
            b ∈ t.bulk ∧ b.id = s.seq ∧ b.queue = q ∧ b.asid = c.asid ∧ b.rows = c.rows ∧ b.rowBytes = c.rowBytes ∧ b.src = c.src ∧
            b.dst = c.dst ∧ (b.sstride : Int) % 2 ^ 64 = c.sstride % 2 ^ 64 ∧ (b.dstride : Int) % 2 ^ 64 = c.dstride % 2 ^ 64 ∧
            b.stat = c.stat ∧ b.saddr = c.saddr ∧
            (b.started = true ↔ (∀ p ∈ s.pendings, p.queue = some q → s.seq ≤ p.id) ∧
              ∀ x ∈ t.bulk, x.queue = q → x.id < s.seq → x.started = true)))) ∧
    (∀ b, s.bulk.find? (fun x => decide (x.id = b.id)) = some b → b.started = true →
      ((∃ x ∈ s.bulk, x.die = b.die ∧ x.started = true ∧ x.id < b.id) → exec (.bulkCopyComplete b.id) s = .next s) ∧
      ((∀ x ∈ s.bulk, x.die = b.die → x.started = true → b.id ≤ x.id) →
        ∃ u code t, Moves b.asid { s with bulk := s.bulk.filter fun x => x.id ≠ b.id } (piecesOf b) u code ∧
          exec (.bulkCopyComplete b.id) s = .next t ∧
          StatusIn u t (some b.asid) b.stat b.saddr (if code = 0 then 1 else 0x0A + 256 * code))) ∧
    (∀ p s' pa, s.pendings.find? (fun x => decide (x.id = p.id)) = some p → s.gateWaits p = true →
      s.accessWith false 0 p.tmpl.asid p.launch.gaddr true false = .ok (s', pa) →
      let read : State := { s' with pendings := s'.pendings.map fun x =>
        if x.id = p.id then { x with gateOpen := decide (p.launch.gval ≤ s'.readPhys pa 8), gateChecked := s'.base } else x }
      exec (.gateEvaluate p.id) s = .next read ∧
      (p.gateChecked + 4096 ≤ s.base → exec (.gateRecheck p.id) s = .next read)) ∧
    (∀ w places, s.admitting = true → s.nextAdmission = some (w, places) → s.savedFirst w.prio = false →
      ∀ i : Instr, i = (if w.tmpl.cluster then .clusterGroupAdmit else .teamAdmit) →
      (∀ G, w.start = none → s.grid? w.serial = some G → G.tmpl = w.tmpl → (s.grids.map fun G => G.serial).Nodup →
        (∀ x ∈ s.gangs, x.gid < s.nextGid) →
        ∃ t, exec i s = .next t ∧
          t.teams.map (fun T => (T.grid, T.idx, T.core, T.offset)) = s.teams.map (fun T => (T.grid, T.idx, T.core, T.offset)) ++
            mapI (fun n (p : Placed) => (w.serial, n, p.1, p.2)) w.admitted places ∧
          (∀ G', t.grid? w.serial = some G' → G'.admitted = G.admitted + places.length) ∧
          (∀ r ∈ t.reserved, r.1 ≠ w.order) ∧
          ∀ n p, places[n]? = some p → ∀ g, g < G.tmpl.gangs → ∃ x ∈ t.gangs, x.grid = w.serial ∧ x.team = w.admitted + n ∧ x.g = g ∧
            x.core = p.1 ∧ x.part = (p.2 + g) % 8 ∧ x.strands.map (fun st => (st.pc, st.slices)) = [(G.tmpl.entry, List.range x.slices.length)] ∧
            x.sreg 0 = BitVec.ofNat 64 G.launch.arg0 ∧ x.sreg 1 = BitVec.ofNat 64 G.launch.arg1 ∧ x.sreg 2 = BitVec.ofNat 64 G.launch.arg2 ∧
            (∀ k j, k < x.slices.length → j < 4 → (x.thread k j).live = true)) ∧
      ∀ p, w.start = some p → w.admitted = 0 → s.chipOwner.length + p.tmpl.chip ≤ 2048 → (s.chipOwner.map fun e => e.1).Nodup →
        (∀ G ∈ s.grids, G.serial ≤ s.started) →
        ∃ t G, exec i s = .next t ∧ t.grid? (s.started + 1) = some G ∧ t.started = s.started + 1 ∧ G.order = p.id ∧ G.tmpl = p.tmpl ∧
          G.launch = p.launch ∧ G.chip.length = p.tmpl.chip ∧ G.admitted = places.length ∧ G.status = none ∧
          (∀ x ∈ t.pendings, x.id ≠ p.id) ∧ t.teams.length = s.teams.length + places.length) ∧
    (∀ w rest t core P, s.inOrder = w :: rest → s.head = some (w.order, w.admitted, t) → t + 2 ^ 20 ≤ s.base →
      (∀ r ∈ s.reserved, r.1 ≠ w.order) →
      let keep (g : Gang) : Bool := match s.grid? g.grid with
        | some G => decide (G.order = w.order) || decide (w.prio < G.prio)
        | none => false
      ({ s with reserved := [] } : State).place keep w.tmpl w.order [] (List.range Config.cores) = some (core, P) →
      exec .coreReserve s = .next { s with reserved := (s.reserved.filter fun r => r.2 ≠ core) ++ [(w.order, core)] }) ∧
    (∀ g G P, s.gang? g.gid = some g → s.grid? g.grid = some G → G.pop = some P → P.phase = .committed → g.gid ∈ P.releasing →
      ∃ t g', exec (.resampleRelease g.gid) s = .next t ∧ t.gang? g.gid = some g' ∧ { g' with strands := g.strands } = g ∧
        (∀ st ∈ g'.strands, st.wait ≠ .resample) ∧ g'.strands.map (fun st => st.pc) = g.strands.map (fun st => st.pc) ∧
        ∃ G' P', t.grid? g.grid = some G' ∧ G'.pop = some P' ∧ g.gid ∉ P'.releasing ∧ P'.round = P.round) ∧
    ∀ (h : Nat) (value : W64), h < Config.hbmStacks → s.pushed = [] →
      let page := value.toNat
      let legal := s.poolValid h = true ∧ s.poolCount h < 2 ^ 20 ∧ page / 2 ^ 36 = h ∧ page % 2 ^ 16 = 0
      let pushed : State := (s.writePhys (s.poolBase h + 8 * s.poolCount h) (leBytes 8 page)).setMg (Mgmt.ppcount h) (s.poolCount h + 1)
      let waits (G : Grid) : Prop := ∃ P, G.pop = some P ∧ P.phase = .counting ∧ h ∈ P.short
      (¬legal → exec (.poolPush h value) s = .next (s.report (packageReport 0x12 0 page 0 0))) ∧
      (legal → (∀ G ∈ s.grids, ¬waits G) → exec (.poolPush h value) s = .next pushed) ∧
      ∀ G P, legal → s.grids.filter (fun G => decide (∃ P, G.pop = some P ∧ P.phase = .counting ∧ h ∈ P.short)) = [G] →
        G.pop = some P → P.arrivals ≠ [] → s.grid? G.serial = some G →
        (∀ gid ∈ s.liveGids G.serial, ∃ x ∈ P.arrivals, x.issue.gang = gid) → (∀ x ∈ P.arrivals, x.issue.gang ∈ s.liveGids G.serial) →
        let P' : Population := { P with phase := .gathering }
        ∃ t, exec (.poolPush h value) s = .next t ∧
          RoundEnds (pushed.setPop G.serial fun _ => P') { G with pop := some P' } P' (((P.arrivals.head?).map fun x => x.n).getD 0) t

/-! ## Faults, replies and pre-emption (17) -/

/-- A record is posted where the queue has room. REPLAY, ABORT and CONTINUE act on the gang whose record they name, once and
where its kind allows them, and wait for a gang that is halted or saved: REPLAY lets it issue again or its faulted command run
again, ABORT ends its grid and the grid's descendants, CONTINUE writes SYSC's destination and goes on after it. HALT and EVICT
make every live gang of a grid halt, RELEASE lets those that HALT halted go on with their latches; a halted gang loses its
reservations and its waits, arrivals and deadlines apart; a team that is halted and quiet is saved with its state, a saved team
comes back with it; the distributor pre-empts (04 R87; 17 R427 to R437; 05 R121; 12 R311). -/
def Obligations.FaultAndPreemptionEvents : Prop :=
  ∀ (s : State),
    (∀ r who, s.nextRecord = some (r, who) → s.fqRoom = true →
      let at' := field (s.mg Mgmt.fqbase) 51 12 * 2 ^ 12 + 64 * (s.fqprod % s.fqSize)
      let written := (taken s 0 20).performWrites none (physWrites at' (recordBytes r who.isSome s.fqprod))
      (who = none → exec .faultRecordPost s = .next { written with
        fqprod := (s.fqprod + 1) % 2 ^ 32, reports := written.reports.filter fun x => x.order ≠ r.order }) ∧
      (∀ gid g, who = some gid → written.anyGang? gid = some g → ∃ t g' , exec .faultRecordPost s = .next t ∧
        t.fqprod = (s.fqprod + 1) % 2 ^ 32 ∧ t.posted = written.posted ++ [{ seq := s.fqprod, gang := gid }] ∧
        t.anyGang? gid = some g' ∧ g'.fault = g.fault.map fun f => { f with seq := some s.fqprod })) ∧
    (∀ p g f, s.posted.find? (fun x => decide (x.seq = p.seq)) = some p → p.seq < 2 ^ 32 → s.anyGang? p.gang = some g → g.fault = some f →
      g.gid = p.gang →
      let taken : State := { s with posted := s.posted.filter fun x => x.seq ≠ p.seq }
      let kept (a : Nat) : State := taken.setAnyGang { g with fault := some { f with reply := some a } }
      let kind := f.info.kind
      let rests : Prop := s.isSaved p.gang = true ∨ ∃ e, g.halt = .halted e
      ((7 ≤ kind → kind ≠ 9 → exec (.replyReplay p.seq) s = .next s ∧ exec (.replyAbort p.seq) s = .next s) ∧
        (kind ≠ 9 → exec (.replyContinue p.seq) s = .next s)) ∧
      (rests → (kind ≤ 6 ∨ kind = 9 → exec (.replyReplay p.seq) s = .next (kept 0) ∧ exec (.replyAbort p.seq) s = .next (kept 1)) ∧
        (kind = 9 → exec (.replyContinue p.seq) s = .next (kept 2))) ∧
      (¬rests → kind ≤ 6 ∨ kind = 9 →
        (let dies (n : Nat) : Bool := taken.descends g.grid 12 n
         ∃ t, exec (.replyAbort p.seq) s = .next t ∧ (∀ x ∈ t.gangs, dies x.grid = true → x.isLive = false ∧ x.strands = [] ∧ x.cmds = []) ∧
          (∀ G ∈ t.grids, dies G.serial = true → G.status = some 9 ∧ G.admitted = G.launch.teams) ∧
          (∀ v ∈ t.saved, dies v.team.grid = false) ∧ (∀ q ∈ t.posted, q.seq ≠ p.seq) ∧
          ∀ n x, s.gang? n = some x → dies x.grid = false → x.isLive = true → ∃ x', t.gang? n = some x' ∧ x'.isLive = true ∧
            ∀ k j, { x'.thread k j with reservation := (x.thread k j).reservation } = x.thread k j) ∧
        (f.cmd = none → exec (.replyReplay p.seq) s = .next (taken.setAnyGang
          (if kind = 6 ∧ f.info.reason = 2 then { g with fault := none, watchdog := 0, limitRaised := false } else { g with fault := none }))) ∧
        (∀ owner id o r, f.cmd = some (owner, id) → taken.anyGang? owner = some o →
          o.records.find? (fun r => decide (r.cmd.id = id)) = some r →
          ∃ y : Cmd, exec (.replyReplay p.seq) s = .next (({ taken with seq := s.seq + 1 } : State).setAnyGang { o with cmds := o.cmds ++ [y] }) ∧
            y.id = r.cmd.id ∧ y.kind = r.cmd.kind ∧ y.replay = true ∧ (y.fault = none ∨ r.cmd.kind = .sread) ∧
            y.lines.map (fun l => (l.id, l.dst, l.virt, l.bytes, l.landed)) = r.cmd.lines.map (fun l => (l.id, l.dst, l.virt, l.bytes, l.landed)) ∧
            (r.cmd.kind ≠ .scata → ∀ l ∈ y.lines, l.written = false))) ∧
      (¬rests → kind = 9 → ∃ g', exec (.replyContinue p.seq) s = .next (taken.setAnyGang g') ∧ g'.fault = none ∧
        (∀ n, g'.sreg n = if f.sd = some n then BitVec.ofNat 64 (s.mg Mgmt.fqrval) else g.sreg n) ∧
        (∀ n, f.sd = some n → n ∉ g.pends → g'.srime n = exactly (BitVec.ofNat 64 (s.mg Mgmt.fqrval))) ∧
        g'.strands = (g.strands.map fun st => if f.slice ∈ st.slices then { st with pc := f.next, wait := .none } else st) ∧
        { g' with s := g.s, sr := g.sr, strands := g.strands, fault := g.fault } = g)) ∧
    (∀ grid,
      let mine (g : Gang) : Prop := g ∈ s.gangs ∧ g.grid = grid ∧ g.isLive = true
      let named (n : Nat) : Prop := ∃ g ∈ s.allGangs, g.grid = grid ∧ g.isLive = true ∧ g.gid = n
      (∃ t, exec (.preemptHalt grid) s = .next t ∧ t.preemptReq = (1, grid) ∧ (∀ g, mine g → g.halt = .running →
        { g with halt := .halting false } ∈ t.gangs) ∧ (∀ n, n ∈ t.haltTargets ↔ named n)) ∧
      (∃ t, exec (.preemptEvict grid) s = .next t ∧ t.preemptReq = (2, grid) ∧ (∀ g, mine g →
        (g.halt = .running → { g with halt := .halting true } ∈ t.gangs) ∧ (∀ e, g.halt = .halting e → { g with halt := .halting true } ∈ t.gangs) ∧
        ∀ e, g.halt = .halted e → { g with halt := .halted true } ∈ t.gangs) ∧ (∀ n, n ∈ t.haltTargets ↔ named n)) ∧
      ((∀ g ∈ s.allGangs, g.fault = none) → (s.allGangs.map fun g => g.gid).Nodup →
        ∃ t, exec (.preemptRelease grid) s = .next t ∧ t.preemptReq = (3, grid) ∧
        (∀ g, mine g → g.halt = .halted false → { g with
          halt := .running, latches := []
          slices := mapI (fun k (sl : Slice) => { sl with latValid := g.latches.getD k sl.latValid }) 0 g.slices } ∈ t.gangs) ∧
        ∀ g, mine g → g.halt = .halted true → g ∈ t.gangs)) ∧
    (∀ g e, s.gang? g.gid = some g → g.halt = .halting e → (∀ G, s.grid? g.grid = some G → G.pop = none) →
      ∃ t g', exec (.gangHalted g.gid) s = .next t ∧ t.gang? g.gid = some g' ∧ g'.halt = .halted e ∧
        g'.latches = g.slices.map (fun sl => sl.latValid) ∧
        (∀ k j, g'.thread k j = { g.thread k j with reservation := none }) ∧
        g'.strands.map (fun st => (st.slices, st.pc, st.mode, st.ret, st.wait, st.hold)) = g.strands.map (fun st => (st.slices, st.pc, st.mode, st.ret,
          (match st.wait with
           | .meet | .met | .resume | .barrier _ | .cluster _ | .gridBarrier | .sleep _ _ | .resample => st.wait
           | _ => .none), none)) ∧
        { g' with halt := g.halt, latches := g.latches, slices := g.slices, strands := g.strands } = g ∧
        ∀ q, Holds s q → (∀ b ∈ s.bases g, ∀ i, 0x400 ≤ i → i < 0x1000 → canon s q ≠ canon s (.phys (b + i))) → t.byteAt q = s.byteAt q) ∧
    (∀ T r rest g, s.teamByKey? T.key = some T → T.retired = false → s.together T = [T] → s.teamGangs T = [g] → g.savable = true →
      g.evicting = true → s.freeRecords = r :: rest → s.savePoisoned g = none →
      ∃ t, exec (.teamSave T.key) s = .next t ∧ (∀ x ∈ t.teams, x.key ≠ T.key) ∧ t.gang? g.gid = none ∧
        ∃ v x, v ∈ t.saved ∧ v.record = r ∧ v.team = T ∧ v.gangs = [x] ∧ x.gid = g.gid ∧ x.halt = g.halt ∧ x.latches = g.latches ∧
          x.strands.map (fun st => (st.slices, st.pc, st.mode, st.ret)) = g.strands.map (fun st => (st.slices, st.pc, st.mode, st.ret)) ∧
          x.trap = g.trap ∧ x.handler = g.handler ∧ x.fpflags = g.fpflags ∧ x.tiles = g.tiles ∧ x.keys = g.keys ∧ x.trees = g.trees ∧
          (g.active = true → (∀ y ∈ s.near, y.1.1 ≠ g.gid) → (∀ y ∈ g.images, s.cellsHold y.2 = true) →
            x.s = g.s ∧ x.a = g.a ∧ x.h = g.h ∧ ∀ k j, x.thread k j = g.thread k j)) ∧
    (∀ v G place, s.saved.find? (fun x => decide (x.record = v.record)) = some v → s.admitting = true → s.outranked v.prio = false →
      s.grid? v.team.grid = some G → G.tmpl.cluster = false → s.place everyGang G.tmpl G.order [] (List.range Config.cores) = some place →
      (∀ g ∈ v.gangs, g.fault = none ∧ s.gang? g.gid = none) →
      ∃ t, exec (.teamReadmit v.record) s = .next t ∧ (∀ x ∈ t.saved, x.record ≠ v.record) ∧
        (∃ T ∈ t.teams, T.key = v.team.key ∧ T.core = place.1 ∧ T.offset = place.2) ∧
        ∀ g, v.gangs = [g] → g.released = false → s.near = [] → (∀ w ∈ s.saved, w ≠ v → ∀ x ∈ w.gangs, x.gid ≠ g.gid) →
          ∃ x, t.gang? g.gid = some x ∧ x.core = place.1 ∧ x.part = (place.2 + g.g) % 8 ∧ x.halt = .running ∧ x.latches = [] ∧
            x.strands.map (fun st => (st.slices, st.pc, st.mode, st.ret)) = g.strands.map (fun st => (st.slices, st.pc, st.mode, st.ret)) ∧
            x.trap = g.trap ∧ x.handler = g.handler ∧ x.fpflags = g.fpflags ∧ x.tiles = g.tiles ∧ x.keys = g.keys ∧ x.trees = g.trees ∧
            ((∀ y ∈ g.images, s.cellsHold y.2 = true) → x.s = g.s ∧ x.a = g.a ∧ x.h = g.h ∧ (∀ k j, x.thread k j = g.thread k j))) ∧
    ∀ w, s.inOrder.find? (fun w => !(s.victims w).isEmpty) = some w → (s.victims w).length + s.leaving.length ≤ s.freeRecords.length →
      ∃ t, exec .distributorPreempt s = .next t ∧ { t with gangs := s.gangs } = s ∧
        ∀ g ∈ s.gangs, g.isLive = true → g.halt = .running → (∃ T ∈ s.victims w, T.grid = g.grid ∧ T.idx = g.team) →
          { g with halt := .halting true } ∈ t.gangs

/-! ## The device and what is outside it (02, 10, 18) -/

namespace Sys2Proof.Claims

/-- The core whose scratch, register files, accumulators or tree files an error of the target falls in. -/
def eccCore (s : State) : EccTarget → Option Nat
  | .scratch t _ => (s.teamByKey? t).map fun x => x.core
  | .row g _ | .tile g _ | .tree g _ | .keys g _ => (s.gang? g).map fun x => x.core
  | _ => none

end Sys2Proof.Claims

/-- The remaining events of the device and its surroundings: a walk fills translation caches, a line fill the instruction
caches of its cluster; invalidations start and end; a counted line is dropped; errors poison and are counted; another
member reads, writes and adds here, and its writes end this member's copy; attestation, links, power, clocks, resets and
start (02 R30; 10 R261, R267, R275, R276; 18 R438 to R455). -/
def Obligations.DeviceEvents : Prop :=
  ∀ (s : State),
    (∀ core asid va a leaf big, s.walk asid va = some (a, leaf, big) →
      ∃ t, exec (.pageWalkComplete core asid va) s = .next t ∧ { t with tlb := s.tlb } = s ∧
        ∀ h, h = core ∨ h = baseHolder core → ∃ e ∈ t.tlb, e.holder = h ∧ e.asid = asid ∧ e.leaf = leaf ∧ e.big = big ∧ e.entry = a ∧
          ((∀ x ∈ s.tlb, x.hits core asid va = false ∧ x.hits (baseHolder core) asid va = false) → e.touched = field leaf 57 54)) ∧
    (∀ core asid va, s.walk asid va = none → exec (.pageWalkComplete core asid va) s = .next s) ∧
    (∀ core pa, (∀ f ∈ s.fills, sameCluster f.core core = true → f.pa ≠ pa) → exec (.lineFill core pa) s = .next s) ∧
    (∀ core pa, (∃ f ∈ s.fills, sameCluster f.core core = true ∧ f.pa = pa) →
      ∃ t, exec (.lineFill core pa) s = .next t ∧ { t with icache := s.icache, fills := s.fills } = s ∧
        (∀ f ∈ t.fills, sameCluster f.core core = true → f.pa = pa → f.discard = false ∧ { f with discard := true } ∈ s.fills) ∧
        (∀ f ∈ s.fills, sameCluster f.core core = false ∨ f.pa ≠ pa → f ∈ t.fills) ∧
        ∀ f ∈ s.fills, sameCluster f.core core = true → f.pa = pa → f.discard = false →
          ∃ l ∈ t.icache, l.core = f.core ∧ l.part = none ∧ l.pa = pa ∧ l.words = (List.range 32).map fun i => wordAt s (pa + 4 * i)) ∧
    (∀ asid, ∃ t, exec (.tinvPage asid) s = .next t ∧ t.tinv = s.tinv ++ [(0, asid % 2 ^ 16, s.mg Mgmt.tinvaddr)] ∧ t.tlb = s.tlb) ∧
    (∀ asid, ∃ t, exec (.tinvAsid asid) s = .next t ∧ t.tinv = s.tinv ++ [(1, asid % 2 ^ 16, s.mg Mgmt.tinvaddr)] ∧ t.tlb = s.tlb) ∧
    (∃ t, exec .tinvAll s = .next t ∧ t.tinv = s.tinv ++ [(2, 0, s.mg Mgmt.tinvaddr)] ∧ t.tlb = s.tlb) ∧
    exec .tinvDone s = .next { s with tinv := [], tlb := s.tlb.filter fun e => !s.tinv.any fun t => e.dropped t.1 t.2.1 t.2.2 } ∧
    (∀ line, (∀ x ∈ s.counted, x.1 ≠ line) → exec (.mscCountedDrop line) s = .next s) ∧
    (∀ line c, 128 * line < Config.localHbm → s.counted.find? (fun x => decide (x.1 = line)) = some (line, c) → c.pre.length = 128 →
      ∃ t, exec (.mscCountedDrop line) s = .next t ∧ (∀ i, i < 128 → t.byteAt (.phys (128 * line + i)) = c.pre.getD i 0) ∧
        (∀ p, Holds s p → (∀ i, i < 128 → canon s p ≠ .phys (128 * line + i)) → t.byteAt p = s.byteAt p) ∧
        (∀ x ∈ t.counted, x.1 ≠ line) ∧ (∀ x ∈ t.copies, x.1 ≠ line) ∧ line ∉ t.poison ∧
        ∀ g ∈ t.gangs, ∀ sl ∈ g.slices, ∀ th ∈ sl.threads, ∀ pa, th.reservation = some (.phys pa) → pa / 128 ≠ line) ∧
    (∀ pa, s.norm pa < Config.localHbm → ∃ t, exec (.eccError (.hbm pa)) s = .next t ∧ s.norm pa / 128 ∈ t.poison ∧
      (∀ l, l ∈ t.poison → l ∈ s.poison ∨ l = s.norm pa / 128) ∧ { t with poison := s.poison, mgmt := s.mgmt } = s ∧
      t.mg (Mgmt.eccstat (hbmDie (s.norm pa)) 1) = Min.min (2 ^ 64 - 1) (s.mg (Mgmt.eccstat (hbmDie (s.norm pa)) 1) + 1)) ∧
    (∀ gid th l x n, s.gang? gid = some x → s.near.find? (fun n => decide (n.1 = (gid, th, l))) = some n →
      ∃ t, exec (.eccError (.near gid th l)) s = .next t ∧ { t with near := s.near, mgmt := s.mgmt } = s ∧
        (∀ y ∈ t.near, y.1 = (gid, th, l) → y.2.spoilt = true) ∧ (∀ y ∈ s.near, y.1 ≠ (gid, th, l) → y ∈ t.near) ∧
        t.mg (Mgmt.eccstat (coreDie x.core) 5) = Min.min (2 ^ 64 - 1) (s.mg (Mgmt.eccstat (coreDie x.core) 5) + 1)) ∧
    (∀ target core, eccCore s target = some core →
      ∃ t, exec (.eccError target) s = .next t ∧ target ∈ t.damaged ∧ (∀ x ∈ t.damaged, x = target ∨ x ∈ s.damaged) ∧ (∀ x ∈ s.damaged, x ∈ t.damaged) ∧
        { t with damaged := s.damaged, mgmt := s.mgmt } = s ∧
        t.mg (Mgmt.eccstat (coreDie core) 5) = Min.min (2 ^ 64 - 1) (s.mg (Mgmt.eccstat (coreDie core) 5) + 1)) ∧
    (∀ die k, die < Config.baseDies → k ∈ [0, 2, 4] → ∃ t, exec (.eccError (.corrected die k)) s = .next t ∧ { t with mgmt := s.mgmt } = s ∧
      t.mg (Mgmt.eccstat die k) = Min.min (2 ^ 64 - 1) (s.mg (Mgmt.eccstat die k) + 1)) ∧
    (∀ member pa (bs : List Byte), pa % 2 ^ 40 < Config.localHbm → pa % 2 ^ 40 + bs.length ≤ Config.localHbm →
      exec (.remoteAccess member (.write pa bs)) s =
        .next ((taken s 1 (2 + s.mg (Mgmt.linkmap member) % 32)).performWrites none (physWrites (pa % 2 ^ 40) bs))) ∧
    (∀ member pa cached, ∃ t, exec (.remoteAccess member (.read pa cached)) s = .next t ∧
      (let u := taken s 1 (2 + s.mg (Mgmt.linkmap member) % 32)
       { t with copies := s.copies, joins := u.joins, free := u.free } = { u with copies := s.copies }) ∧
      ∀ c, c ∈ t.copies ↔ c ∈ s.copies ∨ (c = (pa % 2 ^ 40 / 128, member) ∧ cached = true ∧ pa % 2 ^ 40 < Config.localHbm ∧
        (s.link (s.mg (Mgmt.linkmap member) % 32)).up = true)) ∧
    (∀ member pa n v, pa % 2 ^ 40 < Config.localHbm → pa % 2 ^ 40 + n ≤ Config.localHbm →
      exec (.remoteAccess member (.add pa n v)) s = .next ((taken s 1 (2 + s.mg (Mgmt.linkmap member) % 32)).performWrites none
        (physWrites (pa % 2 ^ 40) (leBytes n (s.readPhys (pa % 2 ^ 40) n + v))))) ∧
    (∀ gid id g k va vas, s.anyGang? gid = some g → g.cmds.find? (fun x => decide (x.id = id)) = some k → k.kind.elsewhere = false →
      k.fault = none → s.farVas (s.tmplOf g).asid k = va :: vas → k.born + Nat.max 4096 (s.mg Mgmt.ringtmo) ≤ s.base →
      ∃ t x y, exec (.remoteAccessTimeout gid (.command id)) s = .next t ∧ t.anyGang? gid = some x ∧
        x.cmds.find? (fun x => decide (x.id = id)) = some y ∧ y.fault.map (fun f => (f.code, f.reason, f.addr)) = some (4, 1, va)) ∧
    (∀ line g off, s.region (128 * line) = .remote g off → ∃ t, exec (.remoteCopyInvalidate line) s = .next t ∧
      t.gangs.length = s.gangs.length ∧ ∀ p, Holds s p → (∀ i, i < 128 → p ≠ .phys (128 * line + i)) → t.byteAt p = s.byteAt p) ∧
    (∀ data, data.length = 64 → le data 32 8 % 16 = 0 → le data 48 16 = 0 → s.quotes.length < 16 →
      exec (.attestationRequest data) s = .next { s with
        quotes := s.quotes ++ [{ nonce := data.take 32, dest := le data 32 8, done := le data 40 8 }] }) ∧
    (∀ q l, s.quotes = q :: l → ∃ t sig, exec .quoteComplete s = .next t ∧ t.quotes = l ∧ sig.length = 29792 ∧
      t = (({ s with quotes := l }).performWrites none (physWrites q.dest (s.quoteHead q ++ sig))).performWrites none
        (physWrites q.done (leBytes 8 1))) ∧
    (∀ die k, die < Config.baseDies → k < 8 → ∃ t, exec (.eccstatClear die k) s = .next t ∧ t.mg (Mgmt.eccstat die k) = 0 ∧
      (∀ o, o ≠ Mgmt.eccstat die k → t.mg o = s.mg o) ∧ { t with mgmt := s.mgmt } = s) ∧
    (∀ port, port < Config.linkPorts → s.links.length = Config.linkPorts →
      let put (l : Link) : State := { s with links := s.links.set port l }
      exec (.linkRetrain port) s = .next (put { s.link port with training := true, replays := 0, failed := 0 }) ∧
      ((s.link port).training = true → ∃ t, exec (.linkTrained port) s = .next t ∧
        t = { put { s.link port with up := true, training := false } with free := t.free, gangs := t.gangs } ∧
        t.gangs.length = s.gangs.length ∧ ∀ (j : Nat) (g g' : Gang), s.gangs[j]? = some g → t.gangs[j]? = some g' →
          { g' with strands := g.strands, cmds := g.cmds } = g ∧ g'.strands.length = g.strands.length ∧ g'.cmds.length = g.cmds.length ∧
          (∀ (n : Nat) (x x' : Strand), g.strands[n]? = some x → g'.strands[n]? = some x' → x' = x ∨ (x.wait = .remote ∧ x' = { x with wait := .homeReset })) ∧
          ∀ (n : Nat) (k k' : Cmd), g.cmds[n]? = some k → g'.cmds[n]? = some k' → k' = k ∨ ∃ va, k' = k.lose (linkStatus 3 va)) ∧
      ((s.link port).up = true → ∃ t, exec (.flitCrcFail port false) s = .next t ∧ (t.link port).up = true ∧
        (t.link port).replays = ((s.link port).replays + 1) % 2 ^ 32 ∧ (t.link port).failed = 0) ∧
      ((s.link port).up = true → (s.link port).failed < 7 → ∃ t, exec (.flitCrcFail port true) s = .next t ∧ (t.link port).up = true ∧
        (t.link port).failed = (s.link port).failed + 1) ∧
      ((s.link port).up = true → (s.link port).failed = 7 → (∀ r, s.ringHead r = none) →
        ∃ t, exec (.flitCrcFail port true) s = .next t ∧ (t.link port).up = false ∧ ∀ c ∈ t.copies, t.reachable c.2 = true) ∧
      ((s.link port).up = true → (∀ r, s.ringHead r = none) → ∃ t, exec (.laneLockLoss port) s = .next t ∧ (t.link port).up = false ∧
        (∀ q, q ≠ port → t.link q = s.link q) ∧ ∀ c, c ∈ t.copies ↔ c ∈ s.copies ∧ t.reachable c.2 = true)) ∧
    (∀ cap, (∃ t, exec (.powerRun cap) s = .next t ∧ t.power = 0 ∧ t.admitting = true ∧ { t with power := s.power, mgmt := s.mgmt } = s) ∧
      (∃ t, exec (.powerHold cap) s = .next t ∧ t.power = 1 ∧ t.admitting = false ∧ { t with power := s.power, mgmt := s.mgmt } = s) ∧
      (∃ t, exec (.powerLow cap) s = .next t ∧ t.power = s.power ∧ t.admitting = false ∧ { t with mgmt := s.mgmt } = s)) ∧
    (field (s.mg Mgmt.powerctl) 17 16 = 2 → (∀ g ∈ s.gangs, g.released = true) → exec .lowPowerEntry s = .next { s with power := 2 }) ∧
    (∀ die m, s.mhz[die]? = some m →
      exec (.clockStep die true) s = .next { s with mhz := s.mhz.set die (Min.min 4000 (m + 100)) } ∧
      (3300 ≤ m → exec (.clockStep die false) s = .next { s with mhz := s.mhz.set die (m - 100) }) ∧
      (100 < m → (∀ g ∈ s.gangs, g.released = true) → exec (.clockStep die false) s = .next { s with mhz := s.mhz.set die (m - 100) }) ∧
      (m < 3300 → (∃ g ∈ s.gangs, g.released = false) → exec (.clockStep die false) s = .next s)) ∧
    (∀ value : W64, ∃ t, exec (.registerWrite Mgmt.ringtmo value) s = .next t ∧ t.mg Mgmt.ringtmo = value.toNat % 2 ^ 32 ∧
      (∀ o, o ≠ Mgmt.ringtmo → t.mg o = s.mg o) ∧ { t with mgmt := s.mgmt } = s) ∧
    (∀ image, s.boot.1 = 0 → exec (.firmwareMeasure image) s = .next { s with
      boot := (1, 0), meas := s.meas.set 0 (shake256 (s.meas.getD 0 [] ++ image) 64) }) ∧
    (∀ k data, s.boot.1 ≠ 0 → 1 ≤ k → k ≤ 7 → exec (.measurementExtend k data) s = .next { s with
      meas := s.meas.set k (shake256 (s.meas.getD k [] ++ data) 64) }) ∧
    (s.boot.1 = 1 → ∃ t, exec (.bootReady 0) s = .next t ∧ t.boot = (2, 0) ∧
      (s.coldStart = true → t.poison = [] ∧ ∀ c ∈ t.mem, Config.localHbm ≤ c.1) ∧ (s.coldStart = false → t.mem = s.mem)) ∧
    (∃ t, exec .coldReset s = .next t ∧ t = { State.reset with
      agenda := s.agenda, free := s.free, mem := s.mem.filter fun c => decide (Config.localHbm ≤ c.1), poison := [], coldStart := true }) ∧
    exec .warmReset s = .next { State.reset with agenda := s.agenda, free := s.free, mem := s.mem, poison := s.poison, coldStart := false }

/-! ## Decoding, steps, reset, invariants -/

/-- Words written out bit by bit from the encodings of the spec decode to the instructions they stand for, one or two of each
row of the opcode map (02 R31 to R36, R41; the rule of each instruction). -/
def Obligations.DecodedWords : Prop :=
  decode [0x00000000] = .ok .nop ∧
  decode [0x100000E4, 0xFFFFFFF0] = .error .reservedBits ∧
  decode [0x10000000, 0xFFFFFFF0] = .ok (.br 0xFFFFFFF0) ∧
  decode [0x2081A0F0, 0x00000007] = .ok (.add (.x 1) (.s 0) (.imm 7)) ∧
  decode [0x30658081] = .ok (.cmp 6 5 (.x 0) (.x 1)) ∧
  decode [0x44050102, 0x00000204] = .ok (.ffma3 (.v 5) (.v 1) (.v 2) (.v 4) 1 0) ∧
  decode [0x58030164] = .error .reservedBits ∧
  decode [0x58030134] = .ok (.cvt (.v 3) (.v 1) 3 4) ∧
  decode [0x6A0903F0, 0x000000FF] = .ok (.gred (.v 9) (.v 3) (.imm 0xFF)) ∧
  decode [0x75030905] = .error .reservedBits ∧
  decode [0x75030003] = .ok (.pmov 3 0 1 1) ∧
  decode [0x80048350, 0x00102040] = .ok (.ld (.v 4) (.x 3) 5 ⟨0x0010, 1, 0, 0, 2, 0⟩) ∧
  decode [0xA000A423, 0x64508300] = .ok (.cpy (.s 4) 2 3 ⟨3, 0, 1, 5, 2, 3, 0⟩) ∧
  decode [0xB00208F0, 0x11200000, 0xFFFFFFFE] = .ok (.mma 2 (.v 8) (.imm 0xFFFFFFFE) ⟨1, 1, 1, 0, 0, 0, 0⟩) ∧
  decode [0xC4010E02] = .ok (.ttset 1 (.v 14) 2) ∧
  decode [0xD0F0A135, 0x00000005] = .ok (.gath 15 (.s 1) 3 5 ⟨0, 0, 0, 0, 0, 0, 5⟩) ∧
  decode [0xE000200A] = .ok (.bar 32 10) ∧
  decode [0xEB00A600] = .ok (.ring (.s 6)) ∧
  decode [0xF0000000] = .error .reservedOpcode

/-- Decoding an encoded instruction gives it back: every well-formed instruction, with every operand and field at every value
that its encoding takes (02 R31 to R36, R41, R42). -/
def Obligations.DecodeOfEncode : Prop :=
  ∀ i : Instr, isInstruction i = true → i.wf = true → decode (encode i) = .ok i

/-- Encoding a decoded instruction gives back the words it was decoded from, up to its decoded length: a word has one meaning,
and no bit of it is dropped (02 R31 to R36, R41, R42). -/
def Obligations.EncodeOfDecode : Prop :=
  ∀ (m : W32) (ws : List W32) (i : Instr), decode (m :: ws) = .ok i → encode i = (m :: ws).take (lengthOf m)

/-- A step makes the first move of the agenda. Where that is the issue of a strand that may issue, whose words at its pc
decode, whose registers are in reach and wait for nothing, the step is that instruction's effect, with what surrounds every
issue: it is undone where a write-back does not fit the row budget (06 R150), near lines are trimmed to their ways (09 R234),
stores that reached the launch window are taken up (05 R130), spill blocks stand in memory (09 R236). Where it is an event, the
step is the event's effect (02 R23 to R26, R42; log 1). Before every instruction but those of `quiet`, and before every event but the performing of one access,
stores that only some scope instance reads are performed for every agent (11 R292, R297; log 86). -/
def Obligations.StepRunsInstruction : Prop :=
  (∀ (s s1 : State) (rest : List Move) (gid k fall : Nat) (g : Gang) (st : Strand) (ws : List W32) (i : Instr),
    s.agenda = .issue gid k :: rest →
    let s0 : State := { s with agenda := rest, issue := none }
    s0.gang? gid = some g → g.strand? k = some st → s0.mayIssue g st = true → s0.fetch g st.pc = (s1, .ok ws fall) →
    decode ws = .ok i → g.missing i = [] → s1.readsSpoilt g i = false →
    g.scoreboard i = false → g.drawsPending = false → g.heatBlocks i = false →
    let is : Issue := { gang := gid, slice := k, pc := st.pc, fall := fall, words := ws }
    let s2 := if quiet i then s1 else s1.drainSeen
    ∀ t, exec i { s2 with issue := some is } = .next t →
      let after := State.settleIssue s2 t g st is i (s2.lineWords g st.pc)
      step s = .next (State.settle { s with agenda := rest } (({ after with issue := none } : State).trimNear g.core))) ∧
  ∀ (s : State) (rest : List Move) (i : Instr), s.agenda = .event i :: rest →
    let s0 : State := { s with agenda := rest, issue := none }
    step s = match exec i (match i with | .accessPerformed _ _ => s0 | _ => s0.drainSeen) with
      | .next t => .next (State.settle { s with agenda := rest } t)
      | r => r

/-- Nothing stops: every instruction that a strand issues and every event answers a next state, whatever the state holds; a
step whose agenda names no instruction as an event answers one (02 R42: what is not executed raises a trap). -/
def Obligations.EveryInstructionAnswers : Prop :=
  (∀ (i : Instr) (s : State), isInstruction i = false ∨ s.ctx.isSome = true → ∃ t, exec i s = .next t) ∧
  ∀ s : State, (∀ m ∈ s.agenda, m.proper = true) → ∃ t, step s = .next t

/-- After a cold reset there is no grid, team or gang, no launch is pending and every queue is disabled; RINGTMO
holds 0x1000000, every LINKMAP entry 0x1F, every other management register zero, so the bases are invalid; MEAS0 to MEAS7 are
zero, every ring is broken, no link is up; caches, scratch and chip scratch hold nothing; memory is in its canonical form and every place of it reads zero (18 R453; that
memory reads zero before start is log 3, the registers without a reset value log 4). -/
def Obligations.ResetState : Prop :=
  let s := State.reset
  s.gangs = [] ∧ s.teams = [] ∧ s.grids = [] ∧ s.pendings = [] ∧ s.saved = [] ∧ s.agenda = [] ∧
  (∀ q, q < 64 → (s.queues.getD q Queue.fresh).enable = false) ∧ s.mg Mgmt.ringtmo = 0x1000000 ∧
  (∀ g, g < 64 → s.mg (Mgmt.linkmap g) = 0x1F) ∧ (∀ o, o ≠ Mgmt.ringtmo → o < 0x1200 ∨ 0x1400 ≤ o → s.mg o = 0) ∧
  (∀ k, k < 8 → s.meas.getD k [] = List.replicate 64 0) ∧ (∀ r, r < 8 → (s.rings.getD r RingState.fresh).ready = false) ∧
  (∀ p, p < 18 → (s.link p).up = false) ∧ s.tlb = [] ∧ s.icache = [] ∧ s.fills = [] ∧ s.near = [] ∧ s.chip = [] ∧ s.counted = [] ∧
  s.copies = [] ∧ s.gathers = [] ∧ s.sessions = [] ∧ s.bulk = [] ∧ s.quotes = [] ∧ s.reports = [] ∧ s.poison = [] ∧ s.damaged = [] ∧
  s.power = 0 ∧ s.mhz = List.replicate 8 4000 ∧ s.boot = (0, 0) ∧
  Memory.wf s.mem = true ∧ ∀ pa, s.isWindow (.phys pa) = false → s.byteAt (.phys pa) = 0

/-- Memory keeps its canonical form, addresses strictly rising and no entry that an unlisted address reads as, through every
step from every state. -/
def Obligations.MemoryCanonicalKept : Prop :=
  ∀ s t : State, Memory.wf s.mem = true → step s = .next t → Memory.wf t.mem = true
end

