-- ==== Sys2Proof/Laws/Encoding.lean ====
section
/-! SUPPORT. Bits of words put together come apart again: operand codes, fixed words, an instruction's words. -/

namespace Sys2Proof

theorem bits_high {m n : Nat} (a : BitVec m) (b : BitVec n) : (a ++ b).extractLsb' n m = a := by
  ext i hi; simp [BitVec.getLsbD_append, BitVec.getLsbD_eq_getElem hi]

theorem bits_low {m n : Nat} (a : BitVec m) (b : BitVec n) : (a ++ b).extractLsb' 0 n = b := by
  ext i hi; simp [BitVec.getLsbD_append, hi]

theorem bits_above {m n k l : Nat} (a : BitVec m) (b : BitVec n) : (a ++ b).extractLsb' (n + l) k = a.extractLsb' l k := by
  ext i hi; simp [BitVec.getLsbD_append, Nat.add_assoc]

theorem bits_word (o d a b : BitVec 8) : bitsAt 24 8 (o ++ d ++ a ++ b : W32) = o ∧ bitsAt 16 8 (o ++ d ++ a ++ b : W32) = d ∧
    bitsAt 8 8 (o ++ d ++ a ++ b : W32) = a ∧ bitsAt 0 8 (o ++ d ++ a ++ b : W32) = b := by
  refine ⟨?_, ?_, ?_, bits_low (o ++ d ++ a) b⟩
  · exact (bits_above (l := 16) (o ++ d ++ a) b).trans ((bits_above (l := 8) (o ++ d) a).trans (bits_high o d))
  · exact (bits_above (l := 8) (o ++ d ++ a) b).trans ((bits_above (l := 0) (o ++ d) a).trans (bits_low o d))
  · exact (bits_above (l := 0) (o ++ d ++ a) b).trans (bits_low (o ++ d) a)

theorem bits_join {m n : Nat} (w : BitVec (m + n)) : w.extractLsb' n m ++ w.extractLsb' 0 n = w := by
  ext i hi
  simp

theorem Raw.split_words (r : Raw) (hA : r.immA.length = immWords (codeA r.op) r.a)
    (hB : r.immB.length = immWords (codeB r.op) r.b) (hx : hasFixed r.op = false → r.ext = 0)
    (hl : r.words.length ≤ 4) : Raw.split r.words = .ok r := by
  obtain ⟨op, d, a, b, ext, iA, iB⟩ := r
  simp only at hA hB hx
  obtain ⟨e0, e1, e2, e3⟩ := bits_word op d a b
  cases hf : hasFixed op with
  | false =>
    simp [Raw.words, hf] at hl
    simp only [Raw.split, Raw.words, e0, e1, e2, e3, hf, ← hA, ← hB]
    have h4 : ¬4 < 1 + iA.length + iB.length := by omega
    simp [hx hf, h4]
  | true =>
    simp [Raw.words, hf] at hl
    simp only [Raw.split, Raw.words, e0, e1, e2, e3, hf, ← hA, ← hB]
    have h4 : ¬4 < 1 + 1 + iA.length + iB.length := by omega
    simp [h4, Nat.add_comm 1]
    omega

theorem ok_of_toOption {ε α : Type} {e : Except ε α} {a : α} (h : e.toOption = some a) : e = .ok a := by
  cases e with
  | error x => cases h
  | ok x => cases h; rfl

theorem Src.ofCode_code (a : Src) : Src.ofCode a.code a.imms = .ok a := by
  apply ok_of_toOption
  cases a with
  | v n => revert n; decide
  | x n => revert n; decide
  | s n => revert n; decide
  | lat n => revert n; decide
  | zero => decide
  | id c => cases c <;> decide
  | imm w => rfl
  | imm64 w =>
    have h : (bitsAt 32 32 w ++ bitsAt 0 32 w : W64) = w := bits_join (m := 32) (n := 32) w
    simp [Src.ofCode, Src.code, Src.imms, h, Except.toOption]

/-- A code that no immediate word follows. -/
theorem Src.ofCode_plain {a : Src} (h : a.imms = []) : Src.ofCode a.code [] = .ok a := by
  rw [← h]; exact a.ofCode_code

theorem Src.imms_store {d : Src} {sz : BitVec 3} (h : Accept.srcStore d sz = true) : d.imms = [] := by
  cases d <;> simp_all [Accept.srcStore, Src.imms]

theorem Src.length_imms (a : Src) : a.imms.length = immWords true a.code := by
  cases a with
  | v n => revert n; decide
  | x n => revert n; decide
  | s n => revert n; decide
  | lat n => revert n; decide
  | zero => decide
  | id c => cases c <;> decide
  | imm w => rfl
  | imm64 w => rfl

theorem Dst.ofCode_code (d : Dst) : Dst.ofCode d.code = .ok d := by
  apply ok_of_toOption
  cases d with
  | v n => revert n; decide
  | x n => revert n; decide
  | s n => revert n; decide
  | l0 => decide
  | zero => decide

theorem bits_up {m n l k : Nat} (a : BitVec m) (b : BitVec n) (h : n ≤ l) : (a ++ b).extractLsb' l k = a.extractLsb' (l - n) k := by
  obtain ⟨j, rfl⟩ := Nat.le.dest h
  rw [Nat.add_sub_cancel_left]; exact bits_above a b

theorem bits_all {n : Nat} (a : BitVec n) : a.extractLsb' 0 n = a := by
  ext i hi; simp

theorem AccWord.of_word (w : AccWord) : AccWord.of w.word = .ok w := by
  obtain ⟨disp, order, scope, cache, size, ext⟩ := w
  have h0 : bitsAt 0 3 (AccWord.word ⟨disp, order, scope, cache, size, ext⟩) = 0#3 := bits_low _ 0#3
  have h1 : bitsAt 3 2 (AccWord.word ⟨disp, order, scope, cache, size, ext⟩) = ext :=
    (bits_above (l := 0) (disp ++ order ++ scope ++ cache ++ size ++ ext) 0#3).trans (bits_low _ ext)
  have h2 : bitsAt 5 3 (AccWord.word ⟨disp, order, scope, cache, size, ext⟩) = size :=
    (bits_above (l := 2) (disp ++ order ++ scope ++ cache ++ size ++ ext) 0#3).trans
      ((bits_above (l := 0) (disp ++ order ++ scope ++ cache ++ size) ext).trans (bits_low _ size))
  have h3 : bitsAt 8 2 (AccWord.word ⟨disp, order, scope, cache, size, ext⟩) = cache :=
    (bits_above (l := 5) (disp ++ order ++ scope ++ cache ++ size ++ ext) 0#3).trans
      ((bits_above (l := 3) (disp ++ order ++ scope ++ cache ++ size) ext).trans
        ((bits_above (l := 0) (disp ++ order ++ scope ++ cache) size).trans (bits_low _ cache)))
  have h4 : bitsAt 10 3 (AccWord.word ⟨disp, order, scope, cache, size, ext⟩) = scope :=
    (bits_above (l := 7) (disp ++ order ++ scope ++ cache ++ size ++ ext) 0#3).trans
      ((bits_above (l := 5) (disp ++ order ++ scope ++ cache ++ size) ext).trans
        ((bits_above (l := 2) (disp ++ order ++ scope ++ cache) size).trans
          ((bits_above (l := 0) (disp ++ order ++ scope) cache).trans (bits_low _ scope))))
  have h5 : bitsAt 13 3 (AccWord.word ⟨disp, order, scope, cache, size, ext⟩) = order :=
    (bits_above (l := 10) (disp ++ order ++ scope ++ cache ++ size ++ ext) 0#3).trans
      ((bits_above (l := 8) (disp ++ order ++ scope ++ cache ++ size) ext).trans
        ((bits_above (l := 5) (disp ++ order ++ scope ++ cache) size).trans
          ((bits_above (l := 3) (disp ++ order ++ scope) cache).trans
            ((bits_above (l := 0) (disp ++ order) scope).trans (bits_low _ order)))))
  have h6 : bitsAt 16 16 (AccWord.word ⟨disp, order, scope, cache, size, ext⟩) = disp :=
    (bits_above (l := 13) (disp ++ order ++ scope ++ cache ++ size ++ ext) 0#3).trans
      ((bits_above (l := 11) (disp ++ order ++ scope ++ cache ++ size) ext).trans
        ((bits_above (l := 8) (disp ++ order ++ scope ++ cache) size).trans
          ((bits_above (l := 6) (disp ++ order ++ scope) cache).trans
            ((bits_above (l := 3) (disp ++ order) scope).trans (bits_high disp order)))))
  simp only [AccWord.of, h0, h1, h2, h3, h4, h5, h6]; rfl

theorem CmdWord.of_word (w : CmdWord) : CmdWord.of w.word = w := by
  obtain ⟨scope, cache, lcen, lcreg, doff, soff, xtra⟩ := w
  have h0 : bitsAt 0 8 (CmdWord.word ⟨scope, cache, lcen, lcreg, doff, soff, xtra⟩) = xtra := bits_low _ xtra
  have h1 : bitsAt 8 6 (CmdWord.word ⟨scope, cache, lcen, lcreg, doff, soff, xtra⟩) = soff :=
    (bits_above (l := 0) (scope ++ cache ++ lcen ++ lcreg ++ doff ++ soff) xtra).trans (bits_low _ soff)
  have h2 : bitsAt 14 6 (CmdWord.word ⟨scope, cache, lcen, lcreg, doff, soff, xtra⟩) = doff :=
    (bits_above (l := 6) (scope ++ cache ++ lcen ++ lcreg ++ doff ++ soff) xtra).trans
      ((bits_above (l := 0) (scope ++ cache ++ lcen ++ lcreg ++ doff) soff).trans (bits_low _ doff))
  have h3 : bitsAt 20 6 (CmdWord.word ⟨scope, cache, lcen, lcreg, doff, soff, xtra⟩) = lcreg :=
    (bits_above (l := 12) (scope ++ cache ++ lcen ++ lcreg ++ doff ++ soff) xtra).trans
      ((bits_above (l := 6) (scope ++ cache ++ lcen ++ lcreg ++ doff) soff).trans
        ((bits_above (l := 0) (scope ++ cache ++ lcen ++ lcreg) doff).trans (bits_low _ lcreg)))
  have h4 : bitsAt 26 1 (CmdWord.word ⟨scope, cache, lcen, lcreg, doff, soff, xtra⟩) = lcen :=
    (bits_above (l := 18) (scope ++ cache ++ lcen ++ lcreg ++ doff ++ soff) xtra).trans
      ((bits_above (l := 12) (scope ++ cache ++ lcen ++ lcreg ++ doff) soff).trans
        ((bits_above (l := 6) (scope ++ cache ++ lcen ++ lcreg) doff).trans
          ((bits_above (l := 0) (scope ++ cache ++ lcen) lcreg).trans (bits_low _ lcen))))
  have h5 : bitsAt 27 2 (CmdWord.word ⟨scope, cache, lcen, lcreg, doff, soff, xtra⟩) = cache :=
    (bits_above (l := 19) (scope ++ cache ++ lcen ++ lcreg ++ doff ++ soff) xtra).trans
      ((bits_above (l := 13) (scope ++ cache ++ lcen ++ lcreg ++ doff) soff).trans
        ((bits_above (l := 7) (scope ++ cache ++ lcen ++ lcreg) doff).trans
          ((bits_above (l := 1) (scope ++ cache ++ lcen) lcreg).trans
            ((bits_above (l := 0) (scope ++ cache) lcen).trans (bits_low _ cache)))))
  have h6 : bitsAt 29 3 (CmdWord.word ⟨scope, cache, lcen, lcreg, doff, soff, xtra⟩) = scope :=
    (bits_above (l := 21) (scope ++ cache ++ lcen ++ lcreg ++ doff ++ soff) xtra).trans
      ((bits_above (l := 15) (scope ++ cache ++ lcen ++ lcreg ++ doff) soff).trans
        ((bits_above (l := 9) (scope ++ cache ++ lcen ++ lcreg) doff).trans
          ((bits_above (l := 3) (scope ++ cache ++ lcen) lcreg).trans
            ((bits_above (l := 2) (scope ++ cache) lcen).trans (bits_high scope cache)))))
  simp only [CmdWord.of, h0, h1, h2, h3, h4, h5, h6]

theorem ModWord.of_word (w : ModWord) : ModWord.of w.word = .ok w := by
  obtain ⟨fmta, fmtb, shape, nega, negb, accoff, reuse⟩ := w
  have h0 : bitsAt 0 17 (ModWord.word ⟨fmta, fmtb, shape, nega, negb, accoff, reuse⟩) = 0#17 := bits_low _ 0#17
  have h1 : bitsAt 17 1 (ModWord.word ⟨fmta, fmtb, shape, nega, negb, accoff, reuse⟩) = reuse :=
    (bits_above (l := 0) (fmta ++ fmtb ++ shape ++ nega ++ negb ++ accoff ++ reuse) 0#17).trans (bits_low _ reuse)
  have h2 : bitsAt 18 1 (ModWord.word ⟨fmta, fmtb, shape, nega, negb, accoff, reuse⟩) = accoff :=
    (bits_above (l := 1) (fmta ++ fmtb ++ shape ++ nega ++ negb ++ accoff ++ reuse) 0#17).trans
      ((bits_above (l := 0) (fmta ++ fmtb ++ shape ++ nega ++ negb ++ accoff) reuse).trans (bits_low _ accoff))
  have h3 : bitsAt 19 1 (ModWord.word ⟨fmta, fmtb, shape, nega, negb, accoff, reuse⟩) = negb :=
    (bits_above (l := 2) (fmta ++ fmtb ++ shape ++ nega ++ negb ++ accoff ++ reuse) 0#17).trans
      ((bits_above (l := 1) (fmta ++ fmtb ++ shape ++ nega ++ negb ++ accoff) reuse).trans
        ((bits_above (l := 0) (fmta ++ fmtb ++ shape ++ nega ++ negb) accoff).trans (bits_low _ negb)))
  have h4 : bitsAt 20 1 (ModWord.word ⟨fmta, fmtb, shape, nega, negb, accoff, reuse⟩) = nega :=
    (bits_above (l := 3) (fmta ++ fmtb ++ shape ++ nega ++ negb ++ accoff ++ reuse) 0#17).trans
      ((bits_above (l := 2) (fmta ++ fmtb ++ shape ++ nega ++ negb ++ accoff) reuse).trans
        ((bits_above (l := 1) (fmta ++ fmtb ++ shape ++ nega ++ negb) accoff).trans
          ((bits_above (l := 0) (fmta ++ fmtb ++ shape ++ nega) negb).trans (bits_low _ nega))))
  have h5 : bitsAt 21 3 (ModWord.word ⟨fmta, fmtb, shape, nega, negb, accoff, reuse⟩) = shape :=
    (bits_above (l := 4) (fmta ++ fmtb ++ shape ++ nega ++ negb ++ accoff ++ reuse) 0#17).trans
      ((bits_above (l := 3) (fmta ++ fmtb ++ shape ++ nega ++ negb ++ accoff) reuse).trans
        ((bits_above (l := 2) (fmta ++ fmtb ++ shape ++ nega ++ negb) accoff).trans
          ((bits_above (l := 1) (fmta ++ fmtb ++ shape ++ nega) negb).trans
            ((bits_above (l := 0) (fmta ++ fmtb ++ shape) nega).trans (bits_low _ shape)))))
  have h6 : bitsAt 24 4 (ModWord.word ⟨fmta, fmtb, shape, nega, negb, accoff, reuse⟩) = fmtb :=
    (bits_above (l := 7) (fmta ++ fmtb ++ shape ++ nega ++ negb ++ accoff ++ reuse) 0#17).trans
      ((bits_above (l := 6) (fmta ++ fmtb ++ shape ++ nega ++ negb ++ accoff) reuse).trans
        ((bits_above (l := 5) (fmta ++ fmtb ++ shape ++ nega ++ negb) accoff).trans
          ((bits_above (l := 4) (fmta ++ fmtb ++ shape ++ nega) negb).trans
            ((bits_above (l := 3) (fmta ++ fmtb ++ shape) nega).trans
              ((bits_above (l := 0) (fmta ++ fmtb) shape).trans (bits_low _ fmtb))))))
  have h7 : bitsAt 28 4 (ModWord.word ⟨fmta, fmtb, shape, nega, negb, accoff, reuse⟩) = fmta :=
    (bits_above (l := 11) (fmta ++ fmtb ++ shape ++ nega ++ negb ++ accoff ++ reuse) 0#17).trans
      ((bits_above (l := 10) (fmta ++ fmtb ++ shape ++ nega ++ negb ++ accoff) reuse).trans
        ((bits_above (l := 9) (fmta ++ fmtb ++ shape ++ nega ++ negb) accoff).trans
          ((bits_above (l := 8) (fmta ++ fmtb ++ shape ++ nega) negb).trans
            ((bits_above (l := 7) (fmta ++ fmtb ++ shape) nega).trans
              ((bits_above (l := 4) (fmta ++ fmtb) shape).trans (bits_high fmta fmtb))))))
  simp only [ModWord.of, h0, h1, h2, h3, h4, h5, h6, h7]; rfl

/-! Fields of a byte of the main word. -/

set_option maxRecDepth 4000

theorem byte_f4_f3_f1 (a : BitVec 4) (b : BitVec 3) (c : BitVec 1) :
    bitsAt 4 4 (a ++ b ++ c : BitVec 8) = a ∧
    bitsAt 1 3 (a ++ b ++ c : BitVec 8) = b ∧
    bitsAt 0 1 (a ++ b ++ c : BitVec 8) = c := by
  revert a b c; decide

theorem byte_f4_f1_k3 (a : BitVec 4) (b : BitVec 1) :
    bitsAt 4 4 (a ++ b ++ 0#3 : BitVec 8) = a ∧
    bitsAt 3 1 (a ++ b ++ 0#3 : BitVec 8) = b ∧
    bitsAt 0 3 (a ++ b ++ 0#3 : BitVec 8) = 0#3 := by
  revert a b; decide

theorem byte_k6_f2 (a : BitVec 2) :
    bitsAt 2 6 (0#6 ++ a : BitVec 8) = 0#6 ∧
    bitsAt 0 2 (0#6 ++ a : BitVec 8) = a := by
  revert a; decide

theorem byte_k7_f1 (a : BitVec 1) :
    bitsAt 1 7 (0#7 ++ a : BitVec 8) = 0#7 ∧
    bitsAt 0 1 (0#7 ++ a : BitVec 8) = a := by
  revert a; decide

theorem byte_k5_f3 (a : BitVec 3) :
    bitsAt 3 5 (0#5 ++ a : BitVec 8) = 0#5 ∧
    bitsAt 0 3 (0#5 ++ a : BitVec 8) = a := by
  revert a; decide

theorem byte_k4_f4 (a : BitVec 4) :
    bitsAt 4 4 (0#4 ++ a : BitVec 8) = 0#4 ∧
    bitsAt 0 4 (0#4 ++ a : BitVec 8) = a := by
  revert a; decide

theorem byte_k3_f5 (a : BitVec 5) :
    bitsAt 5 3 (0#3 ++ a : BitVec 8) = 0#3 ∧
    bitsAt 0 5 (0#3 ++ a : BitVec 8) = a := by
  revert a; decide

theorem byte_k2_f6 (a : BitVec 6) :
    bitsAt 6 2 (0#2 ++ a : BitVec 8) = 0#2 ∧
    bitsAt 0 6 (0#2 ++ a : BitVec 8) = a := by
  revert a; decide

theorem byte_f4_k1_f3 (a : BitVec 4) (b : BitVec 3) :
    bitsAt 4 4 (a ++ 0#1 ++ b : BitVec 8) = a ∧
    bitsAt 3 1 (a ++ 0#1 ++ b : BitVec 8) = 0#1 ∧
    bitsAt 0 3 (a ++ 0#1 ++ b : BitVec 8) = b := by
  revert a b; decide

theorem byte_k2_f2_f4 (a : BitVec 2) (b : BitVec 4) :
    bitsAt 6 2 (0#2 ++ a ++ b : BitVec 8) = 0#2 ∧
    bitsAt 4 2 (0#2 ++ a ++ b : BitVec 8) = a ∧
    bitsAt 0 4 (0#2 ++ a ++ b : BitVec 8) = b := by
  revert a b; decide

theorem byte_k6_f1_f1 (a : BitVec 1) (b : BitVec 1) :
    bitsAt 2 6 (0#6 ++ a ++ b : BitVec 8) = 0#6 ∧
    bitsAt 1 1 (0#6 ++ a ++ b : BitVec 8) = a ∧
    bitsAt 0 1 (0#6 ++ a ++ b : BitVec 8) = b := by
  revert a b; decide

theorem byte_f4_k4 (a : BitVec 4) :
    bitsAt 4 4 (a ++ 0#4 : BitVec 8) = a ∧
    bitsAt 0 4 (a ++ 0#4 : BitVec 8) = 0#4 := by
  revert a; decide

theorem byte_f4_f4 (a : BitVec 4) (b : BitVec 4) :
    bitsAt 4 4 (a ++ b : BitVec 8) = a ∧
    bitsAt 0 4 (a ++ b : BitVec 8) = b := by
  revert a b; decide

theorem byte_f4_k3_f1 (a : BitVec 4) (b : BitVec 1) :
    bitsAt 4 4 (a ++ 0#3 ++ b : BitVec 8) = a ∧
    bitsAt 1 3 (a ++ 0#3 ++ b : BitVec 8) = 0#3 ∧
    bitsAt 0 1 (a ++ 0#3 ++ b : BitVec 8) = b := by
  revert a b; decide

theorem byte_k3_f1_f4 (a : BitVec 1) (b : BitVec 4) :
    bitsAt 5 3 (0#3 ++ a ++ b : BitVec 8) = 0#3 ∧
    bitsAt 4 1 (0#3 ++ a ++ b : BitVec 8) = a ∧
    bitsAt 0 4 (0#3 ++ a ++ b : BitVec 8) = b := by
  revert a b; decide

theorem byte_k1_f7 (a : BitVec 7) :
    bitsAt 7 1 (0#1 ++ a : BitVec 8) = 0#1 ∧
    bitsAt 0 7 (0#1 ++ a : BitVec 8) = a := by
  revert a; decide

theorem byte_o1_f3_k1_f3 (a : BitVec 3) (b : BitVec 3) :
    bitsAt 7 1 (1#1 ++ a ++ 0#1 ++ b : BitVec 8) = 1#1 ∧
    bitsAt 4 3 (1#1 ++ a ++ 0#1 ++ b : BitVec 8) = a ∧
    bitsAt 3 1 (1#1 ++ a ++ 0#1 ++ b : BitVec 8) = 0#1 ∧
    bitsAt 0 3 (1#1 ++ a ++ 0#1 ++ b : BitVec 8) = b := by
  revert a b; decide

theorem byte_f1_k5_f2 (a : BitVec 1) (b : BitVec 2) :
    bitsAt 7 1 (a ++ 0#5 ++ b : BitVec 8) = a ∧
    bitsAt 2 5 (a ++ 0#5 ++ b : BitVec 8) = 0#5 ∧
    bitsAt 0 2 (a ++ 0#5 ++ b : BitVec 8) = b := by
  revert a b; decide

theorem byte_k1_f1_f1_f5 (a : BitVec 1) (b : BitVec 1) (c : BitVec 5) :
    bitsAt 7 1 (0#1 ++ a ++ b ++ c : BitVec 8) = 0#1 ∧
    bitsAt 6 1 (0#1 ++ a ++ b ++ c : BitVec 8) = a ∧
    bitsAt 5 1 (0#1 ++ a ++ b ++ c : BitVec 8) = b ∧
    bitsAt 0 5 (0#1 ++ a ++ b ++ c : BitVec 8) = c := by
  revert a b c; decide

theorem byte_f6_f2 (a : BitVec 6) (b : BitVec 2) :
    bitsAt 2 6 (a ++ b : BitVec 8) = a ∧
    bitsAt 0 2 (a ++ b : BitVec 8) = b := by
  revert a b; decide

theorem byte_f2_f6 (a : BitVec 2) (b : BitVec 6) :
    bitsAt 6 2 (a ++ b : BitVec 8) = a ∧
    bitsAt 0 6 (a ++ b : BitVec 8) = b := by
  revert a b; decide

end Sys2Proof
end

