-- ==== Sys2Proof/Laws/Lists.lean ====
section
/-! SUPPORT. Lists changed by place (`mapI`): what stands at a place after, and maps composed; a keyed list with one element
replaced. -/

namespace Sys2Proof.Machine

theorem getD_mapI {α β : Type} (f : Nat → α → β) (d : β) (e : α) (l : List α) :
    ∀ (n k : Nat), (mapI f n l).getD k d = if k < l.length then f (n + k) (l.getD k e) else d := by
  induction l with
  | nil => intro n k; simp [mapI]
  | cons a l ih =>
    intro n k
    cases k with
    | zero => simp [mapI]
    | succ k => simpa [mapI, Nat.add_assoc, Nat.add_comm 1] using ih (n + 1) k

@[simp] theorem length_mapI {α β : Type} (f : Nat → α → β) (l : List α) : ∀ n, (mapI f n l).length = l.length := by
  induction l with
  | nil => intro n; rfl
  | cons a l ih => intro n; simp [mapI, ih]

/-- A list keyed by `key` with one key's element replaced by one of the same key: what a search for a key finds. -/
theorem find?_replace {α : Type} (key : α → Nat) (l : List α) (g : α) (n : Nat) :
    (l.map fun h => if key h = key g then g else h).find? (fun h => decide (key h = n)) =
      if n = key g then (l.find? fun h => decide (key h = n)).map fun _ => g else l.find? fun h => decide (key h = n) := by
  induction l with
  | nil => simp
  | cons a l ih =>
    by_cases h1 : key a = key g
    · by_cases h2 : n = key g
      · simp [List.find?, h1, h2]
      · have h3 : ¬key g = n := fun h => h2 h.symm
        simp [List.find?, h1, h2, h3] at ih ⊢; exact ih
    · by_cases h4 : key a = n
      · have h2 : ¬n = key g := fun h => h1 (h4.trans h)
        simp [List.find?, h4, h2]
      · simp [List.find?, h1, h4]; simpa using ih

/-- Two maps by place whose results agree. -/
theorem mapI_same {α β : Type} {f g : Nat → α → β} (h : ∀ n a, f n a = g n a) (l : List α) : ∀ n, mapI f n l = mapI g n l := by
  induction l with
  | nil => intro n; rfl
  | cons a l ih => intro n; simp [mapI, h, ih]

theorem map_mapI {α β γ : Type} (h : β → γ) (f : Nat → α → β) (l : List α) : ∀ n, (mapI f n l).map h = mapI (fun n a => h (f n a)) n l := by
  induction l with
  | nil => intro n; rfl
  | cons a l ih => intro n; simp [mapI, ih]

theorem mapI_const {α β : Type} (f : α → β) (l : List α) : ∀ n, mapI (fun _ => f) n l = l.map f := by
  induction l with
  | nil => intro n; rfl
  | cons a l ih => intro n; simp [mapI, ih]

theorem mapI_mapI {α β γ : Type} (f : Nat → α → β) (h : Nat → β → γ) (l : List α) :
    ∀ n, mapI h n (mapI f n l) = mapI (fun k a => h k (f k a)) n l := by
  induction l with
  | nil => intro n; rfl
  | cons a l ih => intro n; simp [mapI, ih]

theorem mapI_self {α : Type} (f : Nat → α → α) (hf : ∀ k a, f k a = a) (l : List α) : ∀ n, mapI f n l = l := by
  induction l with
  | nil => intro n; rfl
  | cons a l ih => intro n; simp [mapI, hf, ih]

theorem mapI_congr {α β : Type} {f h : Nat → α → β} (l : List α) (d : α) :
    ∀ n, (∀ k, k < l.length → f (n + k) (l.getD k d) = h (n + k) (l.getD k d)) → mapI f n l = mapI h n l := by
  induction l with
  | nil => intro n _; rfl
  | cons a l ih =>
    intro n hk
    have h0 := hk 0 (by simp)
    simp only [Nat.add_zero, List.getD_cons_zero] at h0
    simp only [mapI, h0]
    congr 1
    refine ih (n + 1) fun k hl => ?_
    have := hk (k + 1) (by simpa using hl)
    simpa [Nat.add_assoc, Nat.add_comm 1] using this

end Sys2Proof.Machine
end

