-- ==== Sys2Proof/Laws/Sparse.lean ====
section
/-! SUPPORT. Sparse maps: what a read gives after a write, and that every operation keeps the canonical form. -/

namespace Sys2Proof

variable {α : Type}

@[simp] theorem Sparse.get_nil (d : α) (i : Nat) : Sparse.get d ([] : Sparse α) i = d := rfl

theorem Sparse.get_erase_same (d : α) (m : Sparse α) (i : Nat) : Sparse.get d (m.erase i) i = d := by
  induction m with
  | nil => rfl
  | cons c m ih =>
    obtain ⟨k, v⟩ := c
    by_cases h : i = k <;> simp [Sparse.erase, Sparse.get, h]
    · subst h; exact ih
    · simpa [h] using ih

theorem Sparse.get_erase_other (d : α) (m : Sparse α) {i j : Nat} (h : j ≠ i) :
    Sparse.get d (m.erase i) j = Sparse.get d m j := by
  induction m with
  | nil => rfl
  | cons c m ih =>
    obtain ⟨k, v⟩ := c
    by_cases h1 : i = k
    · subst h1; simp [Sparse.erase, Sparse.get, h, ih]
    · by_cases h2 : j = k <;> simp [Sparse.erase, Sparse.get, h1, h2]
      simpa [h2] using ih

theorem Sparse.get_insert_same (d : α) (m : Sparse α) (i : Nat) (w : α) : Sparse.get d (m.insert i w) i = w := by
  induction m with
  | nil => simp [Sparse.insert, Sparse.get]
  | cons c m ih =>
    obtain ⟨k, v⟩ := c
    by_cases h1 : i = k
    · simp [Sparse.insert, Sparse.get, h1]
    · by_cases h2 : i < k <;> simp [Sparse.insert, Sparse.get, h1, h2]
      exact ih

theorem Sparse.get_insert_other (d : α) (m : Sparse α) {i j : Nat} (w : α) (h : j ≠ i) :
    Sparse.get d (m.insert i w) j = Sparse.get d m j := by
  induction m with
  | nil => simp [Sparse.insert, Sparse.get, h]
  | cons c m ih =>
    obtain ⟨k, v⟩ := c
    by_cases h1 : i = k
    · subst h1; simp [Sparse.insert, Sparse.get, h]
    · by_cases h2 : i < k
      · simp [Sparse.insert, Sparse.get, h1, h2, h]
      · by_cases h3 : j = k <;> simp [Sparse.insert, Sparse.get, h1, h2, h3]
        simpa [h3] using ih

variable [DecidableEq α]

/-- A read after a write: the value written at the key, every other key as before. -/
theorem Sparse.get_set (d : α) (m : Sparse α) (i : Nat) (w : α) (j : Nat) :
    Sparse.get d (Sparse.set d m i w) j = if j = i then w else Sparse.get d m j := by
  unfold Sparse.set
  by_cases h : j = i
  · subst h; by_cases hw : w = d <;> simp [hw, Sparse.get_erase_same, Sparse.get_insert_same]
  · by_cases hw : w = d <;> simp [hw, h, Sparse.get_erase_other d m h, Sparse.get_insert_other d m w h]

theorem Sparse.wfFrom_mono {d : α} {a b : Nat} {m : Sparse α} (h : a ≤ b) (hm : Sparse.wfFrom d b m = true) :
    Sparse.wfFrom d a m = true := by
  cases m with
  | nil => rfl
  | cons c m => simp only [Sparse.wfFrom, Bool.and_eq_true, decide_eq_true_eq] at hm ⊢; exact ⟨⟨Nat.le_trans h hm.1.1, hm.1.2⟩, hm.2⟩

theorem Sparse.wfFrom_erase {d : α} (m : Sparse α) (i : Nat) :
    ∀ {lo}, Sparse.wfFrom d lo m = true → Sparse.wfFrom d lo (m.erase i) = true := by
  induction m with
  | nil => intro lo _; rfl
  | cons c m ih =>
    intro lo hm
    simp only [Sparse.wfFrom, Bool.and_eq_true, decide_eq_true_eq] at hm
    by_cases h : i = c.1
    · simpa [Sparse.erase, h] using Sparse.wfFrom_mono (by omega) (h ▸ ih hm.2)
    · simp [Sparse.erase, h, Sparse.wfFrom, hm.1.1, hm.1.2, ih hm.2]

theorem Sparse.wfFrom_insert {d w : α} (hw : w ≠ d) (m : Sparse α) (i : Nat) :
    ∀ {lo}, lo ≤ i → Sparse.wfFrom d lo m = true → Sparse.wfFrom d lo (m.insert i w) = true := by
  induction m with
  | nil => intro lo hi _; simp [Sparse.insert, Sparse.wfFrom, hi, hw]
  | cons c m ih =>
    intro lo hi hm
    simp only [Sparse.wfFrom, Bool.and_eq_true, decide_eq_true_eq] at hm
    by_cases h : i = c.1
    · simp [Sparse.insert, h, Sparse.wfFrom, hm, hw]
    · by_cases h2 : i < c.1
      · simp [Sparse.insert, h, h2, Sparse.wfFrom, hi, hw, hm.1.2, hm.2] <;> omega
      · simp [Sparse.insert, h, h2, Sparse.wfFrom, hm.1.1, hm.1.2]; exact ih (by omega) hm.2

/-- Every write keeps the canonical form. -/
theorem Sparse.wf_set {d : α} {m : Sparse α} (h : m.wf d = true) (i : Nat) (w : α) : (Sparse.set d m i w).wf d = true := by
  unfold Sparse.set Sparse.wf at *
  split
  · exact Sparse.wfFrom_erase m i h
  · next hw => exact Sparse.wfFrom_insert hw m i (Nat.zero_le _) h

theorem Sparse.wfFrom_filter {d : α} (p : Nat × α → Bool) (m : Sparse α) :
    ∀ {lo}, Sparse.wfFrom d lo m = true → Sparse.wfFrom d lo (m.filter p) = true := by
  induction m with
  | nil => intro lo _; rfl
  | cons c m ih =>
    intro lo hm
    simp only [Sparse.wfFrom, Bool.and_eq_true, decide_eq_true_eq] at hm
    by_cases h : p c = true
    · simp [List.filter, h, Sparse.wfFrom, hm.1.1, hm.1.2, ih hm.2]
    · simpa [List.filter, h] using Sparse.wfFrom_mono (by omega) (ih hm.2)

theorem Sparse.wfFrom_ne {d : α} (m : Sparse α) :
    ∀ {lo}, Sparse.wfFrom d lo m = true → ∀ c ∈ m, c.2 ≠ d := by
  induction m with
  | nil => intro lo _ c hc; cases hc
  | cons e m ih =>
    intro lo hm c hc
    simp only [Sparse.wfFrom, Bool.and_eq_true, decide_eq_true_eq] at hm
    rcases List.mem_cons.1 hc with rfl | hc
    · exact hm.1.2
    · exact ih hm.2 c hc

/-- Cells other than the default inserted one after another keep the canonical form. -/
theorem Sparse.wf_foldl_insert {d : α} (l : List (Nat × α)) (hl : ∀ c ∈ l, c.2 ≠ d) :
    ∀ {m : Sparse α}, m.wf d = true → (l.foldl (fun m c => Sparse.insert m c.1 c.2) m).wf d = true := by
  induction l with
  | nil => intro m h; exact h
  | cons c l ih =>
    intro m h
    exact ih (fun c hc => hl c (List.mem_cons_of_mem _ hc)) (Sparse.wfFrom_insert (hl c (List.mem_cons_self ..)) m c.1 (Nat.zero_le _) h)

end Sys2Proof
end

