-- ==== Sys2Proof/Laws/State.lean ====
section
/-! SUPPORT. One lemma for each field that an update of the state, a gang, a slice or a thread leaves as it was, so that no
proof unfolds a record update. -/

namespace Sys2Proof.Machine

open Sys2Proof

/-! ### State.setGang -/

@[simp] theorem State.agenda_setGang (s : State) (g : Gang) : (s.setGang g).agenda = s.agenda := rfl
@[simp] theorem State.free_setGang (s : State) (g : Gang) : (s.setGang g).free = s.free := rfl
@[simp] theorem State.issue_setGang (s : State) (g : Gang) : (s.setGang g).issue = s.issue := rfl
@[simp] theorem State.cycles_setGang (s : State) (g : Gang) : (s.setGang g).cycles = s.cycles := rfl
@[simp] theorem State.base_setGang (s : State) (g : Gang) : (s.setGang g).base = s.base := rfl
@[simp] theorem State.mhz_setGang (s : State) (g : Gang) : (s.setGang g).mhz = s.mhz := rfl
@[simp] theorem State.seq_setGang (s : State) (g : Gang) : (s.setGang g).seq = s.seq := rfl
@[simp] theorem State.nextGid_setGang (s : State) (g : Gang) : (s.setGang g).nextGid = s.nextGid := rfl
@[simp] theorem State.mem_setGang (s : State) (g : Gang) : (s.setGang g).mem = s.mem := rfl
@[simp] theorem State.poison_setGang (s : State) (g : Gang) : (s.setGang g).poison = s.poison := rfl
@[simp] theorem State.damaged_setGang (s : State) (g : Gang) : (s.setGang g).damaged = s.damaged := rfl
@[simp] theorem State.windowQ_setGang (s : State) (g : Gang) : (s.setGang g).windowQ = s.windowQ := rfl
@[simp] theorem State.counted_setGang (s : State) (g : Gang) : (s.setGang g).counted = s.counted := rfl
@[simp] theorem State.regions_setGang (s : State) (g : Gang) : (s.setGang g).regions = s.regions := rfl
@[simp] theorem State.joins_setGang (s : State) (g : Gang) : (s.setGang g).joins = s.joins := rfl
@[simp] theorem State.gathers_setGang (s : State) (g : Gang) : (s.setGang g).gathers = s.gathers := rfl
@[simp] theorem State.copies_setGang (s : State) (g : Gang) : (s.setGang g).copies = s.copies := rfl
@[simp] theorem State.tlb_setGang (s : State) (g : Gang) : (s.setGang g).tlb = s.tlb := rfl
@[simp] theorem State.icache_setGang (s : State) (g : Gang) : (s.setGang g).icache = s.icache := rfl
@[simp] theorem State.fills_setGang (s : State) (g : Gang) : (s.setGang g).fills = s.fills := rfl
@[simp] theorem State.pushed_setGang (s : State) (g : Gang) : (s.setGang g).pushed = s.pushed := rfl
@[simp] theorem State.near_setGang (s : State) (g : Gang) : (s.setGang g).near = s.near := rfl
@[simp] theorem State.chipOwner_setGang (s : State) (g : Gang) : (s.setGang g).chipOwner = s.chipOwner := rfl
@[simp] theorem State.chip_setGang (s : State) (g : Gang) : (s.setGang g).chip = s.chip := rfl
@[simp] theorem State.pipes_setGang (s : State) (g : Gang) : (s.setGang g).pipes = s.pipes := rfl
@[simp] theorem State.spare_setGang (s : State) (g : Gang) : (s.setGang g).spare = s.spare := rfl
@[simp] theorem State.turns_setGang (s : State) (g : Gang) : (s.setGang g).turns = s.turns := rfl
@[simp] theorem State.token_setGang (s : State) (g : Gang) : (s.setGang g).token = s.token := rfl
@[simp] theorem State.first_setGang (s : State) (g : Gang) : (s.setGang g).first = s.first := rfl
@[simp] theorem State.opLatch_setGang (s : State) (g : Gang) : (s.setGang g).opLatch = s.opLatch := rfl
@[simp] theorem State.teams_setGang (s : State) (g : Gang) : (s.setGang g).teams = s.teams := rfl
@[simp] theorem State.grids_setGang (s : State) (g : Gang) : (s.setGang g).grids = s.grids := rfl
@[simp] theorem State.pendings_setGang (s : State) (g : Gang) : (s.setGang g).pendings = s.pendings := rfl
@[simp] theorem State.queues_setGang (s : State) (g : Gang) : (s.setGang g).queues = s.queues := rfl
@[simp] theorem State.started_setGang (s : State) (g : Gang) : (s.setGang g).started = s.started := rfl
@[simp] theorem State.saved_setGang (s : State) (g : Gang) : (s.setGang g).saved = s.saved := rfl
@[simp] theorem State.reserved_setGang (s : State) (g : Gang) : (s.setGang g).reserved = s.reserved := rfl
@[simp] theorem State.head_setGang (s : State) (g : Gang) : (s.setGang g).head = s.head := rfl
@[simp] theorem State.arrived_setGang (s : State) (g : Gang) : (s.setGang g).arrived = s.arrived := rfl
@[simp] theorem State.mgmt_setGang (s : State) (g : Gang) : (s.setGang g).mgmt = s.mgmt := rfl
@[simp] theorem State.tinv_setGang (s : State) (g : Gang) : (s.setGang g).tinv = s.tinv := rfl
@[simp] theorem State.power_setGang (s : State) (g : Gang) : (s.setGang g).power = s.power := rfl
@[simp] theorem State.preemptReq_setGang (s : State) (g : Gang) : (s.setGang g).preemptReq = s.preemptReq := rfl
@[simp] theorem State.haltTargets_setGang (s : State) (g : Gang) : (s.setGang g).haltTargets = s.haltTargets := rfl
@[simp] theorem State.fqprod_setGang (s : State) (g : Gang) : (s.setGang g).fqprod = s.fqprod := rfl
@[simp] theorem State.fqlost_setGang (s : State) (g : Gang) : (s.setGang g).fqlost = s.fqlost := rfl
@[simp] theorem State.reports_setGang (s : State) (g : Gang) : (s.setGang g).reports = s.reports := rfl
@[simp] theorem State.posted_setGang (s : State) (g : Gang) : (s.setGang g).posted = s.posted := rfl
@[simp] theorem State.meas_setGang (s : State) (g : Gang) : (s.setGang g).meas = s.meas := rfl
@[simp] theorem State.boot_setGang (s : State) (g : Gang) : (s.setGang g).boot = s.boot := rfl
@[simp] theorem State.coldStart_setGang (s : State) (g : Gang) : (s.setGang g).coldStart = s.coldStart := rfl
@[simp] theorem State.links_setGang (s : State) (g : Gang) : (s.setGang g).links = s.links := rfl
@[simp] theorem State.rings_setGang (s : State) (g : Gang) : (s.setGang g).rings = s.rings := rfl
@[simp] theorem State.sessions_setGang (s : State) (g : Gang) : (s.setGang g).sessions = s.sessions := rfl
@[simp] theorem State.bulk_setGang (s : State) (g : Gang) : (s.setGang g).bulk = s.bulk := rfl
@[simp] theorem State.quotes_setGang (s : State) (g : Gang) : (s.setGang g).quotes = s.quotes := rfl

/-! ### State.setTeam -/

@[simp] theorem State.agenda_setTeam (s : State) (x : Team) : (s.setTeam x).agenda = s.agenda := rfl
@[simp] theorem State.free_setTeam (s : State) (x : Team) : (s.setTeam x).free = s.free := rfl
@[simp] theorem State.issue_setTeam (s : State) (x : Team) : (s.setTeam x).issue = s.issue := rfl
@[simp] theorem State.cycles_setTeam (s : State) (x : Team) : (s.setTeam x).cycles = s.cycles := rfl
@[simp] theorem State.base_setTeam (s : State) (x : Team) : (s.setTeam x).base = s.base := rfl
@[simp] theorem State.mhz_setTeam (s : State) (x : Team) : (s.setTeam x).mhz = s.mhz := rfl
@[simp] theorem State.seq_setTeam (s : State) (x : Team) : (s.setTeam x).seq = s.seq := rfl
@[simp] theorem State.nextGid_setTeam (s : State) (x : Team) : (s.setTeam x).nextGid = s.nextGid := rfl
@[simp] theorem State.mem_setTeam (s : State) (x : Team) : (s.setTeam x).mem = s.mem := rfl
@[simp] theorem State.poison_setTeam (s : State) (x : Team) : (s.setTeam x).poison = s.poison := rfl
@[simp] theorem State.damaged_setTeam (s : State) (x : Team) : (s.setTeam x).damaged = s.damaged := rfl
@[simp] theorem State.windowQ_setTeam (s : State) (x : Team) : (s.setTeam x).windowQ = s.windowQ := rfl
@[simp] theorem State.counted_setTeam (s : State) (x : Team) : (s.setTeam x).counted = s.counted := rfl
@[simp] theorem State.regions_setTeam (s : State) (x : Team) : (s.setTeam x).regions = s.regions := rfl
@[simp] theorem State.joins_setTeam (s : State) (x : Team) : (s.setTeam x).joins = s.joins := rfl
@[simp] theorem State.gathers_setTeam (s : State) (x : Team) : (s.setTeam x).gathers = s.gathers := rfl
@[simp] theorem State.copies_setTeam (s : State) (x : Team) : (s.setTeam x).copies = s.copies := rfl
@[simp] theorem State.tlb_setTeam (s : State) (x : Team) : (s.setTeam x).tlb = s.tlb := rfl
@[simp] theorem State.icache_setTeam (s : State) (x : Team) : (s.setTeam x).icache = s.icache := rfl
@[simp] theorem State.fills_setTeam (s : State) (x : Team) : (s.setTeam x).fills = s.fills := rfl
@[simp] theorem State.pushed_setTeam (s : State) (x : Team) : (s.setTeam x).pushed = s.pushed := rfl
@[simp] theorem State.near_setTeam (s : State) (x : Team) : (s.setTeam x).near = s.near := rfl
@[simp] theorem State.chipOwner_setTeam (s : State) (x : Team) : (s.setTeam x).chipOwner = s.chipOwner := rfl
@[simp] theorem State.chip_setTeam (s : State) (x : Team) : (s.setTeam x).chip = s.chip := rfl
@[simp] theorem State.pipes_setTeam (s : State) (x : Team) : (s.setTeam x).pipes = s.pipes := rfl
@[simp] theorem State.spare_setTeam (s : State) (x : Team) : (s.setTeam x).spare = s.spare := rfl
@[simp] theorem State.turns_setTeam (s : State) (x : Team) : (s.setTeam x).turns = s.turns := rfl
@[simp] theorem State.token_setTeam (s : State) (x : Team) : (s.setTeam x).token = s.token := rfl
@[simp] theorem State.first_setTeam (s : State) (x : Team) : (s.setTeam x).first = s.first := rfl
@[simp] theorem State.opLatch_setTeam (s : State) (x : Team) : (s.setTeam x).opLatch = s.opLatch := rfl
@[simp] theorem State.gangs_setTeam (s : State) (x : Team) : (s.setTeam x).gangs = s.gangs := rfl
@[simp] theorem State.grids_setTeam (s : State) (x : Team) : (s.setTeam x).grids = s.grids := rfl
@[simp] theorem State.pendings_setTeam (s : State) (x : Team) : (s.setTeam x).pendings = s.pendings := rfl
@[simp] theorem State.queues_setTeam (s : State) (x : Team) : (s.setTeam x).queues = s.queues := rfl
@[simp] theorem State.started_setTeam (s : State) (x : Team) : (s.setTeam x).started = s.started := rfl
@[simp] theorem State.saved_setTeam (s : State) (x : Team) : (s.setTeam x).saved = s.saved := rfl
@[simp] theorem State.reserved_setTeam (s : State) (x : Team) : (s.setTeam x).reserved = s.reserved := rfl
@[simp] theorem State.head_setTeam (s : State) (x : Team) : (s.setTeam x).head = s.head := rfl
@[simp] theorem State.arrived_setTeam (s : State) (x : Team) : (s.setTeam x).arrived = s.arrived := rfl
@[simp] theorem State.mgmt_setTeam (s : State) (x : Team) : (s.setTeam x).mgmt = s.mgmt := rfl
@[simp] theorem State.tinv_setTeam (s : State) (x : Team) : (s.setTeam x).tinv = s.tinv := rfl
@[simp] theorem State.power_setTeam (s : State) (x : Team) : (s.setTeam x).power = s.power := rfl
@[simp] theorem State.preemptReq_setTeam (s : State) (x : Team) : (s.setTeam x).preemptReq = s.preemptReq := rfl
@[simp] theorem State.haltTargets_setTeam (s : State) (x : Team) : (s.setTeam x).haltTargets = s.haltTargets := rfl
@[simp] theorem State.fqprod_setTeam (s : State) (x : Team) : (s.setTeam x).fqprod = s.fqprod := rfl
@[simp] theorem State.fqlost_setTeam (s : State) (x : Team) : (s.setTeam x).fqlost = s.fqlost := rfl
@[simp] theorem State.reports_setTeam (s : State) (x : Team) : (s.setTeam x).reports = s.reports := rfl
@[simp] theorem State.posted_setTeam (s : State) (x : Team) : (s.setTeam x).posted = s.posted := rfl
@[simp] theorem State.meas_setTeam (s : State) (x : Team) : (s.setTeam x).meas = s.meas := rfl
@[simp] theorem State.boot_setTeam (s : State) (x : Team) : (s.setTeam x).boot = s.boot := rfl
@[simp] theorem State.coldStart_setTeam (s : State) (x : Team) : (s.setTeam x).coldStart = s.coldStart := rfl
@[simp] theorem State.links_setTeam (s : State) (x : Team) : (s.setTeam x).links = s.links := rfl
@[simp] theorem State.rings_setTeam (s : State) (x : Team) : (s.setTeam x).rings = s.rings := rfl
@[simp] theorem State.sessions_setTeam (s : State) (x : Team) : (s.setTeam x).sessions = s.sessions := rfl
@[simp] theorem State.bulk_setTeam (s : State) (x : Team) : (s.setTeam x).bulk = s.bulk := rfl
@[simp] theorem State.quotes_setTeam (s : State) (x : Team) : (s.setTeam x).quotes = s.quotes := rfl

/-! ### State.setGrid -/

@[simp] theorem State.agenda_setGrid (s : State) (x : Grid) : (s.setGrid x).agenda = s.agenda := rfl
@[simp] theorem State.free_setGrid (s : State) (x : Grid) : (s.setGrid x).free = s.free := rfl
@[simp] theorem State.issue_setGrid (s : State) (x : Grid) : (s.setGrid x).issue = s.issue := rfl
@[simp] theorem State.cycles_setGrid (s : State) (x : Grid) : (s.setGrid x).cycles = s.cycles := rfl
@[simp] theorem State.base_setGrid (s : State) (x : Grid) : (s.setGrid x).base = s.base := rfl
@[simp] theorem State.mhz_setGrid (s : State) (x : Grid) : (s.setGrid x).mhz = s.mhz := rfl
@[simp] theorem State.seq_setGrid (s : State) (x : Grid) : (s.setGrid x).seq = s.seq := rfl
@[simp] theorem State.nextGid_setGrid (s : State) (x : Grid) : (s.setGrid x).nextGid = s.nextGid := rfl
@[simp] theorem State.mem_setGrid (s : State) (x : Grid) : (s.setGrid x).mem = s.mem := rfl
@[simp] theorem State.poison_setGrid (s : State) (x : Grid) : (s.setGrid x).poison = s.poison := rfl
@[simp] theorem State.damaged_setGrid (s : State) (x : Grid) : (s.setGrid x).damaged = s.damaged := rfl
@[simp] theorem State.windowQ_setGrid (s : State) (x : Grid) : (s.setGrid x).windowQ = s.windowQ := rfl
@[simp] theorem State.counted_setGrid (s : State) (x : Grid) : (s.setGrid x).counted = s.counted := rfl
@[simp] theorem State.regions_setGrid (s : State) (x : Grid) : (s.setGrid x).regions = s.regions := rfl
@[simp] theorem State.joins_setGrid (s : State) (x : Grid) : (s.setGrid x).joins = s.joins := rfl
@[simp] theorem State.gathers_setGrid (s : State) (x : Grid) : (s.setGrid x).gathers = s.gathers := rfl
@[simp] theorem State.copies_setGrid (s : State) (x : Grid) : (s.setGrid x).copies = s.copies := rfl
@[simp] theorem State.tlb_setGrid (s : State) (x : Grid) : (s.setGrid x).tlb = s.tlb := rfl
@[simp] theorem State.icache_setGrid (s : State) (x : Grid) : (s.setGrid x).icache = s.icache := rfl
@[simp] theorem State.fills_setGrid (s : State) (x : Grid) : (s.setGrid x).fills = s.fills := rfl
@[simp] theorem State.pushed_setGrid (s : State) (x : Grid) : (s.setGrid x).pushed = s.pushed := rfl
@[simp] theorem State.near_setGrid (s : State) (x : Grid) : (s.setGrid x).near = s.near := rfl
@[simp] theorem State.chipOwner_setGrid (s : State) (x : Grid) : (s.setGrid x).chipOwner = s.chipOwner := rfl
@[simp] theorem State.chip_setGrid (s : State) (x : Grid) : (s.setGrid x).chip = s.chip := rfl
@[simp] theorem State.pipes_setGrid (s : State) (x : Grid) : (s.setGrid x).pipes = s.pipes := rfl
@[simp] theorem State.spare_setGrid (s : State) (x : Grid) : (s.setGrid x).spare = s.spare := rfl
@[simp] theorem State.turns_setGrid (s : State) (x : Grid) : (s.setGrid x).turns = s.turns := rfl
@[simp] theorem State.token_setGrid (s : State) (x : Grid) : (s.setGrid x).token = s.token := rfl
@[simp] theorem State.first_setGrid (s : State) (x : Grid) : (s.setGrid x).first = s.first := rfl
@[simp] theorem State.opLatch_setGrid (s : State) (x : Grid) : (s.setGrid x).opLatch = s.opLatch := rfl
@[simp] theorem State.gangs_setGrid (s : State) (x : Grid) : (s.setGrid x).gangs = s.gangs := rfl
@[simp] theorem State.teams_setGrid (s : State) (x : Grid) : (s.setGrid x).teams = s.teams := rfl
@[simp] theorem State.pendings_setGrid (s : State) (x : Grid) : (s.setGrid x).pendings = s.pendings := rfl
@[simp] theorem State.queues_setGrid (s : State) (x : Grid) : (s.setGrid x).queues = s.queues := rfl
@[simp] theorem State.started_setGrid (s : State) (x : Grid) : (s.setGrid x).started = s.started := rfl
@[simp] theorem State.saved_setGrid (s : State) (x : Grid) : (s.setGrid x).saved = s.saved := rfl
@[simp] theorem State.reserved_setGrid (s : State) (x : Grid) : (s.setGrid x).reserved = s.reserved := rfl
@[simp] theorem State.head_setGrid (s : State) (x : Grid) : (s.setGrid x).head = s.head := rfl
@[simp] theorem State.arrived_setGrid (s : State) (x : Grid) : (s.setGrid x).arrived = s.arrived := rfl
@[simp] theorem State.mgmt_setGrid (s : State) (x : Grid) : (s.setGrid x).mgmt = s.mgmt := rfl
@[simp] theorem State.tinv_setGrid (s : State) (x : Grid) : (s.setGrid x).tinv = s.tinv := rfl
@[simp] theorem State.power_setGrid (s : State) (x : Grid) : (s.setGrid x).power = s.power := rfl
@[simp] theorem State.preemptReq_setGrid (s : State) (x : Grid) : (s.setGrid x).preemptReq = s.preemptReq := rfl
@[simp] theorem State.haltTargets_setGrid (s : State) (x : Grid) : (s.setGrid x).haltTargets = s.haltTargets := rfl
@[simp] theorem State.fqprod_setGrid (s : State) (x : Grid) : (s.setGrid x).fqprod = s.fqprod := rfl
@[simp] theorem State.fqlost_setGrid (s : State) (x : Grid) : (s.setGrid x).fqlost = s.fqlost := rfl
@[simp] theorem State.reports_setGrid (s : State) (x : Grid) : (s.setGrid x).reports = s.reports := rfl
@[simp] theorem State.posted_setGrid (s : State) (x : Grid) : (s.setGrid x).posted = s.posted := rfl
@[simp] theorem State.meas_setGrid (s : State) (x : Grid) : (s.setGrid x).meas = s.meas := rfl
@[simp] theorem State.boot_setGrid (s : State) (x : Grid) : (s.setGrid x).boot = s.boot := rfl
@[simp] theorem State.coldStart_setGrid (s : State) (x : Grid) : (s.setGrid x).coldStart = s.coldStart := rfl
@[simp] theorem State.links_setGrid (s : State) (x : Grid) : (s.setGrid x).links = s.links := rfl
@[simp] theorem State.rings_setGrid (s : State) (x : Grid) : (s.setGrid x).rings = s.rings := rfl
@[simp] theorem State.sessions_setGrid (s : State) (x : Grid) : (s.setGrid x).sessions = s.sessions := rfl
@[simp] theorem State.bulk_setGrid (s : State) (x : Grid) : (s.setGrid x).bulk = s.bulk := rfl
@[simp] theorem State.quotes_setGrid (s : State) (x : Grid) : (s.setGrid x).quotes = s.quotes := rfl

/-! ### State.setMg -/

@[simp] theorem State.agenda_setMg (s : State) (o v : Nat) : (s.setMg o v).agenda = s.agenda := rfl
@[simp] theorem State.free_setMg (s : State) (o v : Nat) : (s.setMg o v).free = s.free := rfl
@[simp] theorem State.issue_setMg (s : State) (o v : Nat) : (s.setMg o v).issue = s.issue := rfl
@[simp] theorem State.cycles_setMg (s : State) (o v : Nat) : (s.setMg o v).cycles = s.cycles := rfl
@[simp] theorem State.base_setMg (s : State) (o v : Nat) : (s.setMg o v).base = s.base := rfl
@[simp] theorem State.mhz_setMg (s : State) (o v : Nat) : (s.setMg o v).mhz = s.mhz := rfl
@[simp] theorem State.seq_setMg (s : State) (o v : Nat) : (s.setMg o v).seq = s.seq := rfl
@[simp] theorem State.nextGid_setMg (s : State) (o v : Nat) : (s.setMg o v).nextGid = s.nextGid := rfl
@[simp] theorem State.mem_setMg (s : State) (o v : Nat) : (s.setMg o v).mem = s.mem := rfl
@[simp] theorem State.poison_setMg (s : State) (o v : Nat) : (s.setMg o v).poison = s.poison := rfl
@[simp] theorem State.damaged_setMg (s : State) (o v : Nat) : (s.setMg o v).damaged = s.damaged := rfl
@[simp] theorem State.windowQ_setMg (s : State) (o v : Nat) : (s.setMg o v).windowQ = s.windowQ := rfl
@[simp] theorem State.counted_setMg (s : State) (o v : Nat) : (s.setMg o v).counted = s.counted := rfl
@[simp] theorem State.regions_setMg (s : State) (o v : Nat) : (s.setMg o v).regions = s.regions := rfl
@[simp] theorem State.joins_setMg (s : State) (o v : Nat) : (s.setMg o v).joins = s.joins := rfl
@[simp] theorem State.gathers_setMg (s : State) (o v : Nat) : (s.setMg o v).gathers = s.gathers := rfl
@[simp] theorem State.copies_setMg (s : State) (o v : Nat) : (s.setMg o v).copies = s.copies := rfl
@[simp] theorem State.tlb_setMg (s : State) (o v : Nat) : (s.setMg o v).tlb = s.tlb := rfl
@[simp] theorem State.icache_setMg (s : State) (o v : Nat) : (s.setMg o v).icache = s.icache := rfl
@[simp] theorem State.fills_setMg (s : State) (o v : Nat) : (s.setMg o v).fills = s.fills := rfl
@[simp] theorem State.pushed_setMg (s : State) (o v : Nat) : (s.setMg o v).pushed = s.pushed := rfl
@[simp] theorem State.near_setMg (s : State) (o v : Nat) : (s.setMg o v).near = s.near := rfl
@[simp] theorem State.chipOwner_setMg (s : State) (o v : Nat) : (s.setMg o v).chipOwner = s.chipOwner := rfl
@[simp] theorem State.chip_setMg (s : State) (o v : Nat) : (s.setMg o v).chip = s.chip := rfl
@[simp] theorem State.pipes_setMg (s : State) (o v : Nat) : (s.setMg o v).pipes = s.pipes := rfl
@[simp] theorem State.spare_setMg (s : State) (o v : Nat) : (s.setMg o v).spare = s.spare := rfl
@[simp] theorem State.turns_setMg (s : State) (o v : Nat) : (s.setMg o v).turns = s.turns := rfl
@[simp] theorem State.token_setMg (s : State) (o v : Nat) : (s.setMg o v).token = s.token := rfl
@[simp] theorem State.first_setMg (s : State) (o v : Nat) : (s.setMg o v).first = s.first := rfl
@[simp] theorem State.opLatch_setMg (s : State) (o v : Nat) : (s.setMg o v).opLatch = s.opLatch := rfl
@[simp] theorem State.gangs_setMg (s : State) (o v : Nat) : (s.setMg o v).gangs = s.gangs := rfl
@[simp] theorem State.teams_setMg (s : State) (o v : Nat) : (s.setMg o v).teams = s.teams := rfl
@[simp] theorem State.grids_setMg (s : State) (o v : Nat) : (s.setMg o v).grids = s.grids := rfl
@[simp] theorem State.pendings_setMg (s : State) (o v : Nat) : (s.setMg o v).pendings = s.pendings := rfl
@[simp] theorem State.queues_setMg (s : State) (o v : Nat) : (s.setMg o v).queues = s.queues := rfl
@[simp] theorem State.started_setMg (s : State) (o v : Nat) : (s.setMg o v).started = s.started := rfl
@[simp] theorem State.saved_setMg (s : State) (o v : Nat) : (s.setMg o v).saved = s.saved := rfl
@[simp] theorem State.reserved_setMg (s : State) (o v : Nat) : (s.setMg o v).reserved = s.reserved := rfl
@[simp] theorem State.head_setMg (s : State) (o v : Nat) : (s.setMg o v).head = s.head := rfl
@[simp] theorem State.arrived_setMg (s : State) (o v : Nat) : (s.setMg o v).arrived = s.arrived := rfl
@[simp] theorem State.tinv_setMg (s : State) (o v : Nat) : (s.setMg o v).tinv = s.tinv := rfl
@[simp] theorem State.power_setMg (s : State) (o v : Nat) : (s.setMg o v).power = s.power := rfl
@[simp] theorem State.preemptReq_setMg (s : State) (o v : Nat) : (s.setMg o v).preemptReq = s.preemptReq := rfl
@[simp] theorem State.haltTargets_setMg (s : State) (o v : Nat) : (s.setMg o v).haltTargets = s.haltTargets := rfl
@[simp] theorem State.fqprod_setMg (s : State) (o v : Nat) : (s.setMg o v).fqprod = s.fqprod := rfl
@[simp] theorem State.fqlost_setMg (s : State) (o v : Nat) : (s.setMg o v).fqlost = s.fqlost := rfl
@[simp] theorem State.reports_setMg (s : State) (o v : Nat) : (s.setMg o v).reports = s.reports := rfl
@[simp] theorem State.posted_setMg (s : State) (o v : Nat) : (s.setMg o v).posted = s.posted := rfl
@[simp] theorem State.meas_setMg (s : State) (o v : Nat) : (s.setMg o v).meas = s.meas := rfl
@[simp] theorem State.boot_setMg (s : State) (o v : Nat) : (s.setMg o v).boot = s.boot := rfl
@[simp] theorem State.coldStart_setMg (s : State) (o v : Nat) : (s.setMg o v).coldStart = s.coldStart := rfl
@[simp] theorem State.links_setMg (s : State) (o v : Nat) : (s.setMg o v).links = s.links := rfl
@[simp] theorem State.rings_setMg (s : State) (o v : Nat) : (s.setMg o v).rings = s.rings := rfl
@[simp] theorem State.sessions_setMg (s : State) (o v : Nat) : (s.setMg o v).sessions = s.sessions := rfl
@[simp] theorem State.bulk_setMg (s : State) (o v : Nat) : (s.setMg o v).bulk = s.bulk := rfl
@[simp] theorem State.quotes_setMg (s : State) (o v : Nat) : (s.setMg o v).quotes = s.quotes := rfl

/-! ### Gang.setStrand -/

@[simp] theorem Gang.gid_setStrand (g : Gang) (st : Strand) : (g.setStrand st).gid = g.gid := rfl
@[simp] theorem Gang.grid_setStrand (g : Gang) (st : Strand) : (g.setStrand st).grid = g.grid := rfl
@[simp] theorem Gang.team_setStrand (g : Gang) (st : Strand) : (g.setStrand st).team = g.team := rfl
@[simp] theorem Gang.g_setStrand (g : Gang) (st : Strand) : (g.setStrand st).g = g.g := rfl
@[simp] theorem Gang.core_setStrand (g : Gang) (st : Strand) : (g.setStrand st).core = g.core := rfl
@[simp] theorem Gang.part_setStrand (g : Gang) (st : Strand) : (g.setStrand st).part = g.part := rfl
@[simp] theorem Gang.active_setStrand (g : Gang) (st : Strand) : (g.setStrand st).active = g.active := rfl
@[simp] theorem Gang.released_setStrand (g : Gang) (st : Strand) : (g.setStrand st).released = g.released := rfl
@[simp] theorem Gang.slot_setStrand (g : Gang) (st : Strand) : (g.setStrand st).slot = g.slot := rfl
@[simp] theorem Gang.frames_setStrand (g : Gang) (st : Strand) : (g.setStrand st).frames = g.frames := rfl
@[simp] theorem Gang.slotSince_setStrand (g : Gang) (st : Strand) : (g.setStrand st).slotSince = g.slotSince := rfl
@[simp] theorem Gang.readySince_setStrand (g : Gang) (st : Strand) : (g.setStrand st).readySince = g.readySince := rfl
@[simp] theorem Gang.eligible_setStrand (g : Gang) (st : Strand) : (g.setStrand st).eligible = g.eligible := rfl
@[simp] theorem Gang.parking_setStrand (g : Gang) (st : Strand) : (g.setStrand st).parking = g.parking := rfl
@[simp] theorem Gang.slices_setStrand (g : Gang) (st : Strand) : (g.setStrand st).slices = g.slices := rfl
@[simp] theorem Gang.s_setStrand (g : Gang) (st : Strand) : (g.setStrand st).s = g.s := rfl
@[simp] theorem Gang.sr_setStrand (g : Gang) (st : Strand) : (g.setStrand st).sr = g.sr := rfl
@[simp] theorem Gang.a_setStrand (g : Gang) (st : Strand) : (g.setStrand st).a = g.a := rfl
@[simp] theorem Gang.h_setStrand (g : Gang) (st : Strand) : (g.setStrand st).h = g.h := rfl
@[simp] theorem Gang.fpflags_setStrand (g : Gang) (st : Strand) : (g.setStrand st).fpflags = g.fpflags := rfl
@[simp] theorem Gang.fptrap_setStrand (g : Gang) (st : Strand) : (g.setStrand st).fptrap = g.fptrap := rfl
@[simp] theorem Gang.trap_setStrand (g : Gang) (st : Strand) : (g.setStrand st).trap = g.trap := rfl
@[simp] theorem Gang.handler_setStrand (g : Gang) (st : Strand) : (g.setStrand st).handler = g.handler := rfl
@[simp] theorem Gang.tiles_setStrand (g : Gang) (st : Strand) : (g.setStrand st).tiles = g.tiles := rfl
@[simp] theorem Gang.keys_setStrand (g : Gang) (st : Strand) : (g.setStrand st).keys = g.keys := rfl
@[simp] theorem Gang.trees_setStrand (g : Gang) (st : Strand) : (g.setStrand st).trees = g.trees := rfl
@[simp] theorem Gang.paths_setStrand (g : Gang) (st : Strand) : (g.setStrand st).paths = g.paths := rfl
@[simp] theorem Gang.accesses_setStrand (g : Gang) (st : Strand) : (g.setStrand st).accesses = g.accesses := rfl
@[simp] theorem Gang.cmds_setStrand (g : Gang) (st : Strand) : (g.setStrand st).cmds = g.cmds := rfl
@[simp] theorem Gang.records_setStrand (g : Gang) (st : Strand) : (g.setStrand st).records = g.records := rfl
@[simp] theorem Gang.pends_setStrand (g : Gang) (st : Strand) : (g.setStrand st).pends = g.pends := rfl
@[simp] theorem Gang.tileOps_setStrand (g : Gang) (st : Strand) : (g.setStrand st).tileOps = g.tileOps := rfl
@[simp] theorem Gang.batches_setStrand (g : Gang) (st : Strand) : (g.setStrand st).batches = g.batches := rfl
@[simp] theorem Gang.heats_setStrand (g : Gang) (st : Strand) : (g.setStrand st).heats = g.heats := rfl
@[simp] theorem Gang.nextId_setStrand (g : Gang) (st : Strand) : (g.setStrand st).nextId = g.nextId := rfl
@[simp] theorem Gang.children_setStrand (g : Gang) (st : Strand) : (g.setStrand st).children = g.children := rfl
@[simp] theorem Gang.fault_setStrand (g : Gang) (st : Strand) : (g.setStrand st).fault = g.fault := rfl
@[simp] theorem Gang.halt_setStrand (g : Gang) (st : Strand) : (g.setStrand st).halt = g.halt := rfl
@[simp] theorem Gang.latches_setStrand (g : Gang) (st : Strand) : (g.setStrand st).latches = g.latches := rfl
@[simp] theorem Gang.watchdog_setStrand (g : Gang) (st : Strand) : (g.setStrand st).watchdog = g.watchdog := rfl
@[simp] theorem Gang.limitRaised_setStrand (g : Gang) (st : Strand) : (g.setStrand st).limitRaised = g.limitRaised := rfl
@[simp] theorem Gang.recency_setStrand (g : Gang) (st : Strand) : (g.setStrand st).recency = g.recency := rfl
@[simp] theorem Gang.issues_setStrand (g : Gang) (st : Strand) : (g.setStrand st).issues = g.issues := rfl
@[simp] theorem Gang.turn_setStrand (g : Gang) (st : Strand) : (g.setStrand st).turn = g.turn := rfl
@[simp] theorem Gang.parkQ_setStrand (g : Gang) (st : Strand) : (g.setStrand st).parkQ = g.parkQ := rfl
@[simp] theorem Gang.images_setStrand (g : Gang) (st : Strand) : (g.setStrand st).images = g.images := rfl

/-! ### Gang.setS -/

@[simp] theorem Gang.gid_setS (g : Gang) (n : Nat) (v : W64) (r : Rime) : (g.setS n v r).gid = g.gid := rfl
@[simp] theorem Gang.grid_setS (g : Gang) (n : Nat) (v : W64) (r : Rime) : (g.setS n v r).grid = g.grid := rfl
@[simp] theorem Gang.team_setS (g : Gang) (n : Nat) (v : W64) (r : Rime) : (g.setS n v r).team = g.team := rfl
@[simp] theorem Gang.g_setS (g : Gang) (n : Nat) (v : W64) (r : Rime) : (g.setS n v r).g = g.g := rfl
@[simp] theorem Gang.core_setS (g : Gang) (n : Nat) (v : W64) (r : Rime) : (g.setS n v r).core = g.core := rfl
@[simp] theorem Gang.part_setS (g : Gang) (n : Nat) (v : W64) (r : Rime) : (g.setS n v r).part = g.part := rfl
@[simp] theorem Gang.active_setS (g : Gang) (n : Nat) (v : W64) (r : Rime) : (g.setS n v r).active = g.active := rfl
@[simp] theorem Gang.released_setS (g : Gang) (n : Nat) (v : W64) (r : Rime) : (g.setS n v r).released = g.released := rfl
@[simp] theorem Gang.slot_setS (g : Gang) (n : Nat) (v : W64) (r : Rime) : (g.setS n v r).slot = g.slot := rfl
@[simp] theorem Gang.frames_setS (g : Gang) (n : Nat) (v : W64) (r : Rime) : (g.setS n v r).frames = g.frames := rfl
@[simp] theorem Gang.slotSince_setS (g : Gang) (n : Nat) (v : W64) (r : Rime) : (g.setS n v r).slotSince = g.slotSince := rfl
@[simp] theorem Gang.readySince_setS (g : Gang) (n : Nat) (v : W64) (r : Rime) : (g.setS n v r).readySince = g.readySince := rfl
@[simp] theorem Gang.eligible_setS (g : Gang) (n : Nat) (v : W64) (r : Rime) : (g.setS n v r).eligible = g.eligible := rfl
@[simp] theorem Gang.parking_setS (g : Gang) (n : Nat) (v : W64) (r : Rime) : (g.setS n v r).parking = g.parking := rfl
@[simp] theorem Gang.slices_setS (g : Gang) (n : Nat) (v : W64) (r : Rime) : (g.setS n v r).slices = g.slices := rfl
@[simp] theorem Gang.strands_setS (g : Gang) (n : Nat) (v : W64) (r : Rime) : (g.setS n v r).strands = g.strands := rfl
@[simp] theorem Gang.a_setS (g : Gang) (n : Nat) (v : W64) (r : Rime) : (g.setS n v r).a = g.a := rfl
@[simp] theorem Gang.h_setS (g : Gang) (n : Nat) (v : W64) (r : Rime) : (g.setS n v r).h = g.h := rfl
@[simp] theorem Gang.fpflags_setS (g : Gang) (n : Nat) (v : W64) (r : Rime) : (g.setS n v r).fpflags = g.fpflags := rfl
@[simp] theorem Gang.fptrap_setS (g : Gang) (n : Nat) (v : W64) (r : Rime) : (g.setS n v r).fptrap = g.fptrap := rfl
@[simp] theorem Gang.trap_setS (g : Gang) (n : Nat) (v : W64) (r : Rime) : (g.setS n v r).trap = g.trap := rfl
@[simp] theorem Gang.handler_setS (g : Gang) (n : Nat) (v : W64) (r : Rime) : (g.setS n v r).handler = g.handler := rfl
@[simp] theorem Gang.tiles_setS (g : Gang) (n : Nat) (v : W64) (r : Rime) : (g.setS n v r).tiles = g.tiles := rfl
@[simp] theorem Gang.keys_setS (g : Gang) (n : Nat) (v : W64) (r : Rime) : (g.setS n v r).keys = g.keys := rfl
@[simp] theorem Gang.trees_setS (g : Gang) (n : Nat) (v : W64) (r : Rime) : (g.setS n v r).trees = g.trees := rfl
@[simp] theorem Gang.paths_setS (g : Gang) (n : Nat) (v : W64) (r : Rime) : (g.setS n v r).paths = g.paths := rfl
@[simp] theorem Gang.accesses_setS (g : Gang) (n : Nat) (v : W64) (r : Rime) : (g.setS n v r).accesses = g.accesses := rfl
@[simp] theorem Gang.cmds_setS (g : Gang) (n : Nat) (v : W64) (r : Rime) : (g.setS n v r).cmds = g.cmds := rfl
@[simp] theorem Gang.records_setS (g : Gang) (n : Nat) (v : W64) (r : Rime) : (g.setS n v r).records = g.records := rfl
@[simp] theorem Gang.pends_setS (g : Gang) (n : Nat) (v : W64) (r : Rime) : (g.setS n v r).pends = g.pends := rfl
@[simp] theorem Gang.tileOps_setS (g : Gang) (n : Nat) (v : W64) (r : Rime) : (g.setS n v r).tileOps = g.tileOps := rfl
@[simp] theorem Gang.batches_setS (g : Gang) (n : Nat) (v : W64) (r : Rime) : (g.setS n v r).batches = g.batches := rfl
@[simp] theorem Gang.heats_setS (g : Gang) (n : Nat) (v : W64) (r : Rime) : (g.setS n v r).heats = g.heats := rfl
@[simp] theorem Gang.nextId_setS (g : Gang) (n : Nat) (v : W64) (r : Rime) : (g.setS n v r).nextId = g.nextId := rfl
@[simp] theorem Gang.children_setS (g : Gang) (n : Nat) (v : W64) (r : Rime) : (g.setS n v r).children = g.children := rfl
@[simp] theorem Gang.fault_setS (g : Gang) (n : Nat) (v : W64) (r : Rime) : (g.setS n v r).fault = g.fault := rfl
@[simp] theorem Gang.halt_setS (g : Gang) (n : Nat) (v : W64) (r : Rime) : (g.setS n v r).halt = g.halt := rfl
@[simp] theorem Gang.latches_setS (g : Gang) (n : Nat) (v : W64) (r : Rime) : (g.setS n v r).latches = g.latches := rfl
@[simp] theorem Gang.watchdog_setS (g : Gang) (n : Nat) (v : W64) (r : Rime) : (g.setS n v r).watchdog = g.watchdog := rfl
@[simp] theorem Gang.limitRaised_setS (g : Gang) (n : Nat) (v : W64) (r : Rime) : (g.setS n v r).limitRaised = g.limitRaised := rfl
@[simp] theorem Gang.recency_setS (g : Gang) (n : Nat) (v : W64) (r : Rime) : (g.setS n v r).recency = g.recency := rfl
@[simp] theorem Gang.issues_setS (g : Gang) (n : Nat) (v : W64) (r : Rime) : (g.setS n v r).issues = g.issues := rfl
@[simp] theorem Gang.turn_setS (g : Gang) (n : Nat) (v : W64) (r : Rime) : (g.setS n v r).turn = g.turn := rfl
@[simp] theorem Gang.parkQ_setS (g : Gang) (n : Nat) (v : W64) (r : Rime) : (g.setS n v r).parkQ = g.parkQ := rfl
@[simp] theorem Gang.images_setS (g : Gang) (n : Nat) (v : W64) (r : Rime) : (g.setS n v r).images = g.images := rfl

/-! ### Gang.setSRime -/

@[simp] theorem Gang.gid_setSRime (g : Gang) (n : Nat) (r : Rime) : (g.setSRime n r).gid = g.gid := rfl
@[simp] theorem Gang.grid_setSRime (g : Gang) (n : Nat) (r : Rime) : (g.setSRime n r).grid = g.grid := rfl
@[simp] theorem Gang.team_setSRime (g : Gang) (n : Nat) (r : Rime) : (g.setSRime n r).team = g.team := rfl
@[simp] theorem Gang.g_setSRime (g : Gang) (n : Nat) (r : Rime) : (g.setSRime n r).g = g.g := rfl
@[simp] theorem Gang.core_setSRime (g : Gang) (n : Nat) (r : Rime) : (g.setSRime n r).core = g.core := rfl
@[simp] theorem Gang.part_setSRime (g : Gang) (n : Nat) (r : Rime) : (g.setSRime n r).part = g.part := rfl
@[simp] theorem Gang.active_setSRime (g : Gang) (n : Nat) (r : Rime) : (g.setSRime n r).active = g.active := rfl
@[simp] theorem Gang.released_setSRime (g : Gang) (n : Nat) (r : Rime) : (g.setSRime n r).released = g.released := rfl
@[simp] theorem Gang.slot_setSRime (g : Gang) (n : Nat) (r : Rime) : (g.setSRime n r).slot = g.slot := rfl
@[simp] theorem Gang.frames_setSRime (g : Gang) (n : Nat) (r : Rime) : (g.setSRime n r).frames = g.frames := rfl
@[simp] theorem Gang.slotSince_setSRime (g : Gang) (n : Nat) (r : Rime) : (g.setSRime n r).slotSince = g.slotSince := rfl
@[simp] theorem Gang.readySince_setSRime (g : Gang) (n : Nat) (r : Rime) : (g.setSRime n r).readySince = g.readySince := rfl
@[simp] theorem Gang.eligible_setSRime (g : Gang) (n : Nat) (r : Rime) : (g.setSRime n r).eligible = g.eligible := rfl
@[simp] theorem Gang.parking_setSRime (g : Gang) (n : Nat) (r : Rime) : (g.setSRime n r).parking = g.parking := rfl
@[simp] theorem Gang.slices_setSRime (g : Gang) (n : Nat) (r : Rime) : (g.setSRime n r).slices = g.slices := rfl
@[simp] theorem Gang.strands_setSRime (g : Gang) (n : Nat) (r : Rime) : (g.setSRime n r).strands = g.strands := rfl
@[simp] theorem Gang.s_setSRime (g : Gang) (n : Nat) (r : Rime) : (g.setSRime n r).s = g.s := rfl
@[simp] theorem Gang.a_setSRime (g : Gang) (n : Nat) (r : Rime) : (g.setSRime n r).a = g.a := rfl
@[simp] theorem Gang.h_setSRime (g : Gang) (n : Nat) (r : Rime) : (g.setSRime n r).h = g.h := rfl
@[simp] theorem Gang.fpflags_setSRime (g : Gang) (n : Nat) (r : Rime) : (g.setSRime n r).fpflags = g.fpflags := rfl
@[simp] theorem Gang.fptrap_setSRime (g : Gang) (n : Nat) (r : Rime) : (g.setSRime n r).fptrap = g.fptrap := rfl
@[simp] theorem Gang.trap_setSRime (g : Gang) (n : Nat) (r : Rime) : (g.setSRime n r).trap = g.trap := rfl
@[simp] theorem Gang.handler_setSRime (g : Gang) (n : Nat) (r : Rime) : (g.setSRime n r).handler = g.handler := rfl
@[simp] theorem Gang.tiles_setSRime (g : Gang) (n : Nat) (r : Rime) : (g.setSRime n r).tiles = g.tiles := rfl
@[simp] theorem Gang.keys_setSRime (g : Gang) (n : Nat) (r : Rime) : (g.setSRime n r).keys = g.keys := rfl
@[simp] theorem Gang.trees_setSRime (g : Gang) (n : Nat) (r : Rime) : (g.setSRime n r).trees = g.trees := rfl
@[simp] theorem Gang.paths_setSRime (g : Gang) (n : Nat) (r : Rime) : (g.setSRime n r).paths = g.paths := rfl
@[simp] theorem Gang.accesses_setSRime (g : Gang) (n : Nat) (r : Rime) : (g.setSRime n r).accesses = g.accesses := rfl
@[simp] theorem Gang.cmds_setSRime (g : Gang) (n : Nat) (r : Rime) : (g.setSRime n r).cmds = g.cmds := rfl
@[simp] theorem Gang.records_setSRime (g : Gang) (n : Nat) (r : Rime) : (g.setSRime n r).records = g.records := rfl
@[simp] theorem Gang.pends_setSRime (g : Gang) (n : Nat) (r : Rime) : (g.setSRime n r).pends = g.pends := rfl
@[simp] theorem Gang.tileOps_setSRime (g : Gang) (n : Nat) (r : Rime) : (g.setSRime n r).tileOps = g.tileOps := rfl
@[simp] theorem Gang.batches_setSRime (g : Gang) (n : Nat) (r : Rime) : (g.setSRime n r).batches = g.batches := rfl
@[simp] theorem Gang.heats_setSRime (g : Gang) (n : Nat) (r : Rime) : (g.setSRime n r).heats = g.heats := rfl
@[simp] theorem Gang.nextId_setSRime (g : Gang) (n : Nat) (r : Rime) : (g.setSRime n r).nextId = g.nextId := rfl
@[simp] theorem Gang.children_setSRime (g : Gang) (n : Nat) (r : Rime) : (g.setSRime n r).children = g.children := rfl
@[simp] theorem Gang.fault_setSRime (g : Gang) (n : Nat) (r : Rime) : (g.setSRime n r).fault = g.fault := rfl
@[simp] theorem Gang.halt_setSRime (g : Gang) (n : Nat) (r : Rime) : (g.setSRime n r).halt = g.halt := rfl
@[simp] theorem Gang.latches_setSRime (g : Gang) (n : Nat) (r : Rime) : (g.setSRime n r).latches = g.latches := rfl
@[simp] theorem Gang.watchdog_setSRime (g : Gang) (n : Nat) (r : Rime) : (g.setSRime n r).watchdog = g.watchdog := rfl
@[simp] theorem Gang.limitRaised_setSRime (g : Gang) (n : Nat) (r : Rime) : (g.setSRime n r).limitRaised = g.limitRaised := rfl
@[simp] theorem Gang.recency_setSRime (g : Gang) (n : Nat) (r : Rime) : (g.setSRime n r).recency = g.recency := rfl
@[simp] theorem Gang.issues_setSRime (g : Gang) (n : Nat) (r : Rime) : (g.setSRime n r).issues = g.issues := rfl
@[simp] theorem Gang.turn_setSRime (g : Gang) (n : Nat) (r : Rime) : (g.setSRime n r).turn = g.turn := rfl
@[simp] theorem Gang.parkQ_setSRime (g : Gang) (n : Nat) (r : Rime) : (g.setSRime n r).parkQ = g.parkQ := rfl
@[simp] theorem Gang.images_setSRime (g : Gang) (n : Nat) (r : Rime) : (g.setSRime n r).images = g.images := rfl

/-! ### Gang.setA -/

@[simp] theorem Gang.gid_setA (g : Gang) (n : Nat) (v : W128) : (g.setA n v).gid = g.gid := rfl
@[simp] theorem Gang.grid_setA (g : Gang) (n : Nat) (v : W128) : (g.setA n v).grid = g.grid := rfl
@[simp] theorem Gang.team_setA (g : Gang) (n : Nat) (v : W128) : (g.setA n v).team = g.team := rfl
@[simp] theorem Gang.g_setA (g : Gang) (n : Nat) (v : W128) : (g.setA n v).g = g.g := rfl
@[simp] theorem Gang.core_setA (g : Gang) (n : Nat) (v : W128) : (g.setA n v).core = g.core := rfl
@[simp] theorem Gang.part_setA (g : Gang) (n : Nat) (v : W128) : (g.setA n v).part = g.part := rfl
@[simp] theorem Gang.active_setA (g : Gang) (n : Nat) (v : W128) : (g.setA n v).active = g.active := rfl
@[simp] theorem Gang.released_setA (g : Gang) (n : Nat) (v : W128) : (g.setA n v).released = g.released := rfl
@[simp] theorem Gang.slot_setA (g : Gang) (n : Nat) (v : W128) : (g.setA n v).slot = g.slot := rfl
@[simp] theorem Gang.frames_setA (g : Gang) (n : Nat) (v : W128) : (g.setA n v).frames = g.frames := rfl
@[simp] theorem Gang.slotSince_setA (g : Gang) (n : Nat) (v : W128) : (g.setA n v).slotSince = g.slotSince := rfl
@[simp] theorem Gang.readySince_setA (g : Gang) (n : Nat) (v : W128) : (g.setA n v).readySince = g.readySince := rfl
@[simp] theorem Gang.eligible_setA (g : Gang) (n : Nat) (v : W128) : (g.setA n v).eligible = g.eligible := rfl
@[simp] theorem Gang.parking_setA (g : Gang) (n : Nat) (v : W128) : (g.setA n v).parking = g.parking := rfl
@[simp] theorem Gang.slices_setA (g : Gang) (n : Nat) (v : W128) : (g.setA n v).slices = g.slices := rfl
@[simp] theorem Gang.strands_setA (g : Gang) (n : Nat) (v : W128) : (g.setA n v).strands = g.strands := rfl
@[simp] theorem Gang.s_setA (g : Gang) (n : Nat) (v : W128) : (g.setA n v).s = g.s := rfl
@[simp] theorem Gang.sr_setA (g : Gang) (n : Nat) (v : W128) : (g.setA n v).sr = g.sr := rfl
@[simp] theorem Gang.h_setA (g : Gang) (n : Nat) (v : W128) : (g.setA n v).h = g.h := rfl
@[simp] theorem Gang.fpflags_setA (g : Gang) (n : Nat) (v : W128) : (g.setA n v).fpflags = g.fpflags := rfl
@[simp] theorem Gang.fptrap_setA (g : Gang) (n : Nat) (v : W128) : (g.setA n v).fptrap = g.fptrap := rfl
@[simp] theorem Gang.trap_setA (g : Gang) (n : Nat) (v : W128) : (g.setA n v).trap = g.trap := rfl
@[simp] theorem Gang.handler_setA (g : Gang) (n : Nat) (v : W128) : (g.setA n v).handler = g.handler := rfl
@[simp] theorem Gang.tiles_setA (g : Gang) (n : Nat) (v : W128) : (g.setA n v).tiles = g.tiles := rfl
@[simp] theorem Gang.keys_setA (g : Gang) (n : Nat) (v : W128) : (g.setA n v).keys = g.keys := rfl
@[simp] theorem Gang.trees_setA (g : Gang) (n : Nat) (v : W128) : (g.setA n v).trees = g.trees := rfl
@[simp] theorem Gang.paths_setA (g : Gang) (n : Nat) (v : W128) : (g.setA n v).paths = g.paths := rfl
@[simp] theorem Gang.accesses_setA (g : Gang) (n : Nat) (v : W128) : (g.setA n v).accesses = g.accesses := rfl
@[simp] theorem Gang.cmds_setA (g : Gang) (n : Nat) (v : W128) : (g.setA n v).cmds = g.cmds := rfl
@[simp] theorem Gang.records_setA (g : Gang) (n : Nat) (v : W128) : (g.setA n v).records = g.records := rfl
@[simp] theorem Gang.pends_setA (g : Gang) (n : Nat) (v : W128) : (g.setA n v).pends = g.pends := rfl
@[simp] theorem Gang.tileOps_setA (g : Gang) (n : Nat) (v : W128) : (g.setA n v).tileOps = g.tileOps := rfl
@[simp] theorem Gang.batches_setA (g : Gang) (n : Nat) (v : W128) : (g.setA n v).batches = g.batches := rfl
@[simp] theorem Gang.heats_setA (g : Gang) (n : Nat) (v : W128) : (g.setA n v).heats = g.heats := rfl
@[simp] theorem Gang.nextId_setA (g : Gang) (n : Nat) (v : W128) : (g.setA n v).nextId = g.nextId := rfl
@[simp] theorem Gang.children_setA (g : Gang) (n : Nat) (v : W128) : (g.setA n v).children = g.children := rfl
@[simp] theorem Gang.fault_setA (g : Gang) (n : Nat) (v : W128) : (g.setA n v).fault = g.fault := rfl
@[simp] theorem Gang.halt_setA (g : Gang) (n : Nat) (v : W128) : (g.setA n v).halt = g.halt := rfl
@[simp] theorem Gang.latches_setA (g : Gang) (n : Nat) (v : W128) : (g.setA n v).latches = g.latches := rfl
@[simp] theorem Gang.watchdog_setA (g : Gang) (n : Nat) (v : W128) : (g.setA n v).watchdog = g.watchdog := rfl
@[simp] theorem Gang.limitRaised_setA (g : Gang) (n : Nat) (v : W128) : (g.setA n v).limitRaised = g.limitRaised := rfl
@[simp] theorem Gang.recency_setA (g : Gang) (n : Nat) (v : W128) : (g.setA n v).recency = g.recency := rfl
@[simp] theorem Gang.issues_setA (g : Gang) (n : Nat) (v : W128) : (g.setA n v).issues = g.issues := rfl
@[simp] theorem Gang.turn_setA (g : Gang) (n : Nat) (v : W128) : (g.setA n v).turn = g.turn := rfl
@[simp] theorem Gang.parkQ_setA (g : Gang) (n : Nat) (v : W128) : (g.setA n v).parkQ = g.parkQ := rfl
@[simp] theorem Gang.images_setA (g : Gang) (n : Nat) (v : W128) : (g.setA n v).images = g.images := rfl

/-! ### Gang.setH -/

@[simp] theorem Gang.gid_setH (g : Gang) (n : Nat) (v : W128) : (g.setH n v).gid = g.gid := rfl
@[simp] theorem Gang.grid_setH (g : Gang) (n : Nat) (v : W128) : (g.setH n v).grid = g.grid := rfl
@[simp] theorem Gang.team_setH (g : Gang) (n : Nat) (v : W128) : (g.setH n v).team = g.team := rfl
@[simp] theorem Gang.g_setH (g : Gang) (n : Nat) (v : W128) : (g.setH n v).g = g.g := rfl
@[simp] theorem Gang.core_setH (g : Gang) (n : Nat) (v : W128) : (g.setH n v).core = g.core := rfl
@[simp] theorem Gang.part_setH (g : Gang) (n : Nat) (v : W128) : (g.setH n v).part = g.part := rfl
@[simp] theorem Gang.active_setH (g : Gang) (n : Nat) (v : W128) : (g.setH n v).active = g.active := rfl
@[simp] theorem Gang.released_setH (g : Gang) (n : Nat) (v : W128) : (g.setH n v).released = g.released := rfl
@[simp] theorem Gang.slot_setH (g : Gang) (n : Nat) (v : W128) : (g.setH n v).slot = g.slot := rfl
@[simp] theorem Gang.frames_setH (g : Gang) (n : Nat) (v : W128) : (g.setH n v).frames = g.frames := rfl
@[simp] theorem Gang.slotSince_setH (g : Gang) (n : Nat) (v : W128) : (g.setH n v).slotSince = g.slotSince := rfl
@[simp] theorem Gang.readySince_setH (g : Gang) (n : Nat) (v : W128) : (g.setH n v).readySince = g.readySince := rfl
@[simp] theorem Gang.eligible_setH (g : Gang) (n : Nat) (v : W128) : (g.setH n v).eligible = g.eligible := rfl
@[simp] theorem Gang.parking_setH (g : Gang) (n : Nat) (v : W128) : (g.setH n v).parking = g.parking := rfl
@[simp] theorem Gang.slices_setH (g : Gang) (n : Nat) (v : W128) : (g.setH n v).slices = g.slices := rfl
@[simp] theorem Gang.strands_setH (g : Gang) (n : Nat) (v : W128) : (g.setH n v).strands = g.strands := rfl
@[simp] theorem Gang.s_setH (g : Gang) (n : Nat) (v : W128) : (g.setH n v).s = g.s := rfl
@[simp] theorem Gang.sr_setH (g : Gang) (n : Nat) (v : W128) : (g.setH n v).sr = g.sr := rfl
@[simp] theorem Gang.a_setH (g : Gang) (n : Nat) (v : W128) : (g.setH n v).a = g.a := rfl
@[simp] theorem Gang.fpflags_setH (g : Gang) (n : Nat) (v : W128) : (g.setH n v).fpflags = g.fpflags := rfl
@[simp] theorem Gang.fptrap_setH (g : Gang) (n : Nat) (v : W128) : (g.setH n v).fptrap = g.fptrap := rfl
@[simp] theorem Gang.trap_setH (g : Gang) (n : Nat) (v : W128) : (g.setH n v).trap = g.trap := rfl
@[simp] theorem Gang.handler_setH (g : Gang) (n : Nat) (v : W128) : (g.setH n v).handler = g.handler := rfl
@[simp] theorem Gang.tiles_setH (g : Gang) (n : Nat) (v : W128) : (g.setH n v).tiles = g.tiles := rfl
@[simp] theorem Gang.keys_setH (g : Gang) (n : Nat) (v : W128) : (g.setH n v).keys = g.keys := rfl
@[simp] theorem Gang.trees_setH (g : Gang) (n : Nat) (v : W128) : (g.setH n v).trees = g.trees := rfl
@[simp] theorem Gang.paths_setH (g : Gang) (n : Nat) (v : W128) : (g.setH n v).paths = g.paths := rfl
@[simp] theorem Gang.accesses_setH (g : Gang) (n : Nat) (v : W128) : (g.setH n v).accesses = g.accesses := rfl
@[simp] theorem Gang.cmds_setH (g : Gang) (n : Nat) (v : W128) : (g.setH n v).cmds = g.cmds := rfl
@[simp] theorem Gang.records_setH (g : Gang) (n : Nat) (v : W128) : (g.setH n v).records = g.records := rfl
@[simp] theorem Gang.pends_setH (g : Gang) (n : Nat) (v : W128) : (g.setH n v).pends = g.pends := rfl
@[simp] theorem Gang.tileOps_setH (g : Gang) (n : Nat) (v : W128) : (g.setH n v).tileOps = g.tileOps := rfl
@[simp] theorem Gang.batches_setH (g : Gang) (n : Nat) (v : W128) : (g.setH n v).batches = g.batches := rfl
@[simp] theorem Gang.heats_setH (g : Gang) (n : Nat) (v : W128) : (g.setH n v).heats = g.heats := rfl
@[simp] theorem Gang.nextId_setH (g : Gang) (n : Nat) (v : W128) : (g.setH n v).nextId = g.nextId := rfl
@[simp] theorem Gang.children_setH (g : Gang) (n : Nat) (v : W128) : (g.setH n v).children = g.children := rfl
@[simp] theorem Gang.fault_setH (g : Gang) (n : Nat) (v : W128) : (g.setH n v).fault = g.fault := rfl
@[simp] theorem Gang.halt_setH (g : Gang) (n : Nat) (v : W128) : (g.setH n v).halt = g.halt := rfl
@[simp] theorem Gang.latches_setH (g : Gang) (n : Nat) (v : W128) : (g.setH n v).latches = g.latches := rfl
@[simp] theorem Gang.watchdog_setH (g : Gang) (n : Nat) (v : W128) : (g.setH n v).watchdog = g.watchdog := rfl
@[simp] theorem Gang.limitRaised_setH (g : Gang) (n : Nat) (v : W128) : (g.setH n v).limitRaised = g.limitRaised := rfl
@[simp] theorem Gang.recency_setH (g : Gang) (n : Nat) (v : W128) : (g.setH n v).recency = g.recency := rfl
@[simp] theorem Gang.issues_setH (g : Gang) (n : Nat) (v : W128) : (g.setH n v).issues = g.issues := rfl
@[simp] theorem Gang.turn_setH (g : Gang) (n : Nat) (v : W128) : (g.setH n v).turn = g.turn := rfl
@[simp] theorem Gang.parkQ_setH (g : Gang) (n : Nat) (v : W128) : (g.setH n v).parkQ = g.parkQ := rfl
@[simp] theorem Gang.images_setH (g : Gang) (n : Nat) (v : W128) : (g.setH n v).images = g.images := rfl

/-! ### Gang.mapSlices -/

@[simp] theorem Gang.gid_mapSlices (g : Gang) (ks : List Nat) (f : Nat → Slice → Slice) : (g.mapSlices ks f).gid = g.gid := rfl
@[simp] theorem Gang.grid_mapSlices (g : Gang) (ks : List Nat) (f : Nat → Slice → Slice) : (g.mapSlices ks f).grid = g.grid := rfl
@[simp] theorem Gang.team_mapSlices (g : Gang) (ks : List Nat) (f : Nat → Slice → Slice) : (g.mapSlices ks f).team = g.team := rfl
@[simp] theorem Gang.g_mapSlices (g : Gang) (ks : List Nat) (f : Nat → Slice → Slice) : (g.mapSlices ks f).g = g.g := rfl
@[simp] theorem Gang.core_mapSlices (g : Gang) (ks : List Nat) (f : Nat → Slice → Slice) : (g.mapSlices ks f).core = g.core := rfl
@[simp] theorem Gang.part_mapSlices (g : Gang) (ks : List Nat) (f : Nat → Slice → Slice) : (g.mapSlices ks f).part = g.part := rfl
@[simp] theorem Gang.active_mapSlices (g : Gang) (ks : List Nat) (f : Nat → Slice → Slice) : (g.mapSlices ks f).active = g.active := rfl
@[simp] theorem Gang.released_mapSlices (g : Gang) (ks : List Nat) (f : Nat → Slice → Slice) : (g.mapSlices ks f).released = g.released := rfl
@[simp] theorem Gang.slot_mapSlices (g : Gang) (ks : List Nat) (f : Nat → Slice → Slice) : (g.mapSlices ks f).slot = g.slot := rfl
@[simp] theorem Gang.frames_mapSlices (g : Gang) (ks : List Nat) (f : Nat → Slice → Slice) : (g.mapSlices ks f).frames = g.frames := rfl
@[simp] theorem Gang.slotSince_mapSlices (g : Gang) (ks : List Nat) (f : Nat → Slice → Slice) : (g.mapSlices ks f).slotSince = g.slotSince := rfl
@[simp] theorem Gang.readySince_mapSlices (g : Gang) (ks : List Nat) (f : Nat → Slice → Slice) : (g.mapSlices ks f).readySince = g.readySince := rfl
@[simp] theorem Gang.eligible_mapSlices (g : Gang) (ks : List Nat) (f : Nat → Slice → Slice) : (g.mapSlices ks f).eligible = g.eligible := rfl
@[simp] theorem Gang.parking_mapSlices (g : Gang) (ks : List Nat) (f : Nat → Slice → Slice) : (g.mapSlices ks f).parking = g.parking := rfl
@[simp] theorem Gang.strands_mapSlices (g : Gang) (ks : List Nat) (f : Nat → Slice → Slice) : (g.mapSlices ks f).strands = g.strands := rfl
@[simp] theorem Gang.s_mapSlices (g : Gang) (ks : List Nat) (f : Nat → Slice → Slice) : (g.mapSlices ks f).s = g.s := rfl
@[simp] theorem Gang.sr_mapSlices (g : Gang) (ks : List Nat) (f : Nat → Slice → Slice) : (g.mapSlices ks f).sr = g.sr := rfl
@[simp] theorem Gang.a_mapSlices (g : Gang) (ks : List Nat) (f : Nat → Slice → Slice) : (g.mapSlices ks f).a = g.a := rfl
@[simp] theorem Gang.h_mapSlices (g : Gang) (ks : List Nat) (f : Nat → Slice → Slice) : (g.mapSlices ks f).h = g.h := rfl
@[simp] theorem Gang.fpflags_mapSlices (g : Gang) (ks : List Nat) (f : Nat → Slice → Slice) : (g.mapSlices ks f).fpflags = g.fpflags := rfl
@[simp] theorem Gang.fptrap_mapSlices (g : Gang) (ks : List Nat) (f : Nat → Slice → Slice) : (g.mapSlices ks f).fptrap = g.fptrap := rfl
@[simp] theorem Gang.trap_mapSlices (g : Gang) (ks : List Nat) (f : Nat → Slice → Slice) : (g.mapSlices ks f).trap = g.trap := rfl
@[simp] theorem Gang.handler_mapSlices (g : Gang) (ks : List Nat) (f : Nat → Slice → Slice) : (g.mapSlices ks f).handler = g.handler := rfl
@[simp] theorem Gang.tiles_mapSlices (g : Gang) (ks : List Nat) (f : Nat → Slice → Slice) : (g.mapSlices ks f).tiles = g.tiles := rfl
@[simp] theorem Gang.keys_mapSlices (g : Gang) (ks : List Nat) (f : Nat → Slice → Slice) : (g.mapSlices ks f).keys = g.keys := rfl
@[simp] theorem Gang.trees_mapSlices (g : Gang) (ks : List Nat) (f : Nat → Slice → Slice) : (g.mapSlices ks f).trees = g.trees := rfl
@[simp] theorem Gang.paths_mapSlices (g : Gang) (ks : List Nat) (f : Nat → Slice → Slice) : (g.mapSlices ks f).paths = g.paths := rfl
@[simp] theorem Gang.accesses_mapSlices (g : Gang) (ks : List Nat) (f : Nat → Slice → Slice) : (g.mapSlices ks f).accesses = g.accesses := rfl
@[simp] theorem Gang.cmds_mapSlices (g : Gang) (ks : List Nat) (f : Nat → Slice → Slice) : (g.mapSlices ks f).cmds = g.cmds := rfl
@[simp] theorem Gang.records_mapSlices (g : Gang) (ks : List Nat) (f : Nat → Slice → Slice) : (g.mapSlices ks f).records = g.records := rfl
@[simp] theorem Gang.pends_mapSlices (g : Gang) (ks : List Nat) (f : Nat → Slice → Slice) : (g.mapSlices ks f).pends = g.pends := rfl
@[simp] theorem Gang.tileOps_mapSlices (g : Gang) (ks : List Nat) (f : Nat → Slice → Slice) : (g.mapSlices ks f).tileOps = g.tileOps := rfl
@[simp] theorem Gang.batches_mapSlices (g : Gang) (ks : List Nat) (f : Nat → Slice → Slice) : (g.mapSlices ks f).batches = g.batches := rfl
@[simp] theorem Gang.heats_mapSlices (g : Gang) (ks : List Nat) (f : Nat → Slice → Slice) : (g.mapSlices ks f).heats = g.heats := rfl
@[simp] theorem Gang.nextId_mapSlices (g : Gang) (ks : List Nat) (f : Nat → Slice → Slice) : (g.mapSlices ks f).nextId = g.nextId := rfl
@[simp] theorem Gang.children_mapSlices (g : Gang) (ks : List Nat) (f : Nat → Slice → Slice) : (g.mapSlices ks f).children = g.children := rfl
@[simp] theorem Gang.fault_mapSlices (g : Gang) (ks : List Nat) (f : Nat → Slice → Slice) : (g.mapSlices ks f).fault = g.fault := rfl
@[simp] theorem Gang.halt_mapSlices (g : Gang) (ks : List Nat) (f : Nat → Slice → Slice) : (g.mapSlices ks f).halt = g.halt := rfl
@[simp] theorem Gang.latches_mapSlices (g : Gang) (ks : List Nat) (f : Nat → Slice → Slice) : (g.mapSlices ks f).latches = g.latches := rfl
@[simp] theorem Gang.watchdog_mapSlices (g : Gang) (ks : List Nat) (f : Nat → Slice → Slice) : (g.mapSlices ks f).watchdog = g.watchdog := rfl
@[simp] theorem Gang.limitRaised_mapSlices (g : Gang) (ks : List Nat) (f : Nat → Slice → Slice) : (g.mapSlices ks f).limitRaised = g.limitRaised := rfl
@[simp] theorem Gang.recency_mapSlices (g : Gang) (ks : List Nat) (f : Nat → Slice → Slice) : (g.mapSlices ks f).recency = g.recency := rfl
@[simp] theorem Gang.issues_mapSlices (g : Gang) (ks : List Nat) (f : Nat → Slice → Slice) : (g.mapSlices ks f).issues = g.issues := rfl
@[simp] theorem Gang.turn_mapSlices (g : Gang) (ks : List Nat) (f : Nat → Slice → Slice) : (g.mapSlices ks f).turn = g.turn := rfl
@[simp] theorem Gang.parkQ_mapSlices (g : Gang) (ks : List Nat) (f : Nat → Slice → Slice) : (g.mapSlices ks f).parkQ = g.parkQ := rfl
@[simp] theorem Gang.images_mapSlices (g : Gang) (ks : List Nat) (f : Nat → Slice → Slice) : (g.mapSlices ks f).images = g.images := rfl

/-! ### Slice.mapThreads -/

@[simp] theorem Slice.mask_mapThreads (sl : Slice) (f : Nat → Thread → Thread) : (sl.mapThreads f).mask = sl.mask := rfl
@[simp] theorem Slice.stack_mapThreads (sl : Slice) (f : Nat → Thread → Thread) : (sl.mapThreads f).stack = sl.stack := rfl
@[simp] theorem Slice.below_mapThreads (sl : Slice) (f : Nat → Thread → Thread) : (sl.mapThreads f).below = sl.below := rfl
@[simp] theorem Slice.xr_mapThreads (sl : Slice) (f : Nat → Thread → Thread) : (sl.mapThreads f).xr = sl.xr := rfl
@[simp] theorem Slice.latValid_mapThreads (sl : Slice) (f : Nat → Thread → Thread) : (sl.mapThreads f).latValid = sl.latValid := rfl
@[simp] theorem Slice.classes_mapThreads (sl : Slice) (f : Nat → Thread → Thread) : (sl.mapThreads f).classes = sl.classes := rfl

/-! ### Slice.setRime -/

@[simp] theorem Slice.threads_setRime (sl : Slice) (n : Nat) (r : Rime) : (sl.setRime n r).threads = sl.threads := rfl
@[simp] theorem Slice.mask_setRime (sl : Slice) (n : Nat) (r : Rime) : (sl.setRime n r).mask = sl.mask := rfl
@[simp] theorem Slice.stack_setRime (sl : Slice) (n : Nat) (r : Rime) : (sl.setRime n r).stack = sl.stack := rfl
@[simp] theorem Slice.below_setRime (sl : Slice) (n : Nat) (r : Rime) : (sl.setRime n r).below = sl.below := rfl
@[simp] theorem Slice.latValid_setRime (sl : Slice) (n : Nat) (r : Rime) : (sl.setRime n r).latValid = sl.latValid := rfl
@[simp] theorem Slice.classes_setRime (sl : Slice) (n : Nat) (r : Rime) : (sl.setRime n r).classes = sl.classes := rfl

/-! ### Slice.reclass -/

@[simp] theorem Slice.threads_reclass (sl : Slice) (n : Nat) : (sl.reclass n).threads = sl.threads := rfl
@[simp] theorem Slice.mask_reclass (sl : Slice) (n : Nat) : (sl.reclass n).mask = sl.mask := rfl
@[simp] theorem Slice.stack_reclass (sl : Slice) (n : Nat) : (sl.reclass n).stack = sl.stack := rfl
@[simp] theorem Slice.below_reclass (sl : Slice) (n : Nat) : (sl.reclass n).below = sl.below := rfl
@[simp] theorem Slice.xr_reclass (sl : Slice) (n : Nat) : (sl.reclass n).xr = sl.xr := rfl
@[simp] theorem Slice.latValid_reclass (sl : Slice) (n : Nat) : (sl.reclass n).latValid = sl.latValid := rfl

/-! ### Slice.shift -/

@[simp] theorem Slice.mask_shift (sl : Slice) (f : Nat → Thread → W32) : (sl.shift f).mask = sl.mask := rfl
@[simp] theorem Slice.stack_shift (sl : Slice) (f : Nat → Thread → W32) : (sl.shift f).stack = sl.stack := rfl
@[simp] theorem Slice.below_shift (sl : Slice) (f : Nat → Thread → W32) : (sl.shift f).below = sl.below := rfl
@[simp] theorem Slice.xr_shift (sl : Slice) (f : Nat → Thread → W32) : (sl.shift f).xr = sl.xr := rfl
@[simp] theorem Slice.classes_shift (sl : Slice) (f : Nat → Thread → W32) : (sl.shift f).classes = sl.classes := rfl

/-! ### Thread.setV -/

@[simp] theorem Thread.live_setV (t : Thread) (n : Nat) (w : W32) : (t.setV n w).live = t.live := rfl
@[simp] theorem Thread.x_setV (t : Thread) (n : Nat) (w : W32) : (t.setV n w).x = t.x := rfl
@[simp] theorem Thread.p_setV (t : Thread) (n : Nat) (w : W32) : (t.setV n w).p = t.p := rfl
@[simp] theorem Thread.l0_setV (t : Thread) (n : Nat) (w : W32) : (t.setV n w).l0 = t.l0 := rfl
@[simp] theorem Thread.l1_setV (t : Thread) (n : Nat) (w : W32) : (t.setV n w).l1 = t.l1 := rfl
@[simp] theorem Thread.l2_setV (t : Thread) (n : Nat) (w : W32) : (t.setV n w).l2 = t.l2 := rfl
@[simp] theorem Thread.l3_setV (t : Thread) (n : Nat) (w : W32) : (t.setV n w).l3 = t.l3 := rfl
@[simp] theorem Thread.draws_setV (t : Thread) (n : Nat) (w : W32) : (t.setV n w).draws = t.draws := rfl
@[simp] theorem Thread.rngs_setV (t : Thread) (n : Nat) (w : W32) : (t.setV n w).rngs = t.rngs := rfl
@[simp] theorem Thread.popix_setV (t : Thread) (n : Nat) (w : W32) : (t.setV n w).popix = t.popix := rfl
@[simp] theorem Thread.lineage_setV (t : Thread) (n : Nat) (w : W32) : (t.setV n w).lineage = t.lineage := rfl
@[simp] theorem Thread.reservation_setV (t : Thread) (n : Nat) (w : W32) : (t.setV n w).reservation = t.reservation := rfl

/-! ### Thread.setX -/

@[simp] theorem Thread.live_setX (t : Thread) (n : Nat) (w : W32) : (t.setX n w).live = t.live := rfl
@[simp] theorem Thread.v_setX (t : Thread) (n : Nat) (w : W32) : (t.setX n w).v = t.v := rfl
@[simp] theorem Thread.p_setX (t : Thread) (n : Nat) (w : W32) : (t.setX n w).p = t.p := rfl
@[simp] theorem Thread.l0_setX (t : Thread) (n : Nat) (w : W32) : (t.setX n w).l0 = t.l0 := rfl
@[simp] theorem Thread.l1_setX (t : Thread) (n : Nat) (w : W32) : (t.setX n w).l1 = t.l1 := rfl
@[simp] theorem Thread.l2_setX (t : Thread) (n : Nat) (w : W32) : (t.setX n w).l2 = t.l2 := rfl
@[simp] theorem Thread.l3_setX (t : Thread) (n : Nat) (w : W32) : (t.setX n w).l3 = t.l3 := rfl
@[simp] theorem Thread.draws_setX (t : Thread) (n : Nat) (w : W32) : (t.setX n w).draws = t.draws := rfl
@[simp] theorem Thread.rngs_setX (t : Thread) (n : Nat) (w : W32) : (t.setX n w).rngs = t.rngs := rfl
@[simp] theorem Thread.popix_setX (t : Thread) (n : Nat) (w : W32) : (t.setX n w).popix = t.popix := rfl
@[simp] theorem Thread.lineage_setX (t : Thread) (n : Nat) (w : W32) : (t.setX n w).lineage = t.lineage := rfl
@[simp] theorem Thread.reservation_setX (t : Thread) (n : Nat) (w : W32) : (t.setX n w).reservation = t.reservation := rfl

end Sys2Proof.Machine
end

