-- ==== Sys2Proof/Laws/Ops.lean ====
section
/-! SUPPORT. The shared operations on gangs, slices, threads and registers: what each answers and what it leaves. -/

namespace Sys2Proof.Machine

open Sys2Proof

/-! ## Gangs -/

theorem State.gang?_gid {s : State} {n : Nat} {g : Gang} (h : s.gang? n = some g) : g.gid = n := by
  simpa using List.find?_some h

theorem State.gang?_setGang (s : State) (g : Gang) (n : Nat) :
    (s.setGang g).gang? n = if n = g.gid then (s.gang? n).map fun _ => g else s.gang? n :=
  find?_replace Gang.gid s.gangs g n

@[simp] theorem Gang.slice_setStrand (g : Gang) (st : Strand) (k : Nat) : (g.setStrand st).slice k = g.slice k := rfl

@[simp] theorem Gang.thread_setStrand (g : Gang) (st : Strand) (k j : Nat) : (g.setStrand st).thread k j = g.thread k j := rfl

/-! ## The issuing instruction -/

/-- What a context says: the issue record, its gang in the state, its strand in the gang. -/
theorem State.ctx_spec {s : State} {c : Ctx} (h : s.ctx = some c) :
    s.issue = some c.is ∧ s.gang? c.is.gang = some c.g ∧ c.g.strand? c.is.slice = some c.st := by
  unfold State.ctx at h
  split at h
  · cases h
  · next i hi =>
    split at h
    · cases h
    · next g hg =>
      split at h
      · cases h
      · next st hst => cases h; exact ⟨hi, hg, hst⟩

theorem State.ctx_gang {s : State} {c : Ctx} (h : s.ctx = some c) : s.gang? c.g.gid = some c.g := by
  obtain ⟨-, hg, -⟩ := s.ctx_spec h
  rw [State.gang?_gid hg]; exact hg

/-- An instruction whose entry accepts its operands, whose registers are declared and whose latches are valid has its own
effect. -/
theorem instr_eq {s : State} {c : Ctx} {ok : Ctx → Bool} {ds : List Dst} {srcs : List Src} {k : Ctx → State}
    (hc : s.ctx = some c) (hok : ok c = true) (hr : Claims.Ready s c ds srcs) :
    instr s ok ds srcs k = .next (k c) := by
  obtain ⟨hd, hs, hl⟩ := hr
  simp [instr, run, hc, hok, hd, hs, hl]

/-- Where a strand issues it, every instruction of the common form answers a next state: its effect or a trap's entry. -/
theorem instr_next {s : State} {c : Ctx} (ok : Ctx → Bool) (ds : List Dst) (srcs : List Src) (k : Ctx → State)
    (hc : s.ctx = some c) : ∃ t, instr s ok ds srcs k = .next t := by
  simp [instr, run, hc]

/-- The gang put back with its strand gone on: the next state's gang, and nothing but that gang changed. -/
theorem onlyGang_setGang {s : State} {g g' : Gang} (hg : s.gang? g.gid = some g) (h : g'.gid = g.gid) :
    Claims.OnlyGang s (s.setGang g') g.gid ∧ (s.setGang g').gang? g.gid = some g' := by
  refine ⟨⟨rfl, fun n hn => ?_⟩, ?_⟩
  · rw [State.gang?_setGang, if_neg (by rw [h]; exact hn)]
  · rw [State.gang?_setGang, if_pos h.symm, hg]; rfl

/-! ## Slices and threads -/

theorem Gang.slice_mapSlices (g : Gang) (ks : List Nat) (f : Nat → Slice → Slice) (k : Nat) :
    (g.mapSlices ks f).slice k =
      if k < g.slices.length then (if ks.contains k then f k (g.slice k) else g.slice k) else Slice.none := by
  unfold Gang.slice Gang.mapSlices
  rw [getD_mapI (e := Slice.none)]
  simp

theorem Slice.thread_mapThreads (sl : Slice) (f : Nat → Thread → Thread) (j : Nat) :
    (sl.mapThreads f).thread j = if j < sl.threads.length then f j (sl.thread j) else Thread.dead := by
  unfold Slice.thread Slice.mapThreads
  rw [getD_mapI (e := Thread.dead)]
  simp

theorem Slice.thread_out {sl : Slice} {j : Nat} (h : ¬j < sl.threads.length) : sl.thread j = Thread.dead := by
  simp [Slice.thread, List.getElem?_eq_none (Nat.le_of_not_lt h)]

theorem Gang.slice_out {g : Gang} {k : Nat} (h : ¬k < g.slices.length) : g.slice k = Slice.none := by
  simp [Gang.slice, List.getElem?_eq_none (Nat.le_of_not_lt h)]

/-! ## Registers -/

@[simp] theorem Thread.vreg_setV (t : Thread) (n m : Nat) (w : W32) : (t.setV n w).vreg m = if m = n then w else t.vreg m :=
  Sparse.get_set ..
@[simp] theorem Thread.xreg_setV (t : Thread) (n m : Nat) (w : W32) : (t.setV n w).xreg m = t.xreg m := rfl
@[simp] theorem Thread.xreg_setX (t : Thread) (n m : Nat) (w : W32) : (t.setX n w).xreg m = if m = n then w else t.xreg m :=
  Sparse.get_set ..
@[simp] theorem Thread.vreg_setX (t : Thread) (n m : Nat) (w : W32) : (t.setX n w).vreg m = t.vreg m := rfl

@[simp] theorem Gang.sreg_setS (g : Gang) (n m : Nat) (v : W64) (r : Rime) :
    (g.setS n v r).sreg m = if m = n then v else g.sreg m := Sparse.get_set ..
theorem Gang.srime_setS (g : Gang) (n m : Nat) (v : W64) (r : Rime) :
    (g.setS n v r).srime m = if m = n then (if n ∈ g.pends then .top else r) else g.srime m := by
  have h : (g.setS n v r).srime m = if m = n then (if g.sPending n then .top else r) else g.srime m := Sparse.get_set ..
  rw [h]; simp [Gang.sPending]
@[simp] theorem Gang.areg_setA (g : Gang) (n m : Nat) (v : W128) : (g.setA n v).areg m = if m = n then v else g.areg m :=
  Sparse.get_set ..
@[simp] theorem Gang.hreg_setH (g : Gang) (n m : Nat) (v : W128) : (g.setH n v).hreg m = if m = n then v else g.hreg m :=
  Sparse.get_set ..

/-! ## Results to a destination (04 R86, 02 R38) -/

theorem Slice.threads_shift (sl : Slice) (f : Nat → Thread → W32) (j : Nat) :
    (sl.shift f).thread j =
      if j < sl.threads.length then
        { sl.thread j with l3 := (sl.thread j).l2, l2 := (sl.thread j).l1, l1 := (sl.thread j).l0, l0 := f j (sl.thread j) }
      else Thread.dead :=
  Slice.thread_mapThreads ..

@[simp] theorem Gang.length_mapSlices (g : Gang) (ks : List Nat) (f : Nat → Slice → Slice) :
    (g.mapSlices ks f).slices.length = g.slices.length := by simp [Gang.mapSlices]

@[simp] theorem Slice.thread_reclass (sl : Slice) (n j : Nat) : (sl.reclass n).thread j = sl.thread j := rfl
@[simp] theorem Slice.thread_setRime (sl : Slice) (n : Nat) (r : Rime) (j : Nat) : (sl.setRime n r).thread j = sl.thread j := rfl
@[simp] theorem Slice.length_shift (sl : Slice) (f : Nat → Thread → W32) : (sl.shift f).threads.length = sl.threads.length := by
  simp [Slice.shift, Slice.mapThreads]

theorem Gang.mapSlices_mapSlices (g : Gang) (ks : List Nat) (f h : Nat → Slice → Slice) :
    (g.mapSlices ks f).mapSlices ks h = g.mapSlices ks fun k sl => h k (f k sl) := by
  simp only [Gang.mapSlices, mapI_mapI]
  congr; funext k sl; split <;> rfl

theorem Gang.mapSlices_self (g : Gang) (ks : List Nat) : (g.mapSlices ks fun _ sl => sl) = g := by
  simp [Gang.mapSlices, mapI_self]

/-- What a destination makes of one slice: latches shifted, the register written, its rime and its class. -/
def Slice.deliver (sl : Slice) (d : Dst) (f : Nat → Option W32) (r : Rime) : Slice :=
  let up := sl.shift fun j t => (f j).getD (sl.keptL0 d t)
  match d with
  | .v n => (up.mapThreads fun j t => match f j with
      | some w => t.setV n.toNat w
      | Option.none => t).reclass n.toNat
  | .x n => ((up.mapThreads fun j t => match f j with
      | some w => t.setX n.toNat w
      | Option.none => t).setRime n.toNat (up.writtenRime n.toNat (fun j => (f j).isSome) r)).reclass (0x80 + n.toNat)
  | .l0 => up
  | .s _ | .zero => sl

theorem Gang.writeVX_eq (g : Gang) (ks : List Nat) (d : Dst) (f : LaneFn) (r : Nat → Rime) :
    g.writeVX ks d f r = g.mapSlices ks fun k sl => sl.deliver d (f k) (r k) := by
  cases d with
  | v n => simp only [Gang.writeVX, Gang.writeV, Gang.mapSlices_mapSlices]; rfl
  | x n => simp only [Gang.writeVX, Gang.writeX, Gang.mapSlices_mapSlices]; rfl
  | l0 => rfl
  | s n => simp [Gang.writeVX, Slice.deliver, Gang.mapSlices_self]
  | zero => simp [Gang.writeVX, Slice.deliver, Gang.mapSlices_self]

theorem Slice.keptL0_dead (sl : Slice) (d : Dst) : sl.keptL0 d Thread.dead = 0 := by
  cases d <;> simp [Slice.keptL0, Thread.dead, Thread.vreg, Thread.xreg]

theorem threadGets_dead (d : Dst) : Claims.ThreadGets d none 0 0 Thread.dead Thread.dead := by
  refine ⟨fun n => ?_, fun n => ?_, ?_, rfl, rfl⟩ <;> simp [Thread.dead]

/-- Every thread of a slice that a destination is delivered to; a thread that is not there gets nothing. -/
theorem Slice.thread_deliver (sl : Slice) (d : Dst) (f : Nat → Option W32) (r : Rime)
    (hf : ∀ j, (sl.thread j).live = false → f j = Option.none) (j : Nat) :
    Claims.ThreadGets d (f j) (sl.keptL0 d (sl.thread j)) 0 (sl.thread j) ((sl.deliver d f r).thread j) := by
  by_cases hj : j < sl.threads.length
  · cases d with
    | v n =>
      cases h : f j <;>
        simp [Slice.deliver, Slice.thread_mapThreads, Slice.threads_shift, hj, h, Claims.ThreadGets, Claims.namesV, Claims.namesX,
          dstShifts, Thread.setV, Thread.vreg, Thread.xreg, Sparse.get_set, eq_comm]
    | x n =>
      cases h : f j <;>
        simp [Slice.deliver, Slice.thread_mapThreads, Slice.threads_shift, hj, h, Claims.ThreadGets, Claims.namesV, Claims.namesX,
          dstShifts, Thread.setX, Thread.vreg, Thread.xreg, Sparse.get_set, eq_comm]
    | l0 => simp [Slice.deliver, Slice.threads_shift, hj, Claims.ThreadGets, Claims.namesV, Claims.namesX, dstShifts, Thread.vreg, Thread.xreg]
    | s n => simp [Slice.deliver, Claims.ThreadGets, Claims.namesV, Claims.namesX, dstShifts]
    | zero => simp [Slice.deliver, Claims.ThreadGets, Claims.namesV, Claims.namesX, dstShifts]
  · have h0 : sl.thread j = Thread.dead := Slice.thread_out hj
    have h1 : (sl.deliver d f r).thread j = Thread.dead := by
      cases d <;> simp [Slice.deliver, Slice.thread_mapThreads, hj, Slice.threads_shift, h0]
    rw [h0, h1, hf j (by rw [h0]; rfl), Slice.keptL0_dead]
    exact threadGets_dead d

/-- What `writeVX` makes of each thread: every destination class, threads that write and threads that do not. -/
theorem Gang.writeVX_lanes (c : Ctx) (d : Dst) (f : LaneFn) (r : Nat → Rime)
    (hf : ∀ k j, (c.g.thread k j).live = false → f k j = Option.none) :
    Claims.LanesGet c d f (fun _ _ => 0) (c.g.writeVX c.st.slices d f r) := by
  rw [Gang.writeVX_eq]
  refine ⟨fun k hk => ?_, fun k hk => ?_⟩
  · by_cases hl : k < c.g.slices.length
    · simp [Gang.slice_mapSlices, hl, hk]
    · simp [Gang.slice_mapSlices, hl, Gang.slice_out hl]
  · by_cases hl : k < c.g.slices.length
    · have h : (c.g.mapSlices c.st.slices fun k sl => sl.deliver d (f k) (r k)).slice k = (c.g.slice k).deliver d (f k) (r k) := by
        simp [Gang.slice_mapSlices, hl, hk]
      refine ⟨?_, ?_, ?_, fun j => ?_⟩
      · rw [h]; cases d <;> rfl
      · rw [h]; cases d <;> rfl
      · rw [h]; cases d <;> rfl
      · simp only [Gang.thread, h]
        exact Slice.thread_deliver _ d _ _ (hf k) j
    · have h : (c.g.mapSlices c.st.slices fun k sl => sl.deliver d (f k) (r k)).slice k = Slice.none := by
        simp [Gang.slice_mapSlices, hl]
      have h0 : c.g.slice k = Slice.none := Gang.slice_out hl
      have ht : ∀ j, c.g.thread k j = Thread.dead := fun j => by simp [Gang.thread, h0, Slice.none, Slice.thread]
      refine ⟨by rw [h, h0], by rw [h, h0], by rw [h, h0], fun j => ?_⟩
      simp only [Gang.thread, h, h0]
      have h1 : Slice.none.thread j = Thread.dead := by simp [Slice.none, Slice.thread]
      rw [h1, hf k j (by rw [ht]; rfl), Slice.keptL0_dead]
      exact threadGets_dead d

/-- The rimes of a slice that a destination is delivered to. -/
theorem Slice.rime_deliver (sl : Slice) (d : Dst) (f : Nat → Option W32) (r : Rime) (n : Nat) :
    (sl.deliver d f r).rime n =
      if Claims.namesX d n = false ∨ (∀ j ∈ lanes4, f j = Option.none) then sl.rime n
      else if ∀ j ∈ lanes4, (sl.thread j).live = true → (f j).isSome = true then r
      else Rime.hullW 32 (sl.rime n) r := by
  cases d with
  | x m =>
    have h0 : (sl.deliver (.x m) f r).rime n =
        if n = m.toNat then (sl.shift fun j t => (f j).getD (sl.keptL0 (.x m) t)).writtenRime m.toNat (fun j => (f j).isSome) r
        else sl.rime n := Sparse.get_set ..
    have h1 : ∀ j, ((sl.shift fun j t => (f j).getD (sl.keptL0 (.x m) t)).thread j).live = (sl.thread j).live := by
      intro j
      rw [Slice.threads_shift]
      by_cases hj : j < sl.threads.length
      · rw [if_pos hj]
      · rw [if_neg hj, Slice.thread_out hj]
    have h2 : ∀ j, (!(f j).isSome) = true ↔ f j = Option.none := by intro j; cases f j <;> simp
    rw [h0]
    by_cases hn : n = m.toNat
    · subst hn
      simp only [if_pos, Claims.namesX, decide_true, Slice.writtenRime, List.all_eq_true, h1, h2, reduceCtorEq, false_or,
        Bool.or_eq_true, Bool.not_eq_true']
      split
      · rfl
      · congr 1
        refine propext (forall_congr' fun j => forall_congr' fun _ => ?_)
        cases (sl.thread j).live <;> cases (f j).isSome <;> simp
    · have hn' : ¬m.toNat = n := fun h => hn h.symm
      simp [hn, hn', Claims.namesX]
  | v m => simp only [Claims.namesX, true_or, if_true]; rfl
  | l0 => simp only [Claims.namesX, true_or, if_true]; rfl
  | s m => simp only [Claims.namesX, true_or, if_true]; rfl
  | zero => simp only [Claims.namesX, true_or, if_true]; rfl

/-- What `writeVX` makes of each rime. -/
theorem Gang.writeVX_rimes (c : Ctx) (d : Dst) (f : LaneFn) (r : Nat → Rime)
    (hf : ∀ k j, (c.g.thread k j).live = false → f k j = Option.none) :
    Claims.RimesGet c d f r (c.g.writeVX c.st.slices d f r) := by
  intro k hk n
  rw [Gang.writeVX_eq, Gang.slice_mapSlices]
  by_cases hl : k < c.g.slices.length
  · rw [if_pos hl, if_pos (by simpa using hk), Slice.rime_deliver]; rfl
  · have h0 : c.g.slice k = Slice.none := Gang.slice_out hl
    have h1 : ∀ j ∈ lanes4, f k j = Option.none := fun j _ =>
      hf k j (by simp [Gang.thread, h0, Slice.none, Slice.thread, Thread.dead])
    rw [if_neg hl, if_pos (Or.inr h1), h0]

end Sys2Proof.Machine
end

