-- ==== Sys2Proof/Laws/Results.lean ====
section
/-! SUPPORT. What an instruction that ends in `done` or `skip` answers: one lemma for each kind of result that the statements
speak of (Claims.Writes, WritesS, WritesP, Answers). -/

namespace Sys2Proof.Machine

open Sys2Proof Sys2Proof.Claims

/-- The strand gone on. -/
def Ctx.onward (c : Ctx) (g : Gang) : Gang := g.setStrand { c.st with pc := c.is.fall, wait := .none }

theorem Ctx.onward_eq {c : Ctx} {g : Gang} (h : g.strands = c.g.strands) : GoesOn c (c.onward g) c.is.fall := by
  simp [GoesOn, Ctx.onward, Gang.setStrand, h]

@[simp] theorem Ctx.onward_gid (c : Ctx) (g : Gang) : (c.onward g).gid = g.gid := rfl
@[simp] theorem Ctx.slice_onward (c : Ctx) (g : Gang) (k : Nat) : (c.onward g).slice k = g.slice k := rfl
@[simp] theorem Ctx.thread_onward (c : Ctx) (g : Gang) (k j : Nat) : (c.onward g).thread k j = g.thread k j := rfl
@[simp] theorem Ctx.sreg_onward (c : Ctx) (g : Gang) (n : Nat) : (c.onward g).sreg n = g.sreg n := rfl
@[simp] theorem Ctx.srime_onward (c : Ctx) (g : Gang) (n : Nat) : (c.onward g).srime n = g.srime n := rfl
@[simp] theorem Ctx.areg_onward (c : Ctx) (g : Gang) (n : Nat) : (c.onward g).areg n = g.areg n := rfl
@[simp] theorem Ctx.hreg_onward (c : Ctx) (g : Gang) (n : Nat) : (c.onward g).hreg n = g.hreg n := rfl

theorem State.done_eq (s : State) (c : Ctx) (g : Gang) : s.done c g = s.setGang (c.onward g) := rfl
theorem State.skip_eq (s : State) (c : Ctx) : s.skip c = s.setGang (c.onward c.g) := rfl

/-- An instruction that puts its gang back answers what is true of that gang. -/
theorem answers_setGang {i : Instr} {s : State} {c : Ctx} {g : Gang} {P : Gang → Prop} (hc : s.ctx = some c)
    (h : exec i s = .next (s.setGang g)) (hg : g.gid = c.g.gid) (hP : P g) : Answers i s c P := by
  obtain ⟨h1, h2⟩ := onlyGang_setGang (s := s) (g := c.g) (g' := g) (State.ctx_gang hc) hg
  exact ⟨_, _, h, h1, h2, hP⟩

/-- An instruction that puts a gang back with its strand gone on answers what is true of that gang. -/
theorem answers_done {i : Instr} {s : State} {c : Ctx} {g : Gang} {P : Gang → Prop} (hc : s.ctx = some c)
    (h : exec i s = .next (s.done c g)) (hg : g.gid = c.g.gid) (hP : P (c.onward g)) : Answers i s c P :=
  answers_setGang hc h hg hP

theorem active_live {c : Ctx} {k j : Nat} (h : (c.g.thread k j).live = false) : c.active k j = false := by
  simp only [Gang.thread] at h
  simp [Ctx.active, Ctx.enabled, Slice.enabled, h]

theorem enabled_live {c : Ctx} {k j : Nat} (h : (c.g.thread k j).live = false) : c.enabled k j = false := by
  simp only [Gang.thread] at h
  simp [Ctx.enabled, Slice.enabled, h]

theorem whenActive_dead (c : Ctx) (f : Nat → Nat → W32) (k j : Nat) (h : (c.g.thread k j).live = false) :
    whenActive c f k j = none := by simp [whenActive, active_live h]

/-- A per-thread result. -/
theorem writes_done {i : Instr} {s : State} {c : Ctx} {d : Dst} {f : Nat → Nat → Option W32} {r : Nat → Rime}
    (hc : s.ctx = some c) (hf : ∀ k j, (c.g.thread k j).live = false → f k j = none)
    (h : exec i s = .next (s.done c (c.g.writeVX c.st.slices d f r))) : Writes i s c d f r := by
  refine answers_done hc h (by rw [Gang.writeVX_eq]; rfl) ⟨?_, ?_, ?_, ?_⟩
  · rw [Gang.writeVX_eq]; rfl
  · exact Ctx.onward_eq (by rw [Gang.writeVX_eq]; rfl)
  · exact Gang.writeVX_lanes c d f r hf
  · exact Gang.writeVX_rimes c d f r hf

/-- A gang-uniform result, or nothing where no thread of the strand is active. -/
theorem writesS_done {i : Instr} {s : State} {c : Ctx} {n : BitVec 6} {v : W64} {r : Rime} (hc : s.ctx = some c)
    (h : exec i s = .next (if c.gate then s.done c (c.g.setS n.toNat v r) else s.skip c)) : WritesS i s c n v r := by
  cases hg : c.gate with
  | false =>
    rw [hg] at h
    refine answers_done (g := c.g) hc h rfl ⟨fun m => ?_, fun m => ?_, rfl, Ctx.onward_eq rfl⟩ <;> simp [hg]
  | true =>
    rw [hg] at h
    refine answers_done (g := c.g.setS n.toNat v r) hc h rfl ⟨fun m => ?_, fun m => ?_, rfl, Ctx.onward_eq rfl⟩
    · simp [hg]
    · simp [hg, Gang.srime_setS]

theorem Gang.thread_mapThreads (g : Gang) (ks : List Nat) (f : Nat → Nat → Thread → Thread) (k j : Nat) :
    (g.mapThreads ks f).thread k j =
      if k < g.slices.length ∧ k ∈ ks ∧ j < (g.slice k).threads.length then f k j (g.thread k j) else g.thread k j := by
  simp only [Gang.mapThreads, Gang.thread, Gang.slice_mapSlices]
  by_cases h1 : k < g.slices.length
  · by_cases h2 : k ∈ ks
    · by_cases h3 : j < (g.slice k).threads.length
      · simp [h1, h2, h3, Slice.thread_mapThreads]
      · simp [h1, h2, h3, Slice.thread_mapThreads, Slice.thread_out]
    · simp [h1, h2]
  · simp [h1, Gang.slice_out]

/-- Two mappings that agree on a gang's threads. -/
theorem Gang.mapThreads_congr {g : Gang} {ks : List Nat} {f h : Nat → Nat → Thread → Thread}
    (hf : ∀ k ∈ ks, ∀ j, f k j (g.thread k j) = h k j (g.thread k j)) : g.mapThreads ks f = g.mapThreads ks h := by
  unfold Gang.mapThreads Gang.mapSlices
  congr 1
  refine mapI_congr _ Slice.none 0 fun k hk => ?_
  simp only [Nat.zero_add]
  split
  · rename_i hm
    unfold Slice.mapThreads
    congr 1
    refine mapI_congr _ Thread.dead 0 fun j hj => ?_
    simp only [Nat.zero_add]
    exact hf k (by simpa using hm) j
  · rfl

/-- Mapping threads leaves everything of a slice but its threads. -/
theorem Gang.slice_mapThreads (g : Gang) (ks : List Nat) (f : Nat → Nat → Thread → Thread) (k : Nat) :
    { (g.mapThreads ks f).slice k with threads := (g.slice k).threads } = g.slice k := by
  simp only [Gang.mapThreads, Gang.slice_mapSlices]
  by_cases h1 : k < g.slices.length
  · by_cases h2 : k ∈ ks <;> simp [h1, h2, Slice.mapThreads]
  · simp [h1, Gang.slice_out]

theorem Gang.slice_mapThreads_not (g : Gang) (ks : List Nat) (f : Nat → Nat → Thread → Thread) {k : Nat} (hk : k ∉ ks) :
    (g.mapThreads ks f).slice k = g.slice k := by
  simp only [Gang.mapThreads, Gang.slice_mapSlices]
  by_cases h1 : k < g.slices.length
  · simp [h1, hk]
  · simp [h1, Gang.slice_out]

/-- What a predicate write makes of a thread. -/
theorem Thread.setP_keeps (t : Thread) (n : Nat) (b : Bool) : { t.setP n b with p := t.p } = t := by
  unfold Thread.setP; split <;> rfl

theorem Thread.getLsbD_setP (t : Thread) (n : Nat) (b : Bool) (m : Nat) (hm : m < 8) :
    (t.setP n b).p.getLsbD m = if m = n ∧ m ≠ 7 then b else t.p.getLsbD m := by
  by_cases h7 : n = 7
  · subst h7; simp [Thread.setP]
  · have hb : (BitVec.ofNat 8 (2 ^ n)).getLsbD m = decide (m = n) := by
      rw [BitVec.getLsbD_ofNat, Nat.testBit_two_pow]; simp [hm, eq_comm]
    unfold Thread.setP; rw [if_neg h7]
    by_cases h : m = n
    · subst h
      have hb' : (BitVec.ofNat 8 (2 ^ m)).getLsbD m = true := by simpa using hb
      cases b
      · simp only [Bool.false_eq_true, if_false, BitVec.getLsbD_and, BitVec.getLsbD_not, hb']; simp [h7]
      · simp only [if_true, BitVec.getLsbD_or, hb']; simp [h7]
    · have hb' : (BitVec.ofNat 8 (2 ^ n)).getLsbD m = false := by simpa [h] using hb
      cases b
      · simp only [Bool.false_eq_true, if_false, BitVec.getLsbD_and, BitVec.getLsbD_not, hb']; simp [h, hm]
      · simp only [if_true, BitVec.getLsbD_or, hb']; simp [h]

/-- A predicate written by the threads that are active. -/
theorem writesP_done {i : Instr} {s : State} {c : Ctx} {p : Nat} {f : Nat → Nat → Bool} (hc : s.ctx = some c)
    (h : exec i s = .next (s.done c (c.g.mapThreads c.st.slices fun k j t => if c.active k j then t.setP p (f k j) else t))) :
    WritesP i s c p f := by
  refine answers_done hc h rfl ⟨rfl, Ctx.onward_eq rfl, fun k hk => ?_, fun k hk => ⟨?_, fun j => ⟨?_, fun m hm => ?_⟩⟩⟩
  · exact Gang.slice_mapThreads_not c.g _ _ hk
  · exact Gang.slice_mapThreads c.g _ _ k
  · rw [Ctx.thread_onward, Gang.thread_mapThreads]
    split
    · split
      · exact Thread.setP_keeps ..
      · rfl
    · rfl
  · rw [Ctx.thread_onward, Gang.thread_mapThreads]
    split
    · split <;> rename_i h1 h2
      · rw [Thread.getLsbD_setP _ _ _ _ hm]; simp [h2]
      · simp [h2]
    · rename_i h1
      have : c.active k j = false := by
        apply active_live
        by_cases h2 : k < c.g.slices.length
        · have h3 : ¬j < (c.g.slice k).threads.length := fun h3 => h1 ⟨h2, hk, h3⟩
          simp [Gang.thread, Slice.thread_out h3, Thread.dead]
        · simp [Gang.thread, Gang.slice_out h2, Slice.none, Slice.thread, Thread.dead]
      simp [this]

end Sys2Proof.Machine
end

