-- ==== Sys2Proof/Laws/Flags.lean ====
section
/-! SUPPORT. Results that carry flags (Machine/Flags.lean): what each lane got, the flags gathered, the draws counted. -/

namespace Sys2Proof.Machine

open Sys2Proof Sys2Proof.Claims

theorem enabled_lane {c : Ctx} {k j : Nat} (h : c.enabled k j = true) : j < 4 := by
  by_cases hj : j < 4
  · exact hj
  · have := BitVec.getLsbD_of_ge (c.g.slice k).mask j (Nat.le_of_not_lt hj)
    simp [Ctx.enabled, Slice.enabled, Slice.maskBit, this] at h

theorem active_lane {c : Ctx} {k j : Nat} (h : c.active k j = true) : j < 4 := by
  simp only [Ctx.active, Bool.and_eq_true] at h
  exact enabled_lane h.1

theorem mem_lanesWhere {ks : List Nat} {p : Nat → Nat → Bool} {kj : Nat × Nat} :
    kj ∈ lanesWhere ks p ↔ kj.1 ∈ ks ∧ kj.2 < 4 ∧ p kj.1 kj.2 = true := by
  obtain ⟨k, j⟩ := kj
  simp [lanesWhere, lanes4]
  omega

theorem mem_activeLanes {c : Ctx} {kj : Nat × Nat} : kj ∈ c.activeLanes ↔ kj.1 ∈ c.st.slices ∧ c.active kj.1 kj.2 = true := by
  rw [Ctx.activeLanes, mem_lanesWhere]
  exact ⟨fun h => ⟨h.1, h.2.2⟩, fun h => ⟨h.1, active_lane h.2, h.2⟩⟩

/-- A lane that is not active got nothing. -/
theorem resAt_inactive (c : Ctx) (f : Nat → Nat → LaneRes) {k j : Nat} (h : c.active k j = false) :
    resAt (c.compute f) k j = none := by
  unfold resAt Ctx.compute
  have hn : (c.activeLanes.map fun kj => (kj, f kj.1 kj.2)).find? (fun r => decide (r.1 = (k, j))) = none := by
    rw [List.find?_eq_none]
    intro r hr
    obtain ⟨kj, hkj, rfl⟩ := List.mem_map.mp hr
    simp only [decide_eq_true_eq]
    rintro rfl
    rw [mem_activeLanes, h] at hkj
    exact absurd hkj.2 (by simp)
  rw [hn]

/-- What a lane got: its result if it is active, else nothing. -/
theorem resAt_compute (c : Ctx) (f : Nat → Nat → LaneRes) {k : Nat} (j : Nat) (hk : k ∈ c.st.slices) :
    resAt (c.compute f) k j = if c.active k j then some (f k j) else none := by
  cases ha : c.active k j with
  | true =>
    unfold resAt Ctx.compute
    have hm : (k, j) ∈ c.activeLanes := mem_activeLanes.mpr ⟨hk, ha⟩
    have hex : ∃ r ∈ c.activeLanes.map fun kj => (kj, f kj.1 kj.2), decide (r.1 = (k, j)) = true := by
      refine ⟨((k, j), f k j), List.mem_map.mpr ⟨_, hm, rfl⟩, by simp⟩
    obtain ⟨r, hr⟩ := Option.isSome_iff_exists.mp (List.find?_isSome.mpr hex)
    rw [hr]
    have h1 := List.find?_some hr
    have h2 := List.mem_of_find?_eq_some hr
    obtain ⟨kj, -, rfl⟩ := List.mem_map.mp h2
    simp only [decide_eq_true_eq] at h1
    simp [h1]
  | false => rw [resAt_inactive c f ha]; rfl

theorem getLsbD_foldl_or {α : Type} (l : List α) (f : α → BitVec 5) (b : Nat) :
    ∀ x : BitVec 5, (l.foldl (fun a r => a ||| f r) x).getLsbD b = (x.getLsbD b || l.any fun r => (f r).getLsbD b) := by
  induction l with
  | nil => intro x; simp
  | cons a l ih => intro x; rw [List.foldl_cons, ih, BitVec.getLsbD_or, List.any_cons, Bool.or_assoc]

theorem flagsOf_compute (c : Ctx) (f : Nat → Nat → LaneRes) (b : Nat) :
    (flagsOf (c.compute f)).getLsbD b = c.activeLanes.any fun kj => (f kj.1 kj.2).flags.getLsbD b := by
  unfold flagsOf Ctx.compute
  rw [getLsbD_foldl_or, List.any_map]; simp; rfl

theorem trapping_compute (c : Ctx) (en : Fp.Flags) (f : Nat → Nat → LaneRes) :
    trapping en (c.compute f) = c.activeLanes.filter fun kj => decide ((f kj.1 kj.2).flags &&& en ≠ 0) := by
  unfold trapping Ctx.compute
  rw [List.filter_map, List.map_map]
  exact List.map_id _

/-- No lane raises an enabled exception. -/
theorem trapping_none {c : Ctx} {f : Nat → Nat → LaneRes}
    (h : ∀ k j, c.active k j = true → (f k j).flags &&& c.g.fptrap = 0) : trapping c.g.fptrap (c.compute f) = [] := by
  rw [trapping_compute, List.filter_eq_nil_iff]
  intro kj hkj
  simp [h kj.1 kj.2 (mem_activeLanes.mp hkj).2]

/-- Draw counts: each active lane's advances by what it consumed, and nothing else changes. -/
theorem Gang.drawn_thread (g : Gang) (c : Ctx) (f : Nat → Nat → LaneRes) (hs : ∀ k, ∀ j, c.active k j = true →
      k < g.slices.length ∧ j < (g.slice k).threads.length) {k : Nat} (hk : k ∈ c.st.slices) (j : Nat) :
    (g.drawn (c.compute f)).thread k j =
      { g.thread k j with draws := (g.thread k j).draws + if c.active k j then (f k j).draws else 0 } := by
  unfold Gang.drawn
  split
  · rename_i h
    rw [List.all_eq_true] at h
    cases ha : c.active k j with
    | false => simp
    | true =>
      have hm : ((k, j), f k j) ∈ c.compute f := List.mem_map.mpr ⟨(k, j), mem_activeLanes.mpr ⟨hk, ha⟩, rfl⟩
      have := h _ hm
      simp only [decide_eq_true_eq] at this
      simp [this]
  · rw [Gang.thread_mapThreads]
    simp only [resAt_compute c f j hk]
    cases ha : c.active k j with
    | false => simp
    | true =>
      have hm : k ∈ (c.compute f).map fun r => r.1.1 :=
        List.mem_map.mpr ⟨((k, j), f k j), List.mem_map.mpr ⟨(k, j), mem_activeLanes.mpr ⟨hk, ha⟩, rfl⟩, rfl⟩
      obtain ⟨h1, h2⟩ := hs k j ha
      rw [if_pos ⟨h1, hm, h2⟩]; simp

theorem Gang.drawn_slice (g : Gang) (rs : List ((Nat × Nat) × LaneRes)) (k : Nat) :
    { (g.drawn rs).slice k with threads := (g.slice k).threads } = g.slice k := by
  unfold Gang.drawn
  split
  · rfl
  · exact Gang.slice_mapThreads g _ _ k

theorem Gang.drawn_slice_not (g : Gang) (c : Ctx) (f : Nat → Nat → LaneRes) {k : Nat} (hk : k ∉ c.st.slices) :
    (g.drawn (c.compute f)).slice k = g.slice k := by
  unfold Gang.drawn
  split
  · rfl
  · refine Gang.slice_mapThreads_not _ _ _ fun hm => hk ?_
    simp only [Ctx.compute, List.map_map, List.mem_map] at hm
    obtain ⟨kj, h, rfl⟩ := hm
    exact (mem_activeLanes.mp h).1

theorem Gang.drawn_kept (g : Gang) (rs : List ((Nat × Nat) × LaneRes)) :
    { g.drawn rs with slices := g.slices } = g := by
  unfold Gang.drawn
  split <;> rfl

/-- An active lane's thread is there. -/
theorem active_there {c : Ctx} {k j : Nat} (h : c.active k j = true) :
    k < c.g.slices.length ∧ j < (c.g.slice k).threads.length := by
  have hl : (c.g.thread k j).live = true := by
    cases hh : (c.g.thread k j).live with
    | true => rfl
    | false => rw [active_live hh] at h; cases h
  by_cases h1 : k < c.g.slices.length
  · refine ⟨h1, ?_⟩
    by_cases h2 : j < (c.g.slice k).threads.length
    · exact h2
    · simp [Gang.thread, Slice.thread_out h2, Thread.dead] at hl
  · simp [Gang.thread, Gang.slice_out h1, Slice.none, Slice.thread, Thread.dead] at hl

/-- The gang whose strand raises the flags `F`. -/
def Ctx.flagged (c : Ctx) (F : Fp.Flags) : Gang := c.g.raiseFlags c.st.slices F

@[simp] theorem Ctx.flagged_gid (c : Ctx) (F : Fp.Flags) : (c.flagged F).gid = c.g.gid := rfl
@[simp] theorem Ctx.flagged_fpflags (c : Ctx) (F : Fp.Flags) : (c.flagged F).fpflags = c.g.fpflags ||| F := rfl
@[simp] theorem Ctx.flagged_slices (c : Ctx) (F : Fp.Flags) : (c.flagged F).slices = c.g.slices := rfl
theorem Ctx.flagged_kept (c : Ctx) (F : Fp.Flags) :
    { c.flagged F with strands := c.g.strands } = { c.g with fpflags := c.g.fpflags ||| F } := rfl

/-- The strand gone on, the flags `F` seen. -/
def Ctx.onwardSeen (c : Ctx) (F : Fp.Flags) (g : Gang) : Gang :=
  g.setStrand { c.st.see F with pc := c.is.fall, wait := .none }

@[simp] theorem Ctx.slice_onwardSeen (c : Ctx) (F : Fp.Flags) (g : Gang) (k : Nat) : (c.onwardSeen F g).slice k = g.slice k := rfl

/-- A gang that differs from the flagged one in its slices only has raised the flags when its strand has gone on. -/
theorem Ctx.raises_onward {c : Ctx} {F : Fp.Flags} {g : Gang} (h : { g with slices := c.g.slices } = c.flagged F) :
    GangKept { c.g with fpflags := (c.onwardSeen F g).fpflags } (c.onwardSeen F g) ∧
      Raises c F (c.onwardSeen F g) c.is.fall := by
  have h1 : g.fpflags = c.g.fpflags ||| F := congrArg Gang.fpflags h
  have h2 : g.strands = (c.flagged F).strands := by
    have := congrArg Gang.strands h
    exact this
  have h3 := congrArg (fun x : Gang => { x with strands := c.g.strands }) h
  have h1' : (c.onwardSeen F g).fpflags = c.g.fpflags ||| F := h1
  refine ⟨?_, h1, ?_⟩
  · rw [h1']; exact h3.trans (c.flagged_kept F)
  · simp only [Ctx.onwardSeen, Gang.setStrand, h2, Ctx.flagged, Gang.raiseFlags, List.map_map]
    refine List.map_congr_left fun x _ => ?_
    by_cases hx : x.slices = c.st.slices <;> simp [hx, Strand.see, Strand.hide]

/-- A gang's lanes after results: written, their draws counted. -/
def Ctx.delivered (c : Ctx) (d : Dst) (rs : List ((Nat × Nat) × LaneRes)) (w : LaneFn) (r : Nat → Rime) : Gang :=
  ((c.flagged (flagsOf rs)).writeVX c.st.slices d w r).drawn rs

theorem Ctx.delivered_kept (c : Ctx) (d : Dst) (rs : List ((Nat × Nat) × LaneRes)) (w : LaneFn) (r : Nat → Rime) :
    { c.delivered d rs w r with slices := c.g.slices } = c.flagged (flagsOf rs) := by
  have h := Gang.drawn_kept ((c.flagged (flagsOf rs)).writeVX c.st.slices d w r) rs
  have h' := congrArg (fun g : Gang => { g with slices := c.g.slices }) h
  refine h'.trans ?_
  rw [Gang.writeVX_eq]; rfl

/-- Lanes and rimes of a delivery. -/
theorem Ctx.delivered_lanes (c : Ctx) (d : Dst) (f : Nat → Nat → LaneRes) (w w' : LaneFn) (r : Nat → Rime)
    (hw : ∀ k ∈ c.st.slices, ∀ j, w k j = w' k j) (hd : ∀ k j, (c.g.thread k j).live = false → w k j = none) :
    LanesGet c d w' (fun k j => if c.active k j then (f k j).draws else 0) (c.delivered d (c.compute f) w r) ∧
      RimesGet c d w' r (c.delivered d (c.compute f) w r) := by
  have h0 : LanesGet c d w (fun _ _ => 0) ((c.flagged (flagsOf (c.compute f))).writeVX c.st.slices d w r) :=
    Gang.writeVX_lanes { c with g := c.flagged (flagsOf (c.compute f)) } d w r hd
  have hr : RimesGet c d w r ((c.flagged (flagsOf (c.compute f))).writeVX c.st.slices d w r) :=
    Gang.writeVX_rimes { c with g := c.flagged (flagsOf (c.compute f)) } d w r hd
  have hl : ∀ k j, c.active k j = true →
      k < ((c.flagged (flagsOf (c.compute f))).writeVX c.st.slices d w r).slices.length ∧
        j < (((c.flagged (flagsOf (c.compute f))).writeVX c.st.slices d w r).slice k).threads.length := by
    intro k j ha
    obtain ⟨ha1, ha2⟩ := active_there ha
    rw [Gang.writeVX_eq]
    refine ⟨by simpa using ha1, ?_⟩
    rw [Gang.slice_mapSlices, Ctx.flagged_slices, if_pos ha1]
    split
    · have : ∀ sl : Slice, (sl.deliver d (w k) (r k)).threads.length = sl.threads.length := by
        intro sl; cases d <;> simp [Slice.deliver, Slice.mapThreads, Slice.reclass, Slice.setRime, Slice.shift]
      rw [this]; exact ha2
    · exact ha2
  unfold Ctx.delivered
  generalize (c.flagged (flagsOf (c.compute f))).writeVX c.st.slices d w r = G at h0 hr hl ⊢
  refine ⟨⟨fun k hk => (Gang.drawn_slice_not _ c f hk).trans (h0.1 k hk), fun k hk => ?_⟩, fun k hk n => ?_⟩
  · have hk' := h0.2 k hk
    have hs := Gang.drawn_slice G (c.compute f) k
    refine ⟨(congrArg Slice.mask hs).trans hk'.1, (congrArg Slice.stack hs).trans hk'.2.1,
      (congrArg Slice.below hs).trans hk'.2.2.1, fun j => ?_⟩
    rw [Gang.drawn_thread _ c f hl hk j, ← hw k hk j]
    obtain ⟨a1, a2, a3, a4, a5⟩ := hk'.2.2.2 j
    exact ⟨a1, a2, a3, a4, congrArg (· + _) a5⟩
  · have hs := congrArg (fun sl : Slice => sl.rime n) (Gang.drawn_slice G (c.compute f) k)
    have he : ∀ j, w' k j = w k j := fun j => (hw k hk j).symm
    simp only [he]
    exact hs.trans (hr k hk n)

theorem raised_compute (c : Ctx) (f : Nat → Nat → LaneRes) : flagsOf (c.compute f) = raised c f := by
  unfold flagsOf Ctx.compute raised
  rw [List.foldl_map]

/-- What the lanes of `c` got. -/
def Ctx.given (c : Ctx) (f : Nat → Nat → LaneRes) : LaneFn := fun k j => (resAt (c.compute f) k j).map fun r => r.val

theorem Ctx.given_eq (c : Ctx) (f : Nat → Nat → LaneRes) {k : Nat} (hk : k ∈ c.st.slices) (j : Nat) :
    c.given f k j = whenActive c (fun k j => (f k j).val) k j := by
  unfold Ctx.given; rw [resAt_compute c f j hk]; simp only [whenActive]; split <;> rfl

/-- Results without an enabled exception, delivered with the rimes that `r` gives what was written. -/
theorem writesRaising_done {i : Instr} {s : State} {c : Ctx} {d : Dst} {f : Nat → Nat → LaneRes} {sh : Bool}
    {r : LaneFn → Nat → Rime} (hc : s.ctx = some c)
    (h : exec i s = .next (s.deliver c sh (c.compute f) fun g w => g.writeVX c.st.slices d w (r w))) :
    WritesRaising i s c d f (r (c.given f)) := by
  intro hn
  have ht := trapping_none hn
  have he : (s.deliver c sh (c.compute f) fun g w => g.writeVX c.st.slices d w (r w)) =
      s.setGang (c.onwardSeen (raised c f) (c.delivered d (c.compute f) (c.given f) (r (c.given f)))) := by
    rw [← raised_compute]
    simp only [State.deliver, ht]; rfl
  have hk := c.raises_onward (c.delivered_kept d (c.compute f) (c.given f) (r (c.given f)))
  have hl := c.delivered_lanes d f (c.given f) (whenActive c fun k j => (f k j).val) (r (c.given f))
    (fun k hk j => c.given_eq f hk j) (fun k j hl => by unfold Ctx.given; rw [resAt_inactive c f (active_live hl)]; rfl)
  have hgid := congrArg Gang.gid (c.delivered_kept d (c.compute f) (c.given f) (r (c.given f)))
  rw [he] at h
  rw [raised_compute] at hk
  generalize c.delivered d (c.compute f) (c.given f) (r (c.given f)) = G at h hk hl hgid
  exact answers_setGang hc h hgid ⟨hk.1, hk.2, hl.1, hl.2⟩

/-- Results of the vector instructions. -/
theorem writesFlagged_done {i : Instr} {s : State} {c : Ctx} {d : Dst} {f : Nat → Nat → LaneRes} (hc : s.ctx = some c)
    (h : exec i s = .next (s.deliverVX c d (c.compute f))) : WritesFlagged i s c d f :=
  writesRaising_done (r := fun _ _ => .top) hc h

end Sys2Proof.Machine
end

