-- ==== Sys2Proof/Laws/Memory.lean ====
section
/-! SUPPORT. Memory keeps its canonical form through every operation of Machine/Mem.lean and through the places of an access;
what an access of device memory may change beside it. -/

namespace Sys2Proof.Machine

open Sys2Proof

/-- The memory of a state is in its canonical form. -/
abbrev State.canonical (s : State) : Prop := Memory.wf s.mem = true

theorem State.reset_canonical : State.reset.canonical := rfl

theorem State.canonical_of_mem {s t : State} (h : t.mem = s.mem) (hs : s.canonical) : t.canonical := by
  simpa [State.canonical, h] using hs

/-- An update that keeps a property of states keeps it through a fold. -/
theorem foldl_keeps {σ α : Type} {P : σ → Prop} {f : σ → α → σ} (hf : ∀ s a, P s → P (f s a)) (l : List α) :
    ∀ {s}, P s → P (l.foldl f s) := by
  induction l with
  | nil => exact id
  | cons a l ih => exact fun h => ih (hf _ _ h)

/-- And through a fold that may fail. -/
theorem foldE_keeps {σ α β ε : Type} {P : σ → Prop} {f : σ → α → Except ε (σ × β)}
    (hf : ∀ s a t b, P s → f s a = .ok (t, b) → P t) (l : List α) :
    ∀ {s t bs}, P s → foldE f s l = .ok (t, bs) → P t := by
  induction l with
  | nil => intro s t bs h e; cases e; exact h
  | cons a l ih =>
    intro s t bs h e
    simp only [foldE] at e
    split at e
    · cases e
    · next s' b hb =>
      split at e
      · cases e
      · next s'' bs' hbs => cases e; exact ih (hf _ _ _ _ h hb) hbs

/-! ## Bytes -/

theorem State.canonical_setByte {s : State} (h : s.canonical) (p : Place) (b : Byte) : (s.setByte p b).canonical := by
  cases p with
  | phys pa =>
    unfold State.setByte
    simp only
    split
    · split
      · exact Sparse.wf_set h _ _
      · exact h
    · exact Sparse.wf_set h _ _
  | _ => exact h

theorem State.canonical_pokePhys {s : State} (h : s.canonical) (pa : Nat) (bs : List Byte) : (s.pokePhys pa bs).canonical :=
  foldl_keeps (P := State.canonical) (fun _ _ h => State.canonical_setByte h _ _) _ h

@[simp] theorem State.mem_setLqcfg (s : State) (q v : Nat) : (s.setLqcfg q v).mem = s.mem := rfl

@[simp] theorem State.mem_report (s : State) (r : Report) : (s.report r).mem = s.mem := by unfold State.report; split <;> rfl

theorem State.mem_ite {c : Prop} [Decidable c] {a b s : State} (ha : a.mem = s.mem) (hb : b.mem = s.mem) :
    (if c then a else b).mem = s.mem := by split <;> assumption

@[simp] theorem State.mem_windowStore (s : State) (die off : Nat) (bs : List Byte) : (s.windowStore die off bs).mem = s.mem := by
  exact State.mem_ite rfl (State.mem_ite (State.mem_report ..) (State.mem_ite (State.mem_setLqcfg ..) rfl))

@[simp] theorem State.mem_loseReservations (s : State) (gid : Option Nat) (ws : List Write) :
    (s.loseReservations gid ws).mem = s.mem := rfl

@[simp] theorem State.mem_touchLine (s : State) (ws : List Write) (l : Place) : (s.touchLine ws l).mem = s.mem := by
  unfold State.touchLine; split
  · rfl
  · split <;> rfl
  · rfl

@[simp] theorem State.mem_wroteLines (s : State) (lines whole : List Nat) : (s.wroteLines lines whole).mem = s.mem := rfl

theorem State.canonical_writePhys {s : State} (h : s.canonical) (pa : Nat) (bs : List Byte) : (s.writePhys pa bs).canonical :=
  State.canonical_pokePhys (s := s.wroteLines [s.norm pa / 128] []) h pa bs

theorem State.canonical_performWrites {s : State} (h : s.canonical) (gid : Option Nat) (ws : List Write) :
    (s.performWrites gid ws).canonical := by
  refine foldl_keeps (P := State.canonical) (fun _ _ h => State.canonical_setByte h _ _) _ ?_
  refine foldl_keeps (P := State.canonical) (fun _ _ h => State.canonical_of_mem (State.mem_touchLine ..) h) _ ?_
  exact foldl_keeps (P := State.canonical) (fun _ _ h => State.canonical_of_mem (State.mem_windowStore ..) h) _ h

theorem State.canonical_dropCounted {s : State} (h : s.canonical) (line : Nat) : (s.dropCounted line).canonical := by
  unfold State.dropCounted; split
  · exact h
  · exact State.canonical_pokePhys (s := s.wroteLines [line] [line]) h _ _

theorem State.canonical_countLines {s : State} (h : s.canonical) (gid n : Nat) (ws : List Write) (pre : List (Nat × List Byte)) :
    (s.countLines gid n ws pre).canonical :=
  foldl_keeps (P := State.canonical) (f := fun (s : State) (lp : Nat × List Byte) => { s with counted := s.counted.insert lp.1 { count := n, pre := lp.2 } })
    (fun _ _ h => h) _ (State.canonical_performWrites h _ _)

/-- A page copied: no cell of it is listed unless it differs from what an unlisted address reads as. -/
theorem State.canonical_copyPage {s : State} (h : s.canonical) (src dst : Nat) : (s.copyPage src dst).canonical := by
  refine Sparse.wf_foldl_insert _ ?_ (Sparse.wfFrom_filter _ _ h)
  intro c hc
  obtain ⟨e, he, rfl⟩ := List.mem_map.1 hc
  exact Sparse.wfFrom_ne _ h e (List.mem_filter.1 he).1

/-! ## Translation, copy-on-write, access -/

theorem State.canonical_tlbAdd {s : State} (h : s.canonical) (e : TlbEntry) : (s.tlbAdd e).canonical := h

theorem State.translate_mem {s t : State} {core asid va : Nat} {e : TlbEntry} (h : s.translate core asid va = some (e, t)) :
    { t with tlb := s.tlb } = s := by
  unfold State.translate at h
  split at h
  · cases h; rfl
  · split at h
    · cases h; rfl
    · split at h
      · cases h
      · cases h; rfl

theorem State.canonical_withTlb {s : State} (h : s.canonical) (l : List TlbEntry) : ({ s with tlb := l } : State).canonical := h

theorem State.canonical_touch {s : State} (h : s.canonical) (core asid va : Nat) (e : TlbEntry) :
    (s.touch core asid va e).canonical := by
  unfold State.touch
  extract_lets d
  split
  · exact h
  · rename_i old u _
    have h1 : u.canonical := State.canonical_writePhys h e.entry _
    clear_value u
    exact h1

theorem State.canonical_poolPop {s t : State} {h page : Nat} (hs : s.canonical) (e : s.poolPop h = some (page, t)) : t.canonical := by
  unfold State.poolPop at e; simp only at e; split at e
  · obtain ⟨-, rfl⟩ := Prod.mk.inj (Option.some.inj e); exact hs
  · cases e

theorem State.canonical_notePush {s : State} (h : s.canonical) (o v k : Nat) : ((s.setMg o v).notePush k).canonical := h

theorem State.canonical_poolPush {s : State} (hs : s.canonical) (h page : Nat) : (s.poolPush h page).canonical := by
  unfold State.poolPush; simp only; split
  · exact State.canonical_notePush (State.canonical_writePhys hs _ _) _ _ _
  · exact State.canonical_of_mem (State.mem_report ..) hs

theorem State.canonical_lowerRefs {s : State} (h : s.canonical) (asid slots page : Nat) : (s.lowerRefs asid slots page).canonical :=
  foldl_keeps (P := State.canonical) (fun _ _ h => State.canonical_writePhys h _ _) _ h

theorem State.canonical_cowResolve {s t : State} {asid va slots : Nat} (h : s.canonical)
    (e : s.cowResolve asid va slots = .ok t) : t.canonical := by
  unfold State.cowResolve at e
  split at e
  · split at e
    · cases e; exact h
    · split at e
      · cases e
      · next hp => cases e; exact State.canonical_lowerRefs (State.canonical_writePhys (State.canonical_copyPage (State.canonical_poolPop h hp) _ _) _ _) _ _ _
  · cases e

@[simp] theorem State.mem_noteFill (s : State) (pa : Nat) : (s.noteFill pa).mem = s.mem := by
  unfold State.noteFill
  simp only
  split
  · rfl
  · split
    · rfl
    · split <;> rfl

/-- What is left of an access once its entry is found: the page touched, the line's fill noted, no more. -/
theorem State.found_ok {s t : State} {touching rd : Bool} {core asid va pa : Nat} {e : TlbEntry}
    (h : (match s.physOk rd va (e.pa va) with
      | .error f => (.error f : Except Fail (State × Nat))
      | .ok _ => .ok ((if touching then s.touch core asid va e else s).noteFill (s.norm (e.pa va)), s.norm (e.pa va))) = .ok (t, pa)) :
    t = (if touching then s.touch core asid va e else s).noteFill (s.norm (e.pa va)) := by
  split at h <;> cases h; rfl

theorem State.canonical_accessWith {s t : State} {touching rd wr : Bool} {core asid va pa : Nat} (h : s.canonical)
    (e : s.accessWith touching core asid va rd wr = .ok (t, pa)) : t.canonical := by
  have fin {s : State} {e : TlbEntry} {pa : Nat} (h : s.canonical) :
      ((if touching then s.touch core asid va e else s).noteFill pa).canonical := by
    refine State.canonical_of_mem (State.mem_noteFill ..) ?_
    split
    · exact State.canonical_touch h _ _ _ _
    · exact h
  have tr {s t : State} {e : TlbEntry} (h : s.canonical) (ht : s.translate core asid va = some (e, t)) : t.canonical :=
    have hm := congrArg State.mem (State.translate_mem ht)
    State.canonical_of_mem hm h
  unfold State.accessWith at e
  simp only at e
  split at e
  · cases e
  · split at e
    · cases e
    · next ht =>
      split at e
      · cases e
      · split at e
        · split at e
          · split at e
            · cases e
            · split at e
              · cases e
              · next hc =>
                split at e
                · cases e
                · next ht2 => rw [State.found_ok e]; exact fin (tr (State.canonical_cowResolve (tr h ht) hc) ht2)
          · cases e
        · split at e
          · cases e
          · rw [State.found_ok e]; exact fin (tr h ht)

theorem State.canonical_access {s t : State} {rd wr : Bool} {core asid va pa : Nat} (h : s.canonical)
    (e : s.access core asid va rd wr = .ok (t, pa)) : t.canonical := State.canonical_accessWith h e

theorem State.canonical_readVirt {s t : State} {core asid va n : Nat} {bs : List Byte} (h : s.canonical)
    (e : s.readVirt core asid va n = .ok (t, bs)) : t.canonical := by
  unfold State.readVirt at e
  simp only at e
  split at e
  · cases e
  · next hf =>
    cases e
    refine foldE_keeps (P := State.canonical) (fun s a t b hs hb => ?_) _ h hf
    split at hb
    · cases hb
    · next ha => cases hb; exact State.canonical_access hs ha

/-! ## Near lines and accesses in flight -/

theorem State.canonical_writeBackNear {s : State} (h : s.canonical) (n : (Nat × Nat × Nat) × NearLine) :
    (s.writeBackNear n).canonical := by
  unfold State.writeBackNear
  extract_lets ws s1
  have h1 : s1.canonical := by
    show (if ws.isEmpty then s else s.performWrites none ws).canonical
    split
    · exact h
    · exact State.canonical_performWrites h _ _
  split
  · exact State.canonical_of_mem (s := s1) rfl h1
  · exact h1

theorem State.canonical_displaceLine {s : State} (h : s.canonical) (key : Nat × Nat × Nat) : (s.displaceLine key).canonical := by
  refine foldl_keeps (P := State.canonical) (fun _ _ h => State.canonical_writeBackNear h _) _ ?_
  split
  · exact foldl_keeps (P := State.canonical) (fun _ _ h => State.canonical_setByte h _ _) _ h
  · exact foldl_keeps (P := State.canonical) (fun _ _ h => State.canonical_setByte h _ _) _ h

theorem State.canonical_trimNear {s : State} (h : s.canonical) (core : Nat) : (s.trimNear core).canonical := by
  unfold State.trimNear; simp only; split
  · exact h
  · exact foldl_keeps (P := State.canonical) (fun _ _ h => State.canonical_displaceLine h _) _ h

@[simp] theorem State.mem_snapReads (s : State) (gid : Nat) (ws : List Write) : (s.snapReads gid ws).mem = s.mem := by
  unfold State.snapReads; split
  · rfl
  · split <;> rfl

theorem State.canonical_performOwn {s : State} (h : s.canonical) (gid : Nat) (ws : List Write) : (s.performOwn gid ws).canonical :=
  State.canonical_performWrites (State.canonical_of_mem (State.mem_snapReads ..) h) _ _

theorem State.canonical_performAccess {s : State} (h : s.canonical) (gid : Nat) (a : Access) : (s.performAccess gid a).canonical := by
  unfold State.performAccess; split
  · exact State.canonical_performOwn h _ _
  · exact State.canonical_countLines h _ _ _ _

theorem State.canonical_flush {s : State} (h : s.canonical) (gid : Nat) (slices : List Nat) : (s.flush gid slices).canonical := by
  unfold State.flush; split
  · exact h
  · next g _ =>
    have := foldl_keeps (P := State.canonical) (fun s a h => State.canonical_performAccess (s := s) h gid a)
      (g.accesses.filter fun a => meets a.slices slices) h
    simp only; split
    · exact this
    · exact this

/-! ## The places of an access -/

theorem State.canonical_privatePlace {s t : State} {g : Gang} {asid base thread off : Nat} {wr : Bool} {p : Place}
    (h : s.canonical) (e : s.privatePlace g asid base thread off wr = .ok (t, p)) : t.canonical := by
  unfold State.privatePlace at e
  extract_lets va backing cow key s0 rebind at e
  have h0 : s0.canonical := by
    show (if cow then s.dropTranslation asid va else s).canonical
    split <;> exact h
  split at e
  · simp only [backing] at e
    split at e
    · cases e
    · next ha => cases e; exact State.canonical_access h ha
  · split at e
    · split at e
      · split at e
        · cases e
        · next ha => have := State.canonical_access h0 ha; cases e; exact this
      · split at e
        · cases e
        · cases e; exact h0
    · split at e
      · cases e
      · next s1 pa ha =>
        have h1 := State.canonical_access h0 ha
        extract_lets s2 line at e
        have h2 : s2.canonical := by
          show (if cow then ({ s1 with near := s1.near.map (rebind pa) } : State) else s1).canonical
          split <;> exact h1
        split at e
        · rw [← (Prod.mk.inj (Except.ok.inj e)).1]; exact h2
        · rw [← (Prod.mk.inj (Except.ok.inj e)).1]; exact h2

theorem State.canonical_piece {s t : State} {g : Gang} {space k j addr : Nat} {rd wr : Bool} {p : Place} (h : s.canonical)
    (e : s.piece g space k j addr rd wr = .ok (t, p)) : t.canonical := by
  unfold State.piece at e
  simp only at e
  split at e
  · exact State.canonical_privatePlace h e
  · split at e
    · cases e
    · next ha => have := State.canonical_access h ha; cases e; exact this
  · split at e
    · cases e
    · cases e; exact h

theorem State.canonical_lanePlaces {s t : State} {g : Gang} {space n : Nat} {rd wr : Bool} {l : LaneAddr} {x : LanePlaces}
    (h : s.canonical) (e : s.lanePlaces g space n rd wr l = .ok (t, x)) : t.canonical := by
  unfold State.lanePlaces at e
  simp only at e
  split at e
  · cases e
  · next hf =>
    cases e
    refine foldE_keeps (P := State.canonical) (fun s a t b hs hb => ?_) _ h hf
    split at hb
    · cases hb
    · next hp => cases hb; exact State.canonical_piece hs hp

theorem State.canonical_places {s t : State} {g : Gang} {space n : Nat} {rd wr : Bool} {ls : List LaneAddr} {x : List LanePlaces}
    (h : s.canonical) (e : s.places g space n rd wr ls = .ok (t, x)) : t.canonical :=
  foldE_keeps (P := State.canonical) (fun _ _ _ _ hs hb => State.canonical_lanePlaces hs hb) _ h e

/-! ## What an access changes beside memory -/

/-- `t` with what an access may change taken from `s`. -/
def State.accessFrame (s t : State) : State :=
  { t with
    tlb := s.tlb, mem := s.mem, mgmt := s.mgmt, poison := s.poison, near := s.near, counted := s.counted, copies := s.copies
    joins := s.joins, free := s.free, gangs := s.gangs }

/-- Nothing but memory, poison, reader counts, the directory, translation caches, near lines, fills, page-pool counts, the
counter of free values and reservations differs: every gang is the same but for reservations that a write of the hardware's
own took, and every team and grid, the clocks and all other state of the package is the same. -/
def State.Accessed (s t : State) : Prop :=
  s.accessFrame t = s ∧ t.gangs.map Gang.clearReservations = s.gangs.map Gang.clearReservations

theorem State.Accessed.refl (s : State) : s.Accessed s := ⟨rfl, rfl⟩

/-- A change of parts that the frame takes from `s`. -/
theorem State.Accessed.of_frame {s t : State} (h : s.accessFrame t = s) (hg : t.gangs = s.gangs) : s.Accessed t := ⟨h, by rw [hg]⟩

theorem State.Accessed.trans {s t u : State} (h : s.Accessed t) (k : t.Accessed u) : s.Accessed u := by
  have h1 : s.accessFrame u = s.accessFrame (t.accessFrame u) := rfl
  exact ⟨by rw [h1, k.1, h.1], k.2.trans h.2⟩

theorem State.Accessed.teams {s t : State} (h : s.Accessed t) : t.teams = s.teams := by
  have := congrArg State.teams h.1; exact this
theorem State.Accessed.grids {s t : State} (h : s.Accessed t) : t.grids = s.grids := by
  have := congrArg State.grids h.1; exact this
theorem State.Accessed.chip {s t : State} (h : s.Accessed t) : t.chip = s.chip := by
  have := congrArg State.chip h.1; exact this
theorem State.Accessed.cycles {s t : State} (h : s.Accessed t) : t.cycles = s.cycles := by
  have := congrArg State.cycles h.1; exact this

theorem State.Accessed.gang? {s t : State} (h : s.Accessed t) (n : Nat) :
    (t.gang? n).map Gang.clearReservations = (s.gang? n).map Gang.clearReservations := by
  have key (l : List Gang) : ((l.map Gang.clearReservations).find? fun g => decide (g.gid = n)) =
      (l.find? fun g => decide (g.gid = n)).map Gang.clearReservations := List.find?_map ..
  simp only [State.gang?, ← key, h.2]

theorem State.accessed_foldl {α : Type} {f : State → α → State} (hf : ∀ (s : State) a, s.Accessed (f s a)) (l : List α) :
    ∀ s : State, s.Accessed (l.foldl f s) := by
  induction l with
  | nil => exact State.Accessed.refl
  | cons a l ih => exact fun s => (hf s a).trans (ih _)

theorem State.accessed_foldE {α β ε : Type} {f : State → α → Except ε (State × β)}
    (hf : ∀ (s : State) a t b, f s a = .ok (t, b) → s.Accessed t) (l : List α) : ∀ {s t : State} {bs}, foldE f s l = .ok (t, bs) → s.Accessed t := by
  induction l with
  | nil => intro s t bs e; cases e; exact .refl s
  | cons a l ih =>
    intro s t bs e
    simp only [foldE] at e
    split at e
    · cases e
    · next s' b hb =>
      split at e
      · cases e
      · next s'' bs' hbs => cases e; exact (hf _ _ _ _ hb).trans (ih hbs)

theorem State.accessed_setPhys (s : State) (pa : Nat) (b : Byte) : s.Accessed (s.setByte (.phys pa) b) := by
  unfold State.setByte
  simp only
  split
  · split
    · exact ⟨rfl, rfl⟩
    · exact .refl s
  · exact ⟨rfl, rfl⟩

theorem State.accessed_pokePhys (s : State) (pa : Nat) (bs : List Byte) : s.Accessed (s.pokePhys pa bs) :=
  State.accessed_foldl (f := fun (s : State) (ib : Nat × Byte) => s.setByte (.phys (pa + ib.1)) ib.2)
    (fun _ _ => State.accessed_setPhys ..) _ s

/-- Reservations taken from some threads: the gang is otherwise the same. -/
theorem Gang.clear_wrote (g : Gang) (p : Option Place → Bool) :
    (g.mapThreads (List.range g.slices.length) fun _ _ t => if p t.reservation then { t with reservation := none } else t).clearReservations =
      g.clearReservations := by
  have clear (sl : Slice) : (sl.mapThreads fun _ t => if p t.reservation then { t with reservation := none } else t).mapThreads
      (fun _ t => { t with reservation := none }) = sl.mapThreads fun _ t => { t with reservation := none } := by
    simp only [Slice.mapThreads, mapI_mapI]
    congr 1
    exact mapI_same (fun _ t => by split <;> rfl) _ 0
  simp only [Gang.clearReservations, Gang.mapThreads, Gang.mapSlices, map_mapI]
  congr 1
  rw [← mapI_const _ g.slices 0]
  exact mapI_same (fun k sl => by split <;> simp [clear]) _ 0

theorem State.accessed_wroteLines (s : State) (lines whole : List Nat) : s.Accessed (s.wroteLines lines whole) := by
  refine ⟨rfl, ?_⟩
  unfold State.wroteLines
  simp only [List.map_map]
  refine List.map_congr_left fun g _ => ?_
  simp only [Function.comp]
  split
  · exact Gang.clear_wrote g fun r => match r with
      | some (.phys pa) => lines.contains (pa / 128)
      | _ => false
  · rfl

theorem State.accessed_writePhys (s : State) (pa : Nat) (bs : List Byte) : s.Accessed (s.writePhys pa bs) :=
  (State.accessed_wroteLines s _ _).trans (State.accessed_pokePhys _ pa bs)

theorem State.accessed_translate {s t : State} {core asid va : Nat} {e : TlbEntry} (h : s.translate core asid va = some (e, t)) :
    s.Accessed t :=
  State.Accessed.of_frame (by have := congrArg s.accessFrame (State.translate_mem h); exact this)
    (by have := congrArg State.gangs (State.translate_mem h); exact this)

theorem State.accessed_tlb (s : State) (l : List TlbEntry) : s.Accessed { s with tlb := l } := ⟨rfl, rfl⟩

theorem State.accessed_near (s : State) (l : List ((Nat × Nat × Nat) × NearLine)) : s.Accessed { s with near := l } := ⟨rfl, rfl⟩

theorem State.accessed_noteFill (s : State) (pa : Nat) : s.Accessed (s.noteFill pa) := by
  unfold State.noteFill
  simp only
  split
  · exact .refl s
  · split
    · exact ⟨rfl, rfl⟩
    · split <;> exact ⟨rfl, rfl⟩

theorem State.accessed_touch (s : State) (core asid va : Nat) (e : TlbEntry) : s.Accessed (s.touch core asid va e) := by
  unfold State.touch
  extract_lets d
  split
  · exact .refl s
  · rename_i old u _
    have h1 : s.Accessed u := State.accessed_writePhys s e.entry _
    clear_value u
    exact h1.trans (State.accessed_tlb _ _)

theorem State.accessed_poolPop {s t : State} {h page : Nat} (e : s.poolPop h = some (page, t)) : s.Accessed t := by
  unfold State.poolPop at e; simp only at e; split at e
  · obtain ⟨-, rfl⟩ := Prod.mk.inj (Option.some.inj e); exact ⟨rfl, rfl⟩
  · cases e

theorem State.accessed_copyPage (s : State) (src dst : Nat) : s.Accessed (s.copyPage src dst) := by
  have h1 := State.accessed_wroteLines s ((List.range 512).map (dst / 128 + ·)) ((List.range 512).map (dst / 128 + ·))
  unfold State.copyPage
  simp only
  generalize s.wroteLines ((List.range 512).map (dst / 128 + ·)) ((List.range 512).map (dst / 128 + ·)) = u at h1 ⊢
  exact h1.trans ⟨rfl, rfl⟩

theorem State.accessed_lowerRefs (s : State) (asid slots page : Nat) : s.Accessed (s.lowerRefs asid slots page) :=
  State.accessed_foldl (fun s _ => State.accessed_writePhys s _ _) _ s

theorem State.accessed_cowResolve {s t : State} {asid va slots : Nat} (e : s.cowResolve asid va slots = .ok t) : s.Accessed t := by
  unfold State.cowResolve at e
  split at e
  · next a leaf _ _ =>
    split at e
    · rw [← Except.ok.inj e]; exact State.accessed_tlb s _
    · split at e
      · cases e
      · next page u hp =>
        rw [← Except.ok.inj e]
        exact ((((State.accessed_poolPop hp).trans (State.accessed_copyPage ..)).trans
          (State.accessed_writePhys _ a (leBytes 8 (withPage leaf page false 0)))).trans
          (State.accessed_lowerRefs _ asid slots (pageAddr leaf))).trans (State.accessed_tlb _ _)
  · cases e

theorem State.accessed_accessWith {s t : State} {touching rd wr : Bool} {core asid va pa : Nat}
    (e : s.accessWith touching core asid va rd wr = .ok (t, pa)) : s.Accessed t := by
  have fin {s : State} {e : TlbEntry} {pa : Nat} : s.Accessed ((if touching then s.touch core asid va e else s).noteFill pa) := by
    refine State.Accessed.trans ?_ (State.accessed_noteFill ..)
    split
    · exact State.accessed_touch ..
    · exact .refl s
  unfold State.accessWith at e
  simp only at e
  split at e
  · cases e
  · split at e
    · cases e
    · next ht =>
      have ht := State.accessed_translate ht
      split at e
      · cases e
      · split at e
        · split at e
          · split at e
            · cases e
            · split at e
              · cases e
              · next hc =>
                split at e
                · cases e
                · next ht2 =>
                  rw [State.found_ok e]
                  exact ((ht.trans (State.accessed_cowResolve hc)).trans (State.accessed_translate ht2)).trans fin
          · cases e
        · split at e
          · cases e
          · rw [State.found_ok e]; exact ht.trans fin

theorem State.accessed_access {s t : State} {rd wr : Bool} {core asid va pa : Nat}
    (e : s.access core asid va rd wr = .ok (t, pa)) : s.Accessed t := State.accessed_accessWith e

theorem State.accessed_readVirt {s t : State} {core asid va n : Nat} {bs : List Byte}
    (e : s.readVirt core asid va n = .ok (t, bs)) : s.Accessed t := by
  unfold State.readVirt at e
  simp only at e
  split at e
  · cases e
  · next hf =>
    cases e
    refine State.accessed_foldE (fun s a t b hb => ?_) _ hf
    split at hb
    · cases hb
    · next ha => cases hb; exact State.accessed_access ha

theorem State.accessed_privatePlace {s t : State} {g : Gang} {asid base thread off : Nat} {wr : Bool} {p : Place}
    (e : s.privatePlace g asid base thread off wr = .ok (t, p)) : s.Accessed t := by
  unfold State.privatePlace at e
  extract_lets va backing cow key s0 rebind at e
  have h0 : s.Accessed s0 := by
    show s.Accessed (if cow then s.dropTranslation asid va else s)
    split
    · exact State.accessed_tlb s _
    · exact .refl s
  split at e
  · simp only [backing] at e
    split at e
    · cases e
    · next ha => have := State.accessed_access ha; cases e; exact this
  · split at e
    · split at e
      · split at e
        · cases e
        · next ha =>
          have := h0.trans (State.accessed_access ha)
          cases e; exact this.trans (.of_frame rfl rfl)
      · split at e
        · cases e
        · cases e; exact h0.trans (.of_frame rfl rfl)
    · split at e
      · cases e
      · next s1 pa ha =>
        have h1 := h0.trans (State.accessed_access ha)
        extract_lets s2 line at e
        have h2 : s.Accessed s2 := by
          show s.Accessed (if cow then ({ s1 with near := s1.near.map (rebind pa) } : State) else s1)
          split
          · exact h1.trans (State.accessed_near _ _)
          · exact h1
        split at e
        · rw [← (Prod.mk.inj (Except.ok.inj e)).1]; exact h2
        · rw [← (Prod.mk.inj (Except.ok.inj e)).1]; exact h2.trans (State.accessed_near _ _)

theorem State.accessed_piece {s t : State} {g : Gang} {space k j addr : Nat} {rd wr : Bool} {p : Place}
    (e : s.piece g space k j addr rd wr = .ok (t, p)) : s.Accessed t := by
  unfold State.piece at e
  simp only at e
  split at e
  · exact State.accessed_privatePlace e
  · split at e
    · cases e
    · next ha => have := State.accessed_access ha; cases e; exact this
  · split at e
    · cases e
    · cases e; exact .refl s

/-- Finding the places of an access leaves every gang, team and grid as it was. -/
theorem State.accessed_places {s t : State} {g : Gang} {space n : Nat} {rd wr : Bool} {ls : List LaneAddr} {x : List LanePlaces}
    (e : s.places g space n rd wr ls = .ok (t, x)) : s.Accessed t := by
  refine State.accessed_foldE (fun s l t b hb => ?_) _ e
  unfold State.lanePlaces at hb
  simp only at hb
  split at hb
  · cases hb
  · next hf =>
    cases hb
    refine State.accessed_foldE (fun s a t b hp => ?_) _ hf
    split at hp
    · cases hp
    · next h => cases hp; exact State.accessed_piece h

/-! ## Reading after a write -/

@[simp] theorem State.region_setByte (s : State) (p : Place) (b : Byte) (pa : Nat) : (s.setByte p b).region pa = s.region pa := by
  have hm : (s.setByte p b).mgmt = s.mgmt := by
    unfold State.setByte; split
    · split
      · split <;> rfl
      · rfl
    all_goals rfl
  have hc : (s.setByte p b).member = s.member := by unfold State.member State.mg; rw [hm]
  unfold State.region
  rw [hc]

@[simp] theorem State.norm_setByte (s : State) (p : Place) (b : Byte) (pa : Nat) : (s.setByte p b).norm pa = s.norm pa := by
  simp only [State.norm, State.region_setByte]

theorem find?_map_key {α : Type} (key : α → Nat) (f : α → α) (hf : ∀ x, key (f x) = key x) (l : List α) (t n : Nat) :
    (l.map fun x => if key x = t then f x else x).find? (fun x => decide (key x = n)) =
      (l.find? fun x => decide (key x = n)).map fun x => if key x = t then f x else x := by
  induction l with
  | nil => rfl
  | cons x l ih =>
    have hk : key (if key x = t then f x else x) = key x := by split <;> simp [hf]
    simp only [List.map_cons, List.find?_cons, hk]
    split <;> simp [ih]

/-- A physical address that memory stands behind: no window, no hole of another member's. -/
def State.isMemory (s : State) (pa : Nat) : Bool :=
  match s.region pa with
  | .window _ => false
  | .remote _ off => decide (off < Config.localHbm)
  | _ => true

/-- Where the byte of such an address is kept. -/
theorem State.physByte_memory {s : State} {pa : Nat} (h : s.isMemory pa = true) : s.physByte pa = Sparse.get memDefault s.mem (s.norm pa) := by
  unfold State.isMemory at h
  unfold State.physByte State.norm
  split at h <;> simp_all

theorem State.mem_setPhys {s : State} {pa : Nat} (h : s.isMemory pa = true) (b : Byte) :
    (s.setByte (.phys pa) b).mem = Sparse.set memDefault s.mem (s.norm pa) b := by
  unfold State.isMemory at h
  unfold State.setByte State.norm
  split at h <;> simp_all

/-- A byte of memory written: it reads as written through every alias, every other byte as before. -/
theorem State.physByte_setByte (s : State) (pa qa : Nat) (b : Byte) (hp : s.isMemory pa = true) (hq : s.isMemory qa = true) :
    (s.setByte (.phys pa) b).physByte qa = if s.norm qa = s.norm pa then b else s.physByte qa := by
  have hq' : (s.setByte (.phys pa) b).isMemory qa = true := by unfold State.isMemory; rw [State.region_setByte]; exact hq
  rw [State.physByte_memory hq', State.physByte_memory hq, State.mem_setPhys hp, State.norm_setByte]
  exact Sparse.get_set ..

/-- A write to one kind of memory leaves the others as they were. -/
theorem State.physByte_setScratch (s : State) (t off qa : Nat) (b : Byte) :
    (s.setByte (.scratch t off) b).physByte qa = s.physByte qa := rfl

theorem State.physByte_setChip (s : State) (a qa : Nat) (b : Byte) : (s.setByte (.chip a) b).physByte qa = s.physByte qa := rfl

theorem State.byteAt_setChip (s : State) (a c : Nat) (b : Byte) :
    (s.setByte (.chip a) b).byteAt (.chip c) = if c = a then b else s.byteAt (.chip c) := Sparse.get_set ..

/-- A byte of a scratchpad that is there. -/
theorem State.byteAt_setScratch (s : State) (t off u o : Nat) (b : Byte) (h : (s.teamByKey? u).isSome = true) :
    (s.setByte (.scratch t off) b).byteAt (.scratch u o) = if u = t ∧ o = off then b else s.byteAt (.scratch u o) := by
  obtain ⟨x, hx⟩ := Option.isSome_iff_exists.1 h
  have hk : x.key = u := by simpa using List.find?_some hx
  have hs : (s.setByte (.scratch t off) b).teamByKey? u =
      some (if x.key = t then { x with scratch := Sparse.set 0 x.scratch off b } else x) := by
    have := find?_map_key Team.key (fun y => { y with scratch := Sparse.set 0 y.scratch off b }) (fun _ => rfl) s.teams t u
    unfold State.teamByKey? at hx ⊢
    rw [hx] at this
    exact this
  simp only [State.byteAt, hs, hx]
  subst hk
  by_cases ht : x.key = t
  · simp [ht, Team.byte, Sparse.get_set]
  · simp [ht]

end Sys2Proof.Machine
end

