-- ==== Sys2Proof/Laws/PerInstr.lean ====
section
/-! SUPPORT. Encoding and decoding agree, constructor by constructor: a well-formed instruction's words decode to it. -/

open Sys2Proof

set_option linter.unusedSimpArgs false

/-- An instruction that has words: if it is well formed, they decode to it. -/
def Sys2Proof.Laws.RoundTrip.Statement (i : Instr) : Prop :=
  i.raw.isSome = true → i.wf = true → decode (encode i) = .ok i

theorem Sys2Proof.Laws.RoundTrip.of_none {i : Instr} (h : i.raw = none) : Statement i := by
  intro h1; rw [h] at h1; cases h1

/-- It is enough that the parts are those of the opcode's form and that they build the instruction. -/
theorem Sys2Proof.Laws.RoundTrip.of_raw {i : Instr} {r : Raw} (h : i.raw = some r)
    (hA : r.immA.length = immWords (codeA r.op) r.a) (hB : r.immB.length = immWords (codeB r.op) r.b)
    (hx : hasFixed r.op = false → r.ext = 0) (hb : i.wf = true → build r = .ok i) : Statement i := by
  intro _ hw
  have hl : (encode i).length ≤ 4 := by simp [Instr.wf] at hw; exact hw.2
  have he : encode i = r.words := by simp [encode, h]
  rw [he] at hl ⊢
  simp [decode, Raw.split_words r hA hB hx hl, hb hw]

/-- The form D, A, B. -/
theorem Sys2Proof.Laws.RoundTrip.of_dab {i : Instr} {op : BitVec 8} {d : Dst} {a b : Src} (f : Dst → Src → Src → Instr)
    (h : i.raw = encDAB op d a b) (hA : codeA op = true) (hB : codeB op = true)
    (hb : build (Raw.of op d.code a.code b.code 0 a.imms b.imms) = (Raw.of op d.code a.code b.code 0 a.imms b.imms).dab f)
    (hi : f d a b = i) : Statement i := by
  refine of_raw h ?_ ?_ (fun _ => rfl) fun _ => ?_
  · simp only [Raw.of, hA]; exact a.length_imms
  · simp only [Raw.of, hB]; exact b.length_imms
  · rw [hb]; simp only [Raw.dab, Raw.D, Raw.A, Raw.B, Raw.of, Dst.ofCode_code, Src.ofCode_code, hi]

/-- The form D, A with a zero B. -/
theorem Sys2Proof.Laws.RoundTrip.of_da {i : Instr} {op : BitVec 8} {d : Dst} {a : Src} (f : Dst → Src → Instr)
    (h : i.raw = encDA op d a 0) (hA : codeA op = true) (hB : codeB op = false)
    (hb : build (Raw.of op d.code a.code 0 0 a.imms []) = (Raw.of op d.code a.code 0 0 a.imms []).da f)
    (hi : f d a = i) : Statement i := by
  refine of_raw h ?_ ?_ (fun _ => rfl) fun _ => ?_
  · simp only [Raw.of, hA]; exact a.length_imms
  · simp only [Raw.of, hB]; rfl
  · rw [hb]; simp only [Raw.da, Raw.D, Raw.A, Raw.of, Dst.ofCode_code, Src.ofCode_code, hi, resv]; rfl

theorem Sys2Proof.Laws.RoundTrip.nop : Statement (.nop) := of_raw rfl
  (rfl) (rfl) (fun _ => rfl) fun hw => by
  simp [build, row00, Raw.of, Raw.D, Raw.A, Raw.B, Raw.DS, Raw.acc, Raw.modw, Raw.dab, Raw.da, Raw.ab, Raw.bare, Raw.onlyA, Raw.branch, Raw.cond, Raw.pred, Raw.pred2, Raw.load, Raw.tile, Raw.barrier, resv, Dst.ofCode_code, Src.ofCode_code, AccWord.of_word, CmdWord.of_word, ModWord.of_word, byte_f4_f3_f1, byte_f4_f1_k3, byte_k6_f2, byte_k7_f1, byte_k5_f3, byte_k4_f4, byte_k3_f5, byte_k2_f6, byte_f4_k1_f3, byte_k2_f2_f4, byte_k6_f1_f1, byte_f4_k4, byte_f4_f4, byte_f4_k3_f1, byte_k3_f1_f4, byte_k1_f7, byte_o1_f3_k1_f3, byte_f1_k5_f2, byte_k1_f1_f1_f5, byte_f6_f2, byte_f2_f6]
theorem Sys2Proof.Laws.RoundTrip.mode (ty : BitVec 4) (rnd : BitVec 3) (sat : BitVec 1) (guard : BitVec 4) (ftz : BitVec 1) : Statement (.mode ty rnd sat guard ftz) := of_raw rfl
  (rfl) (rfl) (fun _ => rfl) fun hw => by
  simp [build, row00, Raw.of, Raw.D, Raw.A, Raw.B, Raw.DS, Raw.acc, Raw.modw, Raw.dab, Raw.da, Raw.ab, Raw.bare, Raw.onlyA, Raw.branch, Raw.cond, Raw.pred, Raw.pred2, Raw.load, Raw.tile, Raw.barrier, resv, Dst.ofCode_code, Src.ofCode_code, AccWord.of_word, CmdWord.of_word, ModWord.of_word, byte_f4_f3_f1, byte_f4_f1_k3, byte_k6_f2, byte_k7_f1, byte_k5_f3, byte_k4_f4, byte_k3_f5, byte_k2_f6, byte_f4_k1_f3, byte_k2_f2_f4, byte_k6_f1_f1, byte_f4_k4, byte_f4_f4, byte_f4_k3_f1, byte_k3_f1_f4, byte_k1_f7, byte_o1_f3_k1_f3, byte_f1_k5_f2, byte_k1_f1_f1_f5, byte_f6_f2, byte_f2_f6]
theorem Sys2Proof.Laws.RoundTrip.fpctl (a : Src) (op : BitVec 2) : Statement (.fpctl a op) := of_raw rfl
  (Src.length_imms _) (rfl) (fun _ => rfl) fun hw => by
  simp [build, row00, Raw.of, Raw.D, Raw.A, Raw.B, Raw.DS, Raw.acc, Raw.modw, Raw.dab, Raw.da, Raw.ab, Raw.bare, Raw.onlyA, Raw.branch, Raw.cond, Raw.pred, Raw.pred2, Raw.load, Raw.tile, Raw.barrier, resv, Dst.ofCode_code, Src.ofCode_code, AccWord.of_word, CmdWord.of_word, ModWord.of_word, byte_f4_f3_f1, byte_f4_f1_k3, byte_k6_f2, byte_k7_f1, byte_k5_f3, byte_k4_f4, byte_k3_f5, byte_k2_f6, byte_f4_k1_f3, byte_k2_f2_f4, byte_k6_f1_f1, byte_f4_k4, byte_f4_f4, byte_f4_k3_f1, byte_k3_f1_f4, byte_k1_f7, byte_o1_f3_k1_f3, byte_f1_k5_f2, byte_k1_f1_f1_f5, byte_f6_f2, byte_f2_f6]
theorem Sys2Proof.Laws.RoundTrip.getsr (d : Dst) (n : BitVec 8) : Statement (.getsr d n) := of_raw rfl
  (rfl) (rfl) (fun _ => rfl) fun hw => by
  simp [build, row00, Raw.of, Raw.D, Raw.A, Raw.B, Raw.DS, Raw.acc, Raw.modw, Raw.dab, Raw.da, Raw.ab, Raw.bare, Raw.onlyA, Raw.branch, Raw.cond, Raw.pred, Raw.pred2, Raw.load, Raw.tile, Raw.barrier, resv, Dst.ofCode_code, Src.ofCode_code, AccWord.of_word, CmdWord.of_word, ModWord.of_word, byte_f4_f3_f1, byte_f4_f1_k3, byte_k6_f2, byte_k7_f1, byte_k5_f3, byte_k4_f4, byte_k3_f5, byte_k2_f6, byte_f4_k1_f3, byte_k2_f2_f4, byte_k6_f1_f1, byte_f4_k4, byte_f4_f4, byte_f4_k3_f1, byte_k3_f1_f4, byte_k1_f7, byte_o1_f3_k1_f3, byte_f1_k5_f2, byte_k1_f1_f1_f5, byte_f6_f2, byte_f2_f6]
theorem Sys2Proof.Laws.RoundTrip.setsr (a : Src) (n : BitVec 8) : Statement (.setsr a n) := of_raw rfl
  (Src.length_imms _) (rfl) (fun _ => rfl) fun hw => by
  simp [build, row00, Raw.of, Raw.D, Raw.A, Raw.B, Raw.DS, Raw.acc, Raw.modw, Raw.dab, Raw.da, Raw.ab, Raw.bare, Raw.onlyA, Raw.branch, Raw.cond, Raw.pred, Raw.pred2, Raw.load, Raw.tile, Raw.barrier, resv, Dst.ofCode_code, Src.ofCode_code, AccWord.of_word, CmdWord.of_word, ModWord.of_word, byte_f4_f3_f1, byte_f4_f1_k3, byte_k6_f2, byte_k7_f1, byte_k5_f3, byte_k4_f4, byte_k3_f5, byte_k2_f6, byte_f4_k1_f3, byte_k2_f2_f4, byte_k6_f1_f1, byte_f4_k4, byte_f4_f4, byte_f4_k3_f1, byte_k3_f1_f4, byte_k1_f7, byte_o1_f3_k1_f3, byte_f1_k5_f2, byte_k1_f1_f1_f5, byte_f6_f2, byte_f2_f6]
theorem Sys2Proof.Laws.RoundTrip.trap (a : Src) : Statement (.trap a) := of_raw rfl
  (Src.length_imms _) (rfl) (fun _ => rfl) fun hw => by
  simp [build, row00, Raw.of, Raw.D, Raw.A, Raw.B, Raw.DS, Raw.acc, Raw.modw, Raw.dab, Raw.da, Raw.ab, Raw.bare, Raw.onlyA, Raw.branch, Raw.cond, Raw.pred, Raw.pred2, Raw.load, Raw.tile, Raw.barrier, resv, Dst.ofCode_code, Src.ofCode_code, AccWord.of_word, CmdWord.of_word, ModWord.of_word, byte_f4_f3_f1, byte_f4_f1_k3, byte_k6_f2, byte_k7_f1, byte_k5_f3, byte_k4_f4, byte_k3_f5, byte_k2_f6, byte_f4_k1_f3, byte_k2_f2_f4, byte_k6_f1_f1, byte_f4_k4, byte_f4_f4, byte_f4_k3_f1, byte_k3_f1_f4, byte_k1_f7, byte_o1_f3_k1_f3, byte_f1_k5_f2, byte_k1_f1_f1_f5, byte_f6_f2, byte_f2_f6]
theorem Sys2Proof.Laws.RoundTrip.resume (again : BitVec 1) : Statement (.resume again) := of_raw rfl
  (rfl) (rfl) (fun _ => rfl) fun hw => by
  simp [build, row00, Raw.of, Raw.D, Raw.A, Raw.B, Raw.DS, Raw.acc, Raw.modw, Raw.dab, Raw.da, Raw.ab, Raw.bare, Raw.onlyA, Raw.branch, Raw.cond, Raw.pred, Raw.pred2, Raw.load, Raw.tile, Raw.barrier, resv, Dst.ofCode_code, Src.ofCode_code, AccWord.of_word, CmdWord.of_word, ModWord.of_word, byte_f4_f3_f1, byte_f4_f1_k3, byte_k6_f2, byte_k7_f1, byte_k5_f3, byte_k4_f4, byte_k3_f5, byte_k2_f6, byte_f4_k1_f3, byte_k2_f2_f4, byte_k6_f1_f1, byte_f4_k4, byte_f4_f4, byte_f4_k3_f1, byte_k3_f1_f4, byte_k1_f7, byte_o1_f3_k1_f3, byte_f1_k5_f2, byte_k1_f1_f1_f5, byte_f6_f2, byte_f2_f6]
theorem Sys2Proof.Laws.RoundTrip.twr (a : Src) (elem : BitVec 3) : Statement (.twr a elem) := of_raw rfl
  (Src.length_imms _) (rfl) (fun _ => rfl) fun hw => by
  simp [build, row00, Raw.of, Raw.D, Raw.A, Raw.B, Raw.DS, Raw.acc, Raw.modw, Raw.dab, Raw.da, Raw.ab, Raw.bare, Raw.onlyA, Raw.branch, Raw.cond, Raw.pred, Raw.pred2, Raw.load, Raw.tile, Raw.barrier, resv, Dst.ofCode_code, Src.ofCode_code, AccWord.of_word, CmdWord.of_word, ModWord.of_word, byte_f4_f3_f1, byte_f4_f1_k3, byte_k6_f2, byte_k7_f1, byte_k5_f3, byte_k4_f4, byte_k3_f5, byte_k2_f6, byte_f4_k1_f3, byte_k2_f2_f4, byte_k6_f1_f1, byte_f4_k4, byte_f4_f4, byte_f4_k3_f1, byte_k3_f1_f4, byte_k1_f7, byte_o1_f3_k1_f3, byte_f1_k5_f2, byte_k1_f1_f1_f5, byte_f6_f2, byte_f2_f6]
theorem Sys2Proof.Laws.RoundTrip.brk (code : BitVec 16) : Statement (.brk code) := of_raw rfl
  (rfl) (rfl) (fun _ => rfl) fun hw => by
  simp [build, row00, Raw.of, Raw.D, Raw.A, Raw.B, Raw.DS, Raw.acc, Raw.modw, Raw.dab, Raw.da, Raw.ab, Raw.bare, Raw.onlyA, Raw.branch, Raw.cond, Raw.pred, Raw.pred2, Raw.load, Raw.tile, Raw.barrier, resv, Dst.ofCode_code, Src.ofCode_code, AccWord.of_word, CmdWord.of_word, ModWord.of_word, byte_f4_f3_f1, byte_f4_f1_k3, byte_k6_f2, byte_k7_f1, byte_k5_f3, byte_k4_f4, byte_k3_f5, byte_k2_f6, byte_f4_k1_f3, byte_k2_f2_f4, byte_k6_f1_f1, byte_f4_k4, byte_f4_f4, byte_f4_k3_f1, byte_k3_f1_f4, byte_k1_f7, byte_o1_f3_k1_f3, byte_f1_k5_f2, byte_k1_f1_f1_f5, byte_f6_f2, byte_f2_f6, bits_join (m := 8) (n := 8) code]
theorem Sys2Proof.Laws.RoundTrip.sysc (d : Dst) (a : Src) (svc : BitVec 8) : Statement (.sysc d a svc) := of_raw rfl
  (Src.length_imms _) (rfl) (fun _ => rfl) fun hw => by
  simp [build, row00, Raw.of, Raw.D, Raw.A, Raw.B, Raw.DS, Raw.acc, Raw.modw, Raw.dab, Raw.da, Raw.ab, Raw.bare, Raw.onlyA, Raw.branch, Raw.cond, Raw.pred, Raw.pred2, Raw.load, Raw.tile, Raw.barrier, resv, Dst.ofCode_code, Src.ofCode_code, AccWord.of_word, CmdWord.of_word, ModWord.of_word, byte_f4_f3_f1, byte_f4_f1_k3, byte_k6_f2, byte_k7_f1, byte_k5_f3, byte_k4_f4, byte_k3_f5, byte_k2_f6, byte_f4_k1_f3, byte_k2_f2_f4, byte_k6_f1_f1, byte_f4_k4, byte_f4_f4, byte_f4_k3_f1, byte_k3_f1_f4, byte_k1_f7, byte_o1_f3_k1_f3, byte_f1_k5_f2, byte_k1_f1_f1_f5, byte_f6_f2, byte_f2_f6]
theorem Sys2Proof.Laws.RoundTrip.fence (scope : BitVec 3) (order : BitVec 3) : Statement (.fence scope order) := of_raw rfl
  (rfl) (rfl) (fun _ => rfl) fun hw => by
  simp [build, row00, Raw.of, Raw.D, Raw.A, Raw.B, Raw.DS, Raw.acc, Raw.modw, Raw.dab, Raw.da, Raw.ab, Raw.bare, Raw.onlyA, Raw.branch, Raw.cond, Raw.pred, Raw.pred2, Raw.load, Raw.tile, Raw.barrier, resv, Dst.ofCode_code, Src.ofCode_code, AccWord.of_word, CmdWord.of_word, ModWord.of_word, byte_f4_f3_f1, byte_f4_f1_k3, byte_k6_f2, byte_k7_f1, byte_k5_f3, byte_k4_f4, byte_k3_f5, byte_k2_f6, byte_f4_k1_f3, byte_k2_f2_f4, byte_k6_f1_f1, byte_f4_k4, byte_f4_f4, byte_f4_k3_f1, byte_k3_f1_f4, byte_k1_f7, byte_o1_f3_k1_f3, byte_f1_k5_f2, byte_k1_f1_f1_f5, byte_f6_f2, byte_f2_f6]
theorem Sys2Proof.Laws.RoundTrip.fencei : Statement (.fencei) := of_raw rfl
  (rfl) (rfl) (fun _ => rfl) fun hw => by
  simp [build, row00, Raw.of, Raw.D, Raw.A, Raw.B, Raw.DS, Raw.acc, Raw.modw, Raw.dab, Raw.da, Raw.ab, Raw.bare, Raw.onlyA, Raw.branch, Raw.cond, Raw.pred, Raw.pred2, Raw.load, Raw.tile, Raw.barrier, resv, Dst.ofCode_code, Src.ofCode_code, AccWord.of_word, CmdWord.of_word, ModWord.of_word, byte_f4_f3_f1, byte_f4_f1_k3, byte_k6_f2, byte_k7_f1, byte_k5_f3, byte_k4_f4, byte_k3_f5, byte_k2_f6, byte_f4_k1_f3, byte_k2_f2_f4, byte_k6_f1_f1, byte_f4_k4, byte_f4_f4, byte_f4_k3_f1, byte_k3_f1_f4, byte_k1_f7, byte_o1_f3_k1_f3, byte_f1_k5_f2, byte_k1_f1_f1_f5, byte_f6_f2, byte_f2_f6]
theorem Sys2Proof.Laws.RoundTrip.ipf (lines : BitVec 25) (count : BitVec 4) : Statement (.ipf lines count) := of_raw rfl
  (rfl) (rfl) nofun fun hw => by
  have h0 : bitsAt 0 4 (lines ++ 0#3 ++ count : W32) = count := bits_low _ count
  have h1 : bitsAt 4 3 (lines ++ 0#3 ++ count : W32) = 0#3 := (bits_above (l := 0) (lines ++ 0#3) count).trans (bits_low _ 0#3)
  have h2 : bitsAt 7 25 (lines ++ 0#3 ++ count : W32) = lines := (bits_above (l := 3) (lines ++ 0#3) count).trans (bits_high lines 0#3)
  simp [build, row00, Raw.of, Raw.D, Raw.A, Raw.B, Raw.DS, Raw.acc, Raw.modw, Raw.dab, Raw.da, Raw.ab, Raw.bare, Raw.onlyA, Raw.branch, Raw.cond, Raw.pred, Raw.pred2, Raw.load, Raw.tile, Raw.barrier, resv, Dst.ofCode_code, Src.ofCode_code, AccWord.of_word, CmdWord.of_word, ModWord.of_word, byte_f4_f3_f1, byte_f4_f1_k3, byte_k6_f2, byte_k7_f1, byte_k5_f3, byte_k4_f4, byte_k3_f5, byte_k2_f6, byte_f4_k1_f3, byte_k2_f2_f4, byte_k6_f1_f1, byte_f4_k4, byte_f4_f4, byte_f4_k3_f1, byte_k3_f1_f4, byte_k1_f7, byte_o1_f3_k1_f3, byte_f1_k5_f2, byte_k1_f1_f1_f5, byte_f6_f2, byte_f2_f6, h0, h1, h2]
theorem Sys2Proof.Laws.RoundTrip.br (off : W32) : Statement (.br off) := of_raw rfl
  (rfl) (rfl) nofun fun hw => by
  simp [build, row10, Raw.of, Raw.D, Raw.A, Raw.B, Raw.DS, Raw.acc, Raw.modw, Raw.dab, Raw.da, Raw.ab, Raw.bare, Raw.onlyA, Raw.branch, Raw.cond, Raw.pred, Raw.pred2, Raw.load, Raw.tile, Raw.barrier, resv, Dst.ofCode_code, Src.ofCode_code, AccWord.of_word, CmdWord.of_word, ModWord.of_word, byte_f4_f3_f1, byte_f4_f1_k3, byte_k6_f2, byte_k7_f1, byte_k5_f3, byte_k4_f4, byte_k3_f5, byte_k2_f6, byte_f4_k1_f3, byte_k2_f2_f4, byte_k6_f1_f1, byte_f4_k4, byte_f4_f4, byte_f4_k3_f1, byte_k3_f1_f4, byte_k1_f7, byte_o1_f3_k1_f3, byte_f1_k5_f2, byte_k1_f1_f1_f5, byte_f6_f2, byte_f2_f6]
theorem Sys2Proof.Laws.RoundTrip.beq (a b : Src) (off : W32) : Statement (.beq a b off) := of_raw rfl
  (Src.length_imms _) (Src.length_imms _) nofun fun hw => by
  simp [build, row10, Raw.of, Raw.D, Raw.A, Raw.B, Raw.DS, Raw.acc, Raw.modw, Raw.dab, Raw.da, Raw.ab, Raw.bare, Raw.onlyA, Raw.branch, Raw.cond, Raw.pred, Raw.pred2, Raw.load, Raw.tile, Raw.barrier, resv, Dst.ofCode_code, Src.ofCode_code, AccWord.of_word, CmdWord.of_word, ModWord.of_word, byte_f4_f3_f1, byte_f4_f1_k3, byte_k6_f2, byte_k7_f1, byte_k5_f3, byte_k4_f4, byte_k3_f5, byte_k2_f6, byte_f4_k1_f3, byte_k2_f2_f4, byte_k6_f1_f1, byte_f4_k4, byte_f4_f4, byte_f4_k3_f1, byte_k3_f1_f4, byte_k1_f7, byte_o1_f3_k1_f3, byte_f1_k5_f2, byte_k1_f1_f1_f5, byte_f6_f2, byte_f2_f6]
theorem Sys2Proof.Laws.RoundTrip.bne (a b : Src) (off : W32) : Statement (.bne a b off) := of_raw rfl
  (Src.length_imms _) (Src.length_imms _) nofun fun hw => by
  simp [build, row10, Raw.of, Raw.D, Raw.A, Raw.B, Raw.DS, Raw.acc, Raw.modw, Raw.dab, Raw.da, Raw.ab, Raw.bare, Raw.onlyA, Raw.branch, Raw.cond, Raw.pred, Raw.pred2, Raw.load, Raw.tile, Raw.barrier, resv, Dst.ofCode_code, Src.ofCode_code, AccWord.of_word, CmdWord.of_word, ModWord.of_word, byte_f4_f3_f1, byte_f4_f1_k3, byte_k6_f2, byte_k7_f1, byte_k5_f3, byte_k4_f4, byte_k3_f5, byte_k2_f6, byte_f4_k1_f3, byte_k2_f2_f4, byte_k6_f1_f1, byte_f4_k4, byte_f4_f4, byte_f4_k3_f1, byte_k3_f1_f4, byte_k1_f7, byte_o1_f3_k1_f3, byte_f1_k5_f2, byte_k1_f1_f1_f5, byte_f6_f2, byte_f2_f6]
theorem Sys2Proof.Laws.RoundTrip.blt (a b : Src) (off : W32) : Statement (.blt a b off) := of_raw rfl
  (Src.length_imms _) (Src.length_imms _) nofun fun hw => by
  simp [build, row10, Raw.of, Raw.D, Raw.A, Raw.B, Raw.DS, Raw.acc, Raw.modw, Raw.dab, Raw.da, Raw.ab, Raw.bare, Raw.onlyA, Raw.branch, Raw.cond, Raw.pred, Raw.pred2, Raw.load, Raw.tile, Raw.barrier, resv, Dst.ofCode_code, Src.ofCode_code, AccWord.of_word, CmdWord.of_word, ModWord.of_word, byte_f4_f3_f1, byte_f4_f1_k3, byte_k6_f2, byte_k7_f1, byte_k5_f3, byte_k4_f4, byte_k3_f5, byte_k2_f6, byte_f4_k1_f3, byte_k2_f2_f4, byte_k6_f1_f1, byte_f4_k4, byte_f4_f4, byte_f4_k3_f1, byte_k3_f1_f4, byte_k1_f7, byte_o1_f3_k1_f3, byte_f1_k5_f2, byte_k1_f1_f1_f5, byte_f6_f2, byte_f2_f6]
theorem Sys2Proof.Laws.RoundTrip.bge (a b : Src) (off : W32) : Statement (.bge a b off) := of_raw rfl
  (Src.length_imms _) (Src.length_imms _) nofun fun hw => by
  simp [build, row10, Raw.of, Raw.D, Raw.A, Raw.B, Raw.DS, Raw.acc, Raw.modw, Raw.dab, Raw.da, Raw.ab, Raw.bare, Raw.onlyA, Raw.branch, Raw.cond, Raw.pred, Raw.pred2, Raw.load, Raw.tile, Raw.barrier, resv, Dst.ofCode_code, Src.ofCode_code, AccWord.of_word, CmdWord.of_word, ModWord.of_word, byte_f4_f3_f1, byte_f4_f1_k3, byte_k6_f2, byte_k7_f1, byte_k5_f3, byte_k4_f4, byte_k3_f5, byte_k2_f6, byte_f4_k1_f3, byte_k2_f2_f4, byte_k6_f1_f1, byte_f4_k4, byte_f4_f4, byte_f4_k3_f1, byte_k3_f1_f4, byte_k1_f7, byte_o1_f3_k1_f3, byte_f1_k5_f2, byte_k1_f1_f1_f5, byte_f6_f2, byte_f2_f6]
theorem Sys2Proof.Laws.RoundTrip.bltu (a b : Src) (off : W32) : Statement (.bltu a b off) := of_raw rfl
  (Src.length_imms _) (Src.length_imms _) nofun fun hw => by
  simp [build, row10, Raw.of, Raw.D, Raw.A, Raw.B, Raw.DS, Raw.acc, Raw.modw, Raw.dab, Raw.da, Raw.ab, Raw.bare, Raw.onlyA, Raw.branch, Raw.cond, Raw.pred, Raw.pred2, Raw.load, Raw.tile, Raw.barrier, resv, Dst.ofCode_code, Src.ofCode_code, AccWord.of_word, CmdWord.of_word, ModWord.of_word, byte_f4_f3_f1, byte_f4_f1_k3, byte_k6_f2, byte_k7_f1, byte_k5_f3, byte_k4_f4, byte_k3_f5, byte_k2_f6, byte_f4_k1_f3, byte_k2_f2_f4, byte_k6_f1_f1, byte_f4_k4, byte_f4_f4, byte_f4_k3_f1, byte_k3_f1_f4, byte_k1_f7, byte_o1_f3_k1_f3, byte_f1_k5_f2, byte_k1_f1_f1_f5, byte_f6_f2, byte_f2_f6]
theorem Sys2Proof.Laws.RoundTrip.bgeu (a b : Src) (off : W32) : Statement (.bgeu a b off) := of_raw rfl
  (Src.length_imms _) (Src.length_imms _) nofun fun hw => by
  simp [build, row10, Raw.of, Raw.D, Raw.A, Raw.B, Raw.DS, Raw.acc, Raw.modw, Raw.dab, Raw.da, Raw.ab, Raw.bare, Raw.onlyA, Raw.branch, Raw.cond, Raw.pred, Raw.pred2, Raw.load, Raw.tile, Raw.barrier, resv, Dst.ofCode_code, Src.ofCode_code, AccWord.of_word, CmdWord.of_word, ModWord.of_word, byte_f4_f3_f1, byte_f4_f1_k3, byte_k6_f2, byte_k7_f1, byte_k5_f3, byte_k4_f4, byte_k3_f5, byte_k2_f6, byte_f4_k1_f3, byte_k2_f2_f4, byte_k6_f1_f1, byte_f4_k4, byte_f4_f4, byte_f4_k3_f1, byte_k3_f1_f4, byte_k1_f7, byte_o1_f3_k1_f3, byte_f1_k5_f2, byte_k1_f1_f1_f5, byte_f6_f2, byte_f2_f6]
theorem Sys2Proof.Laws.RoundTrip.bp (sel : BitVec 4) (off : W32) : Statement (.bp sel off) := of_raw rfl
  (rfl) (rfl) nofun fun hw => by
  simp [build, row10, Raw.of, Raw.D, Raw.A, Raw.B, Raw.DS, Raw.acc, Raw.modw, Raw.dab, Raw.da, Raw.ab, Raw.bare, Raw.onlyA, Raw.branch, Raw.cond, Raw.pred, Raw.pred2, Raw.load, Raw.tile, Raw.barrier, resv, Dst.ofCode_code, Src.ofCode_code, AccWord.of_word, CmdWord.of_word, ModWord.of_word, byte_f4_f3_f1, byte_f4_f1_k3, byte_k6_f2, byte_k7_f1, byte_k5_f3, byte_k4_f4, byte_k3_f5, byte_k2_f6, byte_f4_k1_f3, byte_k2_f2_f4, byte_k6_f1_f1, byte_f4_k4, byte_f4_f4, byte_f4_k3_f1, byte_k3_f1_f4, byte_k1_f7, byte_o1_f3_k1_f3, byte_f1_k5_f2, byte_k1_f1_f1_f5, byte_f6_f2, byte_f2_f6]
theorem Sys2Proof.Laws.RoundTrip.join : Statement (.join) := of_raw rfl
  (rfl) (rfl) (fun _ => rfl) fun hw => by
  simp [build, row10, Raw.of, Raw.D, Raw.A, Raw.B, Raw.DS, Raw.acc, Raw.modw, Raw.dab, Raw.da, Raw.ab, Raw.bare, Raw.onlyA, Raw.branch, Raw.cond, Raw.pred, Raw.pred2, Raw.load, Raw.tile, Raw.barrier, resv, Dst.ofCode_code, Src.ofCode_code, AccWord.of_word, CmdWord.of_word, ModWord.of_word, byte_f4_f3_f1, byte_f4_f1_k3, byte_k6_f2, byte_k7_f1, byte_k5_f3, byte_k4_f4, byte_k3_f5, byte_k2_f6, byte_f4_k1_f3, byte_k2_f2_f4, byte_k6_f1_f1, byte_f4_k4, byte_f4_f4, byte_f4_k3_f1, byte_k3_f1_f4, byte_k1_f7, byte_o1_f3_k1_f3, byte_f1_k5_f2, byte_k1_f1_f1_f5, byte_f6_f2, byte_f2_f6]
theorem Sys2Proof.Laws.RoundTrip.call (off : W32) : Statement (.call off) := of_raw rfl
  (rfl) (rfl) nofun fun hw => by
  simp [build, row10, Raw.of, Raw.D, Raw.A, Raw.B, Raw.DS, Raw.acc, Raw.modw, Raw.dab, Raw.da, Raw.ab, Raw.bare, Raw.onlyA, Raw.branch, Raw.cond, Raw.pred, Raw.pred2, Raw.load, Raw.tile, Raw.barrier, resv, Dst.ofCode_code, Src.ofCode_code, AccWord.of_word, CmdWord.of_word, ModWord.of_word, byte_f4_f3_f1, byte_f4_f1_k3, byte_k6_f2, byte_k7_f1, byte_k5_f3, byte_k4_f4, byte_k3_f5, byte_k2_f6, byte_f4_k1_f3, byte_k2_f2_f4, byte_k6_f1_f1, byte_f4_k4, byte_f4_f4, byte_f4_k3_f1, byte_k3_f1_f4, byte_k1_f7, byte_o1_f3_k1_f3, byte_f1_k5_f2, byte_k1_f1_f1_f5, byte_f6_f2, byte_f2_f6]
theorem Sys2Proof.Laws.RoundTrip.ret : Statement (.ret) := of_raw rfl
  (rfl) (rfl) (fun _ => rfl) fun hw => by
  simp [build, row10, Raw.of, Raw.D, Raw.A, Raw.B, Raw.DS, Raw.acc, Raw.modw, Raw.dab, Raw.da, Raw.ab, Raw.bare, Raw.onlyA, Raw.branch, Raw.cond, Raw.pred, Raw.pred2, Raw.load, Raw.tile, Raw.barrier, resv, Dst.ofCode_code, Src.ofCode_code, AccWord.of_word, CmdWord.of_word, ModWord.of_word, byte_f4_f3_f1, byte_f4_f1_k3, byte_k6_f2, byte_k7_f1, byte_k5_f3, byte_k4_f4, byte_k3_f5, byte_k2_f6, byte_f4_k1_f3, byte_k2_f2_f4, byte_k6_f1_f1, byte_f4_k4, byte_f4_f4, byte_f4_k3_f1, byte_k3_f1_f4, byte_k1_f7, byte_o1_f3_k1_f3, byte_f1_k5_f2, byte_k1_f1_f1_f5, byte_f6_f2, byte_f2_f6]
theorem Sys2Proof.Laws.RoundTrip.jmpi (a : Src) : Statement (.jmpi a) := of_raw rfl
  (Src.length_imms _) (rfl) (fun _ => rfl) fun hw => by
  simp [build, row10, Raw.of, Raw.D, Raw.A, Raw.B, Raw.DS, Raw.acc, Raw.modw, Raw.dab, Raw.da, Raw.ab, Raw.bare, Raw.onlyA, Raw.branch, Raw.cond, Raw.pred, Raw.pred2, Raw.load, Raw.tile, Raw.barrier, resv, Dst.ofCode_code, Src.ofCode_code, AccWord.of_word, CmdWord.of_word, ModWord.of_word, byte_f4_f3_f1, byte_f4_f1_k3, byte_k6_f2, byte_k7_f1, byte_k5_f3, byte_k4_f4, byte_k3_f5, byte_k2_f6, byte_f4_k1_f3, byte_k2_f2_f4, byte_k6_f1_f1, byte_f4_k4, byte_f4_f4, byte_f4_k3_f1, byte_k3_f1_f4, byte_k1_f7, byte_o1_f3_k1_f3, byte_f1_k5_f2, byte_k1_f1_f1_f5, byte_f6_f2, byte_f2_f6]
theorem Sys2Proof.Laws.RoundTrip.exit : Statement (.exit) := of_raw rfl
  (rfl) (rfl) (fun _ => rfl) fun hw => by
  simp [build, row10, Raw.of, Raw.D, Raw.A, Raw.B, Raw.DS, Raw.acc, Raw.modw, Raw.dab, Raw.da, Raw.ab, Raw.bare, Raw.onlyA, Raw.branch, Raw.cond, Raw.pred, Raw.pred2, Raw.load, Raw.tile, Raw.barrier, resv, Dst.ofCode_code, Src.ofCode_code, AccWord.of_word, CmdWord.of_word, ModWord.of_word, byte_f4_f3_f1, byte_f4_f1_k3, byte_k6_f2, byte_k7_f1, byte_k5_f3, byte_k4_f4, byte_k3_f5, byte_k2_f6, byte_f4_k1_f3, byte_k2_f2_f4, byte_k6_f1_f1, byte_f4_k4, byte_f4_f4, byte_f4_k3_f1, byte_k3_f1_f4, byte_k1_f7, byte_o1_f3_k1_f3, byte_f1_k5_f2, byte_k1_f1_f1_f5, byte_f6_f2, byte_f2_f6]
theorem Sys2Proof.Laws.RoundTrip.yield : Statement (.yield) := of_raw rfl
  (rfl) (rfl) (fun _ => rfl) fun hw => by
  simp [build, row10, Raw.of, Raw.D, Raw.A, Raw.B, Raw.DS, Raw.acc, Raw.modw, Raw.dab, Raw.da, Raw.ab, Raw.bare, Raw.onlyA, Raw.branch, Raw.cond, Raw.pred, Raw.pred2, Raw.load, Raw.tile, Raw.barrier, resv, Dst.ofCode_code, Src.ofCode_code, AccWord.of_word, CmdWord.of_word, ModWord.of_word, byte_f4_f3_f1, byte_f4_f1_k3, byte_k6_f2, byte_k7_f1, byte_k5_f3, byte_k4_f4, byte_k3_f5, byte_k2_f6, byte_f4_k1_f3, byte_k2_f2_f4, byte_k6_f1_f1, byte_f4_k4, byte_f4_f4, byte_f4_k3_f1, byte_k3_f1_f4, byte_k1_f7, byte_o1_f3_k1_f3, byte_f1_k5_f2, byte_k1_f1_f1_f5, byte_f6_f2, byte_f2_f6]
theorem Sys2Proof.Laws.RoundTrip.sleep (a : Src) : Statement (.sleep a) := of_raw rfl
  (Src.length_imms _) (rfl) (fun _ => rfl) fun hw => by
  simp [build, row10, Raw.of, Raw.D, Raw.A, Raw.B, Raw.DS, Raw.acc, Raw.modw, Raw.dab, Raw.da, Raw.ab, Raw.bare, Raw.onlyA, Raw.branch, Raw.cond, Raw.pred, Raw.pred2, Raw.load, Raw.tile, Raw.barrier, resv, Dst.ofCode_code, Src.ofCode_code, AccWord.of_word, CmdWord.of_word, ModWord.of_word, byte_f4_f3_f1, byte_f4_f1_k3, byte_k6_f2, byte_k7_f1, byte_k5_f3, byte_k4_f4, byte_k3_f5, byte_k2_f6, byte_f4_k1_f3, byte_k2_f2_f4, byte_k6_f1_f1, byte_f4_k4, byte_f4_f4, byte_f4_k3_f1, byte_k3_f1_f4, byte_k1_f7, byte_o1_f3_k1_f3, byte_f1_k5_f2, byte_k1_f1_f1_f5, byte_f6_f2, byte_f2_f6]
theorem Sys2Proof.Laws.RoundTrip.passpri (rel : BitVec 1) (g : BitVec 5) : Statement (.passpri rel g) := of_raw rfl
  (rfl) (rfl) (fun _ => rfl) fun hw => by
  simp [build, row10, Raw.of, Raw.D, Raw.A, Raw.B, Raw.DS, Raw.acc, Raw.modw, Raw.dab, Raw.da, Raw.ab, Raw.bare, Raw.onlyA, Raw.branch, Raw.cond, Raw.pred, Raw.pred2, Raw.load, Raw.tile, Raw.barrier, resv, Dst.ofCode_code, Src.ofCode_code, AccWord.of_word, CmdWord.of_word, ModWord.of_word, byte_f4_f3_f1, byte_f4_f1_k3, byte_k6_f2, byte_k7_f1, byte_k5_f3, byte_k4_f4, byte_k3_f5, byte_k2_f6, byte_f4_k1_f3, byte_k2_f2_f4, byte_k6_f1_f1, byte_f4_k4, byte_f4_f4, byte_f4_k3_f1, byte_k3_f1_f4, byte_k1_f7, byte_o1_f3_k1_f3, byte_f1_k5_f2, byte_k1_f1_f1_f5, byte_f6_f2, byte_f2_f6]
theorem Sys2Proof.Laws.RoundTrip.add (d : Dst) (a b : Src) : Statement (.add d a b) := of_dab .add rfl rfl rfl (by simp [build, row20, Raw.of]) rfl
theorem Sys2Proof.Laws.RoundTrip.sub (d : Dst) (a b : Src) : Statement (.sub d a b) := of_dab .sub rfl rfl rfl (by simp [build, row20, Raw.of]) rfl
theorem Sys2Proof.Laws.RoundTrip.mul (d : Dst) (a b : Src) : Statement (.mul d a b) := of_dab .mul rfl rfl rfl (by simp [build, row20, Raw.of]) rfl
theorem Sys2Proof.Laws.RoundTrip.mulh (d : Dst) (a b : Src) : Statement (.mulh d a b) := of_dab .mulh rfl rfl rfl (by simp [build, row20, Raw.of]) rfl
theorem Sys2Proof.Laws.RoundTrip.mad (d : Dst) (a b : Src) : Statement (.mad d a b) := of_dab .mad rfl rfl rfl (by simp [build, row20, Raw.of]) rfl
theorem Sys2Proof.Laws.RoundTrip.min (d : Dst) (a b : Src) : Statement (.min d a b) := of_dab .min rfl rfl rfl (by simp [build, row20, Raw.of]) rfl
theorem Sys2Proof.Laws.RoundTrip.max (d : Dst) (a b : Src) : Statement (.max d a b) := of_dab .max rfl rfl rfl (by simp [build, row20, Raw.of]) rfl
theorem Sys2Proof.Laws.RoundTrip.shl (d : Dst) (a b : Src) : Statement (.shl d a b) := of_dab .shl rfl rfl rfl (by simp [build, row20, Raw.of]) rfl
theorem Sys2Proof.Laws.RoundTrip.shr (d : Dst) (a b : Src) : Statement (.shr d a b) := of_dab .shr rfl rfl rfl (by simp [build, row20, Raw.of]) rfl
theorem Sys2Proof.Laws.RoundTrip.sar (d : Dst) (a b : Src) : Statement (.sar d a b) := of_dab .sar rfl rfl rfl (by simp [build, row20, Raw.of]) rfl
theorem Sys2Proof.Laws.RoundTrip.and (d : Dst) (a b : Src) : Statement (.and d a b) := of_dab .and rfl rfl rfl (by simp [build, row20, Raw.of]) rfl
theorem Sys2Proof.Laws.RoundTrip.or (d : Dst) (a b : Src) : Statement (.or d a b) := of_dab .or rfl rfl rfl (by simp [build, row20, Raw.of]) rfl
theorem Sys2Proof.Laws.RoundTrip.xor (d : Dst) (a b : Src) : Statement (.xor d a b) := of_dab .xor rfl rfl rfl (by simp [build, row20, Raw.of]) rfl
theorem Sys2Proof.Laws.RoundTrip.div (d : Dst) (a b : Src) : Statement (.div d a b) := of_dab .div rfl rfl rfl (by simp [build, row20, Raw.of]) rfl
theorem Sys2Proof.Laws.RoundTrip.rem (d : Dst) (a b : Src) : Statement (.rem d a b) := of_dab .rem rfl rfl rfl (by simp [build, row20, Raw.of]) rfl
theorem Sys2Proof.Laws.RoundTrip.clamp (d : Dst) (a b : Src) : Statement (.clamp d a b) := of_dab .clamp rfl rfl rfl (by simp [build, row20, Raw.of]) rfl
theorem Sys2Proof.Laws.RoundTrip.cmp (cond : BitVec 4) (p : BitVec 3) (a b : Src) : Statement (.cmp cond p a b) := of_raw rfl
  (Src.length_imms _) (Src.length_imms _) (fun _ => rfl) fun hw => by
  simp [build, row30, Raw.of, Raw.D, Raw.A, Raw.B, Raw.DS, Raw.acc, Raw.modw, Raw.dab, Raw.da, Raw.ab, Raw.bare, Raw.onlyA, Raw.branch, Raw.cond, Raw.pred, Raw.pred2, Raw.load, Raw.tile, Raw.barrier, resv, Dst.ofCode_code, Src.ofCode_code, AccWord.of_word, CmdWord.of_word, ModWord.of_word, byte_f4_f3_f1, byte_f4_f1_k3, byte_k6_f2, byte_k7_f1, byte_k5_f3, byte_k4_f4, byte_k3_f5, byte_k2_f6, byte_f4_k1_f3, byte_k2_f2_f4, byte_k6_f1_f1, byte_f4_k4, byte_f4_f4, byte_f4_k3_f1, byte_k3_f1_f4, byte_k1_f7, byte_o1_f3_k1_f3, byte_f1_k5_f2, byte_k1_f1_f1_f5, byte_f6_f2, byte_f2_f6]
theorem Sys2Proof.Laws.RoundTrip.seli (d : Dst) (a b : Src) : Statement (.seli d a b) := of_dab .seli rfl rfl rfl (by simp [build, row30, Raw.of]) rfl
theorem Sys2Proof.Laws.RoundTrip.widen (d : Dst) (a b : Src) : Statement (.widen d a b) := of_dab .widen rfl rfl rfl (by simp [build, row30, Raw.of]) rfl
theorem Sys2Proof.Laws.RoundTrip.rimeget (d : Dst) (a b : Src) : Statement (.rimeget d a b) := of_dab .rimeget rfl rfl rfl (by simp [build, row30, Raw.of]) rfl
theorem Sys2Proof.Laws.RoundTrip.narrow (d : Dst) (a b : Src) : Statement (.narrow d a b) := of_dab .narrow rfl rfl rfl (by simp [build, row30, Raw.of]) rfl
theorem Sys2Proof.Laws.RoundTrip.clz (d : Dst) (a : Src) : Statement (.clz d a) := of_da .clz rfl rfl rfl (by simp [build, row30, Raw.of]) rfl
theorem Sys2Proof.Laws.RoundTrip.popc (d : Dst) (a : Src) : Statement (.popc d a) := of_da .popc rfl rfl rfl (by simp [build, row30, Raw.of]) rfl
theorem Sys2Proof.Laws.RoundTrip.brev (d : Dst) (a : Src) : Statement (.brev d a) := of_da .brev rfl rfl rfl (by simp [build, row30, Raw.of]) rfl
theorem Sys2Proof.Laws.RoundTrip.bfx (d : Dst) (a b : Src) : Statement (.bfx d a b) := of_dab .bfx rfl rfl rfl (by simp [build, row30, Raw.of]) rfl
theorem Sys2Proof.Laws.RoundTrip.bfi (d : Dst) (a b : Src) : Statement (.bfi d a b) := of_dab .bfi rfl rfl rfl (by simp [build, row30, Raw.of]) rfl
theorem Sys2Proof.Laws.RoundTrip.abs (d : Dst) (a : Src) : Statement (.abs d a) := of_da .abs rfl rfl rfl (by simp [build, row30, Raw.of]) rfl
theorem Sys2Proof.Laws.RoundTrip.not (d : Dst) (a : Src) : Statement (.not d a) := of_da .not rfl rfl rfl (by simp [build, row30, Raw.of]) rfl
theorem Sys2Proof.Laws.RoundTrip.lea (d : Dst) (a b : Src) : Statement (.lea d a b) := of_dab .lea rfl rfl rfl (by simp [build, row30, Raw.of]) rfl
theorem Sys2Proof.Laws.RoundTrip.fadd (d : Dst) (a b : Src) : Statement (.fadd d a b) := of_dab .fadd rfl rfl rfl (by simp [build, row40, Raw.of]) rfl
theorem Sys2Proof.Laws.RoundTrip.fsub (d : Dst) (a b : Src) : Statement (.fsub d a b) := of_dab .fsub rfl rfl rfl (by simp [build, row40, Raw.of]) rfl
theorem Sys2Proof.Laws.RoundTrip.fmul (d : Dst) (a b : Src) : Statement (.fmul d a b) := of_dab .fmul rfl rfl rfl (by simp [build, row40, Raw.of]) rfl
theorem Sys2Proof.Laws.RoundTrip.ffma (d : Dst) (a b : Src) : Statement (.ffma d a b) := of_dab .ffma rfl rfl rfl (by simp [build, row40, Raw.of]) rfl
theorem Sys2Proof.Laws.RoundTrip.ffma3 (d : Dst) (a b : Src) (c : Src) (negp negc : BitVec 1) : Statement (.ffma3 d a b c negp negc) := of_raw rfl
  (Src.length_imms _) (Src.length_imms _) nofun fun hw => by
  have hc : c.imms = [] := by cases c <;> simp_all [Instr.wf, Instr.accepts, Accept.ffma3, Src.imms]
  have h0 : bitsAt 0 8 (0#22 ++ negp ++ negc ++ c.code : W32) = c.code := bits_low _ c.code
  have h1 : bitsAt 8 1 (0#22 ++ negp ++ negc ++ c.code : W32) = negc :=
    (bits_above (l := 0) (0#22 ++ negp ++ negc) c.code).trans (bits_low _ negc)
  have h2 : bitsAt 9 1 (0#22 ++ negp ++ negc ++ c.code : W32) = negp :=
    (bits_above (l := 1) (0#22 ++ negp ++ negc) c.code).trans
      ((bits_above (l := 0) (0#22 ++ negp) negc).trans (bits_low _ negp))
  have h3 : bitsAt 10 22 (0#22 ++ negp ++ negc ++ c.code : W32) = 0#22 :=
    (bits_above (l := 2) (0#22 ++ negp ++ negc) c.code).trans
      ((bits_above (l := 1) (0#22 ++ negp) negc).trans (bits_high 0#22 negp))
  simp [build, row40, Raw.of, Raw.D, Raw.A, Raw.B, Raw.DS, Raw.acc, Raw.modw, Raw.dab, Raw.da, Raw.ab, Raw.bare, Raw.onlyA, Raw.branch, Raw.cond, Raw.pred, Raw.pred2, Raw.load, Raw.tile, Raw.barrier, resv, Dst.ofCode_code, Src.ofCode_code, AccWord.of_word, CmdWord.of_word, ModWord.of_word, byte_f4_f3_f1, byte_f4_f1_k3, byte_k6_f2, byte_k7_f1, byte_k5_f3, byte_k4_f4, byte_k3_f5, byte_k2_f6, byte_f4_k1_f3, byte_k2_f2_f4, byte_k6_f1_f1, byte_f4_k4, byte_f4_f4, byte_f4_k3_f1, byte_k3_f1_f4, byte_k1_f7, byte_o1_f3_k1_f3, byte_f1_k5_f2, byte_k1_f1_f1_f5, byte_f6_f2, byte_f2_f6, h0, h1, h2, h3, Src.ofCode_plain hc]
theorem Sys2Proof.Laws.RoundTrip.fmin (d : Dst) (a b : Src) : Statement (.fmin d a b) := of_dab .fmin rfl rfl rfl (by simp [build, row40, Raw.of]) rfl
theorem Sys2Proof.Laws.RoundTrip.fmax (d : Dst) (a b : Src) : Statement (.fmax d a b) := of_dab .fmax rfl rfl rfl (by simp [build, row40, Raw.of]) rfl
theorem Sys2Proof.Laws.RoundTrip.fneg (d : Dst) (a : Src) : Statement (.fneg d a) := of_da .fneg rfl rfl rfl (by simp [build, row40, Raw.of]) rfl
theorem Sys2Proof.Laws.RoundTrip.fabs (d : Dst) (a : Src) : Statement (.fabs d a) := of_da .fabs rfl rfl rfl (by simp [build, row40, Raw.of]) rfl
theorem Sys2Proof.Laws.RoundTrip.fcmp (cond : BitVec 4) (p : BitVec 3) (a b : Src) : Statement (.fcmp cond p a b) := of_raw rfl
  (Src.length_imms _) (Src.length_imms _) (fun _ => rfl) fun hw => by
  simp [build, row40, Raw.of, Raw.D, Raw.A, Raw.B, Raw.DS, Raw.acc, Raw.modw, Raw.dab, Raw.da, Raw.ab, Raw.bare, Raw.onlyA, Raw.branch, Raw.cond, Raw.pred, Raw.pred2, Raw.load, Raw.tile, Raw.barrier, resv, Dst.ofCode_code, Src.ofCode_code, AccWord.of_word, CmdWord.of_word, ModWord.of_word, byte_f4_f3_f1, byte_f4_f1_k3, byte_k6_f2, byte_k7_f1, byte_k5_f3, byte_k4_f4, byte_k3_f5, byte_k2_f6, byte_f4_k1_f3, byte_k2_f2_f4, byte_k6_f1_f1, byte_f4_k4, byte_f4_f4, byte_f4_k3_f1, byte_k3_f1_f4, byte_k1_f7, byte_o1_f3_k1_f3, byte_f1_k5_f2, byte_k1_f1_f1_f5, byte_f6_f2, byte_f2_f6]
theorem Sys2Proof.Laws.RoundTrip.fsel (d : Dst) (a b : Src) : Statement (.fsel d a b) := of_dab .fsel rfl rfl rfl (by simp [build, row40, Raw.of]) rfl
theorem Sys2Proof.Laws.RoundTrip.frcp (d : Dst) (a : Src) : Statement (.frcp d a) := of_da .frcp rfl rfl rfl (by simp [build, row40, Raw.of]) rfl
theorem Sys2Proof.Laws.RoundTrip.frsq (d : Dst) (a : Src) : Statement (.frsq d a) := of_da .frsq rfl rfl rfl (by simp [build, row40, Raw.of]) rfl
theorem Sys2Proof.Laws.RoundTrip.fsqrt (d : Dst) (a : Src) : Statement (.fsqrt d a) := of_da .fsqrt rfl rfl rfl (by simp [build, row40, Raw.of]) rfl
theorem Sys2Proof.Laws.RoundTrip.fdiv (d : Dst) (a b : Src) : Statement (.fdiv d a b) := of_dab .fdiv rfl rfl rfl (by simp [build, row40, Raw.of]) rfl
theorem Sys2Proof.Laws.RoundTrip.fexp2 (d : Dst) (a : Src) : Statement (.fexp2 d a) := of_da .fexp2 rfl rfl rfl (by simp [build, row40, Raw.of]) rfl
theorem Sys2Proof.Laws.RoundTrip.flog2 (d : Dst) (a : Src) : Statement (.flog2 d a) := of_da .flog2 rfl rfl rfl (by simp [build, row50, Raw.of]) rfl
theorem Sys2Proof.Laws.RoundTrip.fsin (d : Dst) (a : Src) : Statement (.fsin d a) := of_da .fsin rfl rfl rfl (by simp [build, row50, Raw.of]) rfl
theorem Sys2Proof.Laws.RoundTrip.fcos (d : Dst) (a : Src) : Statement (.fcos d a) := of_da .fcos rfl rfl rfl (by simp [build, row50, Raw.of]) rfl
theorem Sys2Proof.Laws.RoundTrip.ftanh (d : Dst) (a : Src) : Statement (.ftanh d a) := of_da .ftanh rfl rfl rfl (by simp [build, row50, Raw.of]) rfl
theorem Sys2Proof.Laws.RoundTrip.fclass (d : Dst) (a : Src) : Statement (.fclass d a) := of_da .fclass rfl rfl rfl (by simp [build, row50, Raw.of]) rfl
theorem Sys2Proof.Laws.RoundTrip.fround (d : Dst) (a : Src) (m : BitVec 3) : Statement (.fround d a m) := of_raw rfl
  (Src.length_imms _) (rfl) (fun _ => rfl) fun hw => by
  simp [build, row50, Raw.of, Raw.D, Raw.A, Raw.B, Raw.DS, Raw.acc, Raw.modw, Raw.dab, Raw.da, Raw.ab, Raw.bare, Raw.onlyA, Raw.branch, Raw.cond, Raw.pred, Raw.pred2, Raw.load, Raw.tile, Raw.barrier, resv, Dst.ofCode_code, Src.ofCode_code, AccWord.of_word, CmdWord.of_word, ModWord.of_word, byte_f4_f3_f1, byte_f4_f1_k3, byte_k6_f2, byte_k7_f1, byte_k5_f3, byte_k4_f4, byte_k3_f5, byte_k2_f6, byte_f4_k1_f3, byte_k2_f2_f4, byte_k6_f1_f1, byte_f4_k4, byte_f4_f4, byte_f4_k3_f1, byte_k3_f1_f4, byte_k1_f7, byte_o1_f3_k1_f3, byte_f1_k5_f2, byte_k1_f1_f1_f5, byte_f6_f2, byte_f2_f6]
theorem Sys2Proof.Laws.RoundTrip.fscale (d : Dst) (a b : Src) : Statement (.fscale d a b) := of_dab .fscale rfl rfl rfl (by simp [build, row50, Raw.of]) rfl
theorem Sys2Proof.Laws.RoundTrip.fdot2 (d : Dst) (a b : Src) : Statement (.fdot2 d a b) := of_dab .fdot2 rfl rfl rfl (by simp [build, row50, Raw.of]) rfl
theorem Sys2Proof.Laws.RoundTrip.cvt (d : Dst) (a : Src) (sel : BitVec 2) (src : BitVec 4) : Statement (.cvt d a sel src) := of_raw rfl
  (Src.length_imms _) (rfl) (fun _ => rfl) fun hw => by
  simp [build, row50, Raw.of, Raw.D, Raw.A, Raw.B, Raw.DS, Raw.acc, Raw.modw, Raw.dab, Raw.da, Raw.ab, Raw.bare, Raw.onlyA, Raw.branch, Raw.cond, Raw.pred, Raw.pred2, Raw.load, Raw.tile, Raw.barrier, resv, Dst.ofCode_code, Src.ofCode_code, AccWord.of_word, CmdWord.of_word, ModWord.of_word, byte_f4_f3_f1, byte_f4_f1_k3, byte_k6_f2, byte_k7_f1, byte_k5_f3, byte_k4_f4, byte_k3_f5, byte_k2_f6, byte_f4_k1_f3, byte_k2_f2_f4, byte_k6_f1_f1, byte_f4_k4, byte_f4_f4, byte_f4_k3_f1, byte_k3_f1_f4, byte_k1_f7, byte_o1_f3_k1_f3, byte_f1_k5_f2, byte_k1_f1_f1_f5, byte_f6_f2, byte_f2_f6]
theorem Sys2Proof.Laws.RoundTrip.req (d : Dst) (a b : Src) : Statement (.req d a b) := of_dab .req rfl rfl rfl (by simp [build, row50, Raw.of]) rfl
theorem Sys2Proof.Laws.RoundTrip.pack (d : Dst) (a b : Src) : Statement (.pack d a b) := of_dab .pack rfl rfl rfl (by simp [build, row50, Raw.of]) rfl
theorem Sys2Proof.Laws.RoundTrip.unpack (d : Dst) (a : Src) (sel : BitVec 2) : Statement (.unpack d a sel) := of_raw rfl
  (Src.length_imms _) (rfl) (fun _ => rfl) fun hw => by
  simp [build, row50, Raw.of, Raw.D, Raw.A, Raw.B, Raw.DS, Raw.acc, Raw.modw, Raw.dab, Raw.da, Raw.ab, Raw.bare, Raw.onlyA, Raw.branch, Raw.cond, Raw.pred, Raw.pred2, Raw.load, Raw.tile, Raw.barrier, resv, Dst.ofCode_code, Src.ofCode_code, AccWord.of_word, CmdWord.of_word, ModWord.of_word, byte_f4_f3_f1, byte_f4_f1_k3, byte_k6_f2, byte_k7_f1, byte_k5_f3, byte_k4_f4, byte_k3_f5, byte_k2_f6, byte_f4_k1_f3, byte_k2_f2_f4, byte_k6_f1_f1, byte_f4_k4, byte_f4_f4, byte_f4_k3_f1, byte_k3_f1_f4, byte_k1_f7, byte_o1_f3_k1_f3, byte_f1_k5_f2, byte_k1_f1_f1_f5, byte_f6_f2, byte_f2_f6]
theorem Sys2Proof.Laws.RoundTrip.iadd (d : Dst) (a b : Src) : Statement (.iadd d a b) := of_dab .iadd rfl rfl rfl (by simp [build, row50, Raw.of]) rfl
theorem Sys2Proof.Laws.RoundTrip.isub (d : Dst) (a b : Src) : Statement (.isub d a b) := of_dab .isub rfl rfl rfl (by simp [build, row50, Raw.of]) rfl
theorem Sys2Proof.Laws.RoundTrip.imul (d : Dst) (a b : Src) : Statement (.imul d a b) := of_dab .imul rfl rfl rfl (by simp [build, row50, Raw.of]) rfl
theorem Sys2Proof.Laws.RoundTrip.imad (d : Dst) (a b : Src) : Statement (.imad d a b) := of_dab .imad rfl rfl rfl (by simp [build, row50, Raw.of]) rfl
theorem Sys2Proof.Laws.RoundTrip.imin (d : Dst) (a b : Src) : Statement (.imin d a b) := of_dab .imin rfl rfl rfl (by simp [build, row60, Raw.of]) rfl
theorem Sys2Proof.Laws.RoundTrip.imax (d : Dst) (a b : Src) : Statement (.imax d a b) := of_dab .imax rfl rfl rfl (by simp [build, row60, Raw.of]) rfl
theorem Sys2Proof.Laws.RoundTrip.ishl (d : Dst) (a b : Src) : Statement (.ishl d a b) := of_dab .ishl rfl rfl rfl (by simp [build, row60, Raw.of]) rfl
theorem Sys2Proof.Laws.RoundTrip.ishr (d : Dst) (a b : Src) : Statement (.ishr d a b) := of_dab .ishr rfl rfl rfl (by simp [build, row60, Raw.of]) rfl
theorem Sys2Proof.Laws.RoundTrip.iand (d : Dst) (a b : Src) : Statement (.iand d a b) := of_dab .iand rfl rfl rfl (by simp [build, row60, Raw.of]) rfl
theorem Sys2Proof.Laws.RoundTrip.ior (d : Dst) (a b : Src) : Statement (.ior d a b) := of_dab .ior rfl rfl rfl (by simp [build, row60, Raw.of]) rfl
theorem Sys2Proof.Laws.RoundTrip.ixor (d : Dst) (a b : Src) : Statement (.ixor d a b) := of_dab .ixor rfl rfl rfl (by simp [build, row60, Raw.of]) rfl
theorem Sys2Proof.Laws.RoundTrip.icmp (cond : BitVec 4) (p : BitVec 3) (a b : Src) : Statement (.icmp cond p a b) := of_raw rfl
  (Src.length_imms _) (Src.length_imms _) (fun _ => rfl) fun hw => by
  simp [build, row60, Raw.of, Raw.D, Raw.A, Raw.B, Raw.DS, Raw.acc, Raw.modw, Raw.dab, Raw.da, Raw.ab, Raw.bare, Raw.onlyA, Raw.branch, Raw.cond, Raw.pred, Raw.pred2, Raw.load, Raw.tile, Raw.barrier, resv, Dst.ofCode_code, Src.ofCode_code, AccWord.of_word, CmdWord.of_word, ModWord.of_word, byte_f4_f3_f1, byte_f4_f1_k3, byte_k6_f2, byte_k7_f1, byte_k5_f3, byte_k4_f4, byte_k3_f5, byte_k2_f6, byte_f4_k1_f3, byte_k2_f2_f4, byte_k6_f1_f1, byte_f4_k4, byte_f4_f4, byte_f4_k3_f1, byte_k3_f1_f4, byte_k1_f7, byte_o1_f3_k1_f3, byte_f1_k5_f2, byte_k1_f1_f1_f5, byte_f6_f2, byte_f2_f6]
theorem Sys2Proof.Laws.RoundTrip.shfl (d : Dst) (a b : Src) : Statement (.shfl d a b) := of_dab .shfl rfl rfl rfl (by simp [build, row60, Raw.of]) rfl
theorem Sys2Proof.Laws.RoundTrip.vote (d : Dst) (a b : Src) : Statement (.vote d a b) := of_dab .vote rfl rfl rfl (by simp [build, row60, Raw.of]) rfl
theorem Sys2Proof.Laws.RoundTrip.gred (d : Dst) (a b : Src) : Statement (.gred d a b) := of_dab .gred rfl rfl rfl (by simp [build, row60, Raw.of]) rfl
theorem Sys2Proof.Laws.RoundTrip.gscan (d : Dst) (a b : Src) : Statement (.gscan d a b) := of_dab .gscan rfl rfl rfl (by simp [build, row60, Raw.of]) rfl
theorem Sys2Proof.Laws.RoundTrip.bcast (d : Dst) (a b : Src) : Statement (.bcast d a b) := of_dab .bcast rfl rfl rfl (by simp [build, row60, Raw.of]) rfl
theorem Sys2Proof.Laws.RoundTrip.mov (d : Dst) (a : Src) : Statement (.mov d a) := of_da .mov rfl rfl rfl (by simp [build, row70, Raw.of]) rfl
theorem Sys2Proof.Laws.RoundTrip.pand (p : BitVec 3) (a b : BitVec 4) : Statement (.pand p a b) := of_raw rfl
  (rfl) (rfl) (fun _ => rfl) fun hw => by
  simp [build, row70, Raw.of, Raw.D, Raw.A, Raw.B, Raw.DS, Raw.acc, Raw.modw, Raw.dab, Raw.da, Raw.ab, Raw.bare, Raw.onlyA, Raw.branch, Raw.cond, Raw.pred, Raw.pred2, Raw.load, Raw.tile, Raw.barrier, resv, Dst.ofCode_code, Src.ofCode_code, AccWord.of_word, CmdWord.of_word, ModWord.of_word, byte_f4_f3_f1, byte_f4_f1_k3, byte_k6_f2, byte_k7_f1, byte_k5_f3, byte_k4_f4, byte_k3_f5, byte_k2_f6, byte_f4_k1_f3, byte_k2_f2_f4, byte_k6_f1_f1, byte_f4_k4, byte_f4_f4, byte_f4_k3_f1, byte_k3_f1_f4, byte_k1_f7, byte_o1_f3_k1_f3, byte_f1_k5_f2, byte_k1_f1_f1_f5, byte_f6_f2, byte_f2_f6]
theorem Sys2Proof.Laws.RoundTrip.por (p : BitVec 3) (a b : BitVec 4) : Statement (.por p a b) := of_raw rfl
  (rfl) (rfl) (fun _ => rfl) fun hw => by
  simp [build, row70, Raw.of, Raw.D, Raw.A, Raw.B, Raw.DS, Raw.acc, Raw.modw, Raw.dab, Raw.da, Raw.ab, Raw.bare, Raw.onlyA, Raw.branch, Raw.cond, Raw.pred, Raw.pred2, Raw.load, Raw.tile, Raw.barrier, resv, Dst.ofCode_code, Src.ofCode_code, AccWord.of_word, CmdWord.of_word, ModWord.of_word, byte_f4_f3_f1, byte_f4_f1_k3, byte_k6_f2, byte_k7_f1, byte_k5_f3, byte_k4_f4, byte_k3_f5, byte_k2_f6, byte_f4_k1_f3, byte_k2_f2_f4, byte_k6_f1_f1, byte_f4_k4, byte_f4_f4, byte_f4_k3_f1, byte_k3_f1_f4, byte_k1_f7, byte_o1_f3_k1_f3, byte_f1_k5_f2, byte_k1_f1_f1_f5, byte_f6_f2, byte_f2_f6]
theorem Sys2Proof.Laws.RoundTrip.pxor (p : BitVec 3) (a b : BitVec 4) : Statement (.pxor p a b) := of_raw rfl
  (rfl) (rfl) (fun _ => rfl) fun hw => by
  simp [build, row70, Raw.of, Raw.D, Raw.A, Raw.B, Raw.DS, Raw.acc, Raw.modw, Raw.dab, Raw.da, Raw.ab, Raw.bare, Raw.onlyA, Raw.branch, Raw.cond, Raw.pred, Raw.pred2, Raw.load, Raw.tile, Raw.barrier, resv, Dst.ofCode_code, Src.ofCode_code, AccWord.of_word, CmdWord.of_word, ModWord.of_word, byte_f4_f3_f1, byte_f4_f1_k3, byte_k6_f2, byte_k7_f1, byte_k5_f3, byte_k4_f4, byte_k3_f5, byte_k2_f6, byte_f4_k1_f3, byte_k2_f2_f4, byte_k6_f1_f1, byte_f4_k4, byte_f4_f4, byte_f4_k3_f1, byte_k3_f1_f4, byte_k1_f7, byte_o1_f3_k1_f3, byte_f1_k5_f2, byte_k1_f1_f1_f5, byte_f6_f2, byte_f2_f6]
theorem Sys2Proof.Laws.RoundTrip.pnot (p : BitVec 3) (a : BitVec 4) : Statement (.pnot p a) := of_raw rfl
  (rfl) (rfl) (fun _ => rfl) fun hw => by
  simp [build, row70, Raw.of, Raw.D, Raw.A, Raw.B, Raw.DS, Raw.acc, Raw.modw, Raw.dab, Raw.da, Raw.ab, Raw.bare, Raw.onlyA, Raw.branch, Raw.cond, Raw.pred, Raw.pred2, Raw.load, Raw.tile, Raw.barrier, resv, Dst.ofCode_code, Src.ofCode_code, AccWord.of_word, CmdWord.of_word, ModWord.of_word, byte_f4_f3_f1, byte_f4_f1_k3, byte_k6_f2, byte_k7_f1, byte_k5_f3, byte_k4_f4, byte_k3_f5, byte_k2_f6, byte_f4_k1_f3, byte_k2_f2_f4, byte_k6_f1_f1, byte_f4_k4, byte_f4_f4, byte_f4_k3_f1, byte_k3_f1_f4, byte_k1_f7, byte_o1_f3_k1_f3, byte_f1_k5_f2, byte_k1_f1_f1_f5, byte_f6_f2, byte_f2_f6]
theorem Sys2Proof.Laws.RoundTrip.pmov (p : BitVec 3) (a : BitVec 4) (imm value : BitVec 1) : Statement (.pmov p a imm value) := of_raw rfl
  (rfl) (rfl) (fun _ => rfl) fun hw => by
  simp [build, row70, Raw.of, Raw.D, Raw.A, Raw.B, Raw.DS, Raw.acc, Raw.modw, Raw.dab, Raw.da, Raw.ab, Raw.bare, Raw.onlyA, Raw.branch, Raw.cond, Raw.pred, Raw.pred2, Raw.load, Raw.tile, Raw.barrier, resv, Dst.ofCode_code, Src.ofCode_code, AccWord.of_word, CmdWord.of_word, ModWord.of_word, byte_f4_f3_f1, byte_f4_f1_k3, byte_k6_f2, byte_k7_f1, byte_k5_f3, byte_k4_f4, byte_k3_f5, byte_k2_f6, byte_f4_k1_f3, byte_k2_f2_f4, byte_k6_f1_f1, byte_f4_k4, byte_f4_f4, byte_f4_k3_f1, byte_k3_f1_f4, byte_k1_f7, byte_o1_f3_k1_f3, byte_f1_k5_f2, byte_k1_f1_f1_f5, byte_f6_f2, byte_f2_f6]
theorem Sys2Proof.Laws.RoundTrip.pget (d : Dst) (single : BitVec 1) (sel : BitVec 4) : Statement (.pget d single sel) := of_raw rfl
  (rfl) (rfl) (fun _ => rfl) fun hw => by
  simp [build, row70, Raw.of, Raw.D, Raw.A, Raw.B, Raw.DS, Raw.acc, Raw.modw, Raw.dab, Raw.da, Raw.ab, Raw.bare, Raw.onlyA, Raw.branch, Raw.cond, Raw.pred, Raw.pred2, Raw.load, Raw.tile, Raw.barrier, resv, Dst.ofCode_code, Src.ofCode_code, AccWord.of_word, CmdWord.of_word, ModWord.of_word, byte_f4_f3_f1, byte_f4_f1_k3, byte_k6_f2, byte_k7_f1, byte_k5_f3, byte_k4_f4, byte_k3_f5, byte_k2_f6, byte_f4_k1_f3, byte_k2_f2_f4, byte_k6_f1_f1, byte_f4_k4, byte_f4_f4, byte_f4_k3_f1, byte_k3_f1_f4, byte_k1_f7, byte_o1_f3_k1_f3, byte_f1_k5_f2, byte_k1_f1_f1_f5, byte_f6_f2, byte_f2_f6]
theorem Sys2Proof.Laws.RoundTrip.sel (d : Dst) (a b : Src) : Statement (.sel d a b) := of_dab .sel rfl rfl rfl (by simp [build, row70, Raw.of]) rfl
theorem Sys2Proof.Laws.RoundTrip.aset (n : BitVec 4) (a : Src) (half : BitVec 1) : Statement (.aset n a half) := of_raw rfl
  (Src.length_imms _) (rfl) (fun _ => rfl) fun hw => by
  simp [build, row70, Raw.of, Raw.D, Raw.A, Raw.B, Raw.DS, Raw.acc, Raw.modw, Raw.dab, Raw.da, Raw.ab, Raw.bare, Raw.onlyA, Raw.branch, Raw.cond, Raw.pred, Raw.pred2, Raw.load, Raw.tile, Raw.barrier, resv, Dst.ofCode_code, Src.ofCode_code, AccWord.of_word, CmdWord.of_word, ModWord.of_word, byte_f4_f3_f1, byte_f4_f1_k3, byte_k6_f2, byte_k7_f1, byte_k5_f3, byte_k4_f4, byte_k3_f5, byte_k2_f6, byte_f4_k1_f3, byte_k2_f2_f4, byte_k6_f1_f1, byte_f4_k4, byte_f4_f4, byte_f4_k3_f1, byte_k3_f1_f4, byte_k1_f7, byte_o1_f3_k1_f3, byte_f1_k5_f2, byte_k1_f1_f1_f5, byte_f6_f2, byte_f2_f6]
theorem Sys2Proof.Laws.RoundTrip.aget (d : Dst) (n : BitVec 4) (half : BitVec 1) : Statement (.aget d n half) := of_raw rfl
  (rfl) (rfl) (fun _ => rfl) fun hw => by
  simp [build, row70, Raw.of, Raw.D, Raw.A, Raw.B, Raw.DS, Raw.acc, Raw.modw, Raw.dab, Raw.da, Raw.ab, Raw.bare, Raw.onlyA, Raw.branch, Raw.cond, Raw.pred, Raw.pred2, Raw.load, Raw.tile, Raw.barrier, resv, Dst.ofCode_code, Src.ofCode_code, AccWord.of_word, CmdWord.of_word, ModWord.of_word, byte_f4_f3_f1, byte_f4_f1_k3, byte_k6_f2, byte_k7_f1, byte_k5_f3, byte_k4_f4, byte_k3_f5, byte_k2_f6, byte_f4_k1_f3, byte_k2_f2_f4, byte_k6_f1_f1, byte_f4_k4, byte_f4_f4, byte_f4_k3_f1, byte_k3_f1_f4, byte_k1_f7, byte_o1_f3_k1_f3, byte_f1_k5_f2, byte_k1_f1_f1_f5, byte_f6_f2, byte_f2_f6]
theorem Sys2Proof.Laws.RoundTrip.hset (n : BitVec 3) (a : Src) (half : BitVec 1) : Statement (.hset n a half) := of_raw rfl
  (Src.length_imms _) (rfl) (fun _ => rfl) fun hw => by
  simp [build, row70, Raw.of, Raw.D, Raw.A, Raw.B, Raw.DS, Raw.acc, Raw.modw, Raw.dab, Raw.da, Raw.ab, Raw.bare, Raw.onlyA, Raw.branch, Raw.cond, Raw.pred, Raw.pred2, Raw.load, Raw.tile, Raw.barrier, resv, Dst.ofCode_code, Src.ofCode_code, AccWord.of_word, CmdWord.of_word, ModWord.of_word, byte_f4_f3_f1, byte_f4_f1_k3, byte_k6_f2, byte_k7_f1, byte_k5_f3, byte_k4_f4, byte_k3_f5, byte_k2_f6, byte_f4_k1_f3, byte_k2_f2_f4, byte_k6_f1_f1, byte_f4_k4, byte_f4_f4, byte_f4_k3_f1, byte_k3_f1_f4, byte_k1_f7, byte_o1_f3_k1_f3, byte_f1_k5_f2, byte_k1_f1_f1_f5, byte_f6_f2, byte_f2_f6]
theorem Sys2Proof.Laws.RoundTrip.hget (d : Dst) (n : BitVec 3) (half : BitVec 1) : Statement (.hget d n half) := of_raw rfl
  (rfl) (rfl) (fun _ => rfl) fun hw => by
  simp [build, row70, Raw.of, Raw.D, Raw.A, Raw.B, Raw.DS, Raw.acc, Raw.modw, Raw.dab, Raw.da, Raw.ab, Raw.bare, Raw.onlyA, Raw.branch, Raw.cond, Raw.pred, Raw.pred2, Raw.load, Raw.tile, Raw.barrier, resv, Dst.ofCode_code, Src.ofCode_code, AccWord.of_word, CmdWord.of_word, ModWord.of_word, byte_f4_f3_f1, byte_f4_f1_k3, byte_k6_f2, byte_k7_f1, byte_k5_f3, byte_k4_f4, byte_k3_f5, byte_k2_f6, byte_f4_k1_f3, byte_k2_f2_f4, byte_k6_f1_f1, byte_f4_k4, byte_f4_f4, byte_f4_k3_f1, byte_k3_f1_f4, byte_k1_f7, byte_o1_f3_k1_f3, byte_f1_k5_f2, byte_k1_f1_f1_f5, byte_f6_f2, byte_f2_f6]
theorem Sys2Proof.Laws.RoundTrip.park (first : BitVec 8) (count : BitVec 5) : Statement (.park first count) := of_raw rfl
  (rfl) (rfl) (fun _ => rfl) fun hw => by
  simp [build, row70, Raw.of, Raw.D, Raw.A, Raw.B, Raw.DS, Raw.acc, Raw.modw, Raw.dab, Raw.da, Raw.ab, Raw.bare, Raw.onlyA, Raw.branch, Raw.cond, Raw.pred, Raw.pred2, Raw.load, Raw.tile, Raw.barrier, resv, Dst.ofCode_code, Src.ofCode_code, AccWord.of_word, CmdWord.of_word, ModWord.of_word, byte_f4_f3_f1, byte_f4_f1_k3, byte_k6_f2, byte_k7_f1, byte_k5_f3, byte_k4_f4, byte_k3_f5, byte_k2_f6, byte_f4_k1_f3, byte_k2_f2_f4, byte_k6_f1_f1, byte_f4_k4, byte_f4_f4, byte_f4_k3_f1, byte_k3_f1_f4, byte_k1_f7, byte_o1_f3_k1_f3, byte_f1_k5_f2, byte_k1_f1_f1_f5, byte_f6_f2, byte_f2_f6]
theorem Sys2Proof.Laws.RoundTrip.unpark (first : BitVec 8) (count : BitVec 5) : Statement (.unpark first count) := of_raw rfl
  (rfl) (rfl) (fun _ => rfl) fun hw => by
  simp [build, row70, Raw.of, Raw.D, Raw.A, Raw.B, Raw.DS, Raw.acc, Raw.modw, Raw.dab, Raw.da, Raw.ab, Raw.bare, Raw.onlyA, Raw.branch, Raw.cond, Raw.pred, Raw.pred2, Raw.load, Raw.tile, Raw.barrier, resv, Dst.ofCode_code, Src.ofCode_code, AccWord.of_word, CmdWord.of_word, ModWord.of_word, byte_f4_f3_f1, byte_f4_f1_k3, byte_k6_f2, byte_k7_f1, byte_k5_f3, byte_k4_f4, byte_k3_f5, byte_k2_f6, byte_f4_k1_f3, byte_k2_f2_f4, byte_k6_f1_f1, byte_f4_k4, byte_f4_f4, byte_f4_k3_f1, byte_k3_f1_f4, byte_k1_f7, byte_o1_f3_k1_f3, byte_f1_k5_f2, byte_k1_f1_f1_f5, byte_f6_f2, byte_f2_f6]
theorem Sys2Proof.Laws.RoundTrip.ld (d : Dst) (a : Src) (arr : BitVec 4) (w : AccWord) : Statement (.ld d a arr w) := of_raw rfl
  (Src.length_imms _) (rfl) nofun fun hw => by
  simp [build, row80, Raw.of, Raw.D, Raw.A, Raw.B, Raw.DS, Raw.acc, Raw.modw, Raw.dab, Raw.da, Raw.ab, Raw.bare, Raw.onlyA, Raw.branch, Raw.cond, Raw.pred, Raw.pred2, Raw.load, Raw.tile, Raw.barrier, resv, Dst.ofCode_code, Src.ofCode_code, AccWord.of_word, CmdWord.of_word, ModWord.of_word, byte_f4_f3_f1, byte_f4_f1_k3, byte_k6_f2, byte_k7_f1, byte_k5_f3, byte_k4_f4, byte_k3_f5, byte_k2_f6, byte_f4_k1_f3, byte_k2_f2_f4, byte_k6_f1_f1, byte_f4_k4, byte_f4_f4, byte_f4_k3_f1, byte_k3_f1_f4, byte_k1_f7, byte_o1_f3_k1_f3, byte_f1_k5_f2, byte_k1_f1_f1_f5, byte_f6_f2, byte_f2_f6]
theorem Sys2Proof.Laws.RoundTrip.st (d : Src) (a : Src) (arr : BitVec 4) (w : AccWord) : Statement (.st d a arr w) := of_raw rfl
  (Src.length_imms _) (rfl) nofun fun hw => by
  have hd : d.imms = [] := Src.imms_store (sz := w.size) (by simp [Instr.wf, Instr.accepts, Accept.stx, Accept.st] at hw; simp [hw])
  simp [build, row80, Raw.of, Raw.D, Raw.A, Raw.B, Raw.DS, Raw.acc, Raw.modw, Raw.dab, Raw.da, Raw.ab, Raw.bare, Raw.onlyA, Raw.branch, Raw.cond, Raw.pred, Raw.pred2, Raw.load, Raw.tile, Raw.barrier, resv, Dst.ofCode_code, Src.ofCode_code, AccWord.of_word, CmdWord.of_word, ModWord.of_word, byte_f4_f3_f1, byte_f4_f1_k3, byte_k6_f2, byte_k7_f1, byte_k5_f3, byte_k4_f4, byte_k3_f5, byte_k2_f6, byte_f4_k1_f3, byte_k2_f2_f4, byte_k6_f1_f1, byte_f4_k4, byte_f4_f4, byte_f4_k3_f1, byte_k3_f1_f4, byte_k1_f7, byte_o1_f3_k1_f3, byte_f1_k5_f2, byte_k1_f1_f1_f5, byte_f6_f2, byte_f2_f6, Src.ofCode_plain hd]
theorem Sys2Proof.Laws.RoundTrip.femark (land : BitVec 1) (a : Src) (arr : BitVec 4) (w : AccWord) : Statement (.femark land a arr w) := of_raw rfl
  (Src.length_imms _) (rfl) nofun fun hw => by
  simp [build, row80, Raw.of, Raw.D, Raw.A, Raw.B, Raw.DS, Raw.acc, Raw.modw, Raw.dab, Raw.da, Raw.ab, Raw.bare, Raw.onlyA, Raw.branch, Raw.cond, Raw.pred, Raw.pred2, Raw.load, Raw.tile, Raw.barrier, resv, Dst.ofCode_code, Src.ofCode_code, AccWord.of_word, CmdWord.of_word, ModWord.of_word, byte_f4_f3_f1, byte_f4_f1_k3, byte_k6_f2, byte_k7_f1, byte_k5_f3, byte_k4_f4, byte_k3_f5, byte_k2_f6, byte_f4_k1_f3, byte_k2_f2_f4, byte_k6_f1_f1, byte_f4_k4, byte_f4_f4, byte_f4_k3_f1, byte_k3_f1_f4, byte_k1_f7, byte_o1_f3_k1_f3, byte_f1_k5_f2, byte_k1_f1_f1_f5, byte_f6_f2, byte_f2_f6]
theorem Sys2Proof.Laws.RoundTrip.feprobe (d : Dst) (a : Src) (arr : BitVec 4) (w : AccWord) : Statement (.feprobe d a arr w) := of_raw rfl
  (Src.length_imms _) (rfl) nofun fun hw => by
  simp [build, row80, Raw.of, Raw.D, Raw.A, Raw.B, Raw.DS, Raw.acc, Raw.modw, Raw.dab, Raw.da, Raw.ab, Raw.bare, Raw.onlyA, Raw.branch, Raw.cond, Raw.pred, Raw.pred2, Raw.load, Raw.tile, Raw.barrier, resv, Dst.ofCode_code, Src.ofCode_code, AccWord.of_word, CmdWord.of_word, ModWord.of_word, byte_f4_f3_f1, byte_f4_f1_k3, byte_k6_f2, byte_k7_f1, byte_k5_f3, byte_k4_f4, byte_k3_f5, byte_k2_f6, byte_f4_k1_f3, byte_k2_f2_f4, byte_k6_f1_f1, byte_f4_k4, byte_f4_f4, byte_f4_k3_f1, byte_k3_f1_f4, byte_k1_f7, byte_o1_f3_k1_f3, byte_f1_k5_f2, byte_k1_f1_f1_f5, byte_f6_f2, byte_f2_f6]
theorem Sys2Proof.Laws.RoundTrip.zprobe (d : Dst) (a : Src) (arr : BitVec 4) (w : AccWord) : Statement (.zprobe d a arr w) := of_raw rfl
  (Src.length_imms _) (rfl) nofun fun hw => by
  simp [build, row80, Raw.of, Raw.D, Raw.A, Raw.B, Raw.DS, Raw.acc, Raw.modw, Raw.dab, Raw.da, Raw.ab, Raw.bare, Raw.onlyA, Raw.branch, Raw.cond, Raw.pred, Raw.pred2, Raw.load, Raw.tile, Raw.barrier, resv, Dst.ofCode_code, Src.ofCode_code, AccWord.of_word, CmdWord.of_word, ModWord.of_word, byte_f4_f3_f1, byte_f4_f1_k3, byte_k6_f2, byte_k7_f1, byte_k5_f3, byte_k4_f4, byte_k3_f5, byte_k2_f6, byte_f4_k1_f3, byte_k2_f2_f4, byte_k6_f1_f1, byte_f4_k4, byte_f4_f4, byte_f4_k3_f1, byte_k3_f1_f4, byte_k1_f7, byte_o1_f3_k1_f3, byte_f1_k5_f2, byte_k1_f1_f1_f5, byte_f6_f2, byte_f2_f6]
theorem Sys2Proof.Laws.RoundTrip.atom (d : Dst) (func : BitVec 4) (a : Src) (arr : BitVec 4) (w : AccWord) : Statement (.atom d func a arr w) := of_raw rfl
  (Src.length_imms _) (rfl) nofun fun hw => by
  simp [build, row80, Raw.of, Raw.D, Raw.A, Raw.B, Raw.DS, Raw.acc, Raw.modw, Raw.dab, Raw.da, Raw.ab, Raw.bare, Raw.onlyA, Raw.branch, Raw.cond, Raw.pred, Raw.pred2, Raw.load, Raw.tile, Raw.barrier, resv, Dst.ofCode_code, Src.ofCode_code, AccWord.of_word, CmdWord.of_word, ModWord.of_word, byte_f4_f3_f1, byte_f4_f1_k3, byte_k6_f2, byte_k7_f1, byte_k5_f3, byte_k4_f4, byte_k3_f5, byte_k2_f6, byte_f4_k1_f3, byte_k2_f2_f4, byte_k6_f1_f1, byte_f4_k4, byte_f4_f4, byte_f4_k3_f1, byte_k3_f1_f4, byte_k1_f7, byte_o1_f3_k1_f3, byte_f1_k5_f2, byte_k1_f1_f1_f5, byte_f6_f2, byte_f2_f6]
theorem Sys2Proof.Laws.RoundTrip.cas (d : Dst) (a : Src) (arr : BitVec 4) (w : AccWord) : Statement (.cas d a arr w) := of_raw rfl
  (Src.length_imms _) (rfl) nofun fun hw => by
  simp [build, row80, Raw.of, Raw.D, Raw.A, Raw.B, Raw.DS, Raw.acc, Raw.modw, Raw.dab, Raw.da, Raw.ab, Raw.bare, Raw.onlyA, Raw.branch, Raw.cond, Raw.pred, Raw.pred2, Raw.load, Raw.tile, Raw.barrier, resv, Dst.ofCode_code, Src.ofCode_code, AccWord.of_word, CmdWord.of_word, ModWord.of_word, byte_f4_f3_f1, byte_f4_f1_k3, byte_k6_f2, byte_k7_f1, byte_k5_f3, byte_k4_f4, byte_k3_f5, byte_k2_f6, byte_f4_k1_f3, byte_k2_f2_f4, byte_k6_f1_f1, byte_f4_k4, byte_f4_f4, byte_f4_k3_f1, byte_k3_f1_f4, byte_k1_f7, byte_o1_f3_k1_f3, byte_f1_k5_f2, byte_k1_f1_f1_f5, byte_f6_f2, byte_f2_f6]
theorem Sys2Proof.Laws.RoundTrip.ldx (d : Dst) (a : Src) (arr : BitVec 4) (w : AccWord) : Statement (.ldx d a arr w) := of_raw rfl
  (Src.length_imms _) (rfl) nofun fun hw => by
  simp [build, row80, Raw.of, Raw.D, Raw.A, Raw.B, Raw.DS, Raw.acc, Raw.modw, Raw.dab, Raw.da, Raw.ab, Raw.bare, Raw.onlyA, Raw.branch, Raw.cond, Raw.pred, Raw.pred2, Raw.load, Raw.tile, Raw.barrier, resv, Dst.ofCode_code, Src.ofCode_code, AccWord.of_word, CmdWord.of_word, ModWord.of_word, byte_f4_f3_f1, byte_f4_f1_k3, byte_k6_f2, byte_k7_f1, byte_k5_f3, byte_k4_f4, byte_k3_f5, byte_k2_f6, byte_f4_k1_f3, byte_k2_f2_f4, byte_k6_f1_f1, byte_f4_k4, byte_f4_f4, byte_f4_k3_f1, byte_k3_f1_f4, byte_k1_f7, byte_o1_f3_k1_f3, byte_f1_k5_f2, byte_k1_f1_f1_f5, byte_f6_f2, byte_f2_f6]
theorem Sys2Proof.Laws.RoundTrip.stx (d : Src) (p : BitVec 3) (a : Src) (arr : BitVec 4) (w : AccWord) : Statement (.stx d p a arr w) := of_raw rfl
  (Src.length_imms _) (rfl) nofun fun hw => by
  have hd : d.imms = [] := Src.imms_store (sz := w.size) (by simp [Instr.wf, Instr.accepts, Accept.stx, Accept.st] at hw; simp [hw])
  simp [build, row80, Raw.of, Raw.D, Raw.A, Raw.B, Raw.DS, Raw.acc, Raw.modw, Raw.dab, Raw.da, Raw.ab, Raw.bare, Raw.onlyA, Raw.branch, Raw.cond, Raw.pred, Raw.pred2, Raw.load, Raw.tile, Raw.barrier, resv, Dst.ofCode_code, Src.ofCode_code, AccWord.of_word, CmdWord.of_word, ModWord.of_word, byte_f4_f3_f1, byte_f4_f1_k3, byte_k6_f2, byte_k7_f1, byte_k5_f3, byte_k4_f4, byte_k3_f5, byte_k2_f6, byte_f4_k1_f3, byte_k2_f2_f4, byte_k6_f1_f1, byte_f4_k4, byte_f4_f4, byte_f4_k3_f1, byte_k3_f1_f4, byte_k1_f7, byte_o1_f3_k1_f3, byte_f1_k5_f2, byte_k1_f1_f1_f5, byte_f6_f2, byte_f2_f6, Src.ofCode_plain hd]
theorem Sys2Proof.Laws.RoundTrip.prf (a : Src) (arr : BitVec 4) (w : AccWord) : Statement (.prf a arr w) := of_raw rfl
  (Src.length_imms _) (rfl) nofun fun hw => by
  simp [build, row80, Raw.of, Raw.D, Raw.A, Raw.B, Raw.DS, Raw.acc, Raw.modw, Raw.dab, Raw.da, Raw.ab, Raw.bare, Raw.onlyA, Raw.branch, Raw.cond, Raw.pred, Raw.pred2, Raw.load, Raw.tile, Raw.barrier, resv, Dst.ofCode_code, Src.ofCode_code, AccWord.of_word, CmdWord.of_word, ModWord.of_word, byte_f4_f3_f1, byte_f4_f1_k3, byte_k6_f2, byte_k7_f1, byte_k5_f3, byte_k4_f4, byte_k3_f5, byte_k2_f6, byte_f4_k1_f3, byte_k2_f2_f4, byte_k6_f1_f1, byte_f4_k4, byte_f4_f4, byte_f4_k3_f1, byte_k3_f1_f4, byte_k1_f7, byte_o1_f3_k1_f3, byte_f1_k5_f2, byte_k1_f1_f1_f5, byte_f6_f2, byte_f2_f6]
theorem Sys2Proof.Laws.RoundTrip.ldrc (d : Dst) (a : Src) (arr : BitVec 4) (w : AccWord) : Statement (.ldrc d a arr w) := of_raw rfl
  (Src.length_imms _) (rfl) nofun fun hw => by
  simp [build, row80, Raw.of, Raw.D, Raw.A, Raw.B, Raw.DS, Raw.acc, Raw.modw, Raw.dab, Raw.da, Raw.ab, Raw.bare, Raw.onlyA, Raw.branch, Raw.cond, Raw.pred, Raw.pred2, Raw.load, Raw.tile, Raw.barrier, resv, Dst.ofCode_code, Src.ofCode_code, AccWord.of_word, CmdWord.of_word, ModWord.of_word, byte_f4_f3_f1, byte_f4_f1_k3, byte_k6_f2, byte_k7_f1, byte_k5_f3, byte_k4_f4, byte_k3_f5, byte_k2_f6, byte_f4_k1_f3, byte_k2_f2_f4, byte_k6_f1_f1, byte_f4_k4, byte_f4_f4, byte_f4_k3_f1, byte_k3_f1_f4, byte_k1_f7, byte_o1_f3_k1_f3, byte_f1_k5_f2, byte_k1_f1_f1_f5, byte_f6_f2, byte_f2_f6]
theorem Sys2Proof.Laws.RoundTrip.strc (d : Src) (count : BitVec 4) (a : Src) (arr : BitVec 4) (w : AccWord) : Statement (.strc d count a arr w) := of_raw rfl
  (Src.length_imms _) (rfl) nofun fun hw => by
  have hd : d.imms = [] := Src.imms_store (sz := w.size) (by simp [Instr.wf, Instr.accepts, Accept.stx, Accept.st] at hw; simp [hw])
  simp [build, row80, Raw.of, Raw.D, Raw.A, Raw.B, Raw.DS, Raw.acc, Raw.modw, Raw.dab, Raw.da, Raw.ab, Raw.bare, Raw.onlyA, Raw.branch, Raw.cond, Raw.pred, Raw.pred2, Raw.load, Raw.tile, Raw.barrier, resv, Dst.ofCode_code, Src.ofCode_code, AccWord.of_word, CmdWord.of_word, ModWord.of_word, byte_f4_f3_f1, byte_f4_f1_k3, byte_k6_f2, byte_k7_f1, byte_k5_f3, byte_k4_f4, byte_k3_f5, byte_k2_f6, byte_f4_k1_f3, byte_k2_f2_f4, byte_k6_f1_f1, byte_f4_k4, byte_f4_f4, byte_f4_k3_f1, byte_k3_f1_f4, byte_k1_f7, byte_o1_f3_k1_f3, byte_f1_k5_f2, byte_k1_f1_f1_f5, byte_f6_f2, byte_f2_f6, Src.ofCode_plain hd]
theorem Sys2Proof.Laws.RoundTrip.cctl (op : BitVec 4) (a : Src) (arr : BitVec 4) (w : AccWord) : Statement (.cctl op a arr w) := of_raw rfl
  (Src.length_imms _) (rfl) nofun fun hw => by
  simp [build, row80, Raw.of, Raw.D, Raw.A, Raw.B, Raw.DS, Raw.acc, Raw.modw, Raw.dab, Raw.da, Raw.ab, Raw.bare, Raw.onlyA, Raw.branch, Raw.cond, Raw.pred, Raw.pred2, Raw.load, Raw.tile, Raw.barrier, resv, Dst.ofCode_code, Src.ofCode_code, AccWord.of_word, CmdWord.of_word, ModWord.of_word, byte_f4_f3_f1, byte_f4_f1_k3, byte_k6_f2, byte_k7_f1, byte_k5_f3, byte_k4_f4, byte_k3_f5, byte_k2_f6, byte_f4_k1_f3, byte_k2_f2_f4, byte_k6_f1_f1, byte_f4_k4, byte_f4_f4, byte_f4_k3_f1, byte_k3_f1_f4, byte_k1_f7, byte_o1_f3_k1_f3, byte_f1_k5_f2, byte_k1_f1_f1_f5, byte_f6_f2, byte_f2_f6]
theorem Sys2Proof.Laws.RoundTrip.cpy (a : Src) (darr sarr : BitVec 4) (w : CmdWord) : Statement (.cpy a darr sarr w) := of_raw rfl
  (Src.length_imms _) (rfl) nofun fun hw => by
  simp [build, rowA0, Raw.of, Raw.D, Raw.A, Raw.B, Raw.DS, Raw.acc, Raw.modw, Raw.dab, Raw.da, Raw.ab, Raw.bare, Raw.onlyA, Raw.branch, Raw.cond, Raw.pred, Raw.pred2, Raw.load, Raw.tile, Raw.barrier, resv, Dst.ofCode_code, Src.ofCode_code, AccWord.of_word, CmdWord.of_word, ModWord.of_word, byte_f4_f3_f1, byte_f4_f1_k3, byte_k6_f2, byte_k7_f1, byte_k5_f3, byte_k4_f4, byte_k3_f5, byte_k2_f6, byte_f4_k1_f3, byte_k2_f2_f4, byte_k6_f1_f1, byte_f4_k4, byte_f4_f4, byte_f4_k3_f1, byte_k3_f1_f4, byte_k1_f7, byte_o1_f3_k1_f3, byte_f1_k5_f2, byte_k1_f1_f1_f5, byte_f6_f2, byte_f2_f6]
theorem Sys2Proof.Laws.RoundTrip.cpym (d : Dst) (a : Src) (darr sarr : BitVec 4) (w : CmdWord) : Statement (.cpym d a darr sarr w) := of_raw rfl
  (Src.length_imms _) (rfl) nofun fun hw => by
  simp [build, rowA0, Raw.of, Raw.D, Raw.A, Raw.B, Raw.DS, Raw.acc, Raw.modw, Raw.dab, Raw.da, Raw.ab, Raw.bare, Raw.onlyA, Raw.branch, Raw.cond, Raw.pred, Raw.pred2, Raw.load, Raw.tile, Raw.barrier, resv, Dst.ofCode_code, Src.ofCode_code, AccWord.of_word, CmdWord.of_word, ModWord.of_word, byte_f4_f3_f1, byte_f4_f1_k3, byte_k6_f2, byte_k7_f1, byte_k5_f3, byte_k4_f4, byte_k3_f5, byte_k2_f6, byte_f4_k1_f3, byte_k2_f2_f4, byte_k6_f1_f1, byte_f4_k4, byte_f4_f4, byte_f4_k3_f1, byte_k3_f1_f4, byte_k1_f7, byte_o1_f3_k1_f3, byte_f1_k5_f2, byte_k1_f1_f1_f5, byte_f6_f2, byte_f2_f6]
theorem Sys2Proof.Laws.RoundTrip.kvcpy (a : Src) (darr sarr : BitVec 4) (w : CmdWord) : Statement (.kvcpy a darr sarr w) := of_raw rfl
  (Src.length_imms _) (rfl) nofun fun hw => by
  simp [build, rowA0, Raw.of, Raw.D, Raw.A, Raw.B, Raw.DS, Raw.acc, Raw.modw, Raw.dab, Raw.da, Raw.ab, Raw.bare, Raw.onlyA, Raw.branch, Raw.cond, Raw.pred, Raw.pred2, Raw.load, Raw.tile, Raw.barrier, resv, Dst.ofCode_code, Src.ofCode_code, AccWord.of_word, CmdWord.of_word, ModWord.of_word, byte_f4_f3_f1, byte_f4_f1_k3, byte_k6_f2, byte_k7_f1, byte_k5_f3, byte_k4_f4, byte_k3_f5, byte_k2_f6, byte_f4_k1_f3, byte_k2_f2_f4, byte_k6_f1_f1, byte_f4_k4, byte_f4_f4, byte_f4_k3_f1, byte_k3_f1_f4, byte_k1_f7, byte_o1_f3_k1_f3, byte_f1_k5_f2, byte_k1_f1_f1_f5, byte_f6_f2, byte_f2_f6]
theorem Sys2Proof.Laws.RoundTrip.waitc (path : BitVec 3) (n : BitVec 8) : Statement (.waitc path n) := of_raw rfl
  (rfl) (rfl) (fun _ => rfl) fun hw => by
  simp [build, rowA0, Raw.of, Raw.D, Raw.A, Raw.B, Raw.DS, Raw.acc, Raw.modw, Raw.dab, Raw.da, Raw.ab, Raw.bare, Raw.onlyA, Raw.branch, Raw.cond, Raw.pred, Raw.pred2, Raw.load, Raw.tile, Raw.barrier, resv, Dst.ofCode_code, Src.ofCode_code, AccWord.of_word, CmdWord.of_word, ModWord.of_word, byte_f4_f3_f1, byte_f4_f1_k3, byte_k6_f2, byte_k7_f1, byte_k5_f3, byte_k4_f4, byte_k3_f5, byte_k2_f6, byte_f4_k1_f3, byte_k2_f2_f4, byte_k6_f1_f1, byte_f4_k4, byte_f4_f4, byte_f4_k3_f1, byte_k3_f1_f4, byte_k1_f7, byte_o1_f3_k1_f3, byte_f1_k5_f2, byte_k1_f1_f1_f5, byte_f6_f2, byte_f2_f6]
theorem Sys2Proof.Laws.RoundTrip.waitz (a : Src) : Statement (.waitz a) := of_raw rfl
  (Src.length_imms _) (rfl) (fun _ => rfl) fun hw => by
  simp [build, rowA0, Raw.of, Raw.D, Raw.A, Raw.B, Raw.DS, Raw.acc, Raw.modw, Raw.dab, Raw.da, Raw.ab, Raw.bare, Raw.onlyA, Raw.branch, Raw.cond, Raw.pred, Raw.pred2, Raw.load, Raw.tile, Raw.barrier, resv, Dst.ofCode_code, Src.ofCode_code, AccWord.of_word, CmdWord.of_word, ModWord.of_word, byte_f4_f3_f1, byte_f4_f1_k3, byte_k6_f2, byte_k7_f1, byte_k5_f3, byte_k4_f4, byte_k3_f5, byte_k2_f6, byte_f4_k1_f3, byte_k2_f2_f4, byte_k6_f1_f1, byte_f4_k4, byte_f4_f4, byte_f4_k3_f1, byte_k3_f1_f4, byte_k1_f7, byte_o1_f3_k1_f3, byte_f1_k5_f2, byte_k1_f1_f1_f5, byte_f6_f2, byte_f2_f6]
theorem Sys2Proof.Laws.RoundTrip.cpst (a : Src) (w : CmdWord) : Statement (.cpst a w) := of_raw rfl
  (Src.length_imms _) (rfl) nofun fun hw => by
  simp [build, rowA0, Raw.of, Raw.D, Raw.A, Raw.B, Raw.DS, Raw.acc, Raw.modw, Raw.dab, Raw.da, Raw.ab, Raw.bare, Raw.onlyA, Raw.branch, Raw.cond, Raw.pred, Raw.pred2, Raw.load, Raw.tile, Raw.barrier, resv, Dst.ofCode_code, Src.ofCode_code, AccWord.of_word, CmdWord.of_word, ModWord.of_word, byte_f4_f3_f1, byte_f4_f1_k3, byte_k6_f2, byte_k7_f1, byte_k5_f3, byte_k4_f4, byte_k3_f5, byte_k2_f6, byte_f4_k1_f3, byte_k2_f2_f4, byte_k6_f1_f1, byte_f4_k4, byte_f4_f4, byte_f4_k3_f1, byte_k3_f1_f4, byte_k1_f7, byte_o1_f3_k1_f3, byte_f1_k5_f2, byte_k1_f1_f1_f5, byte_f6_f2, byte_f2_f6]
theorem Sys2Proof.Laws.RoundTrip.frame (a : Src) (engine : BitVec 3) (w : CmdWord) : Statement (.frame a engine w) := of_raw rfl
  (Src.length_imms _) (rfl) nofun fun hw => by
  simp [build, rowA0, Raw.of, Raw.D, Raw.A, Raw.B, Raw.DS, Raw.acc, Raw.modw, Raw.dab, Raw.da, Raw.ab, Raw.bare, Raw.onlyA, Raw.branch, Raw.cond, Raw.pred, Raw.pred2, Raw.load, Raw.tile, Raw.barrier, resv, Dst.ofCode_code, Src.ofCode_code, AccWord.of_word, CmdWord.of_word, ModWord.of_word, byte_f4_f3_f1, byte_f4_f1_k3, byte_k6_f2, byte_k7_f1, byte_k5_f3, byte_k4_f4, byte_k3_f5, byte_k2_f6, byte_f4_k1_f3, byte_k2_f2_f4, byte_k6_f1_f1, byte_f4_k4, byte_f4_f4, byte_f4_k3_f1, byte_k3_f1_f4, byte_k1_f7, byte_o1_f3_k1_f3, byte_f1_k5_f2, byte_k1_f1_f1_f5, byte_f6_f2, byte_f2_f6]
theorem Sys2Proof.Laws.RoundTrip.sread (a : Src) (drive : BitVec 5) (w : CmdWord) : Statement (.sread a drive w) := of_raw rfl
  (Src.length_imms _) (rfl) nofun fun hw => by
  simp [build, rowA0, Raw.of, Raw.D, Raw.A, Raw.B, Raw.DS, Raw.acc, Raw.modw, Raw.dab, Raw.da, Raw.ab, Raw.bare, Raw.onlyA, Raw.branch, Raw.cond, Raw.pred, Raw.pred2, Raw.load, Raw.tile, Raw.barrier, resv, Dst.ofCode_code, Src.ofCode_code, AccWord.of_word, CmdWord.of_word, ModWord.of_word, byte_f4_f3_f1, byte_f4_f1_k3, byte_k6_f2, byte_k7_f1, byte_k5_f3, byte_k4_f4, byte_k3_f5, byte_k2_f6, byte_f4_k1_f3, byte_k2_f2_f4, byte_k6_f1_f1, byte_f4_k4, byte_f4_f4, byte_f4_k3_f1, byte_k3_f1_f4, byte_k1_f7, byte_o1_f3_k1_f3, byte_f1_k5_f2, byte_k1_f1_f1_f5, byte_f6_f2, byte_f2_f6]
theorem Sys2Proof.Laws.RoundTrip.mma (t : BitVec 5) (a b : Src) (w : ModWord) : Statement (.mma t a b w) := of_raw rfl
  (Src.length_imms _) (Src.length_imms _) nofun fun hw => by
  simp [build, rowB0, Raw.of, Raw.D, Raw.A, Raw.B, Raw.DS, Raw.acc, Raw.modw, Raw.dab, Raw.da, Raw.ab, Raw.bare, Raw.onlyA, Raw.branch, Raw.cond, Raw.pred, Raw.pred2, Raw.load, Raw.tile, Raw.barrier, resv, Dst.ofCode_code, Src.ofCode_code, AccWord.of_word, CmdWord.of_word, ModWord.of_word, byte_f4_f3_f1, byte_f4_f1_k3, byte_k6_f2, byte_k7_f1, byte_k5_f3, byte_k4_f4, byte_k3_f5, byte_k2_f6, byte_f4_k1_f3, byte_k2_f2_f4, byte_k6_f1_f1, byte_f4_k4, byte_f4_f4, byte_f4_k3_f1, byte_k3_f1_f4, byte_k1_f7, byte_o1_f3_k1_f3, byte_f1_k5_f2, byte_k1_f1_f1_f5, byte_f6_f2, byte_f2_f6]
theorem Sys2Proof.Laws.RoundTrip.mmag (t : BitVec 5) (a b : Src) (w : ModWord) : Statement (.mmag t a b w) := of_raw rfl
  (Src.length_imms _) (Src.length_imms _) nofun fun hw => by
  simp [build, rowB0, Raw.of, Raw.D, Raw.A, Raw.B, Raw.DS, Raw.acc, Raw.modw, Raw.dab, Raw.da, Raw.ab, Raw.bare, Raw.onlyA, Raw.branch, Raw.cond, Raw.pred, Raw.pred2, Raw.load, Raw.tile, Raw.barrier, resv, Dst.ofCode_code, Src.ofCode_code, AccWord.of_word, CmdWord.of_word, ModWord.of_word, byte_f4_f3_f1, byte_f4_f1_k3, byte_k6_f2, byte_k7_f1, byte_k5_f3, byte_k4_f4, byte_k3_f5, byte_k2_f6, byte_f4_k1_f3, byte_k2_f2_f4, byte_k6_f1_f1, byte_f4_k4, byte_f4_f4, byte_f4_k3_f1, byte_k3_f1_f4, byte_k1_f7, byte_o1_f3_k1_f3, byte_f1_k5_f2, byte_k1_f1_f1_f5, byte_f6_f2, byte_f2_f6]
theorem Sys2Proof.Laws.RoundTrip.mxfence : Statement (.mxfence) := of_raw rfl
  (rfl) (rfl) (fun _ => rfl) fun hw => by
  simp [build, rowB0, Raw.of, Raw.D, Raw.A, Raw.B, Raw.DS, Raw.acc, Raw.modw, Raw.dab, Raw.da, Raw.ab, Raw.bare, Raw.onlyA, Raw.branch, Raw.cond, Raw.pred, Raw.pred2, Raw.load, Raw.tile, Raw.barrier, resv, Dst.ofCode_code, Src.ofCode_code, AccWord.of_word, CmdWord.of_word, ModWord.of_word, byte_f4_f3_f1, byte_f4_f1_k3, byte_k6_f2, byte_k7_f1, byte_k5_f3, byte_k4_f4, byte_k3_f5, byte_k2_f6, byte_f4_k1_f3, byte_k2_f2_f4, byte_k6_f1_f1, byte_f4_k4, byte_f4_f4, byte_f4_k3_f1, byte_k3_f1_f4, byte_k1_f7, byte_o1_f3_k1_f3, byte_f1_k5_f2, byte_k1_f1_f1_f5, byte_f6_f2, byte_f2_f6]
theorem Sys2Proof.Laws.RoundTrip.mxdrainReg (t : BitVec 5) (n : BitVec 7) (z : BitVec 1) (f : BitVec 4) : Statement (.mxdrainReg t n z f) := of_raw rfl
  (rfl) (rfl) (fun _ => rfl) fun hw => by
  simp [build, rowB0, Raw.of, Raw.D, Raw.A, Raw.B, Raw.DS, Raw.acc, Raw.modw, Raw.dab, Raw.da, Raw.ab, Raw.bare, Raw.onlyA, Raw.branch, Raw.cond, Raw.pred, Raw.pred2, Raw.load, Raw.tile, Raw.barrier, resv, Dst.ofCode_code, Src.ofCode_code, AccWord.of_word, CmdWord.of_word, ModWord.of_word, byte_f4_f3_f1, byte_f4_f1_k3, byte_k6_f2, byte_k7_f1, byte_k5_f3, byte_k4_f4, byte_k3_f5, byte_k2_f6, byte_f4_k1_f3, byte_k2_f2_f4, byte_k6_f1_f1, byte_f4_k4, byte_f4_f4, byte_f4_k3_f1, byte_k3_f1_f4, byte_k1_f7, byte_o1_f3_k1_f3, byte_f1_k5_f2, byte_k1_f1_f1_f5, byte_f6_f2, byte_f2_f6]
theorem Sys2Proof.Laws.RoundTrip.mxdrainScratch (t : BitVec 5) (hs he : BitVec 3) (z : BitVec 1) (f : BitVec 4) : Statement (.mxdrainScratch t hs he z f) := of_raw rfl
  (rfl) (rfl) (fun _ => rfl) fun hw => by
  simp [build, rowB0, Raw.of, Raw.D, Raw.A, Raw.B, Raw.DS, Raw.acc, Raw.modw, Raw.dab, Raw.da, Raw.ab, Raw.bare, Raw.onlyA, Raw.branch, Raw.cond, Raw.pred, Raw.pred2, Raw.load, Raw.tile, Raw.barrier, resv, Dst.ofCode_code, Src.ofCode_code, AccWord.of_word, CmdWord.of_word, ModWord.of_word, byte_f4_f3_f1, byte_f4_f1_k3, byte_k6_f2, byte_k7_f1, byte_k5_f3, byte_k4_f4, byte_k3_f5, byte_k2_f6, byte_f4_k1_f3, byte_k2_f2_f4, byte_k6_f1_f1, byte_f4_k4, byte_f4_f4, byte_f4_k3_f1, byte_k3_f1_f4, byte_k1_f7, byte_o1_f3_k1_f3, byte_f1_k5_f2, byte_k1_f1_f1_f5, byte_f6_f2, byte_f2_f6]
theorem Sys2Proof.Laws.RoundTrip.mxzero (t : BitVec 5) : Statement (.mxzero t) := of_raw rfl
  (rfl) (rfl) (fun _ => rfl) fun hw => by
  simp [build, rowB0, Raw.of, Raw.D, Raw.A, Raw.B, Raw.DS, Raw.acc, Raw.modw, Raw.dab, Raw.da, Raw.ab, Raw.bare, Raw.onlyA, Raw.branch, Raw.cond, Raw.pred, Raw.pred2, Raw.load, Raw.tile, Raw.barrier, resv, Dst.ofCode_code, Src.ofCode_code, AccWord.of_word, CmdWord.of_word, ModWord.of_word, byte_f4_f3_f1, byte_f4_f1_k3, byte_k6_f2, byte_k7_f1, byte_k5_f3, byte_k4_f4, byte_k3_f5, byte_k2_f6, byte_f4_k1_f3, byte_k2_f2_f4, byte_k6_f1_f1, byte_f4_k4, byte_f4_f4, byte_f4_k3_f1, byte_k3_f1_f4, byte_k1_f7, byte_o1_f3_k1_f3, byte_f1_k5_f2, byte_k1_f1_f1_f5, byte_f6_f2, byte_f2_f6]
theorem Sys2Proof.Laws.RoundTrip.mxv (a : Src) (arr : BitVec 4) : Statement (.mxv a arr) := of_raw rfl
  (Src.length_imms _) (rfl) (fun _ => rfl) fun hw => by
  simp [build, rowB0, Raw.of, Raw.D, Raw.A, Raw.B, Raw.DS, Raw.acc, Raw.modw, Raw.dab, Raw.da, Raw.ab, Raw.bare, Raw.onlyA, Raw.branch, Raw.cond, Raw.pred, Raw.pred2, Raw.load, Raw.tile, Raw.barrier, resv, Dst.ofCode_code, Src.ofCode_code, AccWord.of_word, CmdWord.of_word, ModWord.of_word, byte_f4_f3_f1, byte_f4_f1_k3, byte_k6_f2, byte_k7_f1, byte_k5_f3, byte_k4_f4, byte_k3_f5, byte_k2_f6, byte_f4_k1_f3, byte_k2_f2_f4, byte_k6_f1_f1, byte_f4_k4, byte_f4_f4, byte_f4_k3_f1, byte_k3_f1_f4, byte_k1_f7, byte_o1_f3_k1_f3, byte_f1_k5_f2, byte_k1_f1_f1_f5, byte_f6_f2, byte_f2_f6]
theorem Sys2Proof.Laws.RoundTrip.mxload (t : BitVec 5) (h : BitVec 3) (off : BitVec 8) : Statement (.mxload t h off) := of_raw rfl
  (rfl) (rfl) (fun _ => rfl) fun hw => by
  simp [build, rowB0, Raw.of, Raw.D, Raw.A, Raw.B, Raw.DS, Raw.acc, Raw.modw, Raw.dab, Raw.da, Raw.ab, Raw.bare, Raw.onlyA, Raw.branch, Raw.cond, Raw.pred, Raw.pred2, Raw.load, Raw.tile, Raw.barrier, resv, Dst.ofCode_code, Src.ofCode_code, AccWord.of_word, CmdWord.of_word, ModWord.of_word, byte_f4_f3_f1, byte_f4_f1_k3, byte_k6_f2, byte_k7_f1, byte_k5_f3, byte_k4_f4, byte_k3_f5, byte_k2_f6, byte_f4_k1_f3, byte_k2_f2_f4, byte_k6_f1_f1, byte_f4_k4, byte_f4_f4, byte_f4_k3_f1, byte_k3_f1_f4, byte_k1_f7, byte_o1_f3_k1_f3, byte_f1_k5_f2, byte_k1_f1_f1_f5, byte_f6_f2, byte_f2_f6]
theorem Sys2Proof.Laws.RoundTrip.mxscale (t : BitVec 5) (a : Src) (m : BitVec 2) : Statement (.mxscale t a m) := of_raw rfl
  (Src.length_imms _) (rfl) (fun _ => rfl) fun hw => by
  simp [build, rowB0, Raw.of, Raw.D, Raw.A, Raw.B, Raw.DS, Raw.acc, Raw.modw, Raw.dab, Raw.da, Raw.ab, Raw.bare, Raw.onlyA, Raw.branch, Raw.cond, Raw.pred, Raw.pred2, Raw.load, Raw.tile, Raw.barrier, resv, Dst.ofCode_code, Src.ofCode_code, AccWord.of_word, CmdWord.of_word, ModWord.of_word, byte_f4_f3_f1, byte_f4_f1_k3, byte_k6_f2, byte_k7_f1, byte_k5_f3, byte_k4_f4, byte_k3_f5, byte_k2_f6, byte_f4_k1_f3, byte_k2_f2_f4, byte_k6_f1_f1, byte_f4_k4, byte_f4_f4, byte_f4_k3_f1, byte_k3_f1_f4, byte_k1_f7, byte_o1_f3_k1_f3, byte_f1_k5_f2, byte_k1_f1_f1_f5, byte_f6_f2, byte_f2_f6]
theorem Sys2Proof.Laws.RoundTrip.akeys (a : Src) (k : BitVec 2) : Statement (.akeys a k) := of_raw rfl
  (Src.length_imms _) (rfl) (fun _ => rfl) fun hw => by
  simp [build, rowC0, Raw.of, Raw.D, Raw.A, Raw.B, Raw.DS, Raw.acc, Raw.modw, Raw.dab, Raw.da, Raw.ab, Raw.bare, Raw.onlyA, Raw.branch, Raw.cond, Raw.pred, Raw.pred2, Raw.load, Raw.tile, Raw.barrier, resv, Dst.ofCode_code, Src.ofCode_code, AccWord.of_word, CmdWord.of_word, ModWord.of_word, byte_f4_f3_f1, byte_f4_f1_k3, byte_k6_f2, byte_k7_f1, byte_k5_f3, byte_k4_f4, byte_k3_f5, byte_k2_f6, byte_f4_k1_f3, byte_k2_f2_f4, byte_k6_f1_f1, byte_f4_k4, byte_f4_f4, byte_f4_k3_f1, byte_k3_f1_f4, byte_k1_f7, byte_o1_f3_k1_f3, byte_f1_k5_f2, byte_k1_f1_f1_f5, byte_f6_f2, byte_f2_f6]
theorem Sys2Proof.Laws.RoundTrip.aclass (d : Dst) (sr : BitVec 6) (k : BitVec 2) : Statement (.aclass d sr k) := of_raw rfl
  (rfl) (rfl) (fun _ => rfl) fun hw => by
  simp [build, rowC0, Raw.of, Raw.D, Raw.A, Raw.B, Raw.DS, Raw.acc, Raw.modw, Raw.dab, Raw.da, Raw.ab, Raw.bare, Raw.onlyA, Raw.branch, Raw.cond, Raw.pred, Raw.pred2, Raw.load, Raw.tile, Raw.barrier, resv, Dst.ofCode_code, Src.ofCode_code, AccWord.of_word, CmdWord.of_word, ModWord.of_word, byte_f4_f3_f1, byte_f4_f1_k3, byte_k6_f2, byte_k7_f1, byte_k5_f3, byte_k4_f4, byte_k3_f5, byte_k2_f6, byte_f4_k1_f3, byte_k2_f2_f4, byte_k6_f1_f1, byte_f4_k4, byte_f4_f4, byte_f4_k3_f1, byte_k3_f1_f4, byte_k1_f7, byte_o1_f3_k1_f3, byte_f1_k5_f2, byte_k1_f1_f1_f5, byte_f6_f2, byte_f2_f6]
theorem Sys2Proof.Laws.RoundTrip.amask (t : BitVec 5) (sr : BitVec 6) (tree : BitVec 1) (k : BitVec 2) : Statement (.amask t sr tree k) := of_raw rfl
  (rfl) (rfl) (fun _ => rfl) fun hw => by
  simp [build, rowC0, Raw.of, Raw.D, Raw.A, Raw.B, Raw.DS, Raw.acc, Raw.modw, Raw.dab, Raw.da, Raw.ab, Raw.bare, Raw.onlyA, Raw.branch, Raw.cond, Raw.pred, Raw.pred2, Raw.load, Raw.tile, Raw.barrier, resv, Dst.ofCode_code, Src.ofCode_code, AccWord.of_word, CmdWord.of_word, ModWord.of_word, byte_f4_f3_f1, byte_f4_f1_k3, byte_k6_f2, byte_k7_f1, byte_k5_f3, byte_k4_f4, byte_k3_f5, byte_k2_f6, byte_f4_k1_f3, byte_k2_f2_f4, byte_k6_f1_f1, byte_f4_k4, byte_f4_f4, byte_f4_k3_f1, byte_k3_f1_f4, byte_k1_f7, byte_o1_f3_k1_f3, byte_f1_k5_f2, byte_k1_f1_f1_f5, byte_f6_f2, byte_f2_f6]
theorem Sys2Proof.Laws.RoundTrip.asoft (st : BitVec 5) (o : BitVec 5) (noo first : BitVec 1) (t : BitVec 5) : Statement (.asoft st o noo first t) := of_raw rfl
  (rfl) (rfl) (fun _ => rfl) fun hw => by
  simp [build, rowC0, Raw.of, Raw.D, Raw.A, Raw.B, Raw.DS, Raw.acc, Raw.modw, Raw.dab, Raw.da, Raw.ab, Raw.bare, Raw.onlyA, Raw.branch, Raw.cond, Raw.pred, Raw.pred2, Raw.load, Raw.tile, Raw.barrier, resv, Dst.ofCode_code, Src.ofCode_code, AccWord.of_word, CmdWord.of_word, ModWord.of_word, byte_f4_f3_f1, byte_f4_f1_k3, byte_k6_f2, byte_k7_f1, byte_k5_f3, byte_k4_f4, byte_k3_f5, byte_k2_f6, byte_f4_k1_f3, byte_k2_f2_f4, byte_k6_f1_f1, byte_f4_k4, byte_f4_f4, byte_f4_k3_f1, byte_k3_f1_f4, byte_k1_f7, byte_o1_f3_k1_f3, byte_f1_k5_f2, byte_k1_f1_f1_f5, byte_f6_f2, byte_f2_f6]
theorem Sys2Proof.Laws.RoundTrip.ttset (g : BitVec 2) (a : Src) (n : BitVec 2) : Statement (.ttset g a n) := of_raw rfl
  (Src.length_imms _) (rfl) (fun _ => rfl) fun hw => by
  simp [build, rowC0, Raw.of, Raw.D, Raw.A, Raw.B, Raw.DS, Raw.acc, Raw.modw, Raw.dab, Raw.da, Raw.ab, Raw.bare, Raw.onlyA, Raw.branch, Raw.cond, Raw.pred, Raw.pred2, Raw.load, Raw.tile, Raw.barrier, resv, Dst.ofCode_code, Src.ofCode_code, AccWord.of_word, CmdWord.of_word, ModWord.of_word, byte_f4_f3_f1, byte_f4_f1_k3, byte_k6_f2, byte_k7_f1, byte_k5_f3, byte_k4_f4, byte_k3_f5, byte_k2_f6, byte_f4_k1_f3, byte_k2_f2_f4, byte_k6_f1_f1, byte_f4_k4, byte_f4_f4, byte_f4_k3_f1, byte_k3_f1_f4, byte_k1_f7, byte_o1_f3_k1_f3, byte_f1_k5_f2, byte_k1_f1_f1_f5, byte_f6_f2, byte_f2_f6]
theorem Sys2Proof.Laws.RoundTrip.ttmask (d : Dst) (sr : BitVec 6) (n : BitVec 2) : Statement (.ttmask d sr n) := of_raw rfl
  (rfl) (rfl) (fun _ => rfl) fun hw => by
  simp [build, rowC0, Raw.of, Raw.D, Raw.A, Raw.B, Raw.DS, Raw.acc, Raw.modw, Raw.dab, Raw.da, Raw.ab, Raw.bare, Raw.onlyA, Raw.branch, Raw.cond, Raw.pred, Raw.pred2, Raw.load, Raw.tile, Raw.barrier, resv, Dst.ofCode_code, Src.ofCode_code, AccWord.of_word, CmdWord.of_word, ModWord.of_word, byte_f4_f3_f1, byte_f4_f1_k3, byte_k6_f2, byte_k7_f1, byte_k5_f3, byte_k4_f4, byte_k3_f5, byte_k2_f6, byte_f4_k1_f3, byte_k2_f2_f4, byte_k6_f1_f1, byte_f4_k4, byte_f4_f4, byte_f4_k3_f1, byte_k3_f1_f4, byte_k1_f7, byte_o1_f3_k1_f3, byte_f1_k5_f2, byte_k1_f1_f1_f5, byte_f6_f2, byte_f2_f6]
theorem Sys2Proof.Laws.RoundTrip.ttpos (d : Dst) (a : Src) (sr : BitVec 6) (n : BitVec 2) : Statement (.ttpos d a sr n) := of_raw rfl
  (Src.length_imms _) (rfl) (fun _ => rfl) fun hw => by
  simp [build, rowC0, Raw.of, Raw.D, Raw.A, Raw.B, Raw.DS, Raw.acc, Raw.modw, Raw.dab, Raw.da, Raw.ab, Raw.bare, Raw.onlyA, Raw.branch, Raw.cond, Raw.pred, Raw.pred2, Raw.load, Raw.tile, Raw.barrier, resv, Dst.ofCode_code, Src.ofCode_code, AccWord.of_word, CmdWord.of_word, ModWord.of_word, byte_f4_f3_f1, byte_f4_f1_k3, byte_k6_f2, byte_k7_f1, byte_k5_f3, byte_k4_f4, byte_k3_f5, byte_k2_f6, byte_f4_k1_f3, byte_k2_f2_f4, byte_k6_f1_f1, byte_f4_k4, byte_f4_f4, byte_f4_k3_f1, byte_k3_f1_f4, byte_k1_f7, byte_o1_f3_k1_f3, byte_f1_k5_f2, byte_k1_f1_f1_f5, byte_f6_f2, byte_f2_f6]
theorem Sys2Proof.Laws.RoundTrip.prune (d : Dst) (a : Src) (n : BitVec 2) (sr : BitVec 6) : Statement (.prune d a n sr) := of_raw rfl
  (Src.length_imms _) (rfl) (fun _ => rfl) fun hw => by
  simp [build, rowC0, Raw.of, Raw.D, Raw.A, Raw.B, Raw.DS, Raw.acc, Raw.modw, Raw.dab, Raw.da, Raw.ab, Raw.bare, Raw.onlyA, Raw.branch, Raw.cond, Raw.pred, Raw.pred2, Raw.load, Raw.tile, Raw.barrier, resv, Dst.ofCode_code, Src.ofCode_code, AccWord.of_word, CmdWord.of_word, ModWord.of_word, byte_f4_f3_f1, byte_f4_f1_k3, byte_k6_f2, byte_k7_f1, byte_k5_f3, byte_k4_f4, byte_k3_f5, byte_k2_f6, byte_f4_k1_f3, byte_k2_f2_f4, byte_k6_f1_f1, byte_f4_k4, byte_f4_f4, byte_f4_k3_f1, byte_k3_f1_f4, byte_k1_f7, byte_o1_f3_k1_f3, byte_f1_k5_f2, byte_k1_f1_f1_f5, byte_f6_f2, byte_f2_f6]
theorem Sys2Proof.Laws.RoundTrip.heat (t : BitVec 5) (a : Src) (arr : BitVec 4) : Statement (.heat t a arr) := of_raw rfl
  (Src.length_imms _) (rfl) (fun _ => rfl) fun hw => by
  simp [build, rowC0, Raw.of, Raw.D, Raw.A, Raw.B, Raw.DS, Raw.acc, Raw.modw, Raw.dab, Raw.da, Raw.ab, Raw.bare, Raw.onlyA, Raw.branch, Raw.cond, Raw.pred, Raw.pred2, Raw.load, Raw.tile, Raw.barrier, resv, Dst.ofCode_code, Src.ofCode_code, AccWord.of_word, CmdWord.of_word, ModWord.of_word, byte_f4_f3_f1, byte_f4_f1_k3, byte_k6_f2, byte_k7_f1, byte_k5_f3, byte_k4_f4, byte_k3_f5, byte_k2_f6, byte_f4_k1_f3, byte_k2_f2_f4, byte_k6_f1_f1, byte_f4_k4, byte_f4_f4, byte_f4_k3_f1, byte_k3_f1_f4, byte_k1_f7, byte_o1_f3_k1_f3, byte_f1_k5_f2, byte_k1_f1_f1_f5, byte_f6_f2, byte_f2_f6]
theorem Sys2Proof.Laws.RoundTrip.evsel (mark : BitVec 1) (a : Src) (harr larr : BitVec 4) : Statement (.evsel mark a harr larr) := of_raw rfl
  (Src.length_imms _) (rfl) (fun _ => rfl) fun hw => by
  simp [build, rowC0, Raw.of, Raw.D, Raw.A, Raw.B, Raw.DS, Raw.acc, Raw.modw, Raw.dab, Raw.da, Raw.ab, Raw.bare, Raw.onlyA, Raw.branch, Raw.cond, Raw.pred, Raw.pred2, Raw.load, Raw.tile, Raw.barrier, resv, Dst.ofCode_code, Src.ofCode_code, AccWord.of_word, CmdWord.of_word, ModWord.of_word, byte_f4_f3_f1, byte_f4_f1_k3, byte_k6_f2, byte_k7_f1, byte_k5_f3, byte_k4_f4, byte_k3_f5, byte_k2_f6, byte_f4_k1_f3, byte_k2_f2_f4, byte_k6_f1_f1, byte_f4_k4, byte_f4_f4, byte_f4_k3_f1, byte_k3_f1_f4, byte_k1_f7, byte_o1_f3_k1_f3, byte_f1_k5_f2, byte_k1_f1_f1_f5, byte_f6_f2, byte_f2_f6]
theorem Sys2Proof.Laws.RoundTrip.gath (tarr : BitVec 4) (a : Src) (darr larr : BitVec 4) (w : CmdWord) : Statement (.gath tarr a darr larr w) := of_raw rfl
  (Src.length_imms _) (rfl) nofun fun hw => by
  simp [build, rowD0, Raw.of, Raw.D, Raw.A, Raw.B, Raw.DS, Raw.acc, Raw.modw, Raw.dab, Raw.da, Raw.ab, Raw.bare, Raw.onlyA, Raw.branch, Raw.cond, Raw.pred, Raw.pred2, Raw.load, Raw.tile, Raw.barrier, resv, Dst.ofCode_code, Src.ofCode_code, AccWord.of_word, CmdWord.of_word, ModWord.of_word, byte_f4_f3_f1, byte_f4_f1_k3, byte_k6_f2, byte_k7_f1, byte_k5_f3, byte_k4_f4, byte_k3_f5, byte_k2_f6, byte_f4_k1_f3, byte_k2_f2_f4, byte_k6_f1_f1, byte_f4_k4, byte_f4_f4, byte_f4_k3_f1, byte_k3_f1_f4, byte_k1_f7, byte_o1_f3_k1_f3, byte_f1_k5_f2, byte_k1_f1_f1_f5, byte_f6_f2, byte_f2_f6]
theorem Sys2Proof.Laws.RoundTrip.gath2 (tarr iarr : BitVec 4) (a : Src) (darr larr : BitVec 4) (w : CmdWord) : Statement (.gath2 tarr iarr a darr larr w) := of_raw rfl
  (Src.length_imms _) (rfl) nofun fun hw => by
  simp [build, rowD0, Raw.of, Raw.D, Raw.A, Raw.B, Raw.DS, Raw.acc, Raw.modw, Raw.dab, Raw.da, Raw.ab, Raw.bare, Raw.onlyA, Raw.branch, Raw.cond, Raw.pred, Raw.pred2, Raw.load, Raw.tile, Raw.barrier, resv, Dst.ofCode_code, Src.ofCode_code, AccWord.of_word, CmdWord.of_word, ModWord.of_word, byte_f4_f3_f1, byte_f4_f1_k3, byte_k6_f2, byte_k7_f1, byte_k5_f3, byte_k4_f4, byte_k3_f5, byte_k2_f6, byte_f4_k1_f3, byte_k2_f2_f4, byte_k6_f1_f1, byte_f4_k4, byte_f4_f4, byte_f4_k3_f1, byte_k3_f1_f4, byte_k1_f7, byte_o1_f3_k1_f3, byte_f1_k5_f2, byte_k1_f1_f1_f5, byte_f6_f2, byte_f2_f6]
theorem Sys2Proof.Laws.RoundTrip.gath3 (tarr iarr : BitVec 4) (a : Src) (darr larr : BitVec 4) (w : CmdWord) : Statement (.gath3 tarr iarr a darr larr w) := of_raw rfl
  (Src.length_imms _) (rfl) nofun fun hw => by
  simp [build, rowD0, Raw.of, Raw.D, Raw.A, Raw.B, Raw.DS, Raw.acc, Raw.modw, Raw.dab, Raw.da, Raw.ab, Raw.bare, Raw.onlyA, Raw.branch, Raw.cond, Raw.pred, Raw.pred2, Raw.load, Raw.tile, Raw.barrier, resv, Dst.ofCode_code, Src.ofCode_code, AccWord.of_word, CmdWord.of_word, ModWord.of_word, byte_f4_f3_f1, byte_f4_f1_k3, byte_k6_f2, byte_k7_f1, byte_k5_f3, byte_k4_f4, byte_k3_f5, byte_k2_f6, byte_f4_k1_f3, byte_k2_f2_f4, byte_k6_f1_f1, byte_f4_k4, byte_f4_f4, byte_f4_k3_f1, byte_k3_f1_f4, byte_k1_f7, byte_o1_f3_k1_f3, byte_f1_k5_f2, byte_k1_f1_f1_f5, byte_f6_f2, byte_f2_f6]
theorem Sys2Proof.Laws.RoundTrip.scat (tarr : BitVec 4) (a : Src) (sarr larr : BitVec 4) (w : CmdWord) : Statement (.scat tarr a sarr larr w) := of_raw rfl
  (Src.length_imms _) (rfl) nofun fun hw => by
  simp [build, rowD0, Raw.of, Raw.D, Raw.A, Raw.B, Raw.DS, Raw.acc, Raw.modw, Raw.dab, Raw.da, Raw.ab, Raw.bare, Raw.onlyA, Raw.branch, Raw.cond, Raw.pred, Raw.pred2, Raw.load, Raw.tile, Raw.barrier, resv, Dst.ofCode_code, Src.ofCode_code, AccWord.of_word, CmdWord.of_word, ModWord.of_word, byte_f4_f3_f1, byte_f4_f1_k3, byte_k6_f2, byte_k7_f1, byte_k5_f3, byte_k4_f4, byte_k3_f5, byte_k2_f6, byte_f4_k1_f3, byte_k2_f2_f4, byte_k6_f1_f1, byte_f4_k4, byte_f4_f4, byte_f4_k3_f1, byte_k3_f1_f4, byte_k1_f7, byte_o1_f3_k1_f3, byte_f1_k5_f2, byte_k1_f1_f1_f5, byte_f6_f2, byte_f2_f6]
theorem Sys2Proof.Laws.RoundTrip.scata (tarr : BitVec 4) (a : Src) (sarr larr : BitVec 4) (w : CmdWord) : Statement (.scata tarr a sarr larr w) := of_raw rfl
  (Src.length_imms _) (rfl) nofun fun hw => by
  simp [build, rowD0, Raw.of, Raw.D, Raw.A, Raw.B, Raw.DS, Raw.acc, Raw.modw, Raw.dab, Raw.da, Raw.ab, Raw.bare, Raw.onlyA, Raw.branch, Raw.cond, Raw.pred, Raw.pred2, Raw.load, Raw.tile, Raw.barrier, resv, Dst.ofCode_code, Src.ofCode_code, AccWord.of_word, CmdWord.of_word, ModWord.of_word, byte_f4_f3_f1, byte_f4_f1_k3, byte_k6_f2, byte_k7_f1, byte_k5_f3, byte_k4_f4, byte_k3_f5, byte_k2_f6, byte_f4_k1_f3, byte_k2_f2_f4, byte_k6_f1_f1, byte_f4_k4, byte_f4_f4, byte_f4_k3_f1, byte_k3_f1_f4, byte_k1_f7, byte_o1_f3_k1_f3, byte_f1_k5_f2, byte_k1_f1_f1_f5, byte_f6_f2, byte_f2_f6]
theorem Sys2Proof.Laws.RoundTrip.nzscan (a : Src) (larr varr : BitVec 4) (w : CmdWord) : Statement (.nzscan a larr varr w) := of_raw rfl
  (Src.length_imms _) (rfl) nofun fun hw => by
  simp [build, rowD0, Raw.of, Raw.D, Raw.A, Raw.B, Raw.DS, Raw.acc, Raw.modw, Raw.dab, Raw.da, Raw.ab, Raw.bare, Raw.onlyA, Raw.branch, Raw.cond, Raw.pred, Raw.pred2, Raw.load, Raw.tile, Raw.barrier, resv, Dst.ofCode_code, Src.ofCode_code, AccWord.of_word, CmdWord.of_word, ModWord.of_word, byte_f4_f3_f1, byte_f4_f1_k3, byte_k6_f2, byte_k7_f1, byte_k5_f3, byte_k4_f4, byte_k3_f5, byte_k2_f6, byte_f4_k1_f3, byte_k2_f2_f4, byte_k6_f1_f1, byte_f4_k4, byte_f4_f4, byte_f4_k3_f1, byte_k3_f1_f4, byte_k1_f7, byte_o1_f3_k1_f3, byte_f1_k5_f2, byte_k1_f1_f1_f5, byte_f6_f2, byte_f2_f6]
theorem Sys2Proof.Laws.RoundTrip.bar (count : BitVec 6) (b : BitVec 4) : Statement (.bar count b) := of_raw rfl
  (rfl) (rfl) (fun _ => rfl) fun hw => by
  simp [build, rowE0, Raw.of, Raw.D, Raw.A, Raw.B, Raw.DS, Raw.acc, Raw.modw, Raw.dab, Raw.da, Raw.ab, Raw.bare, Raw.onlyA, Raw.branch, Raw.cond, Raw.pred, Raw.pred2, Raw.load, Raw.tile, Raw.barrier, resv, Dst.ofCode_code, Src.ofCode_code, AccWord.of_word, CmdWord.of_word, ModWord.of_word, byte_f4_f3_f1, byte_f4_f1_k3, byte_k6_f2, byte_k7_f1, byte_k5_f3, byte_k4_f4, byte_k3_f5, byte_k2_f6, byte_f4_k1_f3, byte_k2_f2_f4, byte_k6_f1_f1, byte_f4_k4, byte_f4_f4, byte_f4_k3_f1, byte_k3_f1_f4, byte_k1_f7, byte_o1_f3_k1_f3, byte_f1_k5_f2, byte_k1_f1_f1_f5, byte_f6_f2, byte_f2_f6]
theorem Sys2Proof.Laws.RoundTrip.bara (count : BitVec 6) (b : BitVec 4) : Statement (.bara count b) := of_raw rfl
  (rfl) (rfl) (fun _ => rfl) fun hw => by
  simp [build, rowE0, Raw.of, Raw.D, Raw.A, Raw.B, Raw.DS, Raw.acc, Raw.modw, Raw.dab, Raw.da, Raw.ab, Raw.bare, Raw.onlyA, Raw.branch, Raw.cond, Raw.pred, Raw.pred2, Raw.load, Raw.tile, Raw.barrier, resv, Dst.ofCode_code, Src.ofCode_code, AccWord.of_word, CmdWord.of_word, ModWord.of_word, byte_f4_f3_f1, byte_f4_f1_k3, byte_k6_f2, byte_k7_f1, byte_k5_f3, byte_k4_f4, byte_k3_f5, byte_k2_f6, byte_f4_k1_f3, byte_k2_f2_f4, byte_k6_f1_f1, byte_f4_k4, byte_f4_f4, byte_f4_k3_f1, byte_k3_f1_f4, byte_k1_f7, byte_o1_f3_k1_f3, byte_f1_k5_f2, byte_k1_f1_f1_f5, byte_f6_f2, byte_f2_f6]
theorem Sys2Proof.Laws.RoundTrip.barw (b : BitVec 4) : Statement (.barw b) := of_raw rfl
  (rfl) (rfl) (fun _ => rfl) fun hw => by
  simp [build, rowE0, Raw.of, Raw.D, Raw.A, Raw.B, Raw.DS, Raw.acc, Raw.modw, Raw.dab, Raw.da, Raw.ab, Raw.bare, Raw.onlyA, Raw.branch, Raw.cond, Raw.pred, Raw.pred2, Raw.load, Raw.tile, Raw.barrier, resv, Dst.ofCode_code, Src.ofCode_code, AccWord.of_word, CmdWord.of_word, ModWord.of_word, byte_f4_f3_f1, byte_f4_f1_k3, byte_k6_f2, byte_k7_f1, byte_k5_f3, byte_k4_f4, byte_k3_f5, byte_k2_f6, byte_f4_k1_f3, byte_k2_f2_f4, byte_k6_f1_f1, byte_f4_k4, byte_f4_f4, byte_f4_k3_f1, byte_k3_f1_f4, byte_k1_f7, byte_o1_f3_k1_f3, byte_f1_k5_f2, byte_k1_f1_f1_f5, byte_f6_f2, byte_f2_f6]
theorem Sys2Proof.Laws.RoundTrip.cbar (b : BitVec 4) : Statement (.cbar b) := of_raw rfl
  (rfl) (rfl) (fun _ => rfl) fun hw => by
  simp [build, rowE0, Raw.of, Raw.D, Raw.A, Raw.B, Raw.DS, Raw.acc, Raw.modw, Raw.dab, Raw.da, Raw.ab, Raw.bare, Raw.onlyA, Raw.branch, Raw.cond, Raw.pred, Raw.pred2, Raw.load, Raw.tile, Raw.barrier, resv, Dst.ofCode_code, Src.ofCode_code, AccWord.of_word, CmdWord.of_word, ModWord.of_word, byte_f4_f3_f1, byte_f4_f1_k3, byte_k6_f2, byte_k7_f1, byte_k5_f3, byte_k4_f4, byte_k3_f5, byte_k2_f6, byte_f4_k1_f3, byte_k2_f2_f4, byte_k6_f1_f1, byte_f4_k4, byte_f4_f4, byte_f4_k3_f1, byte_k3_f1_f4, byte_k1_f7, byte_o1_f3_k1_f3, byte_f1_k5_f2, byte_k1_f1_f1_f5, byte_f6_f2, byte_f2_f6]
theorem Sys2Proof.Laws.RoundTrip.launch (d : Dst) (a b : Src) : Statement (.launch d a b) := of_dab .launch rfl rfl rfl (by simp [build, rowE0, Raw.of]) rfl
theorem Sys2Proof.Laws.RoundTrip.waitch (n : BitVec 8) : Statement (.waitch n) := of_raw rfl
  (rfl) (rfl) (fun _ => rfl) fun hw => by
  simp [build, rowE0, Raw.of, Raw.D, Raw.A, Raw.B, Raw.DS, Raw.acc, Raw.modw, Raw.dab, Raw.da, Raw.ab, Raw.bare, Raw.onlyA, Raw.branch, Raw.cond, Raw.pred, Raw.pred2, Raw.load, Raw.tile, Raw.barrier, resv, Dst.ofCode_code, Src.ofCode_code, AccWord.of_word, CmdWord.of_word, ModWord.of_word, byte_f4_f3_f1, byte_f4_f1_k3, byte_k6_f2, byte_k7_f1, byte_k5_f3, byte_k4_f4, byte_k3_f5, byte_k2_f6, byte_f4_k1_f3, byte_k2_f2_f4, byte_k6_f1_f1, byte_f4_k4, byte_f4_f4, byte_f4_k3_f1, byte_k3_f1_f4, byte_k1_f7, byte_o1_f3_k1_f3, byte_f1_k5_f2, byte_k1_f1_f1_f5, byte_f6_f2, byte_f2_f6]
theorem Sys2Proof.Laws.RoundTrip.resample (d : Dst) (a b : Src) : Statement (.resample d a b) := of_dab .resample rfl rfl rfl (by simp [build, rowE0, Raw.of]) rfl
theorem Sys2Proof.Laws.RoundTrip.pstat (d : Dst) (f : BitVec 4) : Statement (.pstat d f) := of_raw rfl
  (rfl) (rfl) (fun _ => rfl) fun hw => by
  simp [build, rowE0, Raw.of, Raw.D, Raw.A, Raw.B, Raw.DS, Raw.acc, Raw.modw, Raw.dab, Raw.da, Raw.ab, Raw.bare, Raw.onlyA, Raw.branch, Raw.cond, Raw.pred, Raw.pred2, Raw.load, Raw.tile, Raw.barrier, resv, Dst.ofCode_code, Src.ofCode_code, AccWord.of_word, CmdWord.of_word, ModWord.of_word, byte_f4_f3_f1, byte_f4_f1_k3, byte_k6_f2, byte_k7_f1, byte_k5_f3, byte_k4_f4, byte_k3_f5, byte_k2_f6, byte_f4_k1_f3, byte_k2_f2_f4, byte_k6_f1_f1, byte_f4_k4, byte_f4_f4, byte_f4_k3_f1, byte_k3_f1_f4, byte_k1_f7, byte_o1_f3_k1_f3, byte_f1_k5_f2, byte_k1_f1_f1_f5, byte_f6_f2, byte_f2_f6]
theorem Sys2Proof.Laws.RoundTrip.rng (d : Dst) (a b : Src) : Statement (.rng d a b) := of_dab .rng rfl rfl rfl (by simp [build, rowE0, Raw.of]) rfl
theorem Sys2Proof.Laws.RoundTrip.gbar : Statement (.gbar) := of_raw rfl
  (rfl) (rfl) (fun _ => rfl) fun hw => by
  simp [build, rowE0, Raw.of, Raw.D, Raw.A, Raw.B, Raw.DS, Raw.acc, Raw.modw, Raw.dab, Raw.da, Raw.ab, Raw.bare, Raw.onlyA, Raw.branch, Raw.cond, Raw.pred, Raw.pred2, Raw.load, Raw.tile, Raw.barrier, resv, Dst.ofCode_code, Src.ofCode_code, AccWord.of_word, CmdWord.of_word, ModWord.of_word, byte_f4_f3_f1, byte_f4_f1_k3, byte_k6_f2, byte_k7_f1, byte_k5_f3, byte_k4_f4, byte_k3_f5, byte_k2_f6, byte_f4_k1_f3, byte_k2_f2_f4, byte_k6_f1_f1, byte_f4_k4, byte_f4_f4, byte_f4_k3_f1, byte_k3_f1_f4, byte_k1_f7, byte_o1_f3_k1_f3, byte_f1_k5_f2, byte_k1_f1_f1_f5, byte_f6_f2, byte_f2_f6]
theorem Sys2Proof.Laws.RoundTrip.coll (a : Src) (kind : BitVec 2) : Statement (.coll a kind) := of_raw rfl
  (Src.length_imms _) (rfl) (fun _ => rfl) fun hw => by
  simp [build, rowE0, Raw.of, Raw.D, Raw.A, Raw.B, Raw.DS, Raw.acc, Raw.modw, Raw.dab, Raw.da, Raw.ab, Raw.bare, Raw.onlyA, Raw.branch, Raw.cond, Raw.pred, Raw.pred2, Raw.load, Raw.tile, Raw.barrier, resv, Dst.ofCode_code, Src.ofCode_code, AccWord.of_word, CmdWord.of_word, ModWord.of_word, byte_f4_f3_f1, byte_f4_f1_k3, byte_k6_f2, byte_k7_f1, byte_k5_f3, byte_k4_f4, byte_k3_f5, byte_k2_f6, byte_f4_k1_f3, byte_k2_f2_f4, byte_k6_f1_f1, byte_f4_k4, byte_f4_f4, byte_f4_k3_f1, byte_k3_f1_f4, byte_k1_f7, byte_o1_f3_k1_f3, byte_f1_k5_f2, byte_k1_f1_f1_f5, byte_f6_f2, byte_f2_f6]
theorem Sys2Proof.Laws.RoundTrip.ring (a : Src) : Statement (.ring a) := of_raw rfl
  (Src.length_imms _) (rfl) (fun _ => rfl) fun hw => by
  simp [build, rowE0, Raw.of, Raw.D, Raw.A, Raw.B, Raw.DS, Raw.acc, Raw.modw, Raw.dab, Raw.da, Raw.ab, Raw.bare, Raw.onlyA, Raw.branch, Raw.cond, Raw.pred, Raw.pred2, Raw.load, Raw.tile, Raw.barrier, resv, Dst.ofCode_code, Src.ofCode_code, AccWord.of_word, CmdWord.of_word, ModWord.of_word, byte_f4_f3_f1, byte_f4_f1_k3, byte_k6_f2, byte_k7_f1, byte_k5_f3, byte_k4_f4, byte_k3_f5, byte_k2_f6, byte_f4_k1_f3, byte_k2_f2_f4, byte_k6_f1_f1, byte_f4_k4, byte_f4_f4, byte_f4_k3_f1, byte_k3_f1_f4, byte_k1_f7, byte_o1_f3_k1_f3, byte_f1_k5_f2, byte_k1_f1_f1_f5, byte_f6_f2, byte_f2_f6]
theorem Sys2Proof.Laws.RoundTrip.firmwareMeasure (image : List Byte) : Statement (.firmwareMeasure image) := of_none rfl
theorem Sys2Proof.Laws.RoundTrip.launchStore (source : Nat) (offset : Nat) (data : List Byte) : Statement (.launchStore source offset data) := of_none rfl
theorem Sys2Proof.Laws.RoundTrip.copyLaunch (source : Nat) (offset : Nat) (data : List Byte) : Statement (.copyLaunch source offset data) := of_none rfl
theorem Sys2Proof.Laws.RoundTrip.bulkCopyComplete (id : Nat) : Statement (.bulkCopyComplete id) := of_none rfl
theorem Sys2Proof.Laws.RoundTrip.gateEvaluate (id : Nat) : Statement (.gateEvaluate id) := of_none rfl
theorem Sys2Proof.Laws.RoundTrip.gateRecheck (id : Nat) : Statement (.gateRecheck id) := of_none rfl
theorem Sys2Proof.Laws.RoundTrip.teamReadmit (record : Nat) : Statement (.teamReadmit record) := of_none rfl
theorem Sys2Proof.Laws.RoundTrip.gangRelease (gang : Nat) : Statement (.gangRelease gang) := of_none rfl
theorem Sys2Proof.Laws.RoundTrip.swapOut (gang : Nat) : Statement (.swapOut gang) := of_none rfl
theorem Sys2Proof.Laws.RoundTrip.parkComplete (gang : Nat) : Statement (.parkComplete gang) := of_none rfl
theorem Sys2Proof.Laws.RoundTrip.swapIn (gang : Nat) : Statement (.swapIn gang) := of_none rfl
theorem Sys2Proof.Laws.RoundTrip.swapEligible (gang : Nat) : Statement (.swapEligible gang) := of_none rfl
theorem Sys2Proof.Laws.RoundTrip.forcedSwap (gang : Nat) : Statement (.forcedSwap gang) := of_none rfl
theorem Sys2Proof.Laws.RoundTrip.starvationPick (gang slice : Nat) : Statement (.starvationPick gang slice) := of_none rfl
theorem Sys2Proof.Laws.RoundTrip.fairnessSwitch (gang slice : Nat) : Statement (.fairnessSwitch gang slice) := of_none rfl
theorem Sys2Proof.Laws.RoundTrip.latchHoldExpiry (gang slice : Nat) : Statement (.latchHoldExpiry gang slice) := of_none rfl
theorem Sys2Proof.Laws.RoundTrip.sleepExpiry (gang slice : Nat) : Statement (.sleepExpiry gang slice) := of_none rfl
theorem Sys2Proof.Laws.RoundTrip.watchdogLimit (gang : Nat) : Statement (.watchdogLimit gang) := of_none rfl
theorem Sys2Proof.Laws.RoundTrip.emptyTimeout (gang slice : Nat) : Statement (.emptyTimeout gang slice) := of_none rfl
theorem Sys2Proof.Laws.RoundTrip.spillAccepted (gang reg : Nat) : Statement (.spillAccepted gang reg) := of_none rfl
theorem Sys2Proof.Laws.RoundTrip.fillReturn (gang reg : Nat) : Statement (.fillReturn gang reg) := of_none rfl
theorem Sys2Proof.Laws.RoundTrip.commandAccept (gang slice : Nat) : Statement (.commandAccept gang slice) := of_none rfl
theorem Sys2Proof.Laws.RoundTrip.lineLanding (gang cmd line : Nat) : Statement (.lineLanding gang cmd line) := of_none rfl
theorem Sys2Proof.Laws.RoundTrip.commandComplete (gang cmd : Nat) : Statement (.commandComplete gang cmd) := of_none rfl
theorem Sys2Proof.Laws.RoundTrip.accessPerformed (gang id : Nat) : Statement (.accessPerformed gang id) := of_none rfl
theorem Sys2Proof.Laws.RoundTrip.commandReplayComplete (gang cmd : Nat) : Statement (.commandReplayComplete gang cmd) := of_none rfl
theorem Sys2Proof.Laws.RoundTrip.tileOpComplete (gang id : Nat) : Statement (.tileOpComplete gang id) := of_none rfl
theorem Sys2Proof.Laws.RoundTrip.batchComplete (gang id : Nat) : Statement (.batchComplete gang id) := of_none rfl
theorem Sys2Proof.Laws.RoundTrip.heatAdd (gang id : Nat) : Statement (.heatAdd gang id) := of_none rfl
theorem Sys2Proof.Laws.RoundTrip.pageWalkComplete (core asid va : Nat) : Statement (.pageWalkComplete core asid va) := of_none rfl
theorem Sys2Proof.Laws.RoundTrip.lineFill (core pa : Nat) : Statement (.lineFill core pa) := of_none rfl
theorem Sys2Proof.Laws.RoundTrip.mscCountedDrop (line : Nat) : Statement (.mscCountedDrop line) := of_none rfl
theorem Sys2Proof.Laws.RoundTrip.eccError (target : EccTarget) : Statement (.eccError target) := of_none rfl
theorem Sys2Proof.Laws.RoundTrip.remoteAccess (member : Nat) (op : RemoteOp) : Statement (.remoteAccess member op) := of_none rfl
theorem Sys2Proof.Laws.RoundTrip.remoteAccessTimeout (gang : Nat) (who : Waiter) : Statement (.remoteAccessTimeout gang who) := of_none rfl
theorem Sys2Proof.Laws.RoundTrip.replyReplay (seq : Nat) : Statement (.replyReplay seq) := of_none rfl
theorem Sys2Proof.Laws.RoundTrip.replyAbort (seq : Nat) : Statement (.replyAbort seq) := of_none rfl
theorem Sys2Proof.Laws.RoundTrip.replyContinue (seq : Nat) : Statement (.replyContinue seq) := of_none rfl
theorem Sys2Proof.Laws.RoundTrip.preemptHalt (grid : Nat) : Statement (.preemptHalt grid) := of_none rfl
theorem Sys2Proof.Laws.RoundTrip.preemptEvict (grid : Nat) : Statement (.preemptEvict grid) := of_none rfl
theorem Sys2Proof.Laws.RoundTrip.preemptRelease (grid : Nat) : Statement (.preemptRelease grid) := of_none rfl
theorem Sys2Proof.Laws.RoundTrip.gangHalted (gang : Nat) : Statement (.gangHalted gang) := of_none rfl
theorem Sys2Proof.Laws.RoundTrip.teamSave (team : Nat) : Statement (.teamSave team) := of_none rfl
theorem Sys2Proof.Laws.RoundTrip.resampleRelease (gang : Nat) : Statement (.resampleRelease gang) := of_none rfl
theorem Sys2Proof.Laws.RoundTrip.poolPush (stack : Nat) (value : W64) : Statement (.poolPush stack value) := of_none rfl
theorem Sys2Proof.Laws.RoundTrip.tinvPage (asid : Nat) : Statement (.tinvPage asid) := of_none rfl
theorem Sys2Proof.Laws.RoundTrip.tinvAsid (asid : Nat) : Statement (.tinvAsid asid) := of_none rfl
theorem Sys2Proof.Laws.RoundTrip.attestationRequest (data : List Byte) : Statement (.attestationRequest data) := of_none rfl
theorem Sys2Proof.Laws.RoundTrip.eccstatClear (die k : Nat) : Statement (.eccstatClear die k) := of_none rfl
theorem Sys2Proof.Laws.RoundTrip.linkRetrain (port : Nat) : Statement (.linkRetrain port) := of_none rfl
theorem Sys2Proof.Laws.RoundTrip.linkTrained (port : Nat) : Statement (.linkTrained port) := of_none rfl
theorem Sys2Proof.Laws.RoundTrip.flitCrcFail (port : Nat) (again : Bool) : Statement (.flitCrcFail port again) := of_none rfl
theorem Sys2Proof.Laws.RoundTrip.laneLockLoss (port : Nat) : Statement (.laneLockLoss port) := of_none rfl
theorem Sys2Proof.Laws.RoundTrip.ringTileArrival (ring rev stp : Nat) (data : List Byte) : Statement (.ringTileArrival ring rev stp data) := of_none rfl
theorem Sys2Proof.Laws.RoundTrip.ringAckArrival (ring rev stp : Nat) : Statement (.ringAckArrival ring rev stp) := of_none rfl
theorem Sys2Proof.Laws.RoundTrip.ringStepComplete (ring : Nat) : Statement (.ringStepComplete ring) := of_none rfl
theorem Sys2Proof.Laws.RoundTrip.ringTimeout (ring : Nat) : Statement (.ringTimeout ring) := of_none rfl
theorem Sys2Proof.Laws.RoundTrip.breakReceived (ring rev : Nat) : Statement (.breakReceived ring rev) := of_none rfl
theorem Sys2Proof.Laws.RoundTrip.collectiveComplete (ring : Nat) : Statement (.collectiveComplete ring) := of_none rfl
theorem Sys2Proof.Laws.RoundTrip.nvmeCompletion (gang cmd : Nat) (ok : Bool) (data : List Byte) : Statement (.nvmeCompletion gang cmd ok data) := of_none rfl
theorem Sys2Proof.Laws.RoundTrip.storageTimeout (gang cmd : Nat) : Statement (.storageTimeout gang cmd) := of_none rfl
theorem Sys2Proof.Laws.RoundTrip.powerRun (cap : Nat) : Statement (.powerRun cap) := of_none rfl
theorem Sys2Proof.Laws.RoundTrip.powerHold (cap : Nat) : Statement (.powerHold cap) := of_none rfl
theorem Sys2Proof.Laws.RoundTrip.powerLow (cap : Nat) : Statement (.powerLow cap) := of_none rfl
theorem Sys2Proof.Laws.RoundTrip.clockStep (die : Nat) (up : Bool) : Statement (.clockStep die up) := of_none rfl
theorem Sys2Proof.Laws.RoundTrip.registerWrite (offset : Nat) (value : W64) : Statement (.registerWrite offset value) := of_none rfl
theorem Sys2Proof.Laws.RoundTrip.collectiveChunkArrival (ring chunk : Nat) (params : Nat) (data : List Byte) : Statement (.collectiveChunkArrival ring chunk params data) := of_none rfl
theorem Sys2Proof.Laws.RoundTrip.remoteCopyInvalidate (line : Nat) : Statement (.remoteCopyInvalidate line) := of_none rfl
theorem Sys2Proof.Laws.RoundTrip.measurementExtend (k : Nat) (data : List Byte) : Statement (.measurementExtend k data) := of_none rfl
theorem Sys2Proof.Laws.RoundTrip.bootReady (code : Nat) : Statement (.bootReady code) := of_none rfl
theorem Sys2Proof.Laws.RoundTrip.coldReset : Statement (.coldReset) := of_none rfl
theorem Sys2Proof.Laws.RoundTrip.warmReset : Statement (.warmReset) := of_none rfl
theorem Sys2Proof.Laws.RoundTrip.teamAdmit : Statement (.teamAdmit) := of_none rfl
theorem Sys2Proof.Laws.RoundTrip.clusterGroupAdmit : Statement (.clusterGroupAdmit) := of_none rfl
theorem Sys2Proof.Laws.RoundTrip.coreReserve : Statement (.coreReserve) := of_none rfl
theorem Sys2Proof.Laws.RoundTrip.distributorPreempt : Statement (.distributorPreempt) := of_none rfl
theorem Sys2Proof.Laws.RoundTrip.faultRecordPost : Statement (.faultRecordPost) := of_none rfl
theorem Sys2Proof.Laws.RoundTrip.tinvAll : Statement (.tinvAll) := of_none rfl
theorem Sys2Proof.Laws.RoundTrip.tinvDone : Statement (.tinvDone) := of_none rfl
theorem Sys2Proof.Laws.RoundTrip.quoteComplete : Statement (.quoteComplete) := of_none rfl
theorem Sys2Proof.Laws.RoundTrip.lowPowerEntry : Statement (.lowPowerEntry) := of_none rfl
end

