-- ==== Sys2Proof/Tests/Slice0.lean ====
section
/-! SUPPORT. Small tests of the model against the spec's own encodings and rules, and for each statement with hypotheses
the concrete states that meet them. -/

namespace Sys2Proof.Tests

open Sys2Proof Sys2Proof.Machine Sys2Proof.Claims

set_option Elab.async false

/-! ## Decoding: for every instruction a word written out from its encoding (02 R31 to R36 and the instruction's rule) -/

/-- Each list of words decodes to the instruction beside it. -/
def Reads (l : List (List W32 × Instr)) : Prop := (l.map fun p => decode p.1) = l.map fun p => .ok p.2

theorem test_decode_00 : Reads [
    ([0x00000000], .nop), ([0x01233800], .mode 2 1 1 3 1), ([0x0200A102], .fpctl (.s 1) 2),
    ([0x03A50009], .getsr (.s 5) 9), ([0x0303000E], .getsr (.v 3) 14), ([0x0400A20C], .setsr (.s 2) 12),
    ([0x0500F000, 5], .trap (.imm 5)), ([0x06000001], .resume 1), ([0x07000703], .twr (.v 7) 3),
    ([0x08001234], .brk 0x1234), ([0x09A4A521], .sysc (.s 4) (.s 5) 0x21), ([0x0A000304], .fence 3 4),
    ([0x0B000000], .fencei), ([0x0C000000, 0x00000081], .ipf 1 1)] := rfl

theorem test_decode_10 : Reads [
    ([0x10000000, 0xFFFFFFF0], .br 0xFFFFFFF0), ([0x1100A180, 8], .beq (.s 1) (.x 0) 8),
    ([0x1200E0F0, 0x10, 5], .bne (.lat 0) (.imm 5) 0x10), ([0x1300F1E4, 0x10, 1, 2], .blt (.imm64 0x200000001) .zero 0x10),
    ([0x1400E5EE, 0x10], .bge (.id .lane) (.id .cycle) 0x10), ([0x15008081, 4], .bltu (.x 0) (.x 1) 4),
    ([0x1600E4E6, 4], .bgeu .zero (.id .slice) 4), ([0x170B0000, 0x20], .bp 11 0x20), ([0x18000000], .join),
    ([0x19000000, 0x88], .call 0x88), ([0x1A000000], .ret), ([0x1B00A300], .jmpi (.s 3)), ([0x1C000000], .exit),
    ([0x1D000000], .yield), ([0x1E00F000, 100], .sleep (.imm 100)), ([0x1F000100], .passpri 1 0), ([0x1F000005], .passpri 0 5)] := rfl

theorem test_decode_20 : Reads [
    ([0x208182A3], .add (.x 1) (.x 2) (.s 3)), ([0x21A0A1F0, 7], .sub (.s 0) (.s 1) (.imm 7)), ([0x229FE3E4], .mul (.x 31) (.lat 3) .zero),
    ([0x23DFA0F1, 0xFFFFFFFF, 1], .mulh (.s 63) (.s 0) (.imm64 0x1FFFFFFFF)), ([0x2481E8EA], .mad (.x 1) (.id .gang) (.id .core)),
    ([0x25E08182], .min .l0 (.x 1) (.x 2)), ([0x26E48182], .max .zero (.x 1) (.x 2)), ([0x278182F0, 31], .shl (.x 1) (.x 2) (.imm 31)),
    ([0x28818283], .shr (.x 1) (.x 2) (.x 3)), ([0x29818283], .sar (.x 1) (.x 2) (.x 3)), ([0x2A818283], .and (.x 1) (.x 2) (.x 3)),
    ([0x2B818283], .or (.x 1) (.x 2) (.x 3)), ([0x2C818283], .xor (.x 1) (.x 2) (.x 3)), ([0x2D818283], .div (.x 1) (.x 2) (.x 3)),
    ([0x2E818283], .rem (.x 1) (.x 2) (.x 3)), ([0x2F818283], .clamp (.x 1) (.x 2) (.x 3))] := rfl

theorem test_decode_30 : Reads [
    ([0x30658081], .cmp 6 5 (.x 0) (.x 1)), ([0x318182A3], .seli (.x 1) (.x 2) (.s 3)),
    ([0x32A1A2F0, 9], .widen (.s 1) (.s 2) (.imm 9)), ([0x33A281F0, 3], .rimeget (.s 2) (.x 1) (.imm 3)),
    ([0x3481E4A1], .narrow (.x 1) .zero (.s 1)), ([0x35818200], .clz (.x 1) (.x 2)), ([0x36818200], .popc (.x 1) (.x 2)),
    ([0x37818200], .brev (.x 1) (.x 2)), ([0x38818283], .bfx (.x 1) (.x 2) (.x 3)), ([0x39818283], .bfi (.x 1) (.x 2) (.x 3)),
    ([0x3A818200], .abs (.x 1) (.x 2)), ([0x3BA1A200], .not (.s 1) (.s 2)), ([0x3C818283], .lea (.x 1) (.x 2) (.x 3))] := rfl

theorem test_decode_40 : Reads [
    ([0x400501E1], .fadd (.v 5) (.v 1) (.lat 1)), ([0x417F0102], .fsub (.v 127) (.v 1) (.v 2)), ([0x42050102], .fmul (.v 5) (.v 1) (.v 2)),
    ([0x43050102], .ffma (.v 5) (.v 1) (.v 2)), ([0x44050102, 0x00000204], .ffma3 (.v 5) (.v 1) (.v 2) (.v 4) 1 0),
    ([0x45050102], .fmin (.v 5) (.v 1) (.v 2)), ([0x46050102], .fmax (.v 5) (.v 1) (.v 2)), ([0x47050100], .fneg (.v 5) (.v 1)),
    ([0x48050100], .fabs (.v 5) (.v 1)), ([0x49720102], .fcmp 7 2 (.v 1) (.v 2)), ([0x4A050102], .fsel (.v 5) (.v 1) (.v 2)),
    ([0x4B050100], .frcp (.v 5) (.v 1)), ([0x4C050100], .frsq (.v 5) (.v 1)), ([0x4D050100], .fsqrt (.v 5) (.v 1)),
    ([0x4E050102], .fdiv (.v 5) (.v 1) (.v 2)), ([0x4F050100], .fexp2 (.v 5) (.v 1))] := rfl

theorem test_decode_50 : Reads [
    ([0x50050100], .flog2 (.v 5) (.v 1)), ([0x51050100], .fsin (.v 5) (.v 1)), ([0x52050100], .fcos (.v 5) (.v 1)),
    ([0x53050100], .ftanh (.v 5) (.v 1)), ([0x54050100], .fclass (.v 5) (.v 1)), ([0x55050107], .fround (.v 5) (.v 1) 7),
    ([0x56050102], .fscale (.v 5) (.v 1) (.v 2)), ([0x57050102], .fdot2 (.v 5) (.v 1) (.v 2)), ([0x58030134], .cvt (.v 3) (.v 1) 3 4),
    ([0x59040102], .req (.v 4) (.v 1) (.v 2)), ([0x5A050102], .pack (.v 5) (.v 1) (.v 2)), ([0x5B050103], .unpack (.v 5) (.v 1) 3),
    ([0x5C050102], .iadd (.v 5) (.v 1) (.v 2)), ([0x5D810102], .isub (.x 1) (.v 1) (.v 2)), ([0x5E050102], .imul (.v 5) (.v 1) (.v 2)),
    ([0x5F050102], .imad (.v 5) (.v 1) (.v 2))] := rfl

theorem test_decode_60 : Reads [
    ([0x60050102], .imin (.v 5) (.v 1) (.v 2)), ([0x61050102], .imax (.v 5) (.v 1) (.v 2)), ([0x62050102], .ishl (.v 5) (.v 1) (.v 2)),
    ([0x63050102], .ishr (.v 5) (.v 1) (.v 2)), ([0x64050102], .iand (.v 5) (.v 1) (.v 2)), ([0x65050102], .ior (.v 5) (.v 1) (.v 2)),
    ([0x66050102], .ixor (.v 5) (.v 1) (.v 2)), ([0x67530102], .icmp 5 3 (.v 1) (.v 2)), ([0x680903A1], .shfl (.v 9) (.v 3) (.s 1)),
    ([0x69A103F0, 0xFF], .vote (.s 1) (.v 3) (.imm 0xFF)), ([0x6A0903F0, 0xFF], .gred (.v 9) (.v 3) (.imm 0xFF)),
    ([0x6B0903A1], .gscan (.v 9) (.v 3) (.s 1)), ([0x6C0903A1], .bcast (.v 9) (.v 3) (.s 1))] := rfl

theorem test_decode_70 : Reads [
    ([0x70A1F100, 0x89ABCDEF, 0x01234567], .mov (.s 1) (.imm64 0x0123456789ABCDEF)), ([0x71020A03], .pand 2 10 3), ([0x72020A03], .por 2 10 3),
    ([0x73020A03], .pxor 2 10 3), ([0x74020A00], .pnot 2 10), ([0x75030003], .pmov 3 0 1 1), ([0x75030900], .pmov 3 9 0 0),
    ([0x7605010C], .pget (.v 5) 1 12), ([0x770501E2], .sel (.v 5) (.v 1) (.lat 2)), ([0x7807A101], .aset 7 (.s 1) 1),
    ([0x79A10700], .aget (.s 1) 7 0), ([0x7A05A101], .hset 5 (.s 1) 1), ([0x7BA10501], .hget (.s 1) 5 1),
    ([0x7C000407], .park 4 7), ([0x7D00801F], .unpark 0x80 31)] := rfl

theorem test_decode_80 : Reads [
    ([0x80048350, 0x00102040], .ld (.v 4) (.x 3) 5 ⟨0x0010, 1, 0, 0, 2, 0⟩), ([0x8104A050, 0xFFFF6C40], .st (.v 4) (.s 0) 5 ⟨0xFFFF, 3, 3, 0, 2, 0⟩),
    ([0x8200F010, 0x00000400, 0], .femark 0 (.imm 0) 1 ⟨0, 0, 1, 0, 0, 0⟩), ([0x83818210, 0x00004400], .feprobe (.x 1) (.x 2) 1 ⟨0, 2, 1, 0, 0, 0⟩),
    ([0x84818210, 0], .zprobe (.x 1) (.x 2) 1 ⟨0, 0, 0, 0, 0, 0⟩), ([0x8504834A, 0x00000C40], .atom (.v 4) 10 (.x 3) 4 ⟨0, 0, 3, 0, 2, 0⟩),
    ([0x86048340, 0x00008F60], .cas (.v 4) (.x 3) 4 ⟨0, 4, 3, 3, 3, 0⟩), ([0x87048340, 0x00000040], .ldx (.v 4) (.x 3) 4 ⟨0, 0, 0, 0, 2, 0⟩),
    ([0x88048345, 0x00000040], .stx (.v 4) 5 (.x 3) 4 ⟨0, 0, 0, 0, 2, 0⟩), ([0x89008340, 0x000000A0], .prf (.x 3) 4 ⟨0, 0, 0, 0, 5, 0⟩),
    ([0x8A048340, 0x00000028], .ldrc (.v 4) (.x 3) 4 ⟨0, 0, 0, 0, 1, 1⟩), ([0x8B04834F, 0x00000040], .strc (.v 4) 15 (.x 3) 4 ⟨0, 0, 0, 0, 2, 0⟩),
    ([0x8C008344, 0], .cctl 4 (.x 3) 4 ⟨0, 0, 0, 0, 0, 0⟩)] := rfl

theorem test_decode_a0 : Reads [
    ([0xA000A423, 0x64508300], .cpy (.s 4) 2 3 ⟨3, 0, 1, 5, 2, 3, 0⟩), ([0xA1A7F023, 0x08000000, 16], .cpym (.s 7) (.imm 16) 2 3 ⟨0, 1, 0, 0, 0, 0, 0⟩),
    ([0xA2000423, 0x00000013], .kvcpy (.v 4) 2 3 ⟨0, 0, 0, 0, 0, 0, 0x13⟩), ([0xA3000304], .waitc 3 4), ([0xA400A500], .waitz (.s 5)),
    ([0xA500E400, 0], .cpst .zero ⟨0, 0, 0, 0, 0, 0, 0⟩), ([0xA600A502, 0x80000000], .frame (.s 5) 2 ⟨4, 0, 0, 0, 0, 0, 0⟩),
    ([0xA700A51F, 0x00008A0F], .sread (.s 5) 31 ⟨0, 0, 0, 0, 2, 10, 15⟩)] := rfl

theorem test_decode_b0 : Reads [
    ([0xB00208F0, 0x11200000, 0xFFFFFFFE], .mma 2 (.v 8) (.imm 0xFFFFFFFE) ⟨1, 1, 1, 0, 0, 0, 0⟩),
    ([0xB11F08A1, 0x12FE0000], .mmag 31 (.v 8) (.s 1) ⟨1, 2, 7, 1, 1, 1, 1⟩), ([0xB2000000], .mxfence), ([0xB3020811], .mxdrainReg 2 8 1 1),
    ([0xB302B308], .mxdrainScratch 2 3 3 0 8), ([0xB41F0000], .mxzero 31), ([0xB500A120], .mxv (.s 1) 2), ([0xB6020310], .mxload 2 3 16),
    ([0xB702F002, 0x3F800000], .mxscale 2 (.imm 0x3F800000) 2)] := rfl

theorem test_decode_c0 : Reads [
    ([0xC0000803], .akeys (.v 8) 3), ([0xC1A10502], .aclass (.s 1) 5 2), ([0xC2030582], .amask 3 5 1 2), ([0xC3010224], .asoft 1 2 0 1 4),
    ([0xC4010E02], .ttset 1 (.v 14) 2), ([0xC5050602], .ttmask (.v 5) 6 2), ([0xC605071A], .ttpos (.v 5) (.v 7) 6 2),
    ([0xC7A1A286], .prune (.s 1) (.s 2) 2 6), ([0xC803A120], .heat 3 (.s 1) 2), ([0xC901A134], .evsel 1 (.s 1) 3 4)] := rfl

theorem test_decode_d0 : Reads [
    ([0xD0F0A135, 0x00000005], .gath 15 (.s 1) 3 5 ⟨0, 0, 0, 0, 0, 0, 5⟩), ([0xD1128130, 0x00000002], .gath2 1 2 (.x 1) 3 0 ⟨0, 0, 0, 0, 0, 0, 2⟩),
    ([0xD212F034, 0x0000005B, 8], .gath3 1 2 (.imm 8) 3 4 ⟨0, 0, 0, 0, 0, 0, 0x5B⟩), ([0xD310A135, 0x60000004], .scat 1 (.s 1) 3 5 ⟨3, 0, 0, 0, 0, 0, 4⟩),
    ([0xD410A135, 0x60000014], .scata 1 (.s 1) 3 5 ⟨3, 0, 0, 0, 0, 0, 0x14⟩), ([0xD500A135, 0x00000001], .nzscan (.s 1) 3 5 ⟨0, 0, 0, 0, 0, 0, 1⟩)] := rfl

theorem test_decode_e0 : Reads [
    ([0xE000200A], .bar 32 10), ([0xE1000403], .bara 4 3), ([0xE2000003], .barw 3), ([0xE300000F], .cbar 15), ([0xE4A1F0A2, 9], .launch (.s 1) (.imm 9) (.s 2)),
    ([0xE5000005], .waitch 5), ([0xE60507A1], .resample (.v 5) (.v 7) (.s 1)), ([0xE7A10500], .pstat (.s 1) 5),
    ([0xE88182F0, 3], .rng (.x 1) (.x 2) (.imm 3)), ([0xE9000000], .gbar), ([0xEA00A602], .coll (.s 6) 2), ([0xEB00A600], .ring (.s 6))] := rfl

/-- Words that R31, R36 and R42 leave to no instruction are refused by name. -/
theorem test_decode_refuses :
    decode [0xF0000000] = .error .reservedOpcode ∧ decode [0x100000E4, 0xFFFFFFF0] = .error .reservedBits ∧
    decode [0x58030164] = .error .reservedBits ∧ decode [0x75030905] = .error .reservedBits ∧
    decode [0x0D000000] = .error .reservedOpcode ∧ decode [] = .error .truncated ∧ decode [0x0500F000] = .error .truncated ∧
    decode [0x20EF8182] = .error .reservedCode ∧ decode [0x2081FF82] = .error .reservedCode := by
  exact ⟨rfl, rfl, rfl, rfl, rfl, rfl, rfl, rfl, rfl⟩

/-! ## Well-formedness: for every check a term that it refuses (02 R42 and the instruction's rule) -/

def Refused (l : List Instr) : Prop := (l.map Instr.accepts) = l.map fun _ => false

/-- Access words that 09 R246 refuses: ORDER 5, SCOPE 5, SIZE 6, EXT 2, EXT with SIZE 2. -/
def badAccess : List AccWord :=
  [⟨0, 5, 0, 0, 2, 0⟩, ⟨0, 0, 5, 0, 2, 0⟩, ⟨0, 0, 0, 0, 6, 0⟩, ⟨0, 0, 0, 0, 0, 2⟩, ⟨0, 0, 0, 0, 2, 1⟩]

/-- Words of four bytes and of one byte, weak, and what single entries refuse of them. -/
def word4 : AccWord := ⟨0, 0, 0, 0, 2, 0⟩
def byte1 : AccWord := ⟨0, 0, 0, 0, 0, 0⟩
def acq4 : AccWord := ⟨0, 2, 0, 0, 2, 0⟩
def rel4 : AccWord := ⟨0, 3, 0, 0, 2, 0⟩
def word8 : AccWord := ⟨0, 0, 0, 0, 3, 0⟩
def word16 : AccWord := ⟨0, 0, 0, 0, 4, 0⟩
def sign1 : AccWord := ⟨0, 0, 0, 0, 0, 1⟩

/-- Command words: none set, SCOPE 5, a landing register with LCEN 0, XTRA 1. -/
def cmd0 : CmdWord := ⟨0, 0, 0, 0, 0, 0, 0⟩
def cmdScope : CmdWord := ⟨5, 0, 0, 0, 0, 0, 0⟩
def cmdLc : CmdWord := ⟨0, 0, 0, 1, 0, 0, 0⟩
def cmdX (x : BitVec 8) : CmdWord := ⟨0, 0, 0, 0, 0, 0, x⟩
def cmdLand (x : BitVec 8) : CmdWord := ⟨0, 0, 1, 1, 0, 0, x⟩

theorem test_refused_control : Refused [
    .mode 11 0 0 7 0, .mode 2 6 0 7 0, .fpctl (.v 1) 0, .fpctl (.imm64 1) 0, .getsr (.v 1) 9, .getsr (.s 1) 14, .getsr (.v 127) 15,
    .setsr (.v 1) 12, .setsr (.s 1) 5, .trap (.x 1), .twr (.lat 0) 0, .twr (.imm64 0) 0, .sysc (.v 1) (.s 1) 0, .sysc .zero (.x 1) 0,
    .fence 5 1, .fence 0 0, .fence 0 5, .br 2, .bp 0 1, .call 3, .beq (.v 1) .zero 0, .bne .zero (.v 1) 0, .blt .zero .zero 2,
    .bge (.v 0) .zero 0, .bltu (.v 0) .zero 0, .bgeu .zero .zero 1, .jmpi (.x 1), .jmpi (.imm 8), .sleep (.v 1), .sleep (.imm64 1),
    .passpri 1 3] := rfl

theorem test_refused_index : Refused [
    .add (.v 1) .zero .zero, .sub (.x 1) (.v 1) .zero, .mul (.x 1) .zero (.imm64 1), .mulh (.s 1) (.x 1) .zero,
    .min (.s 1) .zero (.lat 0), .max (.s 1) (.id .lane) .zero, .shl (.s 1) (.id .popix) .zero, .shr (.v 0) .zero .zero,
    .sar (.x 0) (.imm64 0) .zero, .and (.v 0) .zero .zero, .or (.v 0) .zero .zero, .xor (.v 0) .zero .zero, .div (.v 0) .zero .zero,
    .rem (.v 0) .zero .zero, .bfx (.v 0) .zero .zero, .mad .zero .zero .zero, .clamp .l0 .zero .zero, .seli (.v 0) .zero .zero,
    .bfi .zero .zero .zero, .lea .l0 .zero .zero, .clz (.v 0) .zero, .popc (.x 0) (.v 0), .brev (.s 0) (.x 0), .abs (.v 0) .zero,
    .not (.v 0) .zero, .cmp 10 0 .zero .zero, .cmp 0 0 (.v 0) .zero, .cmp 0 0 .zero (.v 0), .widen .zero .zero .zero,
    .widen (.x 0) (.x 1) .zero, .narrow (.x 0) .zero (.lat 0), .rimeget (.s 63) (.s 0) .zero, .rimeget (.x 0) (.s 0) .zero,
    .rimeget (.s 0) (.x 0) (.imm 16), .rimeget (.s 0) (.s 0) (.imm 0), .rimeget (.s 0) (.v 0) .zero] := rfl

theorem test_refused_vector : Refused [
    .fadd (.x 0) (.v 0) (.v 0), .fsub (.s 0) (.v 0) (.v 0), .fmul (.v 0) (.imm64 0) (.v 0), .fmin (.v 0) (.v 0) (.imm64 0),
    .fmax (.x 0) (.v 0) (.v 0), .fdiv (.x 0) (.v 0) (.v 0), .fscale (.x 0) (.v 0) (.v 0), .ffma .zero (.v 0) (.v 0),
    .fsel .l0 (.v 0) (.v 0), .fdot2 (.x 0) (.v 0) (.v 0), .ffma3 (.v 0) (.v 0) (.v 0) (.imm 0) 0 0, .ffma3 (.x 0) (.v 0) (.v 0) (.v 0) 0 0,
    .fneg (.x 0) (.v 0), .fabs (.x 0) (.v 0), .frcp (.x 0) (.v 0), .frsq (.x 0) (.v 0), .fsqrt (.x 0) (.v 0), .fexp2 (.x 0) (.v 0),
    .flog2 (.x 0) (.v 0), .fsin (.x 0) (.v 0), .fcos (.x 0) (.v 0), .ftanh (.x 0) (.v 0), .fclass (.s 0) (.v 0),
    .fround (.v 0) (.v 0) 6, .fround (.x 0) (.v 0) 0, .fcmp 8 0 (.v 0) (.v 0), .fcmp 0 0 (.imm64 0) (.v 0), .icmp 6 0 (.v 0) (.v 0),
    .icmp 0 0 (.v 0) (.imm64 0), .cvt (.s 0) (.v 0) 0 0, .cvt (.v 0) (.v 0) 0 11, .req (.v 127) (.v 0) (.v 0), .req (.x 0) (.v 0) (.v 0),
    .pack (.s 0) (.v 0) (.v 0), .unpack (.s 0) (.v 0) 0, .iadd (.s 0) (.v 0) (.v 0), .isub (.s 0) (.v 0) (.v 0),
    .imul (.v 0) (.imm64 0) (.v 0), .imin (.s 0) (.v 0) (.v 0), .imax (.s 0) (.v 0) (.v 0), .ishl (.s 0) (.v 0) (.v 0),
    .ishr (.s 0) (.v 0) (.v 0), .iand (.s 0) (.v 0) (.v 0), .ior (.s 0) (.v 0) (.v 0), .ixor (.s 0) (.v 0) (.v 0),
    .imad .zero (.v 0) (.v 0), .shfl (.s 0) (.v 0) (.s 0), .shfl (.v 0) (.v 0) (.x 0), .gscan (.s 0) (.v 0) (.s 0),
    .vote (.v 0) (.imm64 0) (.s 0), .gred (.v 0) (.v 0) (.v 0), .bcast (.v 0) (.v 0) (.lat 0)] := rfl

theorem test_refused_moves : Refused [
    .mov (.s 0) (.v 0), .mov (.v 0) (.imm64 0), .mov (.s 0) (.id .thread), .pmov 0 3 1 0, .pget (.s 0) 0 0, .pget (.v 0) 0 3,
    .sel (.s 0) (.v 0) (.v 0), .sel (.v 0) (.v 0) (.imm64 0), .aset 3 (.s 0) 0, .aset 4 (.x 0) 0, .aget (.v 0) 4 0,
    .hget (.x 0) 0 0, .hset 0 (.lat 0) 0, .park 0xA0 0, .unpark 0xFF 0] := rfl

theorem test_refused_access_word : badAccess.all (fun w => !(Instr.ld (.v 0) .zero 0 w).accepts && !(Instr.st (.v 0) .zero 0 w).accepts &&
    !(Instr.prf .zero 0 w).accepts && !(Instr.atom (.v 0) 0 .zero 0 w).accepts && !(Instr.feprobe (.v 0) .zero 0 w).accepts) = true := rfl

theorem test_refused_memory : Refused [
    .ld (.v 0) (.v 1) 0 word4, .ld (.v 0) .zero 0 rel4, .ld (.s 0) .zero 0 word4, .ld (.x 0) .zero 0 word8, .ld (.v 127) .zero 0 word8,
    .st (.v 0) .zero 0 acq4, .st (.v 0) .zero 0 sign1, .st (.x 0) .zero 0 word8, .st (.s 0) .zero 0 word16, .st (.imm 0) .zero 0 word4,
    .femark 0 (.v 0) 0 byte1, .femark 0 .zero 0 word4, .femark 1 .zero 0 ⟨0, 1, 0, 0, 0, 0⟩, .feprobe (.s 0) .zero 0 byte1,
    .feprobe (.v 0) .zero 0 ⟨0, 1, 0, 0, 0, 0⟩, .zprobe (.s 0) .zero 0 byte1, .zprobe (.v 0) .zero 0 ⟨0, 2, 0, 0, 0, 0⟩,
    .atom (.v 0) 15 .zero 0 word4, .atom (.v 0) 11 .zero 0 word8, .atom (.x 0) 0 .zero 0 word8, .atom .zero 0 .zero 0 word4,
    .atom (.v 0) 0 .zero 0 word16, .cas (.x 0) .zero 0 word4, .cas (.v 127) .zero 0 word4, .cas (.v 0) .zero 0 byte1,
    .ldx (.v 0) .zero 0 byte1, .ldx (.v 0) .zero 0 rel4, .stx (.v 0) 0 .zero 0 byte1, .stx (.v 0) 0 .zero 0 acq4,
    .prf .zero 0 acq4, .prf (.v 0) 0 word4, .ldrc (.v 0) .zero 0 rel4, .strc (.v 0) 0 .zero 0 acq4, .cctl 5 .zero 0 byte1,
    .cctl 0 .zero 0 word4, .cctl 0 (.v 0) 0 byte1] := rfl

theorem test_refused_engine : Refused [
    .cpy (.v 0) 0 0 cmd0, .cpy (.imm64 0) 0 0 cmd0, .cpy (.s 0) 0 0 cmdScope, .cpy (.s 0) 0 0 cmdLc, .cpy (.s 0) 0 0 (cmdX 1),
    .cpym (.v 0) (.s 0) 0 0 cmd0, .kvcpy (.s 0) 0 0 cmd0, .kvcpy (.v 0) 0 0 ⟨0, 0, 0, 0, 0, 1, 0⟩, .kvcpy (.v 0) 0 0 (cmdX 0xA0),
    .kvcpy (.v 0) 0 0 (cmdX 0x08), .waitc 6 0, .waitz (.x 0), .cpst (.imm64 0) cmd0, .cpst (.s 0) (cmdX 1), .frame (.imm 0) 0 cmd0,
    .frame (.s 0) 0 ⟨0, 0, 0, 0, 1, 0, 0⟩, .frame (.s 0) 0 ⟨0, 0, 0, 0, 0, 1, 0⟩, .frame (.s 0) 0 (cmdX 1), .sread (.imm 0) 0 cmd0,
    .sread (.s 0) 0 (cmdX 16), .gath 0 (.v 0) 0 0 (cmdX 2), .gath 0 (.s 0) 0 0 (cmdX 1), .gath 0 (.s 0) 0 0 (cmdX 12),
    .gath 0 (.s 0) 0 0 (cmdX 0x12), .gath2 0 0 (.x 0) 0 1 (cmdX 2), .gath2 0 0 (.x 0) 0 0 ⟨0, 0, 0, 0, 0, 1, 2⟩,
    .gath3 0 0 .zero 0 0 (cmdX 2), .scat 0 (.s 0) 0 0 (cmdLand 2), .scata 0 (.s 0) 0 0 (cmdX 0x22), .scata 0 (.s 0) 0 0 (cmdLand 2),
    .nzscan .zero 0 0 cmd0, .nzscan (.s 0) 0 0 (cmdX 2)] := rfl

theorem test_refused_matrix : Refused [
    .mma 0 (.s 0) .zero ⟨1, 1, 0, 0, 0, 0, 0⟩, .mma 0 (.v 0) (.x 0) ⟨1, 1, 0, 0, 0, 0, 0⟩, .mma 0 (.v 0) .zero ⟨0, 0, 0, 0, 0, 0, 0⟩,
    .mma 0 (.v 0) .zero ⟨1, 3, 0, 0, 0, 0, 0⟩, .mma 0 (.v 121) .zero ⟨1, 1, 0, 0, 0, 0, 0⟩, .mma 0 (.v 119) .zero ⟨8, 8, 0, 0, 0, 0, 0⟩,
    .mmag 0 (.v 0) .zero ⟨6, 6, 0, 0, 0, 0, 0⟩, .mxdrainReg 0 0 0 3, .mxdrainReg 0 121 0 0, .mxdrainScratch 0 0 0 0 3,
    .mxv (.imm 0) 0, .mxscale 0 (.v 0) 2, .mxscale 0 (.s 0) 0, .mxscale 0 (.v 0) 3, .akeys (.v 125) 0, .akeys (.s 0) 0,
    .aclass (.v 0) 0 0, .asoft 1 0 1 0 1, .asoft 1 2 1 0 3, .asoft 1 1 0 0 3, .asoft 1 3 0 0 3, .ttset 0 (.s 0) 0, .ttmask (.s 0) 0 0,
    .ttpos (.s 0) (.v 0) 0 0, .ttpos (.v 0) (.imm64 0) 0 0, .prune (.v 0) (.s 0) 0 0, .prune (.s 0) (.v 0) 0 0, .heat 0 (.v 0) 0,
    .evsel 0 (.s 63) 0 0, .evsel 0 .zero 0 0] := rfl

theorem test_refused_gangs : Refused [
    .bar 33 0, .bara 63 0, .launch (.v 0) (.s 0) (.s 0), .launch .zero .zero (.s 0), .launch .zero (.s 0) (.imm 0),
    .resample (.s 0) (.v 0) (.s 0), .resample .l0 (.v 0) (.s 0), .resample .zero (.s 0) (.s 0), .resample .zero (.v 0) .zero,
    .pstat .zero 0, .pstat (.s 0) 6, .rng (.s 0) .zero .zero, .rng (.v 0) (.v 0) .zero, .rng (.v 0) .zero (.imm64 0),
    .coll .zero 0, .coll (.s 0) 3, .ring (.imm 0)] := rfl

/-- Every check accepts something, so none refuses all. -/
theorem test_accepted : ([.mode 10 5 1 15 1, .add (.x 1) (.s 0) (.imm 1), .fadd (.v 5) (.v 1) (.lat 1), .mov (.s 1) (.imm64 5),
    .ld (.v 4) (.x 3) 5 word4, .cpy (.s 4) 2 3 cmd0, .mma 2 (.v 8) (.imm 0) ⟨1, 1, 1, 0, 0, 0, 0⟩, .asoft 1 2 0 1 4, .bar 32 10,
    .gath 15 (.s 1) 3 5 (cmdX 5)] : List Instr).all Instr.wf = true := rfl

/-- An instruction of more than four words is ill-formed (02 R35): two 64-bit immediates beside an offset word. -/
theorem test_refused_length : (Instr.beq (.imm64 1) (.imm64 2) 8).accepts = true ∧ (Instr.beq (.imm64 1) (.imm64 2) 8).wf = false :=
  ⟨rfl, rfl⟩

/-! ## A small state: one grid, one team, one gang of eight slices whose strand issues -/

def grid0 : Grid := State.reset.placedGrid

def team0 : Team :=
  { key := 7, grid := 1, idx := 0, core := 0, offset := 0, slot := 0, group := 0, pos := 0, blocks := [64], scratch := [], pending := []
    barriers := [], seq := 0, retired := false }

/-- The gang as it starts, seated, with four valid latches. -/
def gang0 : Gang :=
  let g := startGang grid0 0 0 0 0 0 [] 0
  { g with active := true, slices := g.slices.map fun sl => { sl with latValid := 4 } }

def st0 : Strand := { Strand.none with slices := [0, 1, 2, 3, 4, 5, 6, 7], pc := 0x10008 }

def is0 : Issue := { gang := 0, slice := 0, pc := 0x10008, fall := 0x1000C, words := [0] }

/-- The state in which gang `g` issues. -/
def on (g : Gang) : State :=
  { State.reset with gangs := [g], teams := [team0], grids := [grid0], nextGid := 1, started := 1, seq := 9, issue := some is0 }

theorem ready_of {s : State} {c : Ctx} {ds : List Dst} {srcs : List Src}
    (h : (ds.all (c.dstOk s) && srcs.all (c.srcOk s) && decide (c.badLatch srcs = none)) = true) : Ready s c ds srcs := by
  simp only [Bool.and_eq_true, decide_eq_true_eq] at h
  exact ⟨h.1.1, h.1.2, h.2⟩

def ctx0 : Ctx := ⟨is0, gang0, st0⟩

theorem ctx_on (s : State) (g : Gang) (st : Strand) (hs : s.issue = some is0) (hg : s.gangs = [g]) (h0 : g.gid = 0)
    (hk : g.strand? 0 = some st) : s.ctx = some ⟨is0, g, st⟩ := by
  have h : s.gang? is0.gang = some g := by simp [State.gang?, hg, h0, is0]
  have k : g.strand? is0.slice = some st := hk
  simp only [State.ctx, hs, h, k]

theorem ctx_on0 : (on gang0).ctx = some ctx0 := ctx_on _ _ _ rfl rfl rfl rfl

/-- The gang with its strand in another state, and its context. -/
def wait0 (w : Wait) : Gang := { gang0 with strands := [{ st0 with wait := w }] }
def ctxW (w : Wait) : Ctx := ⟨is0, wait0 w, { st0 with wait := w }⟩
theorem ctx_wait (w : Wait) : (on (wait0 w)).ctx = some (ctxW w) := ctx_on _ _ _ rfl rfl rfl rfl

/-- The gang with the guard of its strand false in every thread: nothing is active. -/
def stOff : Strand := { st0 with mode := 0x00F000 }
def gangOff : Gang := { gang0 with strands := [stOff] }
theorem ctx_off : (on gangOff).ctx = some ⟨is0, gangOff, stOff⟩ := ctx_on _ _ _ rfl rfl rfl rfl

/-- The mode `t` names the element type, `r` the rounding. -/
def stMode (t r : BitVec 4) : Strand := { st0 with mode := t ++ (r.extractLsb' 0 3) ++ 0#1 ++ 0x7#4 ++ 0#12 }
def gangMode (t r : BitVec 4) : Gang := { gang0 with strands := [stMode t r] }
def ctxM (t r : BitVec 4) : Ctx := ⟨is0, gangMode t r, stMode t r⟩
theorem ctx_mode (t r : BitVec 4) : (on (gangMode t r)).ctx = some (ctxM t r) := ctx_on _ _ _ rfl rfl rfl rfl

/-! ## Witnesses: index arithmetic and moves -/

theorem witness_IndexResultPerThread : (on gang0).ctx = some ctx0 ∧ Accept.dstIsS (.x 31) = false ∧
    Ready (on gang0) ctx0 [.x 31] [.lat 3, .imm 0xFFFFFFFF] ∧ ∀ p ∈ indexOps ++ bitOps, (p.1 (.x 31) (.lat 3) (.imm 0xFFFFFFFF)).wf = true :=
  ⟨ctx_on0, rfl, ready_of (by decide +kernel), by decide +kernel⟩

theorem witness_IndexResultGangUniform : (on gang0).ctx = some ctx0 ∧ Ready (on gang0) ctx0 [] [.s 63, .imm64 0x8000000000000000] ∧
    ∀ p ∈ indexOps ++ bitOps, (p.1 (.s 0) (.s 63) (.imm64 0x8000000000000000)).wf = true :=
  ⟨ctx_on0, ready_of (by decide +kernel), by decide +kernel⟩
theorem witness_IndexRimeHoldsResult : ∀ p ∈ [((.iv 0 5 : Rime), (5 : Int)), (.top, -2147483648), (.iv 0 0, 0)],
    rangeLo 32 ≤ p.2 ∧ p.2 ≤ rangeHi 32 ∧ p.1.holds p.2 = true ∧ rangeLo 32 ≤ (p.1.bounds 32).1 ∧ (p.1.bounds 32).2 ≤ rangeHi 32 := by
  decide +kernel

theorem witness_PredicateLogic : (on gang0).ctx = some ctx0 ∧ (15 : BitVec 4) ≠ 0 := ⟨ctx_on0, by decide⟩

theorem witness_MovesPerThread : (on gang0).ctx = some ctx0 ∧ Accept.dstIsS (.v 127) = false ∧ Ready (on gang0) ctx0 [.v 127] [.lat 3, .x 31] ∧
    (Instr.mov (.v 127) (.lat 3)).wf = true ∧ (Instr.sel (.v 127) (.lat 3) (.x 31)).wf = true ∧ (Instr.pget (.v 127) 0 0).wf = true :=
  ⟨ctx_on0, rfl, ready_of (by decide +kernel), by decide +kernel, by decide +kernel, by decide +kernel⟩

theorem witness_MovesGangUniform : (on gang0).ctx = some ctx0 ∧ (Instr.mov (.s 63) (.imm64 0xFFFFFFFFFFFFFFFF)).wf = true ∧
    Ready (on gang0) ctx0 [] [.imm64 0xFFFFFFFFFFFFFFFF] := ⟨ctx_on0, by decide +kernel, ready_of (by decide +kernel)⟩

theorem witness_MovesGangUniform_pair : (on gang0).ctx = some ctx0 ∧ ((0x0F : BitVec 8) = 0x0E ∨ (0x0F : BitVec 8) = 0x0F) ∧
    (126 : BitVec 7).toNat ≤ 126 ∧ ctx0.vOk (on gang0) (126 : BitVec 7).toNat 2 = true :=
  ⟨ctx_on0, .inr rfl, by decide, by decide +kernel⟩

theorem witness_ControlRegisterWrites : (on gang0).ctx = some ctx0 ∧ ctx0.gate = true ∧ Ready (on gang0) ctx0 [] [.imm 0x80000000] ∧
    (Instr.aset 4 (.imm 0x80000000) 1).wf = true ∧ (Instr.hset 7 (.imm 0x80000000) 0).wf = true ∧
    Accept.srcSZ64 (.imm 0x80000000) = true ∧ Accept.srcSZ (.imm 0x80000000) = true :=
  ⟨ctx_on0, by decide +kernel, ready_of (by decide +kernel), by decide +kernel, by decide +kernel, rfl, rfl⟩

/-- TYPE 10, ROUND 5, SAT, guard p7, FTZ. -/
theorem witness_ModeWrites : (on gang0).ctx = some ctx0 ∧ (10 : BitVec 4).toNat ≤ 10 ∧ (5 : BitVec 3).toNat ≤ 5 ∧
    Accept.srcSZ64 (.imm 0xAB7800) = true ∧ Ready (on gang0) ctx0 [] [.imm 0xAB7800] ∧
    let m := (ctx0.val64 (on gang0) (.imm 0xAB7800)).extractLsb' 0 24
    (m.extractLsb' 20 4).toNat = 10 ∧ (m.extractLsb' 17 3).toNat = 5 ∧ m.extractLsb' 0 11 = 0 :=
  ⟨ctx_on0, by decide, by decide, rfl, ready_of (by decide +kernel), by decide +kernel⟩

/-- WIDEN and NARROW in range; NARROW to an empty range and to one that leaves the values, which are zero, out. -/
theorem witness_RimeInstructions : (on gang0).ctx = some ctx0 ∧ Accept.srcSZ64 .zero = true ∧ Accept.srcSZ64 (.imm 5) = true ∧
    ctx0.g.sPending 63 = false ∧ (ctx0.val64 (on gang0) .zero).toInt ≤ (ctx0.g.sreg 63).toInt ∧
    (ctx0.g.sreg 63).toInt ≤ (ctx0.val64 (on gang0) (.imm 5)).toInt ∧ (ctx0.g.sreg 63).toInt < (ctx0.val64 (on gang0) (.imm 5)).toInt ∧
    Ready (on gang0) ctx0 [.x 31] [] ∧ Ready (on gang0) ctx0 [] [.x 31] ∧
    (∀ k ∈ ctx0.st.slices, ∀ j, j < 4 → (ctx0.g.thread k j).live = true →
      (ctx0.val64 (on gang0) .zero).toInt ≤ ((ctx0.g.thread k j).xreg 31).toInt ∧
      ((ctx0.g.thread k j).xreg 31).toInt ≤ (ctx0.val64 (on gang0) (.imm 5)).toInt) ∧
    (0, 0) ∈ ctx0.liveLanes ∧ ((ctx0.g.thread 0 0).xreg 31).toInt < (ctx0.val64 (on gang0) (.imm 5)).toInt ∧
    (62 : BitVec 6).toNat ≤ 62 ∧ ctx0.gate = true ∧ (7 : W32).toNat < 8 ∧ (ctx0.g.slice 7).isLive = true :=
  ⟨ctx_on0, rfl, rfl, by decide +kernel, by decide +kernel, by decide +kernel, by decide +kernel, ready_of (by decide +kernel),
    ready_of (by decide +kernel), by decide +kernel, by decide +kernel, by decide +kernel, by decide, by decide +kernel, by decide,
    by decide +kernel⟩

/-! ## Witnesses: vector arithmetic -/

theorem no_flags (c : Ctx) (f : Nat → Nat → LaneRes) (h : c.g.fptrap = 0) :
    ∀ k j, c.active k j = true → (f k j).flags &&& c.g.fptrap = 0 := by intros; simp [h]

/-- TYPE e5m2x4, RSR: the last of each range. -/
theorem witness_FloatRounded : (on (gangMode 10 5)).ctx = some (ctxM 10 5) ∧ classF (ctxM 10 5).ty = true ∧ (ctxM 10 5).g.fptrap = 0 ∧
    Ready (on (gangMode 10 5)) (ctxM 10 5) [.v 127] [.lat 3, .imm 1] ∧
    Ready (on (gangMode 10 5)) (ctxM 10 5) [.v 127] [.lat 3, .imm 1, .zero] ∧
    (∀ p ∈ exactOps, (p.1 (.v 127) (.lat 3) (.imm 1)).wf = true) ∧ (Instr.ffma3 (.v 127) (.lat 3) (.imm 1) .zero 1 1).wf = true ∧
    (Instr.fscale (.v 127) (.lat 3) (.imm 1)).wf = true :=
  ⟨ctx_mode .., by decide +kernel, rfl, ready_of (by decide +kernel), ready_of (by decide +kernel), by decide +kernel, by decide +kernel,
    by decide +kernel⟩

theorem witness_FloatByCode : (on (gangMode 2 0)).ctx = some (ctxM 2 0) ∧ classF (ctxM 2 0).ty = true ∧ (ctxM 2 0).g.fptrap = 0 ∧
    Ready (on (gangMode 2 0)) (ctxM 2 0) [.v 0] [.x 31, .v 127] ∧ Ready (on (gangMode 2 0)) (ctxM 2 0) [.v 0] [.x 31] ∧
    (∀ p ∈ codeOps, (p.1 (.v 0) (.x 31) (.v 127)).wf = true) ∧ (Instr.fround (.v 0) (.x 31) 7).wf = true ∧
    (Instr.fround (.v 0) (.x 31) 5).wf = true :=
  ⟨ctx_mode .., by decide +kernel, rfl, ready_of (by decide +kernel), ready_of (by decide +kernel), by decide +kernel, by decide +kernel,
    by decide +kernel⟩

theorem witness_IntegerVector : (on (gangMode 8 0)).ctx = some (ctxM 8 0) ∧ classI (ctxM 8 0).ty = true ∧
    Ready (on (gangMode 8 0)) (ctxM 8 0) [.x 31] [.lat 0, .id .popix] ∧
    (∀ p ∈ integerOps, (p.1 (.x 31) (.lat 0) (.id .popix)).wf = true) ∧ (Instr.iand (.x 31) (.lat 0) (.id .popix)).wf = true :=
  ⟨ctx_mode .., by decide +kernel, ready_of (by decide +kernel), by decide +kernel, by decide +kernel⟩

/-- CVT from FP32 to two FP16, PACK and UNPACK of them, FDOT2. -/
theorem witness_ConversionsAndPacking : (on (gangMode 3 0)).ctx = some (ctxM 3 0) ∧ (ctxM 3 0).g.fptrap = 0 ∧
    dstFor (ctxM 3 0).ty (.v 5) = true ∧ Accept.srcVec (.v 1) = true ∧ Ready (on (gangMode 3 0)) (ctxM 3 0) [.v 5] [.v 1] ∧
    Ready (on (gangMode 3 0)) (ctxM 3 0) [.v 5] [.v 1, .v 2] ∧
    (if (typeElem (ctxM 3 0).ty).2 ≤ (typeElem 10).2 then (1 : BitVec 2).toNat < (typeElem 10).2 / (typeElem (ctxM 3 0).ty).2 else (1 : BitVec 2) = 0) ∧
    (if (typeElem (ctxM 3 0).ty).2 ≤ (typeElem 2).2 then (0 : BitVec 2).toNat < (typeElem 2).2 / (typeElem (ctxM 3 0).ty).2 else (0 : BitVec 2) = 0) ∧
    classP (ctxM 3 0).ty = true ∧ (1 : BitVec 2).toNat < (typeElem (ctxM 3 0).ty).2 ∧ classF (ctxM 3 0).ty = true ∧
    (Instr.fdot2 (.v 5) (.v 1) (.v 2)).wf = true :=
  ⟨ctx_mode .., rfl, by decide +kernel, rfl, ready_of (by decide +kernel), ready_of (by decide +kernel), by decide +kernel, by decide +kernel,
    by decide +kernel, by decide +kernel, by decide +kernel, by decide +kernel⟩

theorem witness_ConversionsAndPacking_req : (on gang0).ctx = some ctx0 ∧ (Instr.req (.v 126) (.v 1) .zero).wf = true ∧
    ctx0.vOk (on gang0) (126 : BitVec 7).toNat 2 = true ∧ Ready (on gang0) ctx0 [.v 126] [.v 1, .zero] ∧ ctx0.g.fptrap = 0 :=
  ⟨ctx_on0, by decide +kernel, by decide +kernel, ready_of (by decide +kernel), rfl⟩

theorem witness_Comparisons : (on (gangMode 0 0)).ctx = some (ctxM 0 0) ∧ (Instr.cmp 9 7 (.s 63) (.imm64 1)).wf = true ∧
    Ready (on (gangMode 0 0)) (ctxM 0 0) [] [.s 63, .imm64 1] ∧ (Instr.icmp 5 6 (.v 0) .zero).wf = true ∧
    Ready (on (gangMode 0 0)) (ctxM 0 0) [] [.v 0, .zero] ∧ classI (ctxM 0 0).ty = true :=
  ⟨ctx_mode .., by decide +kernel, ready_of (by decide +kernel), by decide +kernel, ready_of (by decide +kernel), by decide +kernel⟩

theorem witness_Comparisons_float : (on (gangMode 2 0)).ctx = some (ctxM 2 0) ∧ (Instr.fcmp 7 6 (.v 0) (.lat 3)).wf = true ∧
    classF (ctxM 2 0).ty = true ∧ Ready (on (gangMode 2 0)) (ctxM 2 0) [] [.v 0, .lat 3] ∧ (ctxM 2 0).g.fptrap = 0 :=
  ⟨ctx_mode .., by decide +kernel, by decide +kernel, ready_of (by decide +kernel), rfl⟩

/-- Control values: every thread a member; the functions 0, 3 and 5, a source thread 31. -/
theorem witness_GangWideExchange : (on gang0).ctx = some ctx0 ∧ Accept.gang (.v 127) (.imm64 0x1F03FFFFFFFF) = true ∧
    Ready (on gang0) ctx0 [.v 0] [.v 127] ∧ MembersOk ctx0 (ctx0.val64 (on gang0) (.imm64 0x1F03FFFFFFFF)) ∧
    ((ctx0.val64 (on gang0) (.imm64 0x1F03FFFFFFFF)).extractLsb' 32 4).toNat = 3 ∧ Accept.dstVX (.v 0) = true ∧
    ((ctx0.val64 (on gang0) (.imm64 0x1F00FFFFFFFF)).extractLsb' 32 4).toNat = 0 ∧ Accept.dstVXonly (.v 0) = true ∧
    ((ctx0.val64 (on gang0) (.imm64 0x1F00FFFFFFFF)).extractLsb' 40 6).toNat = 31 ∧ 31 < ctx0.numbering ∧
    ctx0.liveT 31 = true ∧ ctx0.activeT 31 = true :=
  ⟨ctx_on0, rfl, ready_of (by decide +kernel), by unfold MembersOk; decide +kernel, by decide +kernel, rfl, by decide +kernel, rfl,
    by decide +kernel, by decide +kernel, by decide +kernel, by decide +kernel⟩

theorem witness_GangWideReduction : (on (gangMode 2 0)).ctx = some (ctxM 2 0) ∧ Accept.gang (.v 127) (.imm64 0x05FFFFFFFF) = true ∧
    Ready (on (gangMode 2 0)) (ctxM 2 0) [.v 0] [.v 127] ∧ Ready (on (gangMode 2 0)) (ctxM 2 0) [.s 0] [.v 127] ∧
    MembersOk (ctxM 2 0) ((ctxM 2 0).val64 (on (gangMode 2 0)) (.imm64 0x05FFFFFFFF)) ∧
    (((ctxM 2 0).val64 (on (gangMode 2 0)) (.imm64 0x05FFFFFFFF)).extractLsb' 32 4).toNat = 5 ∧ Accept.dstIsS (.v 0) = false ∧
    Accept.dstVX (.v 0) = true ∧ (ctxM 2 0).g.fptrap = 0 ∧ (ctxM 2 0).gate = true :=
  ⟨ctx_mode .., rfl, ready_of (by decide +kernel), ready_of (by decide +kernel), by unfold MembersOk; decide +kernel, by decide +kernel, rfl,
    rfl, rfl, by decide +kernel⟩

/-- A division of 1.0 by 0 with every exception enabled. -/
def gangTrap : Gang := { gangMode 2 0 with fptrap := 0x1F }

theorem witness_ResultTraps : (on gangTrap).ctx = some ⟨is0, gangTrap, stMode 2 0⟩ ∧ (Instr.fdiv (.v 0) (.imm 0x3F800000) .zero).wf = true ∧
    classF (Ctx.mk is0 gangTrap (stMode 2 0)).ty = true ∧
    Ready (on gangTrap) ⟨is0, gangTrap, stMode 2 0⟩ [.v 0] [.imm 0x3F800000, .zero] ∧
    let c : Ctx := ⟨is0, gangTrap, stMode 2 0⟩
    c.active 0 0 = true ∧ (c.elems (on gangTrap) (typeElem c.ty).2 c.fmt.width (decide (c.rnd = 5)) (fun i w => c.round w
      (Fp.exDiv (c.fval (on gangTrap) (.imm 0x3F800000) 0 0 i) (c.fval (on gangTrap) .zero 0 0 i))) 0 0).flags &&& c.g.fptrap ≠ 0 :=
  ⟨ctx_on _ _ _ rfl rfl rfl rfl, by decide +kernel, by decide +kernel, ready_of (by decide +kernel), by decide +kernel⟩

/-- No thread named though all are active. -/
theorem witness_ResultTraps_member : (on gang0).ctx = some ctx0 ∧ Accept.gang (.v 0) .zero = true ∧ Ready (on gang0) ctx0 [.v 0] [.v 0] ∧
    ((List.range ctx0.nthreads).filter fun t => (ctx0.activeT t && !named (ctx0.val64 (on gang0) .zero) t) ||
      (named (ctx0.val64 (on gang0) .zero) t && ctx0.liveT t && !ctx0.activeT t)) ≠ [] ∧
    ((ctx0.val64 (on gang0) .zero).extractLsb' 32 4).toNat < 4 :=
  ⟨ctx_on0, rfl, ready_of (by decide +kernel), by decide +kernel, by decide +kernel⟩

/-! ## Witnesses: control flow -/

/-- A gang and its context, its strand being `st`. -/
def gangOf (g : Gang) (st : Strand) : Gang := { g with strands := [st] }
theorem ctx_of (g : Gang) (st : Strand) (h0 : g.gid = 0) (hk : st.slices = [0, 1, 2, 3, 4, 5, 6, 7]) :
    (on (gangOf g st)).ctx = some ⟨is0, gangOf g st, st⟩ := by
  refine ctx_on _ _ _ rfl rfl h0 ?_
  simp [Gang.strand?, gangOf, hk]

/-- p0 true in lane 0 of every slice only. -/
def gangLane : Gang := { gang0 with slices := gang0.slices.map fun sl => { sl with threads := mapI (fun j t => { t with p := if j = 0 then 1 else 0 }) 0 sl.threads } }

/-- And a mask stack of 255 entries in slice 0. -/
def gangDeep : Gang := { gangLane with slices := mapI (fun k sl =>
  if k = 0 then { sl with stack := List.replicate 255 { reconv := true, pc := 0, pm := 0, fm := 0xF, depth := 0 } } else sl) 0 gangLane.slices }

/-- BP p0 takes lane 0 of each slice, and its target is no offender where no line can be fetched. -/
theorem witness_BranchTransfers : (on (gangOf gangLane st0)).ctx = some ⟨is0, gangOf gangLane st0, st0⟩ ∧
    (∃ target cond, branchOf (on (gangOf gangLane st0)) ⟨is0, gangOf gangLane st0, st0⟩ (.bp 0 0x80) = some (target, cond) ∧
      (∃ k ∈ st0.slices, ∃ j ∈ lanes4, takes ⟨is0, gangOf gangLane st0, st0⟩ cond k j = true) ∧
      slicePasses ⟨is0, gangOf gangLane st0, st0⟩ cond 0 = false ∧
      ((on (gangOf gangLane st0)).badTarget (gangOf gangLane st0) target false).2 = false) ∧
    (Instr.bp 0 0x80).wf = true ∧ Ready (on (gangOf gangLane st0)) ⟨is0, gangOf gangLane st0, st0⟩ [] [] ∧
    ∀ k ∈ st0.slices, ((gangOf gangLane st0).slice k).stack.length < 255 :=
  ⟨ctx_of _ _ rfl rfl, ⟨_, _, rfl, by decide +kernel, by decide +kernel, by decide +kernel⟩, by decide +kernel, ready_of (by decide +kernel),
    by decide +kernel⟩

/-- JMPI to an address that is no multiple of 4; compare-and-branch of 64-bit operands. -/
theorem witness_BranchTransfers_target : (on gang0).ctx = some ctx0 ∧ (∃ target cond, branchOf (on gang0) ctx0 (.jmpi (.imm64 2)) = some (target, cond) ∧
      (∃ k ∈ st0.slices, ∃ j ∈ lanes4, takes ctx0 cond k j = true) ∧ ((on gang0).badTarget gang0 target false).2 = true) ∧
    (Instr.jmpi (.imm64 2)).wf = true ∧ ∀ i ∈ [Instr.br 0, .beq .zero .zero 0, .bne (.s 1) .zero 0, .blt (.x 1) (.imm64 1) 4,
      .bge .zero .zero 4, .bltu (.lat 3) (.imm 1) 4, .bgeu .zero .zero 4],
      i.wf = true ∧ (branchOf (on gang0) ctx0 i).isSome = true ∧
      (((branchSrcs i).all (ctx0.srcOk (on gang0)) && decide (ctx0.badLatch (branchSrcs i) = none)) = true) :=
  ⟨ctx_on0, ⟨_, _, rfl, by decide +kernel, by decide +kernel⟩, by decide +kernel, by decide +kernel⟩

/-- A slice that splits where its mask stack is full. -/
theorem witness_BranchTransfers_depth : (on (gangOf gangDeep st0)).ctx = some ⟨is0, gangOf gangDeep st0, st0⟩ ∧
    ∃ target cond, branchOf (on (gangOf gangDeep st0)) ⟨is0, gangOf gangDeep st0, st0⟩ (.bp 0 0x80) = some (target, cond) ∧
      ((on (gangOf gangDeep st0)).badTarget (gangOf gangDeep st0) target false).2 = false ∧
      (lanes4.any fun j => takes ⟨is0, gangOf gangDeep st0, st0⟩ cond 0 j) = true ∧
      slicePasses ⟨is0, gangOf gangDeep st0, st0⟩ cond 0 = false ∧ 255 ≤ ((gangOf gangDeep st0).slice 0).stack.length :=
  ⟨ctx_of _ _ rfl rfl, _, _, rfl, by decide +kernel, by decide +kernel, by decide +kernel, by decide +kernel⟩

/-- Every thread compares alike: a transfer that the whole gang takes, and one in which it stays, narrow the rimes. -/
theorem witness_BranchTransfers_narrow : (on gang0).ctx = some ctx0 ∧ ctx0.g.liveSlices ≠ [] ∧ (∀ k ∈ ctx0.st.slices, k ∈ ctx0.g.liveSlices) ∧
    (∃ target cond, branchOf (on gang0) ctx0 (.beq (.x 0) (.s 3) 0x80) = some (target, cond) ∧ Uniform ctx0 cond 7 ∧ OneWay ctx0 cond true ∧
      ((on gang0).badTarget gang0 target false).2 = false ∧ (∀ k ∈ st0.slices, sliceSplits ctx0 cond k = false)) ∧
    (∃ target cond, branchOf (on gang0) ctx0 (.bltu (.s 3) (.x 0) 0x80) = some (target, cond) ∧ Uniform ctx0 cond 0 ∧ OneWay ctx0 cond false) ∧
    ∃ target cond, branchOf (on gang0) ctx0 (.beq (.id .lane) .zero 0x80) = some (target, cond) ∧ ¬Uniform ctx0 cond 0 ∧
      sliceSplits ctx0 cond 0 = true ∧ ¬OneWay ctx0 cond true ∧ ¬OneWay ctx0 cond false := by
  refine ⟨ctx_on0, by decide +kernel, by decide +kernel, ⟨_, _, rfl, ?_, ?_, by decide +kernel, by decide +kernel⟩, ⟨_, _, rfl, ?_, ?_⟩,
    ⟨_, _, rfl, ?_, by decide +kernel, ?_, ?_⟩⟩ <;> simp only [OneWay, Uniform] <;> decide +kernel

/-- p0 true in slice 0 alone: BP p0 parts the strand. -/
def gangPart : Gang := { gang0 with slices := mapI (fun k sl => { sl with threads := sl.threads.map fun t => { t with p := if k = 0 then 1 else 0 } }) 0 gang0.slices }

theorem witness_BranchTransfers_parts : (on (gangOf gangPart st0)).ctx = some ⟨is0, gangOf gangPart st0, st0⟩ ∧
    ∃ target cond, branchOf (on (gangOf gangPart st0)) ⟨is0, gangOf gangPart st0, st0⟩ (.bp 0 0x80) = some (target, cond) ∧
      st0.slices.filter (slicePasses ⟨is0, gangOf gangPart st0, st0⟩ cond) = [0] ∧
      (∀ k ∈ st0.slices, sliceSplits ⟨is0, gangOf gangPart st0, st0⟩ cond k = false) ∧
      ((on (gangOf gangPart st0)).badTarget (gangOf gangPart st0) target false).2 = false :=
  ⟨ctx_of _ _ rfl rfl, _, _, rfl, by decide +kernel, by decide +kernel, by decide +kernel⟩

def stRet : Strand := { st0 with ret := [0x10010] }

theorem witness_CallAndReturn : (on gang0).ctx = some ctx0 ∧ (0xFFFFFFFC : W32).toNat % 4 = 0 ∧ ctx0.gate = true ∧
    ((on gang0).badTarget gang0 (ctx0.offsetTarget 0xFFFFFFFC) true).2 = false ∧ ctx0.st.ret.length < 255 ∧
    (on gangOff).ctx = some ⟨is0, gangOff, stOff⟩ ∧ (Ctx.mk is0 gangOff stOff).gate = false ∧ stOff.wait = .none ∧
    (on (gangOf gang0 stRet)).ctx = some ⟨is0, gangOf gang0 stRet, stRet⟩ ∧ (Ctx.mk is0 (gangOf gang0 stRet) stRet).gate = true ∧
    stRet.wait = .none ∧ heldAtDepth (gangOf gang0 stRet) stRet = [] ∧ stRet.ret = 0x10010 :: [] :=
  ⟨ctx_on0, by decide, by decide +kernel, by decide +kernel, by decide, ctx_off, by decide +kernel, rfl, ctx_of _ _ rfl rfl, by decide +kernel, rfl,
    by decide +kernel, rfl⟩

def sliceWith (e : MaskEntry) : Slice := { gang0.slice 0 with stack := [e] }
def pend : MaskEntry := { reconv := false, pc := 0x20010, pm := 0x8, fm := 0xF, depth := 0 }
def recon : MaskEntry := { reconv := true, pc := 0x10010, pm := 0, fm := 0xF, depth := 0 }

theorem witness_JoinMeets : (sliceWith pend).stack = pend :: [] ∧ pend.depth = 0 ∧ pend.reconv = false ∧
    pend.pm &&& (sliceWith pend).liveMask ≠ 0 ∧ (sliceWith recon).stack = recon :: [] ∧ recon.depth = 0 ∧ recon.reconv = true ∧
    recon.pc = 0x10010 ∧ recon.pc ≠ 0x10014 ∧ recon.fm &&& (sliceWith recon).liveMask ≠ 0 ∧
    (sliceWith recon).mask &&& (sliceWith recon).liveMask ≠ 0 := by decide +kernel

/-- A gang of two strands at one JOIN: slices 0 to 3 issue, slices 4 to 7 are `x`; slice 0 has the mask stack `e`. -/
def stHalf : Strand := { st0 with slices := [0, 1, 2, 3] }
def gangHalves (e : List MaskEntry) (x : Strand) : Gang := { gang0 with
  slices := mapI (fun k sl => if k = 0 then { sl with stack := e } else sl) 0 gang0.slices, strands := [stHalf, x] }
def stWaits : Strand := { st0 with slices := [4, 5, 6, 7], wait := .meet, mode := 0x207800 }

/-- Slice 0 leaves for a pending path; another strand is elsewhere; all meet. -/
theorem witness_JoinMeets_rows : (on (wait0 .met)).ctx = some (ctxW .met) ∧ (ctxW .met).st.wait = .met ∧
    (∀ p ∈ [([pend], stWaits), ([], { stWaits with wait := .none }), ([recon], stWaits)],
      (on (gangHalves p.1 p.2)).ctx = some ⟨is0, gangHalves p.1 p.2, stHalf⟩ ∧
      let c : Ctx := ⟨is0, gangHalves p.1 p.2, stHalf⟩
      c.st.wait = .none ∧ c.g.handler = none ∧ c.st.slices ≠ [] ∧ (∀ x ∈ otherStrands c, x.wait ≠ .met) ∧
      ∀ k ∈ c.st.slices, k < c.g.slices.length ∧ (joinRow (c.g.slice k) c.is.pc c.st.ret.length).1.mask &&& (c.g.slice k).liveMask ≠ 0) ∧
    (joinRow ((gangHalves [pend] stWaits).slice 0) 0x10008 0).2.isSome = true ∧
    (∃ x ∈ otherStrands ⟨is0, gangHalves [] { stWaits with wait := .none }, stHalf⟩, x.wait ≠ .meet ∧ x.wait ≠ .resume) ∧
    (∀ k ∈ stHalf.slices, (joinRow ((gangHalves [recon] stWaits).slice k) 0x10008 0).2 = none) ∧
    ∀ x ∈ otherStrands ⟨is0, gangHalves [recon] stWaits, stHalf⟩, x.wait = .meet ∧ x.pc = 0x10008 ∧ x.ret = [] :=
  ⟨ctx_wait _, rfl, by decide +kernel, by decide +kernel, by decide +kernel, by decide +kernel, by decide +kernel⟩

/-- Guard p0, true in lane 0 of each slice: every slice keeps three threads. -/
def stP0 : Strand := { st0 with mode := 0 }

theorem witness_ExitEndsThreads : (on gangOff).ctx = some ⟨is0, gangOff, stOff⟩ ∧ (Ctx.mk is0 gangOff stOff).gate = false ∧
    (on (gangOf gangLane stP0)).ctx = some ⟨is0, gangOf gangLane stP0, stP0⟩ ∧
    let c : Ctx := ⟨is0, gangOf gangLane stP0, stP0⟩
    c.gate = true ∧ c.g.handler = none ∧ c.st.wait = .none ∧ c.st.slices ≠ [] ∧ (∀ x ∈ c.g.strands, x.wait ≠ .meet ∧ x.wait ≠ .resume) ∧
    ∀ k ∈ c.st.slices, ∃ j ∈ lanes4, c.enabled k j = true ∧ c.active k j = false :=
  ⟨ctx_off, by decide +kernel, ctx_of _ _ rfl rfl, by decide +kernel⟩

/-- Lanes 0 to 2 of each slice run; slice 0 has a pending path of lane 3, slice 1 a waiting one, slice 2 nothing and only
three live threads. -/
def gangRows : Gang := { gang0 with slices := mapI (fun k sl => { sl with
  mask := 0x7
  stack := if k = 0 then [pend] else if k = 1 then [{ recon with fm := 0xF }] else []
  threads := if k = 2 then mapI (fun j t => { t with live := decide (j ≠ 3) }) 0 sl.threads else sl.threads }) 0 gang0.slices }

theorem witness_ExitEndsThreads_rows : (on (gangOf gangRows st0)).ctx = some ⟨is0, gangOf gangRows st0, st0⟩ ∧
    let c : Ctx := ⟨is0, gangOf gangRows st0, st0⟩
    c.gate = true ∧ c.g.handler = none ∧ c.st.wait = .none ∧ (∀ k ∈ c.st.slices, k < c.g.slices.length) ∧
    (∀ k ∈ [0, 1, 2], (c.g.slice k).mask &&& leftLive c k = 0) ∧ exitRow (leftLive c 0) (c.g.slice 0).stack = some (pend, 8, []) ∧
    (exitRow (leftLive c 1) (c.g.slice 1).stack).map (fun x => (x.1.reconv, x.2.1)) = some (true, 8) ∧
    exitRow (leftLive c 2) (c.g.slice 2).stack = none ∧ (c.g.thread 0 3).live = true ∧ ¬(0 ∈ c.st.slices ∧ c.active 0 3 = true) :=
  ⟨ctx_of _ _ rfl rfl, by decide +kernel⟩

/-- Guard p0 of each slice's lane 0: the slices keep three threads. -/
theorem witness_ExitEndsThreads_stays :
    let c : Ctx := ⟨is0, gangOf gangLane stP0, stP0⟩
    (∀ k ∈ c.st.slices, k < c.g.slices.length) ∧ (∀ k ∈ c.st.slices, (c.g.slice k).mask &&& leftLive c k ≠ 0) ∧
    (c.g.thread 0 1).live = true ∧ c.active 0 1 = false := by decide +kernel

/-- SLEEP whose deadline is now, SLEEP of 0 and of 5 cycles; the token held by another gang, by none. -/
theorem witness_YieldSleepPasspri : (on (wait0 (.sleep 0 0x1000C))).ctx = some (ctxW (.sleep 0 0x1000C)) ∧
    (0 : Nat) ≤ (on (wait0 (.sleep 0 0x1000C))).cycleOf 0 ∧ (on gang0).ctx = some ctx0 ∧ Accept.srcSZ .zero = true ∧ Accept.srcSZ (.imm 5) = true ∧
    ctx0.st.wait = .none ∧ ctx0.gate = true ∧ ((ctx0.val64 (on gang0) .zero).extractLsb' 0 32).toNat = 0 ∧
    ((ctx0.val64 (on gang0) (.imm 5)).extractLsb' 0 32).toNat ≠ 0 ∧ Sparse.get 0 (on gang0).token (tokenKey 0 0) = 0 ∧
    ({ on gang0 with token := [(tokenKey 0 0, 6)] } : State).ctx = some ctx0 ∧
    Sparse.get 0 ({ on gang0 with token := [(tokenKey 0 0, 6)] } : State).token (tokenKey 0 0) ≠ ctx0.g.gid + 1 ∧
    ((on gang0).gangs.find? fun x => decide (x.grid = ctx0.g.grid) && decide (x.team = ctx0.g.team) && decide (x.g = 0) && x.isLive &&
      decide (x.core = ctx0.g.core) && decide (x.part = ctx0.g.part)) = some gang0 :=
  ⟨ctx_wait _, by decide +kernel, ctx_on0, rfl, rfl, rfl, by decide +kernel, by decide +kernel, by decide +kernel, by decide +kernel,
    ctx_on _ _ _ rfl rfl rfl rfl, by decide +kernel, by rfl⟩

theorem witness_FencesAndPrefetch : (on gang0).ctx = some ctx0 ∧ (4 : BitVec 3).toNat ≤ 4 ∧ 1 ≤ (4 : BitVec 3).toNat ∧
    ctx0.g.heatPending = false ∧ (∀ a ∈ ctx0.g.accesses, ∀ k ∈ a.slices, k ∉ ctx0.st.slices) ∧ (∀ a ∈ ctx0.g.accesses, a.load = true) ∧
    ctx0.gate = true := ⟨ctx_on0, by decide, by decide, by decide +kernel, by decide +kernel, by decide +kernel, by decide +kernel⟩

/-- A store in flight of the strand's slice 0. -/
def storing : Access := { id := 4, load := false, slices := [0], scope := 3, release := false, seen := none, writes := [⟨.scratch 7 0, 9, 0⟩], counted := 0 }
def gangStore : Gang := { gang0 with accesses := [storing] }
theorem witness_FencesAndPrefetch_waits : (on gangStore).ctx = some ⟨is0, gangStore, st0⟩ ∧ (Ctx.mk is0 gangStore st0).gate = true ∧
    (∃ a ∈ gangStore.accesses, ∃ k ∈ a.slices, k ∈ st0.slices) ∧ (∃ a ∈ gangStore.accesses, a.load = false) ∧
    (on gangOff).ctx = some ⟨is0, gangOff, stOff⟩ ∧ (Ctx.mk is0 gangOff stOff).gate = false :=
  ⟨ctx_on _ _ _ rfl rfl rfl rfl, by decide +kernel, by decide +kernel, by decide +kernel, ctx_off, by decide +kernel⟩

/-! ## Witnesses: barriers -/

/-- A team whose barrier 3 has completed one phase; a grid that runs a population. -/
def teamBar : Team := { team0 with barriers := [(3, { Barrier.fresh with c := 1 })] }
def pop0 : Population :=
  { slots := 64, round := 0, phase := .idle, lastN := 0, lastParents := 0, lastW := 0, arrivals := [], releasing := [], short := [] }
def gridPop : Grid := { grid0 with pop := some pop0 }
def onBar : State := { on (wait0 .met) with teams := [teamBar], grids := [gridPop] }

theorem witness_BarriersComplete : onBar.ctx = some (ctxW .met) ∧ (ctxW .met).st.wait = .met ∧ (ctxW .met).g.accesses = [] ∧
    (1 : BitVec 6).toNat ≤ 32 ∧ onBar.team? 1 0 = some teamBar ∧ onBar.grid? 1 = some gridPop ∧
    (((teamBar.barrier 2).arrive 0 1 ((onBar.setGang (ctxW .met).g).liveInTeam 1 0)).pass 0).isSome = true ∧
    (((teamBar.barrier 2).arrive 0 0 ((onBar.setGang (ctxW .met).g).liveInTeam 1 0)).pass 0).isSome = true ∧
    ((teamBar.barrier 3).pass 0).isSome = true ∧ gridPop.pop.isSome = true ∧
    ((gridPop.barrier.arrive 0 0 ((onBar.setGang (ctxW .met).g).liveGids 1)).pass 0).isSome = true ∧
    ((onBar.setGang (ctxW .met).g).liveInTeam 1 0).all (fun x => decide (x ∈ [0])) = true ∧
    (((gridPop.cbar 15).arrive 0 0 (((onBar.setGang (ctxW .met).g).liveTeams 1).filter fun x => decide (x / 1 = 0 / 1))).pass 0).isSome = true :=
  ⟨ctx_on _ _ _ rfl rfl rfl rfl, rfl, rfl, by decide, rfl, rfl, by decide +kernel, by decide +kernel, by decide +kernel, rfl, by decide +kernel,
    by decide +kernel, by decide +kernel⟩

/-- The arrival that makes the count and the one that does not; C and E at the ends of their range. -/
theorem witness_BarriersComplete_phase : (0 < 2 ∧ 2 ≤ (({ Barrier.fresh with arr := 1 } : Barrier).arr + 1) % 2 ^ 6) ∧
    ¬(2 ≤ (Barrier.fresh.arr + 1) % 2 ^ 6) ∧ Sparse.get 1 ({ Barrier.fresh with e := [(0, 65535)] } : Barrier).e 0 = 65535 ∧ 65535 < 2 ^ 16 ∧
    Barrier.fresh.c < 2 ^ 16 := by decide +kernel

/-! ## Witnesses: traps -/

theorem witness_TrapInstruction : (on gang0).ctx = some ctx0 ∧ Accept.srcSZ64 (.imm 0x80000000) = true ∧ Ready (on gang0) ctx0 [] [] ∧
    (∃ k ∈ ctx0.st.slices, ∃ j, j < 4 ∧ ctx0.active k j = true) ∧ (on gangOff).ctx = some ⟨is0, gangOff, stOff⟩ ∧
    ¬∃ k ∈ stOff.slices, ∃ j, j < 4 ∧ (Ctx.mk is0 gangOff stOff).active k j = true :=
  ⟨ctx_on0, rfl, ready_of (by decide +kernel), ⟨0, by decide, 0, by decide, by decide +kernel⟩, ctx_off, fun ⟨k, hk, j, hj, h⟩ =>
    have all : ∀ k ∈ stOff.slices, ∀ j, j < 4 → (Ctx.mk is0 gangOff stOff).active k j = false := by decide +kernel
    Bool.noConfusion ((all k hk j hj).symm.trans h)⟩

theorem witness_BreakInstruction : (on gang0).ctx = some ctx0 ∧ (∃ k ∈ ctx0.st.slices, ∃ j, j < 4 ∧ ctx0.active k j = true) ∧
    (on gangOff).ctx = some ⟨is0, gangOff, stOff⟩ ∧ ¬∃ k ∈ stOff.slices, ∃ j, j < 4 ∧ (Ctx.mk is0 gangOff stOff).active k j = true :=
  ⟨witness_TrapInstruction.1, witness_TrapInstruction.2.2.2.1, witness_TrapInstruction.2.2.2.2.1, witness_TrapInstruction.2.2.2.2.2⟩

def gangVec : Gang := { gang0 with trap := { gang0.trap with tvec := 0x10009 } }
def gangIn : Gang := { gangVec with trap := { gangVec.trap with tcause := 0x800000000000000A } }
def args0 : TrapArgs := { cause := 15, tmask := 1, taddr := 2 }

theorem witness_TrapEntry : (on gangVec).ctx = some ⟨is0, gangVec, st0⟩ ∧ args0.words = none ∧ args0.cause < 256 ∧
    gangVec.trap.tcause.getLsbD 63 = false ∧ gangVec.trap.tvec.getLsbD 0 = true ∧
    (on gangIn).ctx = some ⟨is0, gangIn, st0⟩ ∧ gangIn.trap.tcause.getLsbD 63 = true ∧
    (on gang0).ctx = some ctx0 ∧ gang0.trap.tvec.getLsbD 0 = false :=
  ⟨ctx_on _ _ _ rfl rfl rfl rfl, rfl, by decide, by decide, by decide, ctx_on _ _ _ rfl rfl rfl rfl, by decide, ctx_on0, by decide⟩

def gangCold : Gang := startGang grid0 0 0 0 0 0 [] 0

theorem witness_EncodingAndLatch : (on (gangOf gangCold st0)).ctx = some ⟨is0, gangOf gangCold st0, st0⟩ ∧
    ∀ p ∈ indexOps ++ bitOps, (p.1 (.v 0) .zero .zero).accepts = false ∧ (p.1 (.x 0) (.lat 3) .zero).accepts = true ∧
      Ctx.dstOk (on (gangOf gangCold st0)) ⟨is0, gangOf gangCold st0, st0⟩ (.x 0) = true ∧
      Ctx.srcOk (on (gangOf gangCold st0)) ⟨is0, gangOf gangCold st0, st0⟩ .zero = true ∧
      ∃ k ∈ st0.slices, ((gangOf gangCold st0).slice k).latValid ≤ (3 : BitVec 2).toNat :=
  ⟨ctx_of _ _ rfl rfl, by decide +kernel⟩

/-- Fields and operands that no entry takes, at instructions of several rows; an undeclared register; a latch not yet valid. -/
def smallGrid : Grid := { grid0 with tmpl := { placedTemplate with vregs := 4, xregs := 2 } }
def onSmall (g : Gang) : State := { on g with grids := [smallGrid] }

theorem witness_EncodingAndLatch_all : (on gang0).ctx = some ctx0 ∧ (∀ i ∈ [Instr.mode 11 0 0 7 0, .fpctl (.v 1) 0, .br 2, .fadd (.x 0) (.v 0) (.v 0),
      .mov (.s 0) (.v 0), .ld (.v 0) (.v 1) 0 ⟨0, 0, 0, 0, 2, 0⟩, .launch (.v 0) .zero (.s 0), .ring (.v 0)], i.accepts = false) ∧
    (onSmall gang0).ctx = some ctx0 ∧ ctx0.dstOk (onSmall gang0) (.v 4) = false ∧ ctx0.srcOk (onSmall gang0) (.x 2) = false ∧
    (∃ p ∈ (exactOps.take 5), (p.1 (.v 0) (.lat 3) (.lat 0)).accepts = true ∧ classF 2 = true) ∧
    ∃ p ∈ integerOps, (p.1 (.v 0) (.v 1) (.lat 3)).accepts = true ∧ classI 8 = true :=
  ⟨ctx_on0, by decide +kernel, ctx_on _ _ _ rfl rfl rfl rfl, by decide +kernel, by decide +kernel,
    ⟨(.fadd, fun r a b _ => Fp.exAdd r a b), by simp [exactOps], rfl, rfl⟩, ⟨(.iadd, true, fun _ a b _ => a + b), by simp [integerOps], rfl, rfl⟩⟩

theorem witness_SystemCall : (on gang0).ctx = some ctx0 ∧ (Instr.sysc (.s 63) (.imm64 1) 255).wf = true ∧ Ready (on gang0) ctx0 [] [] ∧
    ctx0.g.accesses = [] ∧ ctx0.gate = true ∧ (on gangOff).ctx = some ⟨is0, gangOff, stOff⟩ ∧ (Ctx.mk is0 gangOff stOff).gate = false ∧
    Ready (on gangOff) ⟨is0, gangOff, stOff⟩ [] [] :=
  ⟨ctx_on0, by decide +kernel, ready_of (by decide +kernel), rfl, by decide +kernel, ctx_off, by decide +kernel, ready_of (by decide +kernel)⟩

theorem witness_SystemCall_inFlight : (on gangStore).ctx = some ⟨is0, gangStore, st0⟩ ∧ (Ctx.mk is0 gangStore st0).gate = true ∧
    gangStore.accesses ≠ [] ∧ Ready (on gangStore) ⟨is0, gangStore, st0⟩ [] [] ∧ ∃ k ∈ storing.slices, k < gangStore.slices.length :=
  ⟨ctx_on _ _ _ rfl rfl rfl rfl, by decide +kernel, by decide +kernel, ready_of (by decide +kernel), by decide +kernel⟩

/-- A gang in a handler of the cause LINE, whose strand has met; TPC is the address of the trapped instruction. -/
def handler0 : HandlerCtx :=
  { mode := 0x207000, retDepth := 0, saved := [{ slice := 0, mask := 0x3, depth := 0, latches := [(1, 2, 3, 4)], latValid := 2 }]
    shifted := false }
def gangH (cause : W64) (w : Wait) : Gang := { wait0 w with
  trap := { gang0.trap with tvec := 0x10009, tcause := 0x8000000000000000#64 ||| cause, tpc := 0x10008, tword := 0x2F9FFFFF, tmask := 0xFF }, handler := some handler0 }
theorem ctx_handler (cause : W64) (w : Wait) : (on (gangH cause w)).ctx = some ⟨is0, gangH cause w, { st0 with wait := w }⟩ :=
  ctx_on _ _ _ rfl rfl rfl rfl

theorem witness_ResumeReturns : (on (gangH 12 .met)).ctx = some ⟨is0, gangH 12 .met, { st0 with wait := .met }⟩ ∧ st0.held = false ∧
    (gangH 12 .met).handler = some handler0 ∧ (gangH 12 .met).trap.tpc.toNat = 0x10008 ∧
    (Ctx.skipTarget (on (gangH 12 .met)) ⟨is0, gangH 12 .met, { st0 with wait := .met }⟩).2 = 0x10088 ∧
    (∀ v ∈ handler0.saved, (∀ w ∈ handler0.saved, w.slice = v.slice → w = v) ∧ v.slice < (gangH 12 .met).slices.length ∧
      ((gangH 12 .met).slice v.slice).isLive = true) ∧ 0 < (handler0.saved.headD ⟨0, 0, 0, [], 0⟩).latches.length :=
  ⟨ctx_handler .., rfl, rfl, by decide +kernel, by rfl, by decide +kernel, by decide⟩

/-- A gang in a handler of an instruction whose words are `tw`. -/
def gangTw (tw : W64) : Gang := { gangH 10 .none with trap := { (gangH 10 .none).trap with tword := tw } }
def ctxTw (tw : W64) : Ctx := ⟨is0, gangTw tw, st0⟩
theorem ctx_tw (tw : W64) : (onSmall (gangTw tw)).ctx = some (ctxTw tw) := ctx_on _ _ _ rfl rfl rfl rfl

/-- The opcode and D of a TWORD are these. -/
def twIs (tw : W64) (op d : Nat) : Bool := decide (tw.toNat / 2 ^ 24 % 256 = op) && decide (tw.toNat / 2 ^ 16 % 256 = d)

/-- No destination; predicate p2 of CMP; v9, of four declared; v3 of one, v0 with ELEM 1 of two; x3 of two declared, x1; s9; 0xE0. -/
theorem witness_TrapWrite : (∀ tw, (onSmall (gangTw tw)).ctx = some (ctxTw tw)) ∧ (Instr.twr (.v 3) 1).wf = true ∧ st0.held = false ∧
    (∀ tw, (ctxTw tw).g.handler = some handler0 ∧ (ctxTw tw).g.trap.tword = tw) ∧ Ready (onSmall (gangTw 0)) (ctxTw 0) [] [.v 3] ∧
    Accept.srcSZ (.imm 5) = true ∧ (twIs 0x10000000 0x10 0 && decide (0x10 ∉ writtenD) && decide (0x10 ∉ [0x30, 0x49, 0x67])) = true ∧
    twIs 0x30020000 0x30 2 = true ∧ (twIs 0x40090000 0x40 9 && !(ctxTw 0).vOk (onSmall (gangTw 0)) 9 1) = true ∧
    (twIs 0x40030000 0x40 3 && decide (destCount 0x40030000 ≤ 1)) = true ∧
    (twIs 0x59000000 0x59 0 && decide (1 < destCount 0x59000000) && (ctxTw 0).vOk (onSmall (gangTw 0)) 1 1) = true ∧
    (twIs 0x20830000 0x20 0x83 && !(ctxTw 0).xOk (onSmall (gangTw 0)) 3) = true ∧
    (twIs 0x20810000 0x20 0x81 && (ctxTw 0).xOk (onSmall (gangTw 0)) 1) = true ∧ twIs 0x20A90000 0x20 0xA9 = true ∧ twIs 0x20E00000 0x20 0xE0 = true ∧
    ∀ op ∈ [0x40, 0x59, 0x20], op ∈ writtenD :=
  ⟨ctx_tw, by decide +kernel, rfl, fun _ => ⟨rfl, rfl⟩, ready_of (by decide +kernel), rfl, by decide +kernel, by decide +kernel, by decide +kernel,
    by decide +kernel, by decide +kernel, by decide +kernel, by decide +kernel, by decide +kernel, by decide +kernel, by decide +kernel⟩

/-! ## Witnesses: memory -/

/-- An array register: 16 elements of 4 bytes of `space` from `base`, TRAP, writable (06 R161). -/
def arrayImage (space base : Nat) : W128 := BitVec.ofNat 128 (2 ^ 88 * 16 + 2 ^ 85 * space + 2 ^ 82 * 2 + 2 ^ 81 + 2 ^ 80 + base)

/-- One active thread, lane 0 of slice 0; a5 is scratch, a6 device memory. -/
def gangOne : Gang := { gang0 with
  slices := mapI (fun k sl => { sl with threads := mapI (fun j t => { t with p := if k = 0 ∧ j = 0 then 1 else 0 }) 0 sl.threads }) 0 gang0.slices
  a := [(5, arrayImage 1 0), (6, arrayImage 4 0x10100)], strands := [stP0] }
def ctxOne : Ctx := ⟨is0, gangOne, stP0⟩

/-- With the placed tables and code page in memory: virtual addresses 0x10000 to 0x1FFFF are mapped. -/
def onMem (g : Gang) : State := { on g with mem := (State.reset.placeMemory [0]).mem }
theorem ctx_one : (onMem gangOne).ctx = some ctxOne := ctx_on _ _ _ rfl rfl rfl rfl

def isGo (p : Prep) (lanes : List LaneAddr) (off : List (Nat × Nat)) : Bool :=
  match p with
  | .go l o => decide (l = lanes ∧ o = off)
  | .stop _ => false

theorem go_of {p : Prep} {lanes : List LaneAddr} {off : List (Nat × Nat)} (h : isGo p lanes off = true) : p = .go lanes off := by
  cases p
  · cases h
  · obtain ⟨rfl, rfl⟩ := of_decide_eq_true h; rfl

def placed {α : Type} (r : Except Fail (State × List α)) : State × List α :=
  match r with
  | .ok x => x
  | .error _ => (State.reset, [])

def isOk {α : Type} (r : Except Fail α) : Bool :=
  match r with
  | .ok _ => true
  | .error _ => false

theorem placed_ok {α : Type} {r : Except Fail (State × List α)} (h : isOk r = true) : r = .ok ((placed r).1, (placed r).2) := by
  cases r
  · cases h
  · rfl

def lane0 (addr : Nat) : LaneAddr := { k := 0, j := 0, addr := addr }

theorem located_of {s : State} {c : Ctx} {arr : BitVec 4} {a : Src} {w : AccWord} {p : Path} {rd wr waits : Bool} {spaces : List Nat}
    {l : LaneAddr} (h : isGo (c.prepSized s (c.arr arr) a w wr false spaces) [l] [] = true) :
    let r := s.places c.g (c.arr arr).space (bytesOf w) rd wr [l]
    (c.gate && isOk r && (!waits || ((placed r).1.emptyLanes (placed r).2).isEmpty) && !(placed r).1.anyRemote (placed r).2 &&
      (c.refresh (placed r).1).room p && ((placed r).1.gang? c.g.gid).isSome && decide (c.st.wait ≠ .lost ∧ c.st.wait ≠ .homeReset)) = true →
    Located s c arr a w p rd wr waits spaces (placed r).1 [l] [] (placed r).2 := by
  intro r hr
  simp only [Bool.and_eq_true, Bool.or_eq_true, Bool.not_eq_true', decide_eq_true_eq, List.isEmpty_iff] at hr
  obtain ⟨⟨⟨⟨⟨⟨hg, ho⟩, hw⟩, hn⟩, hroom⟩, ht⟩, hl⟩ := hr
  refine ⟨hg, ?_, placed_ok ho, ?_, hn, hroom, ht, hl⟩
  · rw [go_of h]; exact ⟨rfl, rfl⟩
  · rintro rfl; simpa using hw

/-- The places that the one lane's access comes to, in scratch (arr 5) or device memory (arr 6). -/
def reach (arr : BitVec 4) (n : Nat) (rd wr : Bool) (addr : Nat) : State × List LanePlaces :=
  placed ((onMem gangOne).places gangOne (ctxOne.arr arr).space n rd wr [lane0 addr])

theorem witness_LoadResult : (onMem gangOne).ctx = some ctxOne ∧ (Instr.ld (.v 127) .zero 6 word4).wf = true ∧
    ctxOne.rangeOk (onMem gangOne) (.v 127) (Accept.regsOf 2) = true ∧ Ready (onMem gangOne) ctxOne [.v 127] [.zero] ∧
    Located (onMem gangOne) ctxOne 6 .zero word4 .ld true false true allSpaces (reach 6 4 true false 0x10100).1 [lane0 0x10100] []
      (reach 6 4 true false 0x10100).2 ∧ (reach 6 4 true false 0x10100).2 ≠ [] :=
  ⟨ctx_one, by decide +kernel, by decide +kernel, ready_of (by decide +kernel), located_of (by decide +kernel) (by decide +kernel), by decide +kernel⟩

/-- A load beyond the last element of an array in MASK mode: the lane offends. -/
def gangMask : Gang := { gangOne with a := [(5, arrayImage 1 0 - BitVec.ofNat 128 (2 ^ 81))] }

theorem witness_LoadResult_mask : isGo (Ctx.prepSized (onMem gangMask) ⟨is0, gangMask, stP0⟩ ((Ctx.mk is0 gangMask stP0).arr 5) (.imm 16) word4
    false false allSpaces) [] [(0, 0)] = true := by decide +kernel

theorem witness_LoadVariants : (onMem gangOne).ctx = some ctxOne ∧ ctxOne.rangeOk (onMem gangOne) (.v 0) (Accept.regsOf 2) = true ∧
    Ready (onMem gangOne) ctxOne [.v 0] [.zero] ∧ (reach 6 4 true false 0x10100).2 ≠ [] ∧
    (ctxOne.refresh (reach 6 4 true false 0x10100).1).g.accesses = [] ∧
    (Instr.ldx (.v 0) .zero 6 word4).wf = true ∧ (Instr.ldrc (.v 0) .zero 6 word4).wf = true ∧
    Located (onMem gangOne) ctxOne 6 .zero word4 .ld true false true devSpaces (reach 6 4 true false 0x10100).1 [lane0 0x10100] []
      (reach 6 4 true false 0x10100).2 ∧
    Located (onMem gangOne) ctxOne 6 .zero word4 .ld true false true [4] (reach 6 4 true false 0x10100).1 [lane0 0x10100] []
      (reach 6 4 true false 0x10100).2 :=
  ⟨ctx_one, by decide +kernel, ready_of (by decide +kernel), by decide +kernel, by decide +kernel, by decide +kernel, by decide +kernel,
    located_of (by decide +kernel) (by decide +kernel), located_of (by decide +kernel) (by decide +kernel)⟩

/-- The line that the lane names is counted, with one reader left. -/
def onCounted : State := { onMem gangOne with counted := [(0x140100 / 128, { count := 1, pre := List.replicate 128 7 })] }
def countedReach : State × List LanePlaces := placed (onCounted.places gangOne (ctxOne.arr 6).space 4 true false [lane0 0x10100])

theorem witness_LoadVariants_counted : onCounted.ctx = some ctxOne ∧ countedReach.2 ≠ [] ∧ (ctxOne.refresh countedReach.1).g.accesses = [] ∧
    Located onCounted ctxOne 6 .zero word4 .ld true false true [4] countedReach.1 [lane0 0x10100] [] countedReach.2 ∧
    (countedReach.1.counted.map fun x => x.1) = [0x140100 / 128] ∧
    (∀ x ∈ countedReach.1.counted, 128 * x.1 < Config.localHbm ∧ x.2.pre.length = 128) ∧ (0, 0) ∈ [(0, 0)] ∧
    0 ∈ ctxOne.st.slices ∧ 0 < (ctxOne.refresh countedReach.1).g.slices.length ∧
    0 < ((ctxOne.refresh countedReach.1).g.slice 0).threads.length :=
  ⟨ctx_on _ _ _ rfl rfl rfl rfl, by decide +kernel, by decide +kernel, located_of (by decide +kernel) (by decide +kernel), by decide +kernel,
    by decide +kernel, by decide, by decide +kernel, by decide +kernel, by decide +kernel⟩

theorem no_near {ls : List LanePlaces} (h : (ls.all fun l => l.places.all fun p => match p with
    | .near _ _ _ => false
    | _ => true) = true) : ∀ l ∈ ls, ∀ p ∈ l.places, ∀ g k o, p ≠ .near g k o := by
  rintro l hl p hp g k o rfl
  have := List.all_eq_true.1 (List.all_eq_true.1 h l hl) _ hp
  cases this

theorem witness_StoreResult : (onMem gangOne).ctx = some ctxOne ∧ ctxOne.srcRangeOk (onMem gangOne) (.v 126) (Accept.regsOf 3) = true ∧
    Ready (onMem gangOne) ctxOne [] [.v 126, .zero] ∧ (reach 6 8 false true 0x10100).2 ≠ [] ∧
    (∀ l ∈ (reach 6 8 false true 0x10100).2, ∀ p ∈ l.places, ∀ g k o, p ≠ .near g k o) ∧
    (Instr.st (.v 126) .zero 6 word8).wf = true ∧ (Instr.strc (.v 126) 15 .zero 6 word8).wf = true ∧
    Located (onMem gangOne) ctxOne 6 .zero word8 .st false true false allSpaces (reach 6 8 false true 0x10100).1 [lane0 0x10100] []
      (reach 6 8 false true 0x10100).2 ∧
    Located (onMem gangOne) ctxOne 6 .zero word8 .st false true false [4] (reach 6 8 false true 0x10100).1 [lane0 0x10100] []
      (reach 6 8 false true 0x10100).2 :=
  ⟨ctx_one, by decide +kernel, ready_of (by decide +kernel), by decide +kernel, no_near (by decide +kernel), by decide +kernel, by decide +kernel,
    located_of (by decide +kernel) (by decide +kernel), located_of (by decide +kernel) (by decide +kernel)⟩

theorem holds_all {s : State} {ps : List Place} (h : (ps.all fun p => match p with
    | .phys pa => match s.region pa with
      | .window _ => false
      | .remote _ off => decide (off < Config.localHbm)
      | _ => true
    | .scratch t _ => (s.teamByKey? t).isSome
    | .chip _ => true
    | .near _ _ _ => false) = true) : ∀ p ∈ ps, Holds s p := by
  intro p hp
  have := List.all_eq_true.1 h p hp
  cases p with
  | phys pa => simp only [Holds]; cases hr : s.region pa <;> simp_all
  | _ => simp_all [Holds]

/-- A byte of memory, one of scratch and one of chip scratch. -/
def writes3 : List Write := [⟨.phys 0x140100, 1, 0⟩, ⟨.scratch 7 0, 2, 0⟩, ⟨.chip 5, 3, 0⟩]

theorem witness_WritesLandWhereTheySay : (∀ w ∈ writes3, Holds (onMem gangOne) w.place) ∧
    ∀ p ∈ [Place.phys 0x140100, .phys 0x140101, .scratch 7 4095], Holds (onMem gangOne) p :=
  ⟨fun w hw => holds_all (ps := writes3.map Write.place) (by decide +kernel) _ (List.mem_map_of_mem hw), holds_all (by decide +kernel)⟩

/-- The places of the one lane in device memory and in scratch. -/
def places6 (n : Nat) (rd : Bool) : LanePlaces := (reach 6 n rd true 0x10100).2.headD ⟨0, 0, 0, []⟩
def s6 (n : Nat) (rd : Bool) : State := (reach 6 n rd true 0x10100).1

theorem witness_AtomicResult : (onMem gangOne).ctx = some ctxOne ∧ Ready (onMem gangOne) ctxOne [.v 0] [.zero] ∧
    (reach 6 4 true true 0x10100).2 = [places6 4 true] ∧
    Located (onMem gangOne) ctxOne 6 .zero word4 .ld true true false devSpaces (s6 4 true) [lane0 0x10100] [] (reach 6 4 true true 0x10100).2 ∧
    (ctxOne.refresh (s6 4 true)).g.accesses = [] ∧ (∀ o ∈ (ctxOne.refresh (s6 4 true)).g.tileOps, o.done = true) ∧
    (places6 4 true).k ∈ ctxOne.st.slices ∧ (ctxOne.refresh (s6 4 true)).active (places6 4 true).k (places6 4 true).j = true ∧
    (ctxOne.arr 6).trap = true ∧ (∀ p ∈ (places6 4 true).places, Holds (s6 4 true) p) ∧
    ((places6 4 true).places.map (canon (s6 4 true))).Nodup ∧ (places6 4 true).places.length = bytesOf word4 ∧
    (∀ f : BitVec 4, f ≠ 15 → (Instr.atom (.v 0) f .zero 6 word4).wf = true) ∧ (Instr.cas (.v 126) .zero 6 word4).wf = true ∧
    ctxOne.rangeOk (onMem gangOne) (.v 0) 1 = true ∧ ctxOne.rangeOk (onMem gangOne) (.v 126) 2 = true :=
  ⟨ctx_one, ready_of (by decide +kernel), by decide +kernel, located_of (by decide +kernel) (by decide +kernel), by decide +kernel, by decide +kernel,
    by decide +kernel, by decide +kernel, by decide +kernel, holds_all (by decide +kernel), by decide +kernel, by decide +kernel,
    by decide +kernel, by decide +kernel, by decide +kernel, by decide +kernel⟩

/-- A lane that holds no reservation, and one that does. -/
def gangRes : Gang := { gangOne with slices := mapI (fun k sl => if k = 0 then
  { sl with threads := mapI (fun j t => if j = 0 then { t with reservation := some (.phys 0x140100) } else t) 0 sl.threads } else sl) 0 gangOne.slices }

theorem witness_StoreExclusiveResult : (onMem gangOne).ctx = some ctxOne ∧ (Instr.stx (.v 0) 0 .zero 6 word4).wf = true ∧
    ctxOne.srcRangeOk (onMem gangOne) (.v 0) (Accept.regsOf 2) = true ∧ Ready (onMem gangOne) ctxOne [] [.v 0, .zero] ∧
    (reach 6 4 false true 0x10100).2 = [places6 4 false] ∧
    Located (onMem gangOne) ctxOne 6 .zero word4 .st false true false devSpaces (s6 4 false) [lane0 0x10100] [] (reach 6 4 false true 0x10100).2 ∧
    (ctxOne.refresh (s6 4 false)).g.accesses = [] ∧ (∀ o ∈ (ctxOne.refresh (s6 4 false)).g.tileOps, o.done = true) ∧ (ctxOne.arr 6).trap = true ∧
    (0 : BitVec 3) ≠ 7 ∧ (places6 4 false).k ∈ ctxOne.st.slices ∧ (∀ p ∈ (places6 4 false).places, Holds (s6 4 false) p) ∧
    (places6 4 false).places ≠ [] ∧ (ctxOne.refresh (s6 4 false)).active (places6 4 false).k (places6 4 false).j = true ∧
    ((ctxOne.refresh (s6 4 false)).g.thread 0 0).reservation ≠ (places6 4 false).places.head?.map Place.line ∧
    (gangRes.thread 0 0).reservation = (places6 4 false).places.head?.map Place.line :=
  ⟨ctx_one, by decide +kernel, by decide +kernel, ready_of (by decide +kernel), by decide +kernel,
    located_of (by decide +kernel) (by decide +kernel), by decide +kernel, by decide +kernel, by decide +kernel, by decide, by decide +kernel,
    holds_all (by decide +kernel), by decide +kernel, by decide +kernel, by decide +kernel, by decide +kernel⟩

/-- An offending lane of a MASK array names no line: STX only writes predicates. -/
theorem witness_StoreExclusiveResult_mask : isGo (Ctx.prepSized (onMem gangMask) ⟨is0, gangMask, stP0⟩ ((Ctx.mk is0 gangMask stP0).arr 5) (.imm 16) word4
    true false devSpaces) [] [(0, 0)] = true := by decide +kernel

def line0 : Place := (State.localPlace (onMem gangOne) gangOne 1 0).line

theorem witness_LineStateInstructions : (onMem gangOne).ctx = some ctxOne ∧ ctxOne.gate = true ∧ Ready (onMem gangOne) ctxOne [.v 127] [.zero] ∧
    ctxOne.g.accesses = [] ∧ (ctxOne.arr 5).trap = true ∧
    isGo (ctxOne.prep (onMem gangOne) (ctxOne.arr 5) .zero (dispOf byte1) 1 1 false true false lineSpaces) [lane0 0] [] = true ∧
    isGo (ctxOne.prep (onMem gangOne) (ctxOne.arr 5) .zero (dispOf byte1) 1 1 false false false lineSpaces) [lane0 0] [] = true ∧
    (Instr.femark 0 .zero 5 byte1).wf = true ∧ (Instr.femark 1 .zero 5 byte1).wf = true ∧ (Instr.feprobe (.v 127) .zero 5 byte1).wf = true ∧
    (Instr.zprobe (.v 127) .zero 5 byte1).wf = true ∧ (onMem gangOne).lineP line0 ≠ 15 ∧ (∀ p ∈ [line0], Holds (onMem gangOne) p) :=
  ⟨ctx_one, by decide +kernel, ready_of (by decide +kernel), rfl, by decide +kernel, by decide +kernel, by decide +kernel, by decide +kernel,
    by decide +kernel, by decide +kernel, by decide +kernel, by decide +kernel, holds_all (by decide +kernel)⟩

/-- ZPROBE reads 4096 bytes, so its array has 1024 elements. -/
def gangWide : Gang := { gangOne with a := [(5, arrayImage 1 0 + BitVec.ofNat 128 (2 ^ 88 * 1008))] }

theorem witness_LineStateInstructions_zprobe : isGo (Ctx.prep (onMem gangWide) ⟨is0, gangWide, stP0⟩ ((Ctx.mk is0 gangWide stP0).arr 5) .zero
    (dispOf byte1) (4096 / 2 ^ ((Ctx.mk is0 gangWide stP0).arr 5).logsz) 128 false false false lineSpaces) [lane0 0] [] = true := by decide +kernel

/-- PRF of device and of scratch memory; l2evict, and rcdrop of a counted line; an offending lane of a MASK array. -/
theorem witness_PrefetchAndCacheOps : (onMem gangOne).ctx = some ctxOne ∧ onCounted.ctx = some ctxOne ∧ ctxOne.gate = true ∧
    Ready (onMem gangOne) ctxOne [] [.zero] ∧
    (Instr.prf .zero 6 word4).wf = true ∧ (Instr.prf .zero 5 word4).wf = true ∧ (ctxOne.arr 5).space ≠ 4 ∧ (ctxOne.arr 6).space = 4 ∧
    isGo (ctxOne.prepSized (onMem gangOne) (ctxOne.arr 6) .zero word4 false true [4]) [lane0 0x10100] [] = true ∧
    (∀ op : BitVec 4, op ≤ 4 → (Instr.cctl op .zero 6 byte1).wf = true) ∧ ctxOne.g.accesses = [] ∧
    isGo (ctxOne.prep onCounted (ctxOne.arr 6) .zero (dispOf byte1) 1 1 false true false [4]) [lane0 0x10100] [] = true ∧
    isGo (ctxOne.prep (onMem gangOne) (ctxOne.arr 6) .zero (dispOf byte1) 1 1 false false false [4]) [lane0 0x10100] [] = true ∧
    ctxOne.room .st = true ∧ (∀ x ∈ onCounted.counted, 128 * x.1 < Config.localHbm ∧ x.2.pre.length = 128) ∧
    (onCounted.mapped gangOne false [lane0 0x10100]).2.map (fun l => onCounted.norm l.2 / 128) = [0x140100 / 128] ∧
    (countedAt (onCounted.mapped gangOne false [lane0 0x10100]).1 0x140100).isSome = true :=
  ⟨ctx_one, ctx_on _ _ _ rfl rfl rfl rfl, by decide +kernel, ready_of (by decide +kernel), by decide +kernel, by decide +kernel, by decide +kernel,
    by decide +kernel, by decide +kernel, by decide +kernel, rfl, by decide +kernel, by decide +kernel, by decide +kernel, by decide +kernel,
    by decide +kernel, by decide +kernel⟩

/-! Traps of memory instructions, of a gang whose a5 has the image `img`. -/

def gangArr (img : W128) : Gang := { gangOne with a := [(5, img)] }
def ctxArr (img : W128) : Ctx := ⟨is0, gangArr img, stP0⟩
theorem ctx_arr (img : W128) : (onMem (gangArr img)).ctx = some (ctxArr img) := ctx_on _ _ _ rfl rfl rfl rfl

/-- The form that `i` is of a load, a store and an atomic through a5. -/
def forms5 (img : W128) (a : Src) (w : AccWord) : List (Instr × Bool × List Nat × Bool) :=
  memForms (onMem (gangArr img)) (ctxArr img) (.v 0) (.v 0) a 5 0 0 w

/-- Every memory instruction of four bytes, each of which may trap; of one byte, and of eight bytes a load and a store. -/
theorem witness_ResultTraps_memory : (∀ img, (onMem (gangArr img)).ctx = some (ctxArr img)) ∧ (ctxArr 0).gate = true ∧ (ctxArr 0).activeLanes = [(0, 0)] ∧
    Ready (onMem (gangArr 0)) (ctxArr 0) [.v 0] [.v 0, .zero] ∧ ((forms5 0 .zero word4).all fun i => i.1.wf && i.2.2.2) = true ∧
    (((forms5 0 .zero byte1).headD (.nop, false, [], false)).1.wf && ((forms5 0 .zero word8).headD (.nop, false, [], false)).1.wf) = true ∧
    (let x := (ctxArr (arrayImage 1 2)).arr 5
     x.space ≤ 3 ∧ x.base % 2 ^ x.logsz ≠ 0) ∧
    (let x := (ctxArr (arrayImage 4 0x10100 - BitVec.ofNat 128 (2 ^ 80))).arr 5
     x.we = false ∧ x.trap = true ∧ x.space ∉ [1, 2, 3]) ∧
    (let x := (ctxArr (arrayImage 1 0xFC0000)).arr 5
     x.space ≤ 3 ∧ x.base % 2 ^ x.logsz = 0 ∧ (onMem (gangArr (arrayImage 1 0xFC0000))).spaceLimit gangOne x.space < x.base + 2 ^ x.logsz * x.extent) ∧
    (let c := ctxArr (arrayImage 4 0x10104)
     let x := c.arr 5
     x.trap = true ∧ x.we = true ∧ ¬x.space ≤ 3 ∧ x.space = 4 ∧ c.hull (onMem (gangArr (arrayImage 4 0x10104))) (.imm 16) 0 = .iv 16 16 ∧
       (x.extent : Int) < 16 + 1 ∧ 2 ^ byte1.size.toNat < 2 ^ x.logsz ∧ 2 ^ x.logsz ≤ 2 ^ word8.size.toNat ∧ x.base % 8 ≠ 0) :=
  ⟨ctx_arr, by decide +kernel, by decide +kernel, ready_of (by decide +kernel), by decide +kernel, by decide +kernel, by decide +kernel,
    by decide +kernel, by decide +kernel, by decide +kernel⟩

/-- A load from a scratch line with a writer pending, that has found it so 2^24 cycles ago. -/
def gangLong : Gang := { gangOne with strands := [{ stP0 with wait := .empty, emptySince := some 0, emptyAt := [.scratch 7 0] }] }
def onLong : State := { onMem gangLong with cycles := List.replicate 8 (2 ^ 24), teams := [{ team0 with pending := [(0, 1)] }] }
def ctxLong : Ctx := ⟨is0, gangLong, { stP0 with wait := .empty, emptySince := some 0, emptyAt := [.scratch 7 0] }⟩
def longReach : State × List LanePlaces := placed (onLong.places gangLong 1 4 true false [lane0 0])

theorem witness_ResultTraps_empty : onLong.ctx = some ctxLong ∧ ctxLong.gate = true ∧ (Instr.ld (.v 0) .zero 5 word4).wf = true ∧
    ctxLong.rangeOk onLong (.v 0) (Accept.regsOf 2) = true ∧ Ready onLong ctxLong [.v 0] [.zero] ∧
    isGo (ctxLong.prepSized onLong (ctxLong.arr 5) .zero word4 false false allSpaces) [lane0 0] [] = true ∧ (ctxLong.arr 5).space = 1 ∧
    onLong.places gangLong 1 (bytesOf word4) true false [lane0 0] = .ok (longReach.1, longReach.2) ∧
    (longReach.2.filter fun x => x.places.any fun p => decide (longReach.1.lineP p ≠ 0)) ≠ [] ∧
    ctxLong.st.emptySince = some 0 ∧ 0 + 2 ^ 24 ≤ onLong.cycleOf gangLong.core :=
  ⟨ctx_on _ _ _ rfl rfl rfl rfl, by decide +kernel, by decide +kernel, by decide +kernel, ready_of (by decide +kernel), by decide +kernel,
    by decide +kernel, placed_ok (by decide +kernel), by decide +kernel, rfl, by decide +kernel⟩

/-- CPY and CPYM that trap: a misaligned array, a count that is no multiple of 16, a range outside either array. -/
theorem witness_ResultTraps_copy :
    let trap (d r : W128) (n : Nat) : Option (Nat × Nat) :=
      (copyTrap (onMem gangOne) ctxOne (arrOf d) (arrOf r) ⟨0, 0, 0, 0, 0, 0, 0⟩ n [1]).map fun t => (t.cause, t.taddr)
    trap (arrayImage 1 2) (arrayImage 4 0x10100) 16 = some (13, 2) ∧ trap (arrayImage 1 0) (arrayImage 4 0x10100) 8 = some (13, 0x10008) ∧
    trap (arrayImage 1 16) (arrayImage 4 0x10100) 128 = some (8, 16) ∧ trap (arrayImage 1 0 + BitVec.ofNat 128 (2 ^ 88 * 100)) (arrayImage 4 0x10100) 128 = some (8, 0x10100) ∧
    trap (arrayImage 1 0) (arrayImage 4 0x10100) 64 = none ∧ (Instr.cpy (.imm 16) 5 6 ⟨0, 0, 0, 0, 0, 0, 0⟩).wf = true ∧
    (Instr.cpym (.s 3) (.imm 16) 5 6 ⟨0, 0, 0, 0, 0, 0, 0⟩).wf = true := by decide +kernel

/-! ## Witnesses: engine commands -/

/-- Arrays of 1024 four-byte elements: a5 scratch, a6 device memory, a7 chip scratch, a8 scratch from 2048 on. -/
def bigArray (space base : Nat) : W128 := BitVec.ofNat 128 (2 ^ 88 * 1024 + 2 ^ 85 * space + 2 ^ 82 * 2 + 2 ^ 81 + 2 ^ 80 + base)

/-- s1 a frame descriptor's address, s2 a ring descriptor's, s3 one, s4 and s5 EVSEL's operand, s6 zero. -/
def gangEng : Gang := { gangOne with
  a := [(5, bigArray 1 0), (6, bigArray 4 0x10100), (7, bigArray 3 0), (8, bigArray 1 2048 - BitVec.ofNat 128 (2 ^ 88 * 512))]
  s := [(1, 0x10480), (2, 0x10500), (3, 1), (4, 0x100000000), (5, 0)] }
def ctxEng : Ctx := ⟨is0, gangEng, stP0⟩

def gridEng : Grid := { grid0 with tmpl := { placedTemplate with chip := 1 }, chip := [0], cpytab := 0x10400 }

/-- Memory with a copy template at 0x10400 (one row of 16 bytes) and a ring descriptor at 0x10500 (ring 0, COUNT 16). -/
def engMem : State := ((State.reset.placeMemory [0]).pokePhys 0x140400 (leBytes 8 0x10100 ++ leBytes 8 0x10140 ++ leBytes 4 16 ++ leBytes 4 1)).pokePhys
  0x140500 (leBytes 8 0x10100 ++ leBytes 8 0x10180 ++ leBytes 8 0x10600 ++ leBytes 4 16)

/-- Drive 31 is enabled, its blocks are of 512 bytes; ring 0 has two members. -/
def onEng (g : Gang) : State := (({ on g with mem := engMem.mem, grids := [gridEng] } : State).setMg (Mgmt.drvtab 31) (2 ^ 16 * 9 + 2 ^ 8)).setMg
  (Mgmt.drvtab 31 + 8) 100 |>.setMg (Mgmt.ringcfg 0) (2 ^ 63 + 2 ^ 8)
theorem ctx_eng : (onEng gangEng).ctx = some ctxEng := ctx_on _ _ _ rfl rfl rfl rfl

def freeFor (s : State) (c : Ctx) (k : Cmd) : Bool :=
  decide (c.g.accesses = []) && c.room k.path && decide (s.waitsBehind c.g c.st k.kind = none) && (k.toArm.all fun p => decide (s.lineP p ≠ 15)) && (s.gang? c.g.gid).isSome

theorem acceptable_of {s : State} {c : Ctx} {k : Cmd} (h : freeFor s c k = true) : Acceptable s c k := by
  simp only [freeFor, Bool.and_eq_true, decide_eq_true_eq, List.all_eq_true] at h
  exact ⟨h.1.1.1.1, h.1.1.1.2, h.1.1.2, h.1.2, h.2⟩

/-- CPY of 16 bytes from device memory to scratch. -/
theorem witness_CopyCommandsAccepted : (onEng gangEng).ctx = some ctxEng ∧ ctxEng.gate = true ∧ (Instr.cpy (.imm 16) 5 6 cmd0).wf = true ∧
    CopyOk (onEng gangEng) ctxEng (ctxEng.arr 5) (ctxEng.arr 6) cmd0 (ctxEng.val64 (onEng gangEng) (.imm 16)).toNat [1, 2, 3, 4] ∧
    let d := ctxEng.arr 5
    let r := ctxEng.arr 6
    let k := Cmd.offer ctxEng .cpy .cp cmd0 (mkLines ((onEng gangEng).linePlace ctxEng.g d.space) (armedSpace d.space) (ctxEng.lc cmd0) 0 0
      [{ dst := (d.at (ctxEng.offset cmd0.doff)).toNat, src := (onEng gangEng).srcBytes ctxEng.g r.space (r.at (ctxEng.offset cmd0.soff)).toNat 16 }])
    Acceptable (onEng gangEng) ctxEng k :=
  ⟨ctx_eng, by decide +kernel, by decide +kernel, by unfold CopyOk; decide +kernel, acceptable_of (by decide +kernel)⟩

/-- The longest count, no byte: nothing to move. -/
theorem witness_CopyCommandsAccepted_empty : CopyOk (onEng gangEng) ctxEng (ctxEng.arr 5) (ctxEng.arr 6) cmd0 0 [1, 2, 3, 4] := by
  unfold CopyOk; decide +kernel

/-- CPYM to the own team, named by bit 0 of s3. -/
theorem witness_CopyCommandsAccepted_cpym : (Instr.cpym (.s 3) (.imm 16) 5 6 cmd0).wf = true ∧
    CopyOk (onEng gangEng) ctxEng (ctxEng.arr 5) (ctxEng.arr 6) cmd0 (ctxEng.val64 (onEng gangEng) (.imm 16)).toNat [1] ∧
    let d := ctxEng.arr 5
    let r := ctxEng.arr 6
    let da := (d.at (ctxEng.offset cmd0.doff)).toNat
    let t := (onEng gangEng).targets ctxEng.g false (ctxEng.g.sreg 3).toNat da 16
    t.1 ≠ [] ∧ Acceptable (onEng gangEng) ctxEng (Cmd.offer ctxEng .cpym .cp cmd0 ((onEng gangEng).multicast ctxEng.g cmd0 da
      ((onEng gangEng).srcBytes ctxEng.g r.space (r.at (ctxEng.offset cmd0.soff)).toNat 16) 0 t.1)) :=
  ⟨by decide +kernel, by unfold CopyOk; decide +kernel, by decide +kernel, acceptable_of (by decide +kernel)⟩

/-- KVCPY of block 0, BLK 0 and ROW 0, to the one active thread's slot. -/
theorem witness_CopyCommandsAccepted_kvcpy : (Instr.kvcpy (.v 0) 5 6 cmd0).wf = true ∧ Ready (onEng gangEng) ctxEng [] [.v 0] ∧
    let d := ctxEng.arr 5
    let r := ctxEng.arr 6
    let slot (kj : Nat × Nat) : Int := d.at (ctxEng.offset cmd0.doff) + ((4 * kj.1 + kj.2) * 128 : Nat)
    let index (kj : Nat × Nat) : Int := (ctxEng.val (onEng gangEng) (.v 0) kj.1 kj.2).toInt
    d.misaligned = false ∧ r.misaligned = false ∧ d.base % 16 = 0 ∧ r.base % 16 = 0 ∧ (2 ^ d.logsz : Nat) * ctxEng.offset cmd0.doff % 16 = 0 ∧
    (onEng gangEng).rangeBad ctxEng.g d 0 0 true [1, 2, 3] = false ∧
    (∀ kj ∈ ctxEng.activeLanes, (d.base : Int) ≤ slot kj ∧ slot kj + (128 : Nat) ≤ ((d.base + d.bytes : Nat) : Int)) ∧
    (ctxEng.activeLanes.filter fun kj => (onEng gangEng).rangeBad ctxEng.g r 0 0 false [1, 2, 3, 4] || decide (index kj < 0) ||
      decide ((r.bytes : Int) < (index kj + 1) * (128 : Nat))) = [] ∧
    Acceptable (onEng gangEng) ctxEng (Cmd.offer ctxEng .kvcpy .cp cmd0 (mkLines ((onEng gangEng).linePlace ctxEng.g d.space) (armedSpace d.space)
      (ctxEng.lc cmd0) 0 0 (ctxEng.activeLanes.map fun kj => (Run.mk (slot kj).toNat ((List.range 128).map fun i =>
        (onEng gangEng).srcByte ctxEng.g r.space (r.base + (index kj).toNat * 128 + kvSource 0 false i)))))) :=
  ⟨by decide +kernel, ready_of (by decide +kernel), by decide +kernel, by decide +kernel, by decide +kernel, by decide +kernel, by decide +kernel,
    by decide +kernel, by decide +kernel, by decide +kernel, acceptable_of (by decide +kernel)⟩

/-- CPST of template 0. -/
def cpstRead : State × List Byte := placed (((onEng gangEng).flush 0 (List.range 8)).readVirt 0 1 0x10400 64)

theorem witness_CopyCommandsAccepted_cpst : (Instr.cpst .zero cmd0).wf = true ∧ ctxEng.g.accesses = [] ∧ 0 < tableSize gridEng.cpytab.toNat ∧
    field gridEng.cpytab.toNat 56 6 * 64 = 0x10400 ∧
    ((onEng gangEng).flush 0 (List.range 8)).readVirt 0 1 0x10400 64 = .ok (cpstRead.1, cpstRead.2) ∧
    (parseCopy cpstRead.2).ok = true ∧ (parseCopy cpstRead.2).dscr = false ∧
    let c1 := ctxEng.refresh cpstRead.1
    let t := parseCopy cpstRead.2
    Acceptable cpstRead.1 c1 (Cmd.offer c1 .cpst .cp cmd0 (mkLines (cpstRead.1.linePlace c1.g 4) false (c1.lc cmd0) 0 cpstRead.1.free
      ((t.moves (c1.offset 0) (c1.offset 0)).map fun r => { dst := wrapTo 64 r.2, src := cpstRead.1.srcBytes c1.g 4 (wrapTo 64 r.1) t.rowBytes }))) :=
  ⟨by decide +kernel, rfl, by decide +kernel, by decide +kernel, placed_ok (by decide +kernel), by decide +kernel, by decide +kernel,
    acceptable_of (by decide +kernel)⟩

/-! The gather family: rows of 16 bytes from the chip or device table to scratch, in list form with no row and in register form. -/

def gatherOk (x : GatherForm) (s : State) (c : Ctx) (kind : CmdKind) (a : Src) (w : CmdWord) : Bool :=
  ((x.levels ++ [x.rarr] ++ (if GatherForm.isList a then [x.larr] else [])).all fun n => decide ((c.arr n).misaligned = false) && s.regionOk c.g (c.arr n)) &&
  (x.levels.dropLast.all fun n => decide ((c.arr n).logsz = 2)) &&
  (!GatherForm.isList a || decide ((c.arr x.larr).logsz = 2)) &&
  (match x.levels.getLast? with
   | some n => decide ((c.arr n).logsz ≤ w.xtra.toNat % 16) && decide ((c.arr n).base % Min.min (2 ^ (w.xtra.toNat % 16)) 128 = 0)
   | none => true) &&
  decide ((c.arr x.rarr).logsz ≤ w.xtra.toNat % 16) && decide ((2 ^ (c.arr x.rarr).logsz : Nat) * c.offset w.doff % (Min.min (2 ^ (w.xtra.toNat % 16)) 16 : Nat) = 0) &&
  decide (GatherForm.nmax s c a ≤ 65536) &&
  (x.levels.all fun n => decide (s.rangeBad c.g (c.arr n) 0 0 (decide (kind ≠ .gath) && decide (c.arr n = (x.levels.map c.arr).getLast?.getD (arrOf 0))) [3, 4] = false)) &&
  decide (s.rangeBad c.g (c.arr x.rarr) (c.offset w.doff)
    ((if GatherForm.isList a then GatherForm.nmax s c a else if 8 < c.g.slices.length then 64 else 32) * 2 ^ (w.xtra.toNat % 16))
    (decide (kind = .gath)) [1, 2] = false) &&
  (!GatherForm.isList a || decide (s.rangeBad c.g (c.arr x.larr) (c.offset w.soff) (4 * (GatherForm.nmax s c a + 1)) false [1, 2] = false)) &&
  (GatherForm.isList a || c.activeLanes.all fun kj => decide (
    offendsAt ((x.levels.map c.arr).headD (arrOf 0)) (if x.levels.length = 1 then 2 ^ (w.xtra.toNat % 16 - ((x.levels.map c.arr).headD (arrOf 0)).logsz) else 1)
      (c.val s a kj.1 kj.2).toInt = false)) &&
  decide (((x.levels.map c.arr).headD (arrOf 0)).trap = true) &&
  decide (s.firstEmpty c.g
    ((if GatherForm.isList a then [((c.arr x.larr).space, ((c.arr x.larr).at (c.offset w.soff)).toNat, 4 * (GatherForm.nmax s c a + 1))] else []) ++
     (if kind = .gath then [] else (x.sources s c a w).map fun r =>
       ((c.arr x.rarr).space, ((c.arr x.rarr).at (c.offset w.doff)).toNat + r * 2 ^ (w.xtra.toNat % 16), 2 ^ (w.xtra.toNat % 16)))) = none)

theorem gather_of {x : GatherForm} {s : State} {c : Ctx} {kind : CmdKind} {a : Src} {w : CmdWord} (h : gatherOk x s c kind a w = true) :
    x.Ok s c kind a w := by
  simp only [gatherOk, Bool.and_eq_true, Bool.or_eq_true, Bool.not_eq_true', decide_eq_true_eq, List.all_eq_true] at h
  obtain ⟨⟨⟨⟨⟨⟨⟨⟨⟨⟨⟨⟨h1, h2⟩, h3⟩, h4⟩, h5⟩, h6⟩, h7⟩, h8⟩, h9⟩, h10⟩, h11⟩, h12⟩, h13⟩ := h
  refine ⟨h1, h2, fun hl => ?_, fun n hn => ?_, ⟨h5, h6⟩, h7, h8, h9, fun hl => ?_, fun hl => ?_, h12, h13⟩
  · simpa [hl] using h3
  · simpa [hn] using h4
  · simpa [hl] using h10
  · simpa [hl] using h11

def gatherFits (x : GatherForm) (kind : CmdKind) (a : Src) (w : CmdWord) (i : Instr) : Bool :=
  i.wf && gatherOk x (onEng gangEng) ctxEng kind a w && freeFor (onEng gangEng) ctxEng (x.cmd (onEng gangEng) ctxEng kind a w)

theorem witness_GatherCommandsAccepted : (onEng gangEng).ctx = some ctxEng ∧ ctxEng.gate = true ∧ Ready (onEng gangEng) ctxEng [] [.x 31] ∧
    Ready (onEng gangEng) ctxEng [] [.imm 1] ∧ (∀ (a : Src) (x : GatherForm) (kind : CmdKind) (w : CmdWord) (i : Instr),
      gatherFits x kind a w i = true → i.wf = true ∧ x.Ok (onEng gangEng) ctxEng kind a w ∧
        Acceptable (onEng gangEng) ctxEng (x.cmd (onEng gangEng) ctxEng kind a w)) :=
  ⟨ctx_eng, by decide +kernel, ready_of (by decide +kernel), ready_of (by decide +kernel), fun a x kind w i h => by
    simp only [gatherFits, Bool.and_eq_true] at h
    exact ⟨h.1.1, gather_of h.1.2, acceptable_of h.2⟩⟩

theorem witness_GatherCommandsAccepted_forms :
    gatherFits ⟨[6], 5, 0⟩ .gath (.x 31) (cmdX 4) (.gath 6 (.x 31) 5 0 (cmdX 4)) = true ∧
    gatherFits ⟨[6], 5, 8⟩ .gath (.imm 1) (cmdX 4) (.gath 6 (.imm 1) 5 8 (cmdX 4)) = true ∧
    gatherFits ⟨[7, 6], 5, 8⟩ .gath (.imm 1) (cmdX 2) (.gath2 6 7 (.imm 1) 5 8 (cmdX 2)) = true ∧
    gatherFits ⟨[7, 7, 6], 5, 8⟩ .gath (.imm 1) (cmdX 0x72) (.gath3 6 7 (.imm 1) 5 8 (cmdX 0x72)) = true ∧
    gatherFits ⟨[6], 5, 8⟩ .scat (.imm 1) (cmdX 4) (.scat 6 (.imm 1) 5 8 (cmdX 4)) = true ∧
    gatherFits ⟨[6], 5, 8⟩ .scata (.imm 1) (cmdX 0x14) (.scata 6 (.imm 1) 5 8 (cmdX 0x14)) = true := by decide +kernel

theorem witness_GatherCommandsAccepted_nzscan : (Instr.nzscan (.imm 16) 5 8 (cmdX 1)).wf = true ∧
    let s := onEng gangEng
    let l := ctxEng.arr 5
    let v := ctxEng.arr 8
    l.misaligned = false ∧ v.misaligned = false ∧ s.regionOk ctxEng.g l = true ∧ s.regionOk ctxEng.g v = true ∧ l.logsz = 2 ∧ v.logsz ≤ 2 ∧ 16 ≤ 65536 ∧ s.rangeBad ctxEng.g l 0 68 true [1, 2] = false ∧
    s.rangeBad ctxEng.g v 0 64 false [1, 2] = false ∧
    (∀ i, i < 64 → ∀ j, j < 68 → s.localPlace ctxEng.g v.space (2048 + i) ≠ s.localPlace ctxEng.g l.space (0 + j)) ∧
    s.firstEmpty ctxEng.g [(v.space, 2048, 64)] = none ∧
    Acceptable s ctxEng { Cmd.offer ctxEng .nzscan .gx (cmdX 1) (mkLines (s.linePlace ctxEng.g l.space) true (ctxEng.lc (cmdX 1)) 0 0
      [{ dst := 0, src := (List.range 68).map (ByteSrc.row 0) }]) with params := [v.space, 2048, 4, 16, 1], built := false } :=
  ⟨by decide +kernel, by decide +kernel, by decide +kernel, by decide +kernel, by decide +kernel, by decide +kernel, by decide +kernel,
    by decide +kernel, by decide +kernel, by decide +kernel, by decide +kernel, by decide +kernel, acceptable_of (by decide +kernel)⟩

/-- SCAT in list form of no more than one row, whose list names none. -/
theorem witness_GatherCommandsAccepted_sources : (GatherForm.sources ⟨[6], 5, 8⟩ (onEng gangEng) ctxEng (.imm 1) (cmdX 4)) = [] ∧
    (GatherForm.sources ⟨[6], 5, 8⟩ (onEng gangEng) ctxEng (.x 31) (cmdX 4)) = [0] := by decide +kernel

/-! ## Witnesses: the other engine commands, waits, tile operations -/

/-- SREAD from drive 31 of one block of 512 bytes into a6; s3 holds the count, 1. -/
def wSread : CmdWord := ⟨0, 0, 0, 0, 0, 3, 6⟩

theorem witness_OtherCommandsAccepted_sread : (onEng gangEng).ctx = some ctxEng ∧ ctxEng.gate = true ∧ (Instr.sread (.imm64 99) 31 wSread).wf = true ∧
    let s := onEng gangEng
    let d := ctxEng.arr (wSread.xtra.extractLsb' 0 4)
    let dr := s.drive 31
    d.misaligned = false ∧ d.at (ctxEng.offset wSread.doff) % 16 = 0 ∧ (ctxEng.g.sreg wSread.soff.toNat).toNat = 1 ∧
    s.rangeBad ctxEng.g d (ctxEng.offset wSread.doff) (1 * 2 ^ dr.shift) true [4] = false ∧ dr.enabled = true ∧
    (ctxEng.val64 s (.imm64 99)).toNat + 1 ≤ dr.capacity ∧
    Acceptable s ctxEng { Cmd.offer ctxEng .sread .cp wSread (mkLines (s.linePlace ctxEng.g 4) false (ctxEng.lc wSread) 0 0
      [{ dst := (d.at (ctxEng.offset wSread.doff)).toNat, src := (List.range (1 * 2 ^ dr.shift)).map (ByteSrc.row 0) }]) with
      params := [s.base, 1 * 2 ^ dr.shift], rows := [.entry 0] } :=
  ⟨ctx_eng, by decide +kernel, by decide +kernel, by decide +kernel, by decide +kernel, by decide +kernel, by decide +kernel, by decide +kernel,
    by decide +kernel, acceptable_of (by decide +kernel)⟩

/-- EVSEL of s4 and s5: one counter from the first, budget 0, so at most one token. -/
theorem witness_OtherCommandsAccepted_evsel :
    let s := onEng gangEng
    let h := ctxEng.arr 7
    let l := ctxEng.arr 5
    field (ctxEng.g.sreg 4).toNat 63 32 = 1 ∧ field (ctxEng.g.sreg 4).toNat 31 0 = 0 ∧ (ctxEng.g.sreg 5).toNat = 0 ∧
    h.misaligned = false ∧ l.misaligned = false ∧ h.logsz = 2 ∧ l.logsz = 2 ∧ s.rangeBad ctxEng.g h 0 4 false [3] = false ∧
    s.rangeBad ctxEng.g l 0 8 true [1, 2] = false ∧ h.trap = true ∧ l.trap = true ∧
    Acceptable s ctxEng { Cmd.offer ctxEng .evsel .gx { scope := 3, cache := 0, lcen := 0, lcreg := 0, doff := 0, soff := 0, xtra := 0 }
      (mkLines (s.linePlace ctxEng.g l.space) true none 0 0 [{ dst := (l.at ((0 : Nat) : Int)).toNat, src := (List.range 8).map (ByteSrc.row 0) }]) with
      params := [h.base, 0, 1, 1, 0], built := false } :=
  ⟨by decide +kernel, by decide +kernel, by decide +kernel, by decide +kernel, by decide +kernel, by decide +kernel, by decide +kernel,
    by decide +kernel, by decide +kernel, by decide +kernel, by decide +kernel, acceptable_of (by decide +kernel)⟩

theorem some_of {α : Type} {o : Option α} {d : α} (h : o.isSome = true) : o = some (o.getD d) := by
  cases o
  · cases h
  · rfl

/-- FRAME with the descriptor at s1: its engine takes up the session. -/
def frameRead : State × List Byte := placed (((onEng gangEng).flush 0 (List.range 8)).readVirt 0 1 0x10480 128)
def frameKey : Nat := sessionKey 1 (parseFrame frameRead.2).session
def frameState : State := (frameRead.1.frameContext 0 (some frameKey)).getD State.reset

theorem witness_OtherCommandsAccepted_frame : (Instr.frame (.s 1) 0 cmd0).wf = true ∧ (ctxEng.val64 (onEng gangEng) (.s 1)).toNat = 0x10480 ∧
    0x10480 % 128 = 0 ∧ ctxEng.g.accesses = [] ∧ ((onEng gangEng).tmplOf ctxEng.g).asid = 1 ∧
    ((onEng gangEng).flush 0 (List.range 8)).readVirt 0 1 0x10480 128 = .ok (frameRead.1, frameRead.2) ∧
    frameRead.1.frameContext 0 (some frameKey) = some frameState ∧
    Acceptable frameState ctxEng { Cmd.offer ctxEng .frame .cp cmd0 [] with params := [0, frameKey, 0x10480, frameState.seq], built := false } :=
  ⟨by decide +kernel, by decide +kernel, by decide, rfl, by decide +kernel, placed_ok (by decide +kernel), some_of (by decide +kernel),
    acceptable_of (by decide +kernel)⟩

/-- An older ring command of the gang that runs on ring 0. -/
def oldRing : Cmd := { Cmd.offer ctxEng .ring .cl cmd0 [] with params := [0, 0, 1], built := false }
def gangRing : Gang := { gangEng with cmds := [oldRing] }
def ctxRing : Ctx := ⟨is0, gangRing, stP0⟩
def ringAt0 : List LaneAddr := [{ k := 0, j := 0, addr := 0x10500 }]
def ringRead : State × List LanePlaces := placed (((onEng gangRing).flush 0 (List.range 8)).places gangRing 4 64 true false ringAt0)

theorem witness_OtherCommandsAccepted_ring : (onEng gangRing).ctx = some ctxRing ∧ ctxRing.gate = true ∧ (gangRing.sreg 2).toNat = 0x10500 ∧
    ctxRing.g.accesses = [] ∧
    ((onEng gangRing).flush 0 (List.range 8)).places gangRing 4 64 true false ringAt0 = .ok (ringRead.1, ringRead.2) ∧
    ringRead.1.anyRemote ringRead.2 = false ∧ (ringRead.1.gang? 0).isSome = true ∧ (ctxRing.refresh ringRead.1).g.accesses = [] ∧
    (ctxRing.st.wait ≠ .lost ∧ ctxRing.st.wait ≠ .homeReset) ∧
    let d := ringDesc (ringRead.2.flatMap fun l => l.places.map ringRead.1.byteAt)
    let x := ringCfg (ringRead.1.mg (Mgmt.ringcfg d.ring))
    (∀ kind, kind ≤ 3 → ringDescOk kind d x = true) ∧ d.dscr = false ∧ d.sscr = false ∧
    ((ringRead.1.setGang (ctxRing.refresh ringRead.1).g).ringHead d.ring).isSome = true ∧
    (ringRead.1.setGang (ctxRing.refresh ringRead.1).g).engineHead d.ring = some (0, oldRing) ∧ oldRing.param 2 = 1 ∧
    oldRing.param 0 < ringRead.1.seq ∧ (ctxRing.refresh ringRead.1).room .cl = true :=
  ⟨ctx_on _ _ _ rfl rfl rfl rfl, by decide +kernel, by decide +kernel, rfl, placed_ok (by decide +kernel), by decide +kernel, by decide +kernel,
    by decide +kernel, by decide +kernel, by decide +kernel, by decide +kernel, by decide +kernel, by decide +kernel, by decide +kernel,
    by decide +kernel, by decide +kernel, by decide +kernel⟩

/-- h1: 16 rows of 64 bytes of 16 elements from byte 0, block scales from byte 1024. -/
def shape1 : W128 := BitVec.ofNat 128 (2 ^ 92 * 1024 + 2 ^ 84 + 2 ^ 72 * 15 + 2 ^ 64 * 15 + 2 ^ 48 * 64)
def gangMx : Gang := { gangEng with h := [(1, shape1)] }
def ctxMx : Ctx := ⟨is0, gangMx, stP0⟩
theorem ctx_mx : (onEng gangMx).ctx = some ctxMx := ctx_on _ _ _ rfl rfl rfl rfl

def scratchReady (s : State) (c : Ctx) (bytes reads : List Nat) : Bool :=
  (bytes.all fun b => decide (b < (s.tmplOf c.g).scratchBytes)) && decide (s.firstEmpty c.g ((lineNumbers reads).map fun l => (1, 128 * l, 1)) = none)

theorem scratch_ready {s : State} {c : Ctx} {bytes reads : List Nat} (h : scratchReady s c bytes reads = true) : ScratchReady s c bytes reads := by
  simp only [scratchReady, Bool.and_eq_true, decide_eq_true_eq, List.all_eq_true] at h
  exact h

/-- What MXDRAIN to scratch asks, with elements by shape `he`, scales by `hs`, in format `f`. -/
def drainFits (t : BitVec 5) (hs he : BitVec 3) (z : BitVec 1) (f : BitVec 4) : Bool :=
  let s := onEng gangMx
  let c := ctxMx
  let e := c.shape he
  let x := c.shape hs
  let blk := isBlock f.toNat
  let cells := e.cells ((List.range 16).map fun (i : Nat) => (i : Int))
  let scales := if f.toNat = 8 then (List.range 32).map fun b => x.sbase + b / 2 * x.rstride + b % 2
    else if blk then (List.range 8).map fun q => x.sbase + q * x.rstride else []
  let written := cells.flatMap (fun rc => bitBytes (e.pos (elemBits f.toNat) rc.1 rc.2) (elemBits f.toNat)) ++ scales
  let reads := if f.toNat = 8 then [x.bn, x.bn + 1] else []
  let lines := drainLines (s.localPlace c.g 1) written
  let k : Cmd := { Cmd.offer c .drain .mx { scope := 1, cache := 0, lcen := 0, lcreg := 0, doff := 0, soff := 0, xtra := 0 } lines with
    rows := lines.map fun _ => RowState.entry 0 }
  (Instr.mxdrainScratch t hs he z f).wf && c.tileOk s t && c.tileRoom && !e.reserved &&
    (!blk || (!x.reserved && !e.t && decide (15 ≤ e.rows) && decide (15 ≤ e.cols))) && !e.misplaced f.toNat cells &&
    (decide (f.toNat ≠ 8) || decide (x.bn % 2 = 0)) && scratchReady s c (written ++ reads) reads && freeFor s c k

/-- Formats 0 (FP32), 6 (MXFP8) and 8 (NVFP4, whose scale word is read). -/
theorem witness_OtherCommandsAccepted_drain : (onEng gangMx).ctx = some ctxMx ∧ ctxMx.gate = true ∧
    drainFits 7 0 1 0 0 = true ∧ drainFits 7 0 1 1 6 = true ∧ drainFits 7 0 1 1 8 = true :=
  ⟨ctx_mx, by decide +kernel, by decide +kernel, by decide +kernel, by decide +kernel⟩

/-- Path 5 counts nothing, s6 is zero, s3 is not, no record is held; the gang's one strand is on, or off. -/
theorem witness_WaitsAndMatrixFence : (onEng gangEng).ctx = some ctxEng ∧ ctxEng.gate = true ∧ ctxEng.g.records = [] ∧
    ctxEng.g.sreg 6 = 0 ∧ ctxEng.g.sreg 3 ≠ 0 ∧ ctxEng.room .mx = true ∧
    (on gangOff).ctx = some ⟨is0, gangOff, stOff⟩ ∧ (Ctx.mk is0 gangOff stOff).gate = false :=
  ⟨ctx_eng, by decide +kernel, rfl, by decide +kernel, by decide +kernel, by decide +kernel, ctx_off, by decide +kernel⟩

/-- Records of a batch that overflowed (BOUNDS), of a copy that met protection, of a CPYM that named another gang's register. -/
def failed (id : Nat) (kind : CmdKind) (st : Status) (ls : List Landing) : Completion :=
  { cmd := { Cmd.offer ctxEng kind .cp cmd0 ls with
      id := id, lcreg := some 6, fault := (if st.code = 5 then none else some st), bounded := if st.code = 5 then some st else none }
    reported := false, after := 1 }
def mirrorLine : Landing :=
  { id := 0, dst := .scratch 7 0, virt := none, bytes := [], lc := some (0, 3), armed := true, landed := true, written := true, raced := [] }
def gangRecs (l : List Completion) : Gang := { gangEng with records := l }
def onRecs (l m : List Completion) : State :=
  { onEng (gangRecs l) with gangs := [gangRecs l, { gangRecs m with gid := 1, g := 1, strands := [] }] }

/-- Oldest of two, the other being younger. -/
theorem oldest_of (o : Gang) (P : Completion → Prop) (r x : Completion) (h : o.records = [r, x]) (hr : r.reported = false) (hp : P r)
    (hx : r.cmd.id < x.cmd.id) : Oldest o P r := by
  refine ⟨by simp [h], hr, hp, fun y hy _ _ hn => ?_⟩
  rw [h] at hy
  rcases List.mem_cons.1 hy with rfl | hy
  · exact absurd rfl hn
  · rw [List.mem_singleton.1 hy]; exact hx

def younger : Completion := failed 9 .cpy Status.poison []

theorem witness_WaitsAndMatrixFence_surfaces (st : Status) : (∀ l m, (onRecs l m).ctx = some ⟨is0, gangRecs l, stP0⟩) ∧
    (Ctx.mk is0 (gangRecs []) stP0).gate = true ∧ (statusOf (failed 4 .cpy st [])).code = st.code ∧
    Oldest (gangRecs [failed 4 .cpy st [], younger]) (fun r => r.cmd.path = .cp ∧ 1 ≤ r.after) (failed 4 .cpy st []) ∧
    Oldest (gangRecs [failed 4 .cpy st [], younger]) (NamesReg 0 6 (gangRecs [])) (failed 4 .cpy st []) := by
  refine ⟨fun _ _ => by unfold State.ctx; rfl, by decide +kernel, ?_, oldest_of _ _ _ younger rfl rfl ⟨rfl, Nat.le_refl 1⟩ (show 4 < 9 by decide),
    oldest_of _ _ _ younger rfl rfl ⟨rfl, rfl⟩ (show 4 < 9 by decide)⟩
  by_cases h : st.code = 5 <;> simp [failed, statusOf, h]

/-- A CPYM of gang 1 that has faulted names register 3 of gang 0. -/
def mirrored : Completion := failed 4 .cpym ⟨2, 0, 0x40, 0x40, 0⟩ [mirrorLine]
def mirrorGang : Gang := { gangRecs [mirrored, younger] with gid := 1, g := 1, strands := [] }
theorem witness_WaitsAndMatrixFence_mirror : (∀ x ∈ (gangRecs []).records, x.reported = false → ¬NamesReg 0 3 (gangRecs []) x) ∧
    mirrorGang ∈ everyGang (onRecs [] [mirrored, younger]) ∧ mirrorGang.gid ≠ 0 ∧ Oldest mirrorGang (NamesReg 0 3 mirrorGang) mirrored ∧
    (statusOf mirrored).code ≠ 5 := by
  refine ⟨(fun x hx => nomatch hx), List.mem_append_left _ (List.mem_cons_of_mem _ List.mem_cons_self), Nat.one_ne_zero,
    oldest_of _ _ _ younger rfl rfl ?_ (show 4 < 9 by decide), by decide +kernel⟩
  rw [NamesReg, if_pos (by decide +kernel : mirrored.cmd.kind = .cpym)]
  exact ⟨mirrorLine, List.mem_cons_self, rfl⟩

/-- SREAD from a drive that is not enabled, and past the end of one that is. -/
theorem witness_OtherCommandsAccepted_noDrive : ((onEng gangEng).drive 0).enabled = false ∧ ((onEng gangEng).drive 31).enabled = true ∧
    ((onEng gangEng).drive 31).capacity < 100 + 1 := by decide +kernel

theorem whole_mx : WholeGang ctxMx := by unfold WholeGang; decide +kernel

/-- MMA of BF16 with B's first row at −2: two rows of padding. -/
def wMma : ModWord := ⟨1, 1, 1, 0, 0, 0, 0⟩
def mmaRows : List Int := (List.range (mmaK 1)).map fun (k : Nat) => ((ctxMx.val64 (onEng gangMx) (.imm 0xFFFFFFFE)).extractLsb' 0 32).toInt + (k : Int)

theorem witness_TileOperationsIssue : (onEng gangMx).ctx = some ctxMx ∧ ctxMx.gate = true ∧ ctxMx.tileOk (onEng gangMx) 7 = true ∧
    ctxMx.g.accesses = [] ∧ ctxMx.tileRoom = true ∧ (Instr.mma 7 (.v 120) (.imm 0xFFFFFFFE) wMma).wf = true ∧
    ctxMx.srcRangeOk (onEng gangMx) (.v 120) (Accept.mmaRegs 1) = true ∧ WholeGang ctxMx ∧
    let sh := ctxMx.shape 1
    mmaRows.head? = some (-2) ∧ sh.reserved = false ∧ sh.blockOk 1 = true ∧ sh.badB 1 (-2) (sh.cells mmaRows) = false ∧
    ScratchReady (onEng gangMx) ctxMx (sh.needs 1 (sh.cells mmaRows)) (sh.needs 1 (sh.cells mmaRows)) :=
  ⟨ctx_mx, by decide +kernel, by decide +kernel, rfl, by decide +kernel, by decide +kernel, by decide +kernel, whole_mx, by decide +kernel,
    by decide +kernel, by decide +kernel, by decide +kernel, scratch_ready (by decide +kernel)⟩

/-- MMAG with its list at byte 2048: sixteen entries of 0. -/
theorem witness_TileOperationsIssue_mmag : (Instr.mmag 7 (.v 120) (.imm 2048) wMma).wf = true ∧
    let s := onEng gangMx
    let all := s.flush 0 (List.range 8)
    let sh := ctxMx.shape 1
    let list := (List.range (4 * mmaK 1)).map (2048 + ·)
    let rows := (List.range (mmaK 1)).map fun i => ofLe ((List.range 4).map fun x => s.byteAt (s.localPlace gangMx 1 (2048 + 4 * i + x)))
    let cells := sh.cells ((rows.filter fun r => !voidEntry sh r).map fun (r : Nat) => (r : Int))
    (ctxMx.val64 s (.imm 2048)).toNat % 2 ^ 32 = 2048 ∧ sh.reserved = false ∧ (∀ b ∈ list, s.spoilt (s.localPlace gangMx 1 b) = false) ∧ ScratchReady s ctxMx list list ∧ sh.misplaced 1 cells = false ∧
    ScratchReady all ctxMx (sh.needs 1 cells) (sh.needs 1 cells) ∧
    (∀ i, i < 4 * mmaK 1 → all.byteAt (all.localPlace gangMx 1 (2048 + i)) = s.byteAt (s.localPlace gangMx 1 (2048 + i))) :=
  ⟨by decide +kernel, by decide +kernel, by decide +kernel, by decide +kernel, scratch_ready (by decide +kernel), by decide +kernel,
    scratch_ready (by decide +kernel), by decide +kernel⟩

/-- MXV of one pair of tiles, X in tile 0 and Y in tile 1, one row of 32 columns of FP8, W from 0x10180 on. -/
def gangMxv : Gang := { gangMx with a := [(6, bigArray 4 0x10180)] }
def ctxMxv : Ctx := ⟨is0, gangMxv, stP0⟩

theorem witness_TileOperationsIssue_mxv : (onEng gangMxv).ctx = some ctxMxv ∧ (Instr.mxv (.imm64 (0x4000 * 3 + 0x20)) 6).wf = true ∧
    let x := mxvWord (ctxMxv.val64 (onEng gangMxv) (.imm64 (0x4000 * 3 + 0x20))).toNat
    let ar := ctxMxv.arr 6
    x.ok ((onEng gangMxv).tmplOf gangMxv).accs = true ∧ ar.space = 4 ∧ ar.base % 128 = 0 ∧ x.bytes ≤ ar.bytes :=
  ⟨ctx_on _ _ _ rfl rfl rfl rfl, by decide +kernel, by decide +kernel, by decide +kernel, by decide +kernel, by decide +kernel⟩

/-- The rest: MXLOAD, MXSCALE in its three forms, MXDRAIN to registers, AMASK by keys and by tree, ASOFT with and without O,
HEAT to chip scratch. -/
theorem witness_TileOperationsIssue_rest :
    let s := onEng gangMx
    let sh := ctxMx.shape 1
    let cells := sh.cells ((List.range 16).map fun i => ((0 + i : Nat) : Int))
    sh.fmt ≤ 2 ∧ sh.misplaced sh.fmt cells = false ∧ ScratchReady s ctxMx (sh.needs sh.fmt cells) (sh.needs sh.fmt cells) ∧
    (Instr.mxscale 7 (.v 127) 0).wf = true ∧ (Instr.mxscale 7 (.v 127) 1).wf = true ∧ (Instr.mxscale 7 (.imm 0x40000000) 2).wf = true ∧
    Ready s ctxMx [] [.v 127] ∧ Ready s ctxMx [] [.imm 0x40000000] ∧
    (∀ f : BitVec 4, f ≤ 2 → (Instr.mxdrainReg 7 120 1 f).wf = true) ∧ ctxMx.vOk s 120 8 = true ∧ ctxMx.room .mx = true ∧
    ctxMx.treeOk s 0 = true ∧ (Instr.asoft 7 5 0 1 6).wf = true ∧ (Instr.asoft 7 0 1 1 6).wf = true ∧ ctxMx.tileOk s 5 = true ∧
    ctxMx.tileOk s 6 = true ∧ (Instr.heat 7 .zero 7).wf = true ∧ (ctxMx.arr 7).logsz = 2 ∧
    isGo (ctxMx.prep s (ctxMx.arr 7) .zero 0 16 1 false true false [3]) [lane0 0] [] = true :=
  ⟨by decide +kernel, by decide +kernel, scratch_ready (by decide +kernel), by decide +kernel, by decide +kernel, by decide +kernel,
    ready_of (by decide +kernel), ready_of (by decide +kernel), by decide +kernel, by decide +kernel, by decide +kernel, by decide +kernel,
    by decide +kernel, by decide +kernel, by decide +kernel, by decide +kernel, by decide +kernel, by decide +kernel, by decide +kernel⟩

/-! ## Witnesses: key tables and trees, children and populations -/

/-- No node offends where only the root is kept: every live word but word 0 is absent. -/
def withV14 (f : Nat → Nat → W32) : Gang :=
  let thread (k j : Nat) (t : Thread) : Thread := { t with v := [(14, f k j)] }
  { gang0 with slices := mapI (fun k sl => { sl with threads := mapI (thread k) 0 sl.threads }) 0 gang0.slices }
def gangTree : Gang := withV14 fun k j => if k = 0 ∧ j = 0 then 0 else 0x80000000
def ctxTree : Ctx := ⟨is0, gangTree, st0⟩

def ttWord (h t : Nat) : Nat := if (gangTree.halfThread h t).live then ((gangTree.halfThread h t).vreg 14).toNat else 2 ^ 31

theorem witness_KeysAndTrees : (on gangTree).ctx = some ctxTree ∧ ctxTree.gate = true ∧ ctxTree.vOk (on gangTree) 124 4 = true ∧ WholeGang ctxTree ∧
    ctxTree.treeOk (on gangTree) 0 = true ∧ ctxTree.vOk (on gangTree) 14 1 = true ∧
    (∀ h ∈ gangTree.halves, ∀ t, t < 32 → (t = 0 → ttWord h t = 0) ∧ (t ≠ 0 → (ttWord h t).testBit 31 = true)) ∧
    Ready (on gangTree) ctxTree [.v 127] [] ∧ Ready (on gangTree) ctxTree [.v 127] [.v 14] ∧
    (Instr.ttpos (.v 127) (.v 14) 6 0).wf = true ∧ Accept.srcSZ .zero = true ∧ gangTree.slices.length ≤ 8 ∧ gangTree.accesses = [] ∧
    gangTree.tileOps = [] ∧ (gangTree.sreg 6).toNat % 2 ^ 32 = 0 ∧ (ctxTree.val64 (on gangTree) .zero).toNat = 0 ∧
    (gangTree.tree 0 0).present 0 = true ∧ 4 * ((gangTree.tree 0 0).pruneList 0).length ≤ ((on gangTree).tmplOf gangTree).scratchBytes :=
  ⟨ctx_on _ _ _ rfl rfl rfl rfl, by decide +kernel, by decide +kernel, by unfold WholeGang; decide +kernel, by decide +kernel, by decide +kernel,
    by decide +kernel, ready_of (by decide +kernel), ready_of (by decide +kernel), by decide +kernel, by decide +kernel, by decide +kernel, rfl,
    rfl, by decide +kernel, by decide +kernel, by decide +kernel, by decide +kernel⟩

/-- Word 1 of group 0 names parent 127, which is not below it: it offends. -/
theorem witness_KeysAndTrees_offends :
    let g : Gang := withV14 fun k j => if k = 0 ∧ j = 1 then 127 else if k = 0 ∧ j = 0 then 0 else 0x80000000
    (on g).ctx = some ⟨is0, g, st0⟩ ∧ (0 : Nat) ∈ g.halves ∧ (g.halfThread 0 1).live = true ∧ ((g.halfThread 0 1).vreg 14).toNat = 127 ∧ 1 ≤ 127 % 128 :=
  ⟨ctx_on _ _ _ rfl rfl rfl rfl, by decide +kernel, by decide +kernel, by decide +kernel, by decide⟩

/-- A template of one gang of 16 registers at 0x300000, and a launch record of one team at 0x10400. -/
def template0 : List Byte := leBytes 8 0x10008 ++ leBytes 2 1 ++ [1, 16, 8, 0, 0, 0] ++ leBytes 2 1 ++ leBytes 2 0 ++ [2, 0, 0] ++ leBytes 8 0 ++ leBytes 8 0 ++
  leBytes 8 0 ++ leBytes 8 0 ++ leBytes 8 0 ++ [0]
def launch0 : List Byte := leBytes 2 0 ++ [0, 0] ++ leBytes 4 1 ++ leBytes 8 0 ++ leBytes 8 0 ++ leBytes 8 0 ++ leBytes 8 0 ++ leBytes 8 0 ++ leBytes 8 0 ++ leBytes 8 0
def gangParent : Gang := { gangOne with s := [(2, 0x10400)] }
def ctxParent : Ctx := ⟨is0, gangParent, stP0⟩
def withTemplate (s : State) : State := ((s.setMg Mgmt.lttbase 0x300000).pokePhys 0x300000 template0).setMg (Mgmt.astbase) (s.mg Mgmt.astbase)
def onLaunch : State := (withTemplate (onMem gangParent)).pokePhys 0x140400 launch0
theorem ctx_parent : onLaunch.ctx = some ctxParent := ctx_on _ _ _ rfl rfl rfl rfl
def launchRead : State × List Byte := placed ((onLaunch.flush 0 (List.range 8)).readVirt 0 1 0x10400 64)

theorem witness_ChildrenAndPopulations_launch : onLaunch.ctx = some ctxParent ∧ ctxParent.gate = true ∧ ctxParent.g.accesses = [] ∧
    onLaunch.launchStalls gangParent = false ∧ (gangParent.sreg 2).toNat = 0x10400 ∧ onLaunch.grid? gangParent.grid = some grid0 ∧
    (onLaunch.tmplOf gangParent).asid = 1 ∧
    (onLaunch.flush 0 (List.range 8)).readVirt 0 1 0x10400 64 = .ok (launchRead.1, launchRead.2) ∧ (launchRead.1.gang? 0).isSome = true ∧
    launchRead.2 = launch0 ∧
    launchRead.1.childStatus grid0.depth 0 { parseLaunch launch0 with template := 0 } = (0, some (parseTemplate template0).1) ∧
    (launchRead.1.childStatus grid0.depth 0x10000 { parseLaunch launch0 with template := 0 }).1 = 3 ∧ (parseLaunch launch0).flags.testBit 2 = false :=
  ⟨ctx_parent, by decide +kernel, rfl, by decide +kernel, by decide +kernel, by decide +kernel, by decide +kernel, placed_ok (by decide +kernel),
    by decide +kernel, by decide +kernel, by decide +kernel, by decide +kernel, by decide +kernel⟩

theorem witness_ChildrenAndPopulations_rest : (Instr.rng (.v 127) (.imm 0) .zero).wf = true ∧ Ready (on gang0) ctx0 [.v 127] [.imm 0, .zero] ∧
    ctx0.parkOk (on gang0) 0x60 31 = true ∧ ctx0.parkOk (on gang0) 0x80 31 = true ∧ ctx0.gate = true ∧
    (∀ x ∈ (List.range ((31 : BitVec 5).toNat + 1)).map ((0x60 : BitVec 8).toNat + ·),
      (on gang0).firnPoisoned gang0 x = none ∧ (on gang0).cellsHold (gang0.image x) = true) :=
  ⟨by decide +kernel, ready_of (by decide +kernel), by decide +kernel, by decide +kernel, by decide +kernel, by decide +kernel⟩

/-- A population of 64 slots that gathers; its gangs have met, with every thread on. -/
def popMet : Population := { slots := 64, round := 3, phase := .idle, lastN := 0, lastParents := 0, lastW := 0, arrivals := [], releasing := [], short := [] }
def gridMet : Grid := { grid0 with pop := some popMet }
def stMet : Strand := { st0 with wait := .met, mode := 0 }
def gangMet (n : Nat) : Gang :=
  { gang0 with gid := n, strands := [stMet], slices := gang0.slices.map fun sl => { sl with threads := sl.threads.map fun t => { t with p := 1 } } }
def ctxMet : Ctx := ⟨is0, gangMet 0, stMet⟩
def onPop (gs : List Gang) : State := { on gang0 with gangs := gs, grids := [gridMet] }

theorem met_all : (List.range 8).all (fun k => (List.range 4).all fun j => ctxMet.st.slices.contains k && ctxMet.enabled k j) = true := by decide +kernel

theorem witness_ChildrenAndPopulations_resample : (onPop [gangMet 0, gangMet 1]).ctx = some ctxMet ∧ (onPop [gangMet 0]).ctx = some ctxMet ∧
    (Instr.resample (.v 0) (.v 1) (.imm 64)).wf = true ∧ Ready (onPop [gangMet 0]) ctxMet [.v 0] [.v 1] ∧
    (onPop [gangMet 0]).grid? 1 = some gridMet ∧ ctxMet.g.grid = 1 ∧ popMet.phase ≠ .committed ∧ popMet.phase ≠ .counting ∧ ctxMet.st.wait = .met ∧
    ctxMet.st.ret = [] ∧ ctxMet.g.records = [] ∧ ctxMet.g.paths = [] ∧ (onPop [gangMet 0]).near = [] ∧
    (∀ k, k < ctxMet.g.slices.length → ∀ j, j < 4 → (ctxMet.g.thread k j).live = true → k ∈ ctxMet.st.slices ∧ ctxMet.enabled k j = true) ∧
    ctxMet.g.isLive = true ∧ popMet.arrivals = [] ∧ (onPop [gangMet 0, gangMet 1]).liveGids 1 = [0, 1] ∧ (onPop [gangMet 0]).liveGids 1 = [0] :=
  ⟨by decide +kernel, by decide +kernel, by decide +kernel, ready_of (by decide +kernel), by decide +kernel, rfl, by decide, by decide, rfl, rfl, rfl,
    rfl, rfl, fun k hk j hj _ => by
      have := List.all_eq_true.1 (List.all_eq_true.1 met_all k (List.mem_range.2 hk)) j (List.mem_range.2 hj)
      simpa using this, by decide +kernel, rfl, by decide +kernel, by decide +kernel⟩

/-! A round of two gangs, in each of which thread 0 alone is live still: that of gang n is in slot n, its weight is `f n`. -/

def roundGang (n : Nat) : Gang := { gangMet n with
  strands := [{ stMet with wait := .resample }]
  slices := mapI (fun k sl => { sl with threads := mapI (fun j t => { t with popix := n, live := decide (k = 0 ∧ j = 0) }) 0 sl.threads }) 0 (gangMet n).slices }
def arrivalOf (f : Nat → Nat) (n m : Nat) : Arrival := { issue := { is0 with gang := n }, dst := .v 0, n := m, weights := [(0, f n)] }
def roundPop (f : Nat → Nat) (m0 m1 : Nat) : Population := { popMet with phase := .gathering, arrivals := [arrivalOf f 0 m0, arrivalOf f 1 m1] }

/-- The windows of slots 0 and 1 are mapped, each to a page of its own. -/
def windows (s : State) : State :=
  (s.placeMemory []).pokePhys (Machine.placed + 0x30000) ((List.range 2).flatMap fun i => leBytes 8 (codeLeaf (Machine.placed + 0x40000 + 65536 * i)))
def onRound (f : Nat → Nat) (m0 m1 : Nat) (mem : List Host.Cell) : State :=
  { on gang0 with gangs := [roundGang 0, roundGang 1], grids := [{ grid0 with pop := some (roundPop f m0 m1) }], mem := mem }

theorem round_sound (f : Nat → Nat) (m0 m1 : Nat) (mem : List Host.Cell) : RoundSound (onRound f m0 m1 mem) 1 (roundPop f m0 m1) := by
  have live : ∀ n, n < 2 → ∀ t, t < 32 → (((roundGang n).thread (t / 4) (t % 4)).live = true ↔ t = 0) := by decide +kernel
  have four : ∀ n, n < 2 → ∀ sl ∈ (roundGang n).slices, sl.threads.length = 4 := by decide +kernel
  have one : ∀ n, n < 2 → (onRound f m0 m1 mem).gang? n = some (roundGang n) := fun n hn => match n, hn with
    | 0, _ => rfl
    | 1, _ => rfl
  have here : ∀ n, n < 2 → ∀ code, (roundGang n).spilled code = false := fun n _ code => by
    have h : ((roundGang n).slices.map fun sl => sl.classes) = List.replicate 8 [] := rfl
    simp only [Gang.spilled, List.any_eq_false, decide_eq_true_eq]
    intro sl hm
    have := List.eq_of_mem_replicate (h ▸ List.mem_map_of_mem (f := fun sl : Slice => sl.classes) hm)
    simp [Slice.cls, this, Sparse.get]
  have each : ∀ n, n < 2 → ∀ m, ∃ g, (onRound f m0 m1 mem).gang? (arrivalOf f n m).issue.gang = some g ∧ g.grid = 1 ∧ g.active = true ∧
      (∀ code, g.spilled code = false) ∧ (∀ sl ∈ g.slices, sl.threads.length = 4) ∧ (∃ st, g.strand? (arrivalOf f n m).issue.slice = some st) ∧
      ((arrivalOf f n m).weights.map Prod.fst).Nodup ∧
      ∀ t, t ∈ (arrivalOf f n m).weights.map Prod.fst ↔ t < 4 * g.slices.length ∧ (g.thread (t / 4) (t % 4)).live = true := by
    intro n hn m
    refine ⟨roundGang n, one n hn, rfl, rfl, here n hn, four n hn, ⟨_, rfl⟩, by simp [arrivalOf], fun t => ?_⟩
    have h : t ∈ (arrivalOf f n m).weights.map Prod.fst ↔ t = 0 := by simp [arrivalOf]
    rw [h]
    exact ⟨fun e => ⟨e ▸ (show 0 < 4 * 8 by decide), (live n hn t (e ▸ by decide)).2 e⟩, fun e => (live n hn t e.1).1 e.2⟩
  refine ⟨by simp [roundPop, arrivalOf, is0], fun x hx => ?_⟩
  rcases List.mem_cons.1 hx with rfl | hx
  · exact each 0 (by decide) m0
  · rw [List.mem_singleton.1 hx]; exact each 1 (by decide) m1

/-- The parents in slot order; weights of 1, of gang 0 alone, none; a NaN. -/
def parents (f : Nat → Nat) : List Parent := (List.range 2).map fun p => { gid := p, t := 0, slot := p, w := f p }
def ones (_ : Nat) : Nat := 0x3F800000
def first (p : Nat) : Nat := if p = 0 then 0x3F800000 else 0
def nan (p : Nat) : Nat := if p = 1 then 0x7FC00000 else 0

/-- The conditions of each of the round's ends: POPWEIGHT of each kind; a window missing; a pool short; the commit. -/
theorem witness_ChildrenAndPopulations_round :
    ([ones, first, nan, fun _ => 0].all fun f => decide (parentsOf (onRound f 64 64 []) (roundPop f 64 64) = parents f)) = true ∧
    (parents ones).Pairwise (fun x y => x.slot < y.slot) ∧ (roundGang 0).trap.tcause.getLsbD 63 = false ∧
    ((parents nan).any fun p => weightBad p.w) = true ∧ ([ones, first, fun _ => 0].all fun f => (parents f).all fun p => !weightBad p.w) = true ∧
    weightSum (parents fun _ => 0) 2 = 0 ∧ weightSum (parents ones) 2 ≠ 0 ∧ weightSum (parents first) 2 ≠ 0 ∧
    (arrivalOf ones 0 63).n ≠ 64 ∧ 64 ≤ 4 * (roundGang 0).slices.length + 4 * (roundGang 1).slices.length ∧
    ((onRound ones 64 64 []).windowLeaf 1 0).isNone = true := by decide +kernel

def shortRound : State := onRound first 64 64 (windows State.reset).mem
def fullRound : State := onRound ones 2 2 (windows State.reset).mem

theorem witness_ChildrenAndPopulations_short : ((parents first).all fun p => (shortRound.windowLeaf 1 p.slot).isSome) = true ∧
    pagesPopped shortRound 1 (parents first) 64 0 0 = 1 ∧ shortRound.poolValid 0 = false := by decide +kernel

theorem witness_ChildrenAndPopulations_windows : ((parents ones).all fun p => (fullRound.windowLeaf 1 p.slot).isSome) = true := by
  decide +kernel

theorem sum_zero : ∀ l : List Nat, (∀ x ∈ l, x = 0) → l.sum = 0
  | [], _ => rfl
  | a :: l, h => by rw [List.sum_cons, h a List.mem_cons_self, sum_zero l fun x hx => h x (List.mem_cons_of_mem _ hx)]

/-- One offspring each, whatever the stack: no page is popped. -/
theorem witness_ChildrenAndPopulations_commit (h : Nat) : pagesPopped fullRound 1 (parents ones) 2 0 h = 0 := by
  unfold pagesPopped
  refine sum_zero _ fun x hx => ?_
  obtain ⟨p, hp, rfl⟩ := List.mem_map.1 hx
  revert p
  have all : ∀ p ∈ ((parentLeaves fullRound 1 (parents ones)).map pageAddr).eraseDups,
      ((((List.range (parents ones).length).filter fun i => decide ((((parents ones)[i]?).bind fun x =>
        fullRound.windowLeaf 1 x.slot).map pageAddr = some p)).map (childrenOf (parents ones) 2 0)).sum + 62) / 63 - 1 = 0 := by decide +kernel
  exact fun p hp _ => all p (List.mem_filter.1 hp).1

/-! ## Witnesses: the scheduler's events -/

/-- Core 0's clock at 20000. -/
def late (s : State) : State := { s with cycles := s.cycles.map fun _ => 20000 }

def sched (w : Wait) : Strand := { st0 with wait := w }
def gangW (n : Nat) (w : Wait) : Gang := { gang0 with gid := n, strands := [sched w] }

/-- Sixteen gangs in the slots of a partition and one that has been ready without a slot since cycle 0. -/
def crowd (w : Wait) : State :=
  late { on gang0 with gangs := (List.range 16).map (fun n => { gangW n w with slot := n }) ++ [{ gangW 16 .none with active := false, readySince := some 0 }] }

/-- A strand that holds the latch since 19936 and has been ready for 128 cycles: it holds the longest wait of its quarter. -/
def stHold : Strand := { st0 with hold := some 19936, readySince := some 19872, lastIssue := 19872, since := 19872, fair := 511 }
def gangHold : Gang := { gang0 with strands := [stHold] }

/-- Two strands, of which one has had its 512 turns. -/
def stTurn : Strand := { st0 with slices := [0, 1, 2, 3], lastIssue := 19900, fair := 511 }
def stDone : Strand := { st0 with slices := [4, 5, 6, 7], fair := 512 }
def gangTurn : Gang := { gang0 with strands := [stTurn, stDone] }

theorem witness_SchedulerEvents_strands :
    (late (on (gangW 0 (.sleep 20000 0x1000C)))).gang? 0 = some (gangW 0 (.sleep 20000 0x1000C)) ∧
    (gangW 0 (.sleep 20000 0x1000C)).strand? 0 = some (sched (.sleep 20000 0x1000C)) ∧
    (late (on gang0)).cycleOf gang0.core = 20000 ∧ gang0.stopped = false ∧ (sched (.sleep 20000 0x1000C)).held = false := by
  decide +kernel

theorem witness_SchedulerEvents_turns :
    (late (on gangHold)).gang? 0 = some gangHold ∧ gangHold.strand? 0 = some stHold ∧ 19936 + 64 ≤ 20000 ∧ stHold.ready = true ∧
    gangHold.active = true ∧ gangHold.stopped = false ∧ stHold.readySince = some 19872 ∧ 19872 + 128 ≤ 20000 ∧
    (late (on gangHold)).first = [] ∧
    (∀ x ∈ (late (on gangHold)).gangs, ∀ y ∈ x.strands, y.readySince = some 19872) ∧
    gangTurn.strand? 0 = some stTurn ∧ stTurn.ready = true ∧ stTurn.fair < 512 ∧ stDone ∈ gangTurn.strands ∧ 512 ≤ stDone.fair ∧
    ∀ y ∈ gangTurn.strands, y.ready = true → y.fair < 512 → y = stTurn := by decide +kernel

/-- A gang at a barrier is blocked at once; one that waits on paths after 2,048 cycles. -/
theorem witness_SchedulerEvents_eligible :
    let s := late (on (gangW 0 .paths))
    let g := gangW 0 .paths
    s.gang? 0 = some g ∧ g.active = true ∧ g.eligible = false ∧ s.blocked g = true ∧
    ∀ st ∈ g.strands, st.blockedLong = true ∧ st.since + 2048 ≤ s.cycleOf g.core := by decide +kernel

theorem witness_SchedulerEvents_swapOut :
    let s := crowd (.barrier 0)
    let g : Gang := { gangW 0 (.barrier 0) with slot := 0 }
    s.gang? 0 = some g ∧ s.crowded g = true ∧ s.swappable g = true ∧
    ∀ x ∈ s.gangs, sameQuarter x g = true → s.swappable x = true → g.blockedSince ≤ x.blockedSince := by decide +kernel

theorem witness_SchedulerEvents_forced :
    let s := crowd .none
    let g : Gang := { gangW 0 .none with slot := 0 }
    let x : Gang := { gangW 16 .none with active := false, readySince := some 0 }
    s.gang? 0 = some g ∧ s.crowded g = true ∧ g.active = true ∧ g.parking = false ∧
    (∀ y ∈ s.gangs, sameQuarter y g = true → s.swappable y = false) ∧ x ∈ s.gangs ∧ sameQuarter x g = true ∧
    Max.max 0 g.slotSince + 16000 ≤ s.cycleOf g.core ∧ (∀ st ∈ g.strands, s.holding g st = false) ∧
    ∀ y ∈ s.gangs, sameQuarter y g = true → y.active = true → y.parking = false → g.slotSince ≤ y.slotSince := by decide +kernel

theorem witness_SchedulerEvents_slots :
    (let g : Gang := { gangW 0 .none with active := false, readySince := some 0 }
     (late (on g)).gang? 0 = some g ∧ (late (on g)).gangReady g = true ∧ (late (on g)).canEnter g = true ∧
     (g.issues = 0 ∨ (late (on g)).uniformPoisoned g = none) ∧
     ∀ x ∈ (late (on g)).gangs, x = g) ∧
    (let g : Gang := { gangW 0 .none with parking := true }
     (on g).gang? 0 = some g ∧ ∀ op ∈ g.tileOps, op.kind = .drainReg → op.done = true) ∧
    (let g : Gang := { gangW 0 .none with slices := gang0.slices.map fun sl => { sl with threads := sl.threads.map fun t => { t with live := false } } }
     (on g).gang? 0 = some g ∧ g.isLive = false ∧ g.released = false ∧ g.idle = true) ∧
    (let g : Gang := { gangW 0 .none with watchdog := 1001 }
     let s := (on g).setMg (Mgmt.wdlimit 0) 1000
     s.gang? 0 = some g ∧ s.mg (Mgmt.wdlimit g.core) = 1000 ∧ g.limitRaised = false ∧ g.stopped = false ∧ ∀ st ∈ g.strands, st.held = false) := by
  decide +kernel

/-- v1 is spilled and the gang's strand stalls at an instruction that reads it. -/
def gangSpilled : Gang :=
  { gangW 0 .spill with slices := gang0.slices.map fun sl => { sl with classes := [(1, RegClass.spilled)] }, parkQ := [2] }
def onSpill : State := { on gangSpilled with mem := (State.reset.placeMemory (encode (.add (.v 0) (.v 1) (.imm 1)))).mem }

theorem witness_SchedulerEvents_spill : onSpill.gang? 0 = some gangSpilled ∧ 2 ∈ gangSpilled.parkQ ∧ 2 ∉ gangSpilled.pendingRegs ∧
    (∃ names ∈ onSpill.stalls gangSpilled, 1 ∈ names) ∧ gangSpilled.spilled 1 = true ∧
    (gangSpilled.filled 1).fits (onSpill.tmplOf gangSpilled).budget = true ∧ onSpill.firnPoisoned gangSpilled 1 = none ∧
    onSpill.cellsHold (gangSpilled.image 1) = true := by
  have h : (onSpill.stalls gangSpilled).any (fun names => names.contains 1) = true := by decide +kernel
  obtain ⟨names, hm, hc⟩ := List.any_eq_true.1 h
  exact ⟨by decide +kernel, by decide +kernel, by decide +kernel, ⟨names, hm, by simpa using hc⟩, by decide +kernel, by decide +kernel, by decide +kernel, by decide +kernel⟩

/-! ## Witnesses: accepted work, waiting strands, rings -/

def write0 : Access := { id := 4, load := false, slices := [0], scope := 3, release := false, writes := [⟨.scratch 7 0, 9, 0⟩], counted := 0, seen := none }
def line0s : Landing :=
  { id := 0, dst := .scratch 7 128, virt := none, bytes := List.replicate 128 (.place (.chip 3)), lc := some (0, 3), armed := true, landed := false
    written := false, raced := [] }
def copy0 : Cmd := { Cmd.offer ctxEng .cpy .cp cmd0 [line0s] with id := 5 }
def copyDone : Cmd := { copy0 with lines := [{ line0s with landed := true, written := true }] }
def gangWork : Gang := { gangEng with accesses := [write0], cmds := [copy0] }

/-- A release behind a store of its slices, and a counted store. -/
def release0 : Access := { write0 with id := 5, release := true, scope := 1, writes := [] }
def counted0 : Access := { write0 with writes := [⟨.phys 0x140100, 9, 0⟩], counted := 2 }

theorem witness_WorkEvents_access : (onEng gangWork).gang? 0 = some gangWork ∧
    gangWork.accesses.find? (fun x => decide (x.id = write0.id)) = some write0 ∧ gangWork.blockedBy write0 = false ∧
    (∀ x ∈ (onEng gangWork).gangs, ∀ y ∈ x.accesses, y.seen = none) ∧
    (onEng gangWork).teamByKey? 7 = some team0 := by decide +kernel

theorem witness_WorkEvents_release :
    let g : Gang := { gangEng with accesses := [{ write0 with scope := 0 }, release0] }
    (onEng g).gang? 0 = some g ∧ g.accesses.find? (fun x => decide (x.id = release0.id)) = some release0 ∧ g.blockedBy release0 = false ∧
    (∀ x ∈ (onEng g).gangs, ∀ y ∈ x.accesses, y.seen = none) ∧ release0.writes = [] ∧
    (g.accesses.takeWhile fun x => x.id ≠ release0.id) = [{ write0 with scope := 0 }] ∧ meets write0.slices release0.slices = true := by decide +kernel

theorem witness_WorkEvents_counted :
    let g : Gang := { gangEng with accesses := [counted0] }
    (onEng g).gang? 0 = some g ∧ g.accesses.find? (fun x => decide (x.id = counted0.id)) = some counted0 ∧ g.blockedBy counted0 = false ∧
    counted0.counted ≠ 0 ∧ 0x140100 < Config.localHbm := by decide +kernel

/-- 11 R303: a landing leaves the bytes of another command's line that is still to land unordered with it. -/
theorem test_raced_line :
    let other : Cmd := { copy0 with id := 6 }
    let g := { gangWork with cmds := [copy0, other] }
    (((onEng g).raceLine 0 5 line0s.dst [0, 1]).gang? 0).map (fun g => g.cmds.map fun k => k.lines.map fun l => l.raced) =
      some [[[]], [[0, 1]]] := by decide +kernel

theorem witness_WorkEvents_landing :
    let s := onEng gangWork
    gangWork.cmds.find? (fun x => decide (x.id = copy0.id)) = some copy0 ∧ copy0.kind = .cpy ∧ copy0.built = true ∧ copy0.stopped = false ∧
    gangWork.frozen copy0.kind = false ∧ copy0.lines.find? (fun x => decide (x.id = line0s.id)) = some line0s ∧ line0s.written = false ∧
    line0s.landed = false ∧ line0s.virt = none ∧ line0s.raced = [] ∧ line0s.bytes.length = 128 ∧
    (line0s.bytes.all fun b => isPlain b && decide (b = .place (.chip 3))) = true ∧ s.spoilt (.chip 3) = false ∧
    line0s.dst = .scratch 7 (128 * 1) ∧ (s.teamByKey? 7).isSome = true ∧ line0s.lc = some (0, 3) ∧ s.saved = [] := by decide +kernel

theorem witness_WorkEvents_complete :
    let g : Gang := { gangEng with cmds := [copyDone] }
    (onEng g).gang? 0 = some g ∧ g.cmds.find? (fun x => decide (x.id = copyDone.id)) = some copyDone ∧ copyDone.built = true ∧
    copyDone.kind.elsewhere = false ∧ copyDone.stopped = false ∧ g.frozen copyDone.kind = false ∧ copyDone.replay = false ∧
    (∀ l ∈ copyDone.lines, l.written = true) ∧ copyDone.fault = none ∧ copyDone.bounded = none ∧ copyDone.kind ≠ .drain := by decide +kernel

theorem witness_WorkEvents_replay :
    let k : Cmd := { copyDone with replay := true, kind := .scata, rows := [.done [1]] }
    let g : Gang := { gangEng with cmds := [k] }
    (onEng g).gang? 0 = some g ∧ g.cmds.find? (fun x => decide (x.id = k.id)) = some k ∧ k.built = true ∧ k.kind.elsewhere = false ∧
    g.frozen k.kind = false ∧ k.replay = true ∧ (∀ l ∈ k.lines, l.written = true) ∧ k.fault = none ∧ k.bounded = none ∧ ∀ r ∈ k.rows, r ≠ .entry 0 := by decide +kernel

def isOkE {ε α : Type} : Except ε α → Bool
  | .ok _ => true
  | .error _ => false

/-- Each kind of tile operation, alone in its gang. -/
def opZero : TileOp := { TileOp.of ctxEng .mxzero [31] [] [] [] false with id := 6 }
def gangOp : Gang := { gangEng with tileOps := [opZero] }

def opMake (kind : TileKind) (tiles params : List Nat) : TileOp := { TileOp.of ctxEng kind tiles params [] [] false with id := 6 }

/-- The operation may complete, and touches each of its tiles once. -/
def opDue (op : TileOp) : Bool :=
  let g : Gang := { gangEng with tileOps := [op] }
  decide ((onEng g).gang? 0 = some g) && decide (g.tileOps.find? (fun x => decide (x.id = op.id)) = some op) && !op.done && !g.opWaits op &&
    g.isLive && (op.tiles.all fun n => !(onEng g).damaged.contains (EccTarget.tile 0 n)) && decide (op.fault = none) &&
    (op.lines.all fun l => !(onEng g).spoilt ((onEng g).localPlace g 1 (128 * l))) &&
    decide ((op.tiles.take g.halves.length).Nodup) && decide (g.halves.length ≤ op.tiles.length)

theorem witness_WorkEvents_tile : (onEng gangOp).gang? 0 = some gangOp ∧ gangOp.tileOps.find? (fun x => decide (x.id = opZero.id)) = some opZero ∧
    opDue opZero = true ∧ opDue (opMake .mxscale [31] [2]) = true ∧ opDue (opMake .amask [0] []) = true ∧
    opDue (opMake .heat [0] [0x10100]) = true := by decide +kernel

/-- MMA of FP32 matrices over 16 terms: 16 row numbers. -/
theorem witness_WorkEvents_tile_mma :
    opDue (opMake .mma [0] ([0, 0, 0, 1, 0] ++ List.range 16)) = true ∧ (([0, 0, 0, 1, 0] ++ List.range 16 : List Nat)).length = 5 + 512 / elemBits 0 ∧
    opDue (opMake .mmag [31] ([6, 8, 1, 0, 0] ++ List.replicate 64 0xFFFFFFFF)) = true ∧
    (([6, 8, 1, 0, 0] ++ List.replicate 64 0xFFFFFFFF : List Nat)).length = 5 + 512 / elemBits 6 := by decide +kernel

/-- An FP16 shape of one row and one column, record 31 of a sequence. -/
def elemShape : Nat := 2 ^ 80

theorem witness_WorkEvents_tile_shapes :
    opDue (opMake .mxload [0] [elemShape, 0]) = true ∧ (shapeOf elemShape).fmt = 1 ∧
    opDue (opMake .asoft [0, 1] [0, 2]) = true ∧ (opMake .asoft [0, 1] [0, 2]).tiles.Nodup ∧
    (opMake .asoft [0, 1] [0, 2]).tiles.length = 2 * gangEng.halves.length ∧
    opDue (opMake .asoft [0, 1, 2] [1, 3]) = true ∧ (opMake .asoft [0, 1, 2] [1, 3]).tiles.Nodup ∧
    (opMake .asoft [0, 1, 2] [1, 3]).tiles.length = 3 * gangEng.halves.length ∧
    opDue (opMake .drainReg [0] [8, 0, 1, 0, 0, 1]) = true ∧ opDue (opMake .drainReg [0] [8, 2, 0, 5, 1, 1]) = true ∧
    gangEng.slices.length ≤ 16 := by decide +kernel

/-- A drain of one FP16 element: one writer, of two bytes at 0. -/
theorem witness_WorkEvents_tile_drain :
    let op := opMake .drainScratch [0] [elemShape, elemShape, 1, 1, 0, 0]
    let g : Gang := { gangEng with tileOps := [op], cmds := [{ copy0 with id := 6, kind := .drain }] }
    opDue op = true ∧ ((drainMakes (onEng g) g op 0).1.map fun w => (w.1, w.2.1)) = [(0, 16)] ∧ line0s.dst = (onEng g).localPlace g 1 128 := by
  decide +kernel

/-- MXV over 32 columns and one row of weights at 0x10100, and where no page maps them. -/
def mxv1 (fmt : Nat) : Nat := fmt * 2 ^ 14
def opMxv (base : Nat) : TileOp := opMake .mxv [0, 0] [mxv1 1, base]

theorem witness_WorkEvents_tile_mxv :
    let x := mxvWord (mxv1 1)
    x.fmt = 1 ∧ x.yt + x.v ≤ 32 ∧ x.c = 32 ∧ (isOkE ((onEng gangEng).readWeights gangEng 0x10100 x.bytes false)) = true ∧
    (isOkE ((onEng gangEng).readWeights gangEng 0x4000000000 x.bytes false)) = false ∧
    opDue (opMxv 0x10100) = true ∧ opDue (opMxv 0x4000000000) = true := by decide +kernel

/-- An earlier operation on the same tile holds it back. -/
theorem witness_WorkEvents_tile_waits : { gangOp with tileOps := [{ opZero with id := 5 }, opZero] }.opWaits opZero = true := by decide +kernel

theorem witness_WorkEvents_batch :
    let b : Batch := { id := 9, ops := [6], pc := 0x10008, word := 0 }
    let g : Gang := { gangEng with tileOps := [{ opZero with done := true, flags := 0x11 }], batches := [b] }
    (onEng g).gang? 0 = some g ∧ g.batches.find? (fun x => decide (x.id = b.id)) = some b ∧
    ∀ o ∈ g.tileOps, o.id ∈ b.ops → o.done = true ∧ o.fault = none := by decide +kernel

theorem witness_WorkEvents_heat :
    let x : HeatAdd := { id := 2, va := 0, place := some (.chip 8), value := 0x3F800000 }
    let g : Gang := { gangEng with heats := [x] }
    (onEng g).gang? 0 = some g ∧ g.heats.find? (fun y => decide (y.id = x.id)) = some x ∧ x.place = some (.chip 8) := by decide +kernel

theorem witness_WorkEvents_sread :
    let k : Cmd := { Cmd.offer ctxEng .sread .cp cmd0 [] with id := 5, params := [0, 512], rows := [.entry 0] }
    let g : Gang := { gangEng with cmds := [k] }
    let s : State := { onEng g with base := 2 ^ 28 }
    s.gang? 0 = some g ∧ g.cmds.find? (fun x => decide (x.id = k.id)) = some k ∧ k.kind = .sread ∧ k.fault = none ∧ k.rows = [.entry 0] ∧
    k.param 1 = 512 ∧ k.param 0 + 2 ^ 28 ≤ s.base := by decide +kernel

/-- A gang whose strand waits as `w` says, at the placed instruction `i`, late enough for either time-out. -/
def gangAgain (w : Wait) : Gang := { gangEng with strands := [{ stP0 with wait := w, emptySince := some 0 }] }
def onAgain (w : Wait) (i : Instr) : State :=
  { onEng (gangAgain w) with mem := (State.reset.placeMemory (encode i)).mem, cycles := (onEng gangEng).cycles.map fun _ => 2 ^ 25 }

def decodes (ws : List W32) (i : Instr) : Bool :=
  match decode ws with
  | .ok j => decide (j = i)
  | .error _ => false

/-- The issue reads the placed words, in the state as it is and in that where the reply is lost. -/
def againOk (w : Wait) (i : Instr) : Bool :=
  let s := onAgain w i
  let g := gangAgain w
  let st : Strand := { stP0 with wait := w, emptySince := some 0 }
  let lost : Strand := { st with wait := .lost }
  decide (s.gang? 0 = some g) && decide (g.strand? 0 = some st) && s.mayIssue g st &&
    (match s.fetch g st.pc with
      | (s1, .ok ws fall) => decodes ws i &&
        (match (s.put g lost).fetch (g.setStrand lost) st.pc with
          | (s2, .ok ws' fall') => decide (s2 = s1.put g lost) && decide (ws' = ws) && decide (fall' = fall)
          | _ => false)
      | _ => false)

theorem witness_WaitingStrandsIssueAgain : againOk .accept (.cpy (.imm 16) 5 6 cmd0) = true ∧ (acceptOf (.cpy (.imm 16) 5 6 cmd0)).isSome = true ∧
    againOk .empty (.ld (.v 0) .zero 6 word4) = true ∧ againOk .remote (.ld (.v 0) .zero 6 word4) = true ∧ (memOf (.ld (.v 0) .zero 6 word4)).isSome = true := by
  decide +kernel

theorem witness_WaitingStrandsIssueAgain_late :
    let s := onAgain .remote (.ld (.v 0) .zero 6 word4)
    s.cycleOf 0 - stP0.since = 2 ^ 25 ∧ 0 + 2 ^ 24 ≤ s.cycleOf 0 ∧ Max.max 4096 (s.mg Mgmt.ringtmo) * s.mhz.getD 0 4000 ≤ 2000 * 2 ^ 25 := by
  decide +kernel

/-- Each issues. -/
def againNext (w : Wait) (i : Instr) : Bool :=
  match (onAgain w i).issueWith 0 0 fun i => some (exec i) with
  | .next _ => true
  | _ => false

theorem witness_WaitingStrandsIssueAgain_issue : againNext .accept (.cpy (.imm 16) 5 6 cmd0) = true ∧
    againNext .empty (.ld (.v 0) .zero 6 word4) = true ∧ againNext .remote (.ld (.v 0) .zero 6 word4) = true := by decide +kernel

/-- A RING that runs on ring 0 with a line of 16 bytes to write in scratch, and a COLL of two members at position 0. -/
def lineR : Landing :=
  { line0s with bytes := (List.range 16).map (ByteSrc.row 0) ++ List.replicate 112 .hole, lc := none }
def ringCmd (kind ack : Nat) : Cmd :=
  { Cmd.offer ctxEng .ring .cl cmd0 [lineR] with
    id := 5, params := [0, 0, 1, 2 ^ 63 + 2 ^ 8, 16, 3, 2, 0, 0, 0, 0x10100, 0, 0x10180, 0x10600, 0, kind, ack], built := false }
def gangRun (kind ack : Nat) : Gang := { gangEng with cmds := [ringCmd kind ack] }
def tile0 : Nat × List Byte := (tagOf 2 3, List.replicate 16 7)
def ringNow : RingState := { ready := true, rev := 3, lastStep := 2, staged := [tile0], chunks := [] }
def onRing (kind ack : Nat) : State := ({ onEng (gangRun kind ack) with base := 2 ^ 24 } : State).setRing 0 ringNow

def srcOk (s : State) (g : Gang) (k : Cmd) (off n : Nat) : Bool :=
  match s.ringSrc g k off n with
  | (t, .ok bs) => (t.anyGang? 0).isSome && decide (bs.length = n)
  | (_, .error _) => false

def aloneB (s : State) (gid : Nat) (k : Cmd) (g : Gang) : Bool :=
  decide (0 < s.rings.length) && decide (s.ringCmds [0, 4] = [(gid, k)]) && decide (k.param 1 = 0 ∧ k.param 2 = 1 ∧ k.replay = false ∧
    k.fault = none ∧ k.bounded = none) && decide (s.anyGang? gid = some g) && decide (g.gid = gid) && g.isLive &&
    decide ((g.cmds.map fun y => y.id).Nodup)

theorem alone_of {s : State} {gid : Nat} {k : Cmd} {g : Gang} (h : aloneB s gid k g = true) : RunsAlone s 0 gid k g := by
  simp only [aloneB, Bool.and_eq_true, decide_eq_true_eq] at h
  obtain ⟨⟨⟨⟨⟨⟨a, b⟩, c, d, e, f, x⟩, i⟩, j⟩, l⟩, m⟩ := h
  exact ⟨a, b, c, d, e, f, x, i, j, l, m⟩

/-- The status word of the command can be written to local memory. -/
def statOk (s : State) (g : Gang) (k : Cmd) : Bool :=
  match s.access g.core (s.tmplOf g).asid (k.param 13) false true with
  | .ok (_, pa) => decide (pa + 8 ≤ Config.localHbm)
  | .error _ => false

theorem witness_RingEvents_alone : ∀ kind, kind ≤ 3 → RunsAlone (onRing kind 1) 0 0 (ringCmd kind 1) (gangRun kind 1) := by
  intro kind h
  exact alone_of ((by decide +kernel : ∀ kind, kind ≤ 3 → aloneB (onRing kind 1) 0 (ringCmd kind 1) (gangRun kind 1) = true) kind h)

theorem witness_RingEvents_stage : RingState.stale ringNow 1 = true ∧ RingState.stale ringNow 2 = false ∧ ringNow.staged.length < 2 ∧
    (∀ gid k, (onRing 3 1).engineHead 0 = some (gid, k) → k.param 2 = 1) ∧ (onRing 3 1).ringAt 0 = ringNow := by
  have h : (onRing 3 1).engineHead 0 = some (0, ringCmd 3 1) := by decide +kernel
  refine ⟨by decide, by decide, by decide, fun gid k e => ?_, by decide +kernel⟩
  rw [h] at e; cases e; rfl

theorem witness_RingEvents_ring :
    (ringCmd 3 1).param 15 = 3 ∧ (ringCmd 3 1).param 16 = 1 ∧ tile0.1 = tagOf ((ringCmd 3 1).param 6) ((ringCmd 3 1).param 5) ∧
    tagOf 2 4 ≠ tagOf ((ringCmd 3 1).param 6) ((ringCmd 3 1).param 5) ∧
    tile0.2.length = (ringCmd 3 1).param 4 ∧ ringNow.staged.find? (fun t => decide (t.1 = tile0.1) && decide (t.2.length = (ringCmd 3 1).param 4)) = some tile0 ∧
    srcOk (onRing 3 0) (gangRun 3 0) (ringCmd 3 0) 0 16 = true := by decide +kernel

theorem witness_RingEvents_ends : statOk (onRing 3 1) (gangRun 3 1) (ringCmd 3 1) = true ∧
    (∀ l ∈ (ringCmd 3 1).lines, l.virt = none ∧ l.written = false ∧ l.landed = false ∧ l.raced = [] ∧ l.lc = none ∧ l.bytes.length = 128 ∧
      l.dst = .scratch 7 (128 * 1)) ∧ ((onRing 3 1).teamByKey? 7).isSome = true ∧ ((ringCmd 3 1).lines.map fun l => l.dst).Nodup ∧
    (lineR.bytes.all fun b => decide (b = .hole) || (List.range 16).any fun j => decide (b = .row 0 j)) = true := by decide +kernel

/-- A time-out of a command that is not whole, and a BREAK of its revolution. -/
theorem witness_RingEvents_breaks : (ringCmd 3 0).whole ringNow = false ∧ statOk (onRing 3 0) (gangRun 3 0) (ringCmd 3 0) = true ∧
    (ringCmd 3 0).param 14 + Max.max 4096 ((onRing 3 0).mg Mgmt.ringtmo % 2 ^ 32) ≤ (onRing 3 0).base ∧
    ringNow.ready = true ∧ ringNow.revNo = 2 % 2 ^ 16 := by decide +kernel

/-- A COLL of 16 FP32 elements over two members, kinds 0 to 2; chunk 1 arrives as a part, and as a final value. -/
theorem witness_RingEvents_coll : ∀ kind, kind ≤ 2 →
    let s := onRing kind 0
    let k := ringCmd kind 0
    k.param 15 ≤ 2 ∧ 1 < k.cfg.m ∧ (k.chunk 1).2 = 32 ∧
    collParams 1 kind 0 0 16 % 2 = 1 ∧ (1 : Nat) ≠ k.cfg.pos ∧ ringNow.hasChunk 65 = false ∧ collParams 0 kind 0 0 16 % 2 = 0 ∧
    (0 + 1) % k.cfg.m ≠ k.cfg.pos ∧ ringNow.hasChunk 0 = false ∧ 32 % elemSize (k.param 7) = 0 ∧ k.param 7 ≤ 3 ∧ k.param 8 ≤ 2 ∧
    collParams 0 3 0 0 16 ≠ collParams 0 kind 0 0 16 ∧
    srcOk s (gangRun kind 0) k (k.chunk 0).1 (k.chunk 0).2 = true := by decide +kernel

theorem witness_RingEvents_done :
    (∀ kind, kind ≤ 2 → (ringCmd kind 0).collDone { ringNow with chunks := [(0, []), (65, [])] } = true) ∧
    srcOk (onRing 2 0) (gangRun 2 0) (ringCmd 2 0) 0 ((ringCmd 2 0).chunk (ringCmd 2 0).cfg.pos).2 = true := by decide +kernel
/-! ## Witnesses: launches and admission, faults and pre-emption -/
def isOk' {α ε : Type} (r : Except ε α) : Bool :=
  match r with
  | .ok _ => true
  | .error _ => false

/-- A template of eight gangs, each with all the tree files of its partition, and one of a single gang. -/
def tmplFull : Template := { (parseTemplate template0).1 with gangs := 8, trees := 4 }
def pending (t : Template) (q prio : Nat) : Pending :=
  { id := 9, queue := some q, tmpl := t, launch := parseLaunch launch0, depth := 0, prio := prio, preempt := true, parent := none, parentGrid := 0
    gateOpen := true, gateChecked := 0, since := 0 }

/-- Queue 0 is enabled, of priority 2 with PREEMPT; core 0 alone has its areas; save records; a fault queue of 64 records. -/
def device : State :=
  let s := withTemplate (onMem gang0)
  let s : State := { s with queues := s.queues.set 0 { enable := true, preempt := true, prio := 2, started := 0 } }
  (((s.setMg (Mgmt.firnbase 0) 1).setMg (Mgmt.spillbase 0) 1).setMg Mgmt.savebase 1).setMg Mgmt.fqbase (2 ^ 63 + 0x400000)
def empty0 : State := { device with gangs := [], teams := [], grids := [] }

theorem witness_LaunchEvents_store : launch0.length = 64 ∧ 0 / 64 % 64 = 0 ∧ (empty0.queues.getD 0 Queue.fresh).enable = true ∧ empty0.pendingOf 0 < 256 ∧
    empty0.templateAt (parseLaunch launch0).template = some ((parseTemplate template0).1, true) ∧
    empty0.checkLaunch (parseTemplate template0).1 true (parseLaunch launch0) false = 0 ∧
    (empty0.queues.getD (0xFC0 / 64 % 64) Queue.fresh).enable = false ∧ (parseLaunch launch0).flags.testBit 2 = false := by decide +kernel

/-- Refusals: the queue not enabled, full, no template, a launch that fits no core. -/
theorem witness_LaunchEvents_refused :
    ({ empty0 with pendings := List.replicate 256 (pending tmplFull 0 2) } : State).pendingOf 0 = 256 ∧
    (parseLaunch (leBytes 2 16 ++ launch0.drop 2)).template = 16 ∧ empty0.templateAt 16 = none ∧
    (let t : Template := { (parseTemplate template0).1 with chip := 2049 }
     empty0.checkLaunch t true (parseLaunch launch0) false = 2 ∧ empty0.checkLaunch t false (parseLaunch launch0) false = 3) := by decide +kernel

/-- A bulk copy of one row of 16 bytes, without STAT. -/
def copy1 : List Byte := leBytes 8 0x10100 ++ leBytes 8 0x10140 ++ leBytes 4 16 ++ leBytes 4 1 ++ leBytes 8 16 ++ leBytes 8 16 ++ leBytes 2 1 ++ leBytes 6 0 ++
  leBytes 8 0 ++ leBytes 8 0

theorem witness_LaunchEvents_copy : copy1.length = 64 ∧ 0x1000 / 64 % 64 = 0 ∧ (parseCopy copy1).ok = true ∧ (parseCopy copy1).dscr = false ∧
    empty0.astOk (parseCopy copy1).asid = true ∧ (parseCopy copy1).stat = false ∧ empty0.bulk = [] ∧ (parseCopy (List.replicate 64 0)).ok = false ∧
    (let b : BulkCopy := { id := 3, queue := 0, started := true, die := 0, asid := 1, rows := 1, rowBytes := 16, src := 0x10100, dst := 0x10140
                           sstride := 16, dstride := 16, stat := false, saddr := 0 }
     ({ empty0 with bulk := [b] } : State).bulk.find? (fun x => decide (x.id = b.id)) = some b ∧ b.started = true ∧
     ({ empty0 with bulk := [b, { b with id := 4, queue := 4 }] } : State).bulk.find? (fun x => decide (x.id = 4)) = some { b with id := 4, queue := 4 }) := by
  decide +kernel

/-- The head of queue 0 waits for the word at 0x10100. -/
def gated : Pending :=
  { pending (parseTemplate template0).1 0 2 with launch := { parseLaunch launch0 with flags := 1, gaddr := 0x10100, gval := 5 }, gateOpen := false }
def onGate : State := { empty0 with pendings := [gated], base := 4096 }

theorem witness_LaunchEvents_gate : onGate.pendings.find? (fun x => decide (x.id = gated.id)) = some gated ∧ onGate.gateWaits gated = true ∧
    isOk' (onGate.accessWith false 0 gated.tmpl.asid gated.launch.gaddr true false) = true ∧ gated.gateChecked + 4096 ≤ onGate.base := by decide +kernel

/-- A launch that waits and can be placed, of one team, and one of cluster groups. -/
def onWaiting (t : Template) : State := { empty0 with pendings := [pending t 0 2], base := 2 ^ 20, head := some (9, 0, 0) }

theorem witness_LaunchEvents_admit :
    (onWaiting (parseTemplate template0).1).admitting = true ∧
    ((onWaiting (parseTemplate template0).1).nextAdmission.any fun w => decide (w.2 = [(0, 0)]) && decide (w.1.tmpl.cluster = false)) = true ∧
    (onWaiting (parseTemplate template0).1).savedFirst 2 = false ∧
    ((onWaiting { (parseTemplate template0).1 with tflags := 2, clteams := 1 }).nextAdmission.any fun w => w.1.tmpl.cluster) = true := by decide +kernel

/-- It starts as grid 1; and a grid of two teams that has none yet. -/
def startable : Pending := pending (parseTemplate template0).1 0 2
def gridTwo : Grid := { grid0 with tmpl := (parseTemplate template0).1, admitted := 0, launch := { grid0.launch with teams := 2 } }
def onAdmitTwo : State := { empty0 with grids := [gridTwo], started := 1, nextGid := 0 }

theorem witness_LaunchEvents_start :
    ((onWaiting (parseTemplate template0).1).nextAdmission.any fun w => decide (w.1.start = some startable) && decide (w.1.admitted = 0)) = true ∧
    (onWaiting (parseTemplate template0).1).chipOwner = [] ∧ startable.tmpl.chip ≤ 2048 ∧ (onWaiting (parseTemplate template0).1).grids = [] ∧
    onAdmitTwo.admitting = true ∧ onAdmitTwo.savedFirst 0 = false ∧ onAdmitTwo.grid? 1 = some gridTwo ∧ onAdmitTwo.grids = [gridTwo] ∧ onAdmitTwo.gangs = [] ∧
    (onAdmitTwo.nextAdmission.any fun w => decide (w.1.serial = 1) && decide (w.1.start = none) && decide (w.1.tmpl = gridTwo.tmpl) &&
      decide (w.2 = [(0, 0)])) = true := by
  decide +kernel

theorem witness_LaunchEvents_reserve :
    let s := onWaiting (parseTemplate template0).1
    s.inOrder.map (fun w => (w.order, w.admitted, decide (w.tmpl = (parseTemplate template0).1))) = [(9, 0, true)] ∧ s.head = some (9, 0, 0) ∧
    0 + 2 ^ 20 ≤ s.base ∧ s.reserved = [] ∧
    (s.place (fun _ => false) (parseTemplate template0).1 9 [] (List.range Config.cores)).isSome = true := by decide +kernel

/-- Stack 0's pool is valid and empty; a round of grid 1 waits for its pages. -/
def onPool (s : State) : State := s.setMg (Mgmt.ppbase 0) (0x500000 + 1)
def waitPop : Population := { roundPop first 64 64 with phase := .counting, short := [0] }
def waitGrid : Grid := { grid0 with pop := some waitPop }

theorem witness_LaunchEvents_pool : (0 : Nat) < Config.hbmStacks ∧ (onPool empty0).pushed = [] ∧ (onPool empty0).poolValid 0 = true ∧
    (onPool empty0).poolCount 0 < 2 ^ 20 ∧ (0x600000 : W64).toNat / 2 ^ 36 = 0 ∧ (0x600000 : W64).toNat % 2 ^ 16 = 0 ∧
    (0x600001 : W64).toNat % 2 ^ 16 ≠ 0 ∧ (onPool empty0).grids = [] ∧
    (let s : State := onPool { shortRound with grids := [waitGrid] }
     s.grids = [waitGrid] ∧ s.grid? waitGrid.serial = some waitGrid ∧ waitGrid.pop = some waitPop ∧ waitPop.phase = .counting ∧ 0 ∈ waitPop.short ∧
     waitPop.arrivals ≠ [] ∧ s.liveGids waitGrid.serial = [0, 1] ∧ waitPop.arrivals.map (fun x => x.issue.gang) = [0, 1]) := by decide +kernel

theorem witness_LaunchEvents_release :
    let P : Population := { popMet with phase := .committed, releasing := [0] }
    let G : Grid := { grid0 with pop := some P }
    let g : Gang := { gang0 with strands := [{ st0 with wait := .resample }] }
    let s : State := { on g with grids := [G] }
    s.gang? 0 = some g ∧ s.grid? g.grid = some G ∧ G.pop = some P ∧ P.phase = .committed ∧ g.gid ∈ P.releasing := by decide +kernel

/-- A gang with a fault of kind 3, posted as record 12, and one that a SYSC raised, as 13. -/
def faulted (kind : Nat) (seq : Option Nat) : Gang :=
  { gang0 with fault := some { info := { kind := kind, reason := 0, flags := 0, pc := 0x10008, addr := 0, va := 0, word := 0, arg := 0 }, order := 4, seq := seq
                               reply := none, sd := some 3, slice := 0, next := 0x1000C, cmd := none } }
def onFault (kind : Nat) (seq : Option Nat) : State :=
  { device with gangs := [faulted kind seq], posted := match seq with
    | some n => [{ seq := n, gang := 0 }]
    | none => [] }

/-- Its record is the next to post, and the queue has room; the fault stays in the state that holds the record. -/
theorem witness_FaultAndPreemptionEvents_post : (onFault 3 none).nextRecord.map (fun x => x.2) = some (some 0) ∧ (onFault 3 none).fqRoom = true ∧
    (((onFault 3 none).performWrites none (physWrites (field ((onFault 3 none).mg Mgmt.fqbase) 51 12 * 2 ^ 12) (List.replicate 64 0))).anyGang? 0).isSome = true ∧
    (let r : Report := { info := { kind := 8, reason := 0, flags := 0, pc := 0, addr := 0, va := 0, word := 0, arg := 0 }, order := 1, part := 0, core := 0
                         asid := 0, grid := 0, team := 0, gang := 0 }
     ({ device with reports := [r] } : State).nextRecord = some (r, none)) := by decide +kernel

theorem witness_FaultAndPreemptionEvents_reply : ∀ kind ∈ [3, 6, 9],
    let s := onFault kind (some 12)
    let g := faulted kind (some 12)
    s.posted.find? (fun x => decide (x.seq = 12)) = some ⟨12, 0⟩ ∧ s.anyGang? 0 = some g ∧ (g.fault.map fun f => f.info.kind) = some kind ∧
    s.isSaved 0 = false ∧ g.halt = .running ∧ g.gid = 0 ∧ (g.fault.bind fun f => f.cmd) = none := by decide +kernel

/-- A gang that is halted keeps its reply; a faulted command of the gang is replayed. -/
theorem witness_FaultAndPreemptionEvents_kept :
    let fault (g : Gang) : Gang := { g with fault := g.fault.map fun f => { f with cmd := some (0, 4) } }
    let g : Gang := { fault (faulted 3 (some 12)) with records := [failed 4 .cpy { code := 2, reason := 1, addr := 0, shown := 0, topa := 0 } []] }
    let s : State := { onFault 3 (some 12) with gangs := [g] }
    ({ faulted 3 (some 12) with halt := .halted false } : Gang).halt = .halted false ∧ s.anyGang? 0 = some g ∧ g.halt = .running ∧
    (g.fault.bind fun f => f.cmd) = some (0, 4) ∧ (g.records.find? fun r => decide (r.cmd.id = 4)) = g.records.head? := by decide +kernel

/-- A running grid; one halted by HALT, one by EVICT; a gang that is halting outside a population. -/
def halted (h : Halt) : Gang := { gang0 with halt := h }
theorem witness_FaultAndPreemptionEvents_halt :
    gang0 ∈ (on gang0).gangs ∧ gang0.grid = 1 ∧ gang0.isLive = true ∧ gang0.halt = .running ∧ (∀ g ∈ (on gang0).gangs, g.fault = none) ∧
    ((on gang0).gangs.map fun g => g.gid).Nodup ∧ (halted (.halted false)).isLive = true ∧
    (on (halted (.halting true))).gang? 0 = some (halted (.halting true)) ∧ grid0.pop = none := by decide +kernel

theorem witness_FaultAndPreemptionEvents_save :
    let s : State := { device with gangs := [halted (.halted true)] }
    s.teamByKey? 7 = some team0 ∧ team0.retired = false ∧ s.together team0 = [team0] ∧ (∀ g ∈ s.teamGangs team0, g.savable = true) ∧
    s.teamGangs team0 = [halted (.halted true)] ∧ s.savePoisoned (halted (.halted true)) = none ∧ s.near = [] ∧ (halted (.halted true)).images = [] ∧
    halted (.halted true) ∈ s.teamGangs team0 ∧ (halted (.halted true)).evicting = true ∧ s.freeRecords.head? = some 0 := by decide +kernel

theorem witness_FaultAndPreemptionEvents_readmit :
    let v : SavedTeam := { record := 3, team := team0, gangs := [halted (.halted true)], prio := 0 }
    let s : State := { device with gangs := [], teams := [], saved := [v] }
    s.saved.find? (fun x => decide (x.record = 3)) = some v ∧ s.admitting = true ∧ s.outranked v.prio = false ∧ s.grid? v.team.grid = some grid0 ∧
    grid0.tmpl.cluster = false ∧ s.place everyGang grid0.tmpl grid0.order [] (List.range Config.cores) = some (0, 0) ∧
    s.near = [] ∧ v.gangs = [halted (.halted true)] ∧ (halted (.halted true)).released = false ∧
    ∀ g ∈ v.gangs, g.fault = none ∧ s.gang? g.gid = none := by decide +kernel

/-- A launch of priority 2 whose team needs what the one gang of priority 0 holds. -/
def onVictim : State := { device with pendings := [pending tmplFull 0 2] }
theorem witness_FaultAndPreemptionEvents_preempt :
    ((onVictim.inOrder.find? fun w => !(onVictim.victims w).isEmpty).any fun w =>
      decide (onVictim.victims w = [team0]) && decide (1 + onVictim.leaving.length ≤ onVictim.freeRecords.length)) = true := by decide +kernel

/-! ## Witnesses: the device, decoding, steps -/

theorem witness_DeviceEvents_lookups :
    ((onMem gang0).walk 1 0x10000).isSome = true ∧
    (let f : Fill := { core := 0, pa := 0x140000, discard := false }
     ∃ x ∈ ({ on gang0 with fills := [f] } : State).fills, x.core = 0 ∧ x.pa = 0x140000 ∧ x.discard = false) ∧
    State.reset.norm (Config.localHbm - 1) < Config.localHbm ∧ State.reset.norm 0 < Config.localHbm ∧
    (Config.localHbm - 8) % 2 ^ 40 + 8 ≤ Config.localHbm ∧ ((Config.localHbm - 8) % 2 ^ 40 / 128, 3) ∉ State.reset.copies ∧
    State.reset.region (128 * ((2 ^ 46 + 2 ^ 40) / 128)) = .remote 1 0 := by decide +kernel

/-- A counted line, a near line, and errors in each kind of store. -/
theorem witness_DeviceEvents_errors :
    (let c : Counted := { count := 1, pre := List.replicate 128 7 }
     128 * (0x140100 / 128) < Config.localHbm ∧ onCounted.counted.find? (fun x => decide (x.1 = 0x140100 / 128)) = some (0x140100 / 128, c) ∧
     c.pre.length = 128 ∧ ∀ x ∈ onCounted.counted, x.1 ≠ 5) ∧
    eccCore (on gang0) (.scratch 7 0) = some 0 ∧ eccCore (on gang0) (.row 0 127) = some 0 ∧ eccCore (on gang0) (.tile 0 63) = some 0 ∧
    eccCore (on gang0) (.tree 0 3) = some 0 ∧ eccCore (on gang0) (.keys 0 1) = some 0 ∧ (3 : Nat) < Config.baseDies ∧
    (let n : NearLine := { pa := 0x140200, written := [0], spoilt := false, data := List.replicate 128 1 }
     (on gang0).gang? 0 = some gang0 ∧ ({ on gang0 with near := [((0, 31, 4), n)] } : State).near.find? (fun n => decide (n.1 = (0, 31, 4))) = some ((0, 31, 4), n)) := by
  decide +kernel

/-- A copy whose source, at 0x20000, is mapped to another package's memory, late enough for the time-out. -/
def farCopy : Cmd := { copy0 with lines := [{ line0s with bytes := List.replicate 128 (.virt 0x20000) }] }
def onFar : State :=
  ({ onEng { gangEng with cmds := [farCopy] } with base := 2 ^ 24 } : State).pokePhys (Machine.placed + 0x30010) (leBytes 8 (codeLeaf (2 ^ 46 + 2 ^ 40)))

theorem witness_DeviceEvents_far : onFar.anyGang? 0 = some { gangEng with cmds := [farCopy] } ∧ farCopy.kind.elsewhere = false ∧
    farCopy.fault = none ∧ (onFar.farVas (onFar.tmplOf gangEng).asid farCopy).head? = some 0x20000 ∧
    farCopy.born + Nat.max 4096 (onFar.mg Mgmt.ringtmo) ≤ onFar.base := by decide +kernel

/-- A request line: a nonce, the two addresses, zeros. -/
def request0 : List Byte := List.replicate 32 7 ++ leBytes 8 0x10100 ++ leBytes 8 0x10200 ++ List.replicate 16 0

theorem witness_DeviceEvents_attest : request0.length = 64 ∧ le request0 32 8 % 16 = 0 ∧ le request0 48 16 = 0 ∧ State.reset.quotes.length < 16 ∧
    (let q : Quote := { nonce := List.replicate 32 7, dest := 0x10100, done := 0x10200 }
     ({ State.reset with quotes := [q] } : State).quotes = q :: []) := by decide +kernel

theorem witness_DeviceEvents_links : State.reset.links.length = Config.linkPorts ∧ 17 < Config.linkPorts ∧
    (∀ l ∈ [false, true], let x : Link := { up := true, training := l, replays := 2 ^ 32 - 1, failed := 6 }
      let s : State := { State.reset with links := State.reset.links.set 17 x }
      (s.link 17).up = true ∧ (s.link 17).training = l ∧ (s.link 17).failed < 7 ∧ ∀ r, r < 8 → s.ringHead r = none) ∧
    (let x : Link := { up := true, training := false, replays := 0, failed := 7 }
     ({ State.reset with links := State.reset.links.set 17 x } : State).link 17 = x) := by decide +kernel

theorem witness_DeviceEvents_power : field ((State.reset.setMg Mgmt.powerctl (2 * 2 ^ 16)).mg Mgmt.powerctl) 17 16 = 2 ∧
    (∀ g ∈ State.reset.gangs, g.released = true) ∧ State.reset.mhz[7]? = some (State.reset.mhz.getD 7 0) ∧
    ({ State.reset with mhz := [3300] } : State).mhz[0]? = some 3300 ∧ ({ on gang0 with mhz := [3200] } : State).mhz[0]? = some 3200 ∧
    (3200 : Nat) < 3300 ∧ gang0 ∈ (on gang0).gangs ∧ gang0.released = false ∧ State.reset.boot.1 = 0 ∧ ({ State.reset with boot := (1, 0) } : State).boot.1 = 1 := by
  decide +kernel

/-- Well-formed instructions of each shape, with operands at the ends of their ranges. -/
theorem witness_DecodeOfEncode : ∀ i ∈ ([.nop, .br 0xFFFFFFF0, .add (.x 31) (.s 63) (.imm 0xFFFFFFFF), .add (.s 63) .zero (.imm64 0xFFFFFFFFFFFFFFFF),
    .cas (.v 126) .zero 6 word4, .mma 31 (.v 120) (.imm 0xFFFFFFFE) wMma, .cpy (.imm 16) 5 6 cmd0, .trap (.imm 255)] : List Instr),
    isInstruction i = true ∧ i.wf = true := by decide +kernel

theorem witness_EncodeOfDecode : decode (0x10000000 :: [0xFFFFFFF0, 7]) = .ok (.br 0xFFFFFFF0) := rfl

/-- The placed instruction is the first that runs after reset. -/
def placedState (i : Instr) : State := State.reset.withFetchWord (32 * (encode i).length) ((encode i).foldr (fun w n => w.toNat + 2 ^ 32 * n) 0)

def runs (i : Instr) : Bool :=
  let s := placedState i
  let s0 : State := { s with agenda := [], issue := none }
  decide (s.agenda = [.issue 0 0]) && (match s0.gang? 0 with
    | none => false
    | some g => match g.strand? 0 with
      | none => false
      | some st => s0.mayIssue g st && (match s0.fetch g st.pc with
        | (s1, .ok ws _) => decodes ws i && decide (g.missing i = []) && !s1.readsSpoilt g i &&
          !g.scoreboard i && !g.drawsPending && !g.heatBlocks i
        | _ => false))

theorem witness_StepRunsInstruction : runs (.add (.v 0) (.v 1) (.imm 7)) = true ∧
    runs (.cpy (.imm 16) 5 6 cmd0) = true ∧ ({ State.reset with agenda := [.event .tinvDone] } : State).agenda = [.event .tinvDone] ∧
    isInstruction .tinvDone = false := by decide +kernel

theorem witness_EveryInstructionAnswers : isInstruction .tinvAll = false ∧ (on gang0).ctx.isSome = true ∧
    (∀ m ∈ [Move.issue 0 0, .event .warmReset, .tick 0 1, .baseTick 1], m.proper = true) := by decide +kernel

theorem witness_MemoryCanonicalKept : Memory.wf (placedState (.add (.v 0) (.v 1) (.imm 7))).mem = true ∧
    (match step (placedState (.add (.v 0) (.v 1) (.imm 7))) with
      | .next _ => true
      | _ => false) = true := by decide +kernel

/-! ## Results: the spec's worked examples and values worked out by hand from its rules. Each runs one step of the machine, or
evaluates one of its operations. -/

/-- The state after `i`, and the gang after its strand issues it. -/
def ran (i : Instr) (s : State) : State :=
  match exec i s with
  | .next t => t
  | _ => State.reset
def run (i : Instr) (g : Gang) : Gang := ((ran i (on g)).gang? 0).getD gang0

/-- Registers of thread t = 4k + j. -/
def withV (v x : Nat → Sparse W32) (g : Gang) : Gang :=
  let thread (k j : Nat) (t : Thread) : Thread := { t with v := v (4 * k + j), x := x (4 * k + j) }
  { g with slices := mapI (fun k sl => { sl with threads := mapI (thread k) 0 sl.threads }) 0 g.slices }

/-- v1, v2, v3 the same in every thread, under TYPE t and ROUND r; the trap vector enabled at 0x10408. -/
def gangOf3 (t r : BitVec 4) (a b c : W32) : Gang :=
  let g := withV (fun _ => [(1, a), (2, b), (3, c)]) (fun _ => []) (gangMode t r)
  { g with trap := { g.trap with tvec := 0x10409 } }

def v0 (i : Instr) (g : Gang) : W32 := ((run i g).thread 7 3).vreg 0

/-- x1 the same in every thread and s1 a value. -/
def gangX (x : W32) (s : W64) : Gang := { withV (fun _ => []) (fun _ => [(1, x)]) gang0 with s := [(1, s)] }
def x0 (i : Instr) (x : W32) : W32 := ((run i (gangX x 0)).thread 7 3).xreg 0
def s0 (i : Instr) (s : W64) : W64 := (run i (gangX 0 s)).sreg 0

/-! ### Index arithmetic (07 R180 to R183, R185) -/

/-- Results wrap; products keep the sign in their high half; shifts take the count mod w; division truncates towards zero
and by zero gives −1 and the dividend. -/
theorem test_index :
    x0 (.add (.x 0) (.x 1) (.imm 1)) 0x7FFFFFFF = 0x80000000 ∧
    x0 (.sub (.x 0) (.x 1) (.imm 1)) 0x80000000 = 0x7FFFFFFF ∧
    x0 (.mul (.x 0) (.x 1) (.imm 3)) 0x55555556 = 2 ∧
    x0 (.mulh (.x 0) (.x 1) (.imm 0x10)) 0xF0000000 = 0xFFFFFFFF ∧
    x0 (.min (.x 0) (.x 1) (.imm 1)) 0xFFFFFFFF = 0xFFFFFFFF ∧
    x0 (.max (.x 0) (.x 1) (.imm 1)) 0xFFFFFFFF = 1 ∧
    x0 (.shl (.x 0) (.x 1) (.imm 33)) 0xC0000001 = 0x80000002 ∧
    x0 (.shr (.x 0) (.x 1) (.imm 36)) 0x80000010 = 0x08000001 ∧
    x0 (.sar (.x 0) (.x 1) (.imm 36)) 0x80000010 = 0xF8000001 ∧
    x0 (.div (.x 0) (.x 1) (.imm 2)) 0xFFFFFFF9 = 0xFFFFFFFD ∧
    x0 (.rem (.x 0) (.x 1) (.imm 2)) 0xFFFFFFF9 = 0xFFFFFFFF ∧
    x0 (.div (.x 0) (.x 1) .zero) 5 = 0xFFFFFFFF ∧
    x0 (.rem (.x 0) (.x 1) .zero) 5 = 5 ∧
    x0 (.div (.x 0) (.x 1) (.imm 0xFFFFFFFF)) 0x80000000 = 0x80000000 := by decide +kernel

/-- LEA and MAD add to, CLAMP, SELI, BFI read the old destination, here zero; the bit instructions. -/
theorem test_index_bits :
    x0 (.clamp (.x 0) (.x 1) (.imm 9)) 5 = 5 ∧ x0 (.seli (.x 0) (.x 1) (.imm 9)) 5 = 9 ∧ x0 (.mad (.x 0) (.x 1) (.imm 9)) 5 = 45 ∧
    x0 (.lea (.x 0) (.x 1) (.imm 9)) 5 = 9 ∧ x0 (.abs (.x 0) (.x 1)) 0x80000000 = 0x80000000 ∧ x0 (.not (.x 0) (.x 1)) 0 = 0xFFFFFFFF ∧
    x0 (.clz (.x 0) (.x 1)) 0 = 32 ∧ x0 (.clz (.x 0) (.x 1)) 0x00010000 = 15 ∧ x0 (.popc (.x 0) (.x 1)) 0xF000000F = 8 ∧
    x0 (.brev (.x 0) (.x 1)) 1 = 0x80000000 ∧ x0 (.and (.x 0) (.x 1) (.imm 0xFF)) 0x1234 = 0x34 ∧
    x0 (.or (.x 0) (.x 1) (.imm 0xFF)) 0x1200 = 0x12FF ∧ x0 (.xor (.x 0) (.x 1) (.imm 0xFFFFFFFF)) 0x1200 = 0xFFFFEDFF := by decide +kernel

/-- At 64 bits with an s destination; an F0 immediate is sign-extended (02 R33). -/
theorem test_index_uniform :
    s0 (.add (.s 0) (.s 1) (.imm 0xFFFFFFFF)) 0x8000000000000000 = 0x7FFFFFFFFFFFFFFF ∧
    s0 (.mulh (.s 0) (.s 1) (.imm64 0x100000000)) 0xFFFFFFFF00000000 = 0xFFFFFFFFFFFFFFFF ∧
    s0 (.sar (.s 0) (.s 1) (.imm 68)) 0x8000000000000010 = 0xF800000000000001 := by decide +kernel

/-- 19, the worked rimes: x1 with [2, 97] gives [34, 129] after ADD #32; a < 98 narrows [34, 129] to [34, 97], its negation
to [98, 129]; the load tests of [0, 95] and [4, 99] in an array of 100 (R193). 07: Hull([9, 12], [20, 25]). -/
theorem test_rimes :
    IdxOp.rime .add 32 (.iv 2 97) (.iv 32 32) .top = .iv 34 129 ∧
    (Rel.narrow .lt (34, 129) (98, 98)).1 = (34, 97) ∧ (Rel.narrow Rel.lt.not (34, 129) (98, 98)).1 = (98, 129) ∧
    Rime.hull (.iv 9 12) (.iv 20 25) = .iv 9 25 := by decide +kernel

/-! ### 07: narrowing, parting and the issue check -/

/-- A gang of two slices whose x5 holds these values, rimes TOP. -/
def gangN (a b : Nat → W32) : Gang :=
  let g := withV (fun _ => []) (fun t => [(5, if t < 4 then a t else b (t - 4))]) { gang0 with slices := gang0.slices.take 2 }
  { g with strands := [{ st0 with slices := [0, 1] }], trap := { g.trap with tvec := 0x10409 }, slices := g.slices.map fun sl => { sl with xr := [(5, .top)] } }

def row (l : List W32) (i : Nat) : W32 := l.getD i 0
def narrowed (g : Gang) : Gang := run (.narrow (.x 5) .zero (.imm 1023)) g
def branch (g : Gang) : Gang :=
  run (.bgeu (.x 5) (.imm 32) 0x40) { narrowed g with strands := [{ st0 with slices := [0, 1] }] }
def rimes5 (g : Gang) : List Rime := [(g.slice 0).rime 5, (g.slice 1).rime 5]

/-- Case 1: slice 0 splits and keeps its rime, slice 1 stays and is narrowed; the gang does not part. Case 2: both stay. -/
theorem test_narrow_and_branch :
    (let g := gangN (row [3, 7, 12, 40]) (row [0, 5, 31, 16])
     rimes5 (narrowed g) = [.iv 0 1023, .iv 0 1023] ∧ rimes5 (branch g) = [.iv 0 1023, .iv 0 31] ∧ (branch g).strands.length = 1 ∧
       ((branch g).slice 0).mask = 0x7) ∧
    (let g := gangN (row [3, 7, 12, 20]) (row [0, 5, 31, 16])
     rimes5 (branch g) = [.iv 0 31, .iv 0 31]) := by decide +kernel

/-- Case 3: lane 1 lies outside: RIME (cause 4) with TMASK 2 and TADDR 2000, both rimes still TOP. -/
theorem test_narrow_traps :
    let g := narrowed (gangN (row [3, 2000, 12, 20]) (row [0, 5, 31, 16]))
    rimes5 g = [.top, .top] ∧ g.trap.tcause = 0x8000000000000004 ∧ g.trap.tmask = 2 ∧ g.trap.taddr = 2000 := by decide +kernel

/-! ### 04: divergence inside and across slices -/

/-- Slice 1 is wholly taken and leaves for `other`, slice 0 splits: lanes 0 and 3 stay, PEND holds the rest. -/
theorem test_branch_parts :
    let g := withV (fun _ => []) (fun t => [(1, row [5, 1, 2, 7, 0, 1, 2, 0] t)]) { gang0 with slices := gang0.slices.take 2, strands := [{ st0 with slices := [0, 1] }] }
    let r := run (.blt (.x 1) (.imm 3) 0x10) g
    r.strands.map (fun st => (st.slices, st.pc)) = [([0], 0x1000C), ([1], 0x10018)] ∧ (r.slice 0).mask = 0x9 ∧
    (r.slice 0).stack.map (fun e => (e.reconv, e.pc, e.pm, e.fm)) = [(false, 0x10018, 0x6, 0xF)] ∧ (r.slice 1).mask = 0xF ∧ (r.slice 1).stack = [] := by
  decide +kernel

/-! ### 08: vector arithmetic -/

/-- −(3 · 2^−24) + 1 is exact: no flag. The sum of 2^24 and 1 is a tie and rounds to even, with NX. -/
theorem test_float :
    v0 (.ffma3 (.v 0) (.v 1) (.v 2) (.v 3) 1 0) (gangOf3 2 0 0x40400000 0x33800000 0x3F800000) = 0x3F7FFFFD ∧
    (run (.ffma3 (.v 0) (.v 1) (.v 2) (.v 3) 1 0) (gangOf3 2 0 0x40400000 0x33800000 0x3F800000)).fpflags = 0 ∧
    v0 (.fadd (.v 0) (.v 1) (.v 2)) (gangOf3 2 0 0x4B800000 0x3F800000 0) = 0x4B800000 ∧
    (run (.fadd (.v 0) (.v 1) (.v 2)) (gangOf3 2 0 0x4B800000 0x3F800000 0)).fpflags = 1 ∧
    v0 (.fmul (.v 0) (.v 1) (.v 2)) (gangOf3 2 0 0x7F000000 0x7F000000 0) = 0x7F800000 ∧
    v0 (.fsub (.v 0) (.v 1) (.v 2)) (gangOf3 2 0 0x7F800000 0x7F800000 0) = 0x7FC00000 ∧
    v0 (.fdiv (.v 0) (.v 1) (.v 2)) (gangOf3 2 0 0x3F800000 0x40400000 0) = 0x3EAAAAAB ∧
    v0 (.fsqrt (.v 0) (.v 1)) (gangOf3 2 0 0x40000000 0 0) = 0x3FB504F3 := by decide +kernel

/-- −0 is below +0 for FMAX; FNEG flips a NaN's sign; FCLASS, FROUND towards even; elements of a packed type are separate. -/
theorem test_float_bits :
    v0 (.fmax (.v 0) (.v 1) (.v 2)) (gangOf3 2 0 0x80000000 0 0) = 0 ∧
    v0 (.fneg (.v 0) (.v 1)) (gangOf3 3 0 0x7E003C00 0 0) = 0xFE00BC00 ∧
    v0 (.fabs (.v 0) (.v 1)) (gangOf3 3 0 0xFE00BC00 0 0) = 0x7E003C00 ∧
    v0 (.fadd (.v 0) (.v 1) (.v 2)) (gangOf3 3 0 0x3C003C00 0x3C00BC00 0) = 0x40000000 ∧
    v0 (.fround (.v 0) (.v 1) 0) (gangOf3 2 0 0x40200000 0 0) = 0x40000000 := by decide +kernel

/-- The exact results of the transcendentals. -/
theorem test_transcendental :
    v0 (.frcp (.v 0) (.v 1)) (gangOf3 2 0 0x80000000 0 0) = 0xFF800000 ∧
    v0 (.fexp2 (.v 0) (.v 1)) (gangOf3 2 0 0xFF800000 0 0) = 0 ∧
    v0 (.fexp2 (.v 0) (.v 1)) (gangOf3 2 0 0xC0000000 0 0) = 0x3E800000 ∧
    v0 (.flog2 (.v 0) (.v 1)) (gangOf3 2 0 0x41000000 0 0) = 0x40400000 ∧
    v0 (.flog2 (.v 0) (.v 1)) (gangOf3 2 0 0 0 0) = 0xFF800000 ∧
    v0 (.fsin (.v 0) (.v 1)) (gangOf3 2 0 0x80000000 0 0) = 0x80000000 ∧
    v0 (.fcos (.v 0) (.v 1)) (gangOf3 2 0 0 0 0) = 0x3F800000 ∧
    v0 (.ftanh (.v 0) (.v 1)) (gangOf3 2 0 0x7F800000 0 0) = 0x3F800000 ∧
    v0 (.frsq (.v 0) (.v 1)) (gangOf3 2 0 0x80000000 0 0) = 0xFF800000 := by decide +kernel
/-! ### 08: integers, conversions, gang-wide instructions -/

/-- Elements wrap, or clamp under SAT (TYPE 7 i8x4, 5 i16x2, 8 n8x4); the count is taken mod the element width, and an immediate is the whole pattern
of a packed type (02 R33). -/
theorem test_vector_integer :
    v0 (.iadd (.v 0) (.v 1) (.v 2)) (gangOf3 7 0 0x7F80FF01 0x01FF0102 0) = 0x807F0003 ∧
    v0 (.imul (.v 0) (.v 1) (.v 2)) (gangOf3 5 0 0x00040100 0xFFFF0100 0) = 0xFFFC0000 ∧
    v0 (.imad (.v 3) (.v 1) (.v 2)) (gangOf3 0 0 7 6 5) = 0 ∧
    ((run (.imad (.v 3) (.v 1) (.v 2)) (gangOf3 0 0 7 6 5)).thread 0 0).vreg 3 = 47 ∧
    v0 (.imin (.v 0) (.v 1) (.v 2)) (gangOf3 8 0 0xFF0180FE 0x01FF7F7F 0) = 0x01017F7F ∧
    v0 (.ishl (.v 0) (.v 1) (.imm 9)) (gangOf3 8 0 0x01020304 0 0) = 0x01020308 ∧
    v0 (.ishr (.v 0) (.v 1) (.imm 33)) (gangOf3 0 0 0x80000000 0 0) = 0xC0000000 ∧
    v0 (.ishr (.v 0) (.v 1) (.imm 33)) (gangOf3 1 0 0x80000000 0 0) = 0x40000000 := by decide +kernel

/-- CVT of f32 to i32 rounds and saturates, of f16x2 to f32 takes element SEL; PACK, UNPACK, FDOT2, REQ keeping its scale. -/
theorem test_conversions :
    v0 (.cvt (.v 0) (.v 1) 0 2) (gangOf3 0 0 0x40200000 0 0) = 2 ∧
    v0 (.cvt (.v 0) (.v 1) 0 2) (gangOf3 0 0 0xCF800000 0 0) = 0x80000000 ∧
    v0 (.cvt (.v 0) (.v 1) 1 3) (gangOf3 2 0 0xC0003C00 0 0) = 0xC0000000 ∧
    v0 (.cvt (.v 0) (.v 1) 0 2) (gangOf3 3 0 0x477FF000 0 0) = 0x00007C00 ∧
    v0 (.pack (.v 0) (.v 1) (.v 2)) (gangOf3 5 0 0x1111AAAA 0x2222BBBB 0) = 0xBBBBAAAA ∧
    v0 (.pack (.v 0) (.v 1) (.v 2)) (gangOf3 8 0 0x11AA22BB 0x33CC44DD 0) = 0xCCDDAABB ∧
    v0 (.unpack (.v 0) (.v 1) 3) (gangOf3 7 0 0x80112233 0 0) = 0xFFFFFF80 ∧
    v0 (.fdot2 (.v 0) (.v 1) (.v 2)) (gangOf3 3 0 0x40003C00 0x42004000 0) = 0x41000000 ∧
    v0 (.req (.v 0) (.v 1) (.imm 0x3F804848)) (gangOf3 2 0 0x0000F731 0 0) = 0x0000F731 ∧
    ((run (.req (.v 0) (.v 1) (.imm 0x3F804848)) (gangOf3 2 0 0x0000F731 0 0)).thread 0 0).vreg 1 = 0x48 := by decide +kernel

/-- The worked reduction: strand S holds slices 0 and 1, threads 6 and 7 have exited. -/
def gangRed : Gang :=
  let g := withV (fun t => [(3, row [0x3F800000, 0x40000000, 0x4B800000, 0x3F800000, 0x3F800000, 0x40400000] t)]) (fun _ => []) gang0
  let thread (k j : Nat) (t : Thread) : Thread := if 4 * k + j = 6 ∨ 4 * k + j = 7 then Thread.dead else t
  let m : BitVec 24 := 0x207000
  { g with slices := mapI (fun k sl => { sl with threads := mapI (thread k) 0 sl.threads }) 0 g.slices
           strands := [{ st0 with slices := [0, 1], mode := m }, { st0 with slices := [2, 3, 4, 5, 6, 7], mode := m }]
           trap := { g.trap with tvec := 0x10409 } }

theorem test_gred :
    (let g := run (.gred (.v 9) (.v 3) (.imm 0xFF)) gangRed
     ((List.range 6).map fun t => (g.thread (t / 4) (t % 4)).vreg 9) = List.replicate 6 0x4B800004 ∧ (g.thread 2 0).vreg 9 = 0 ∧ g.fpflags = 1) ∧
    ((run (.gred (.v 9) (.v 3) (.imm 0x3F)) gangRed).thread 0 0).vreg 9 = 0x4B800004 := by decide +kernel

/-- MEMBER, cause 5: thread 8 is live in another strand; thread 5 is active and not named. -/
def memberTrap (mask : W32) (lanes : W64) : Bool :=
  let g := run (.gred (.v 9) (.v 3) (.imm mask)) gangRed
  decide (g.trap.tcause = 0x8000000000000005) && decide (g.trap.tmask = lanes) && decide (g.trap.taddr = mask.zeroExtend 64) &&
    decide ((g.thread 0 0).vreg 9 = 0) && decide (g.fpflags = 0)

theorem test_member : memberTrap 0x1FF 0x100 = true ∧ memberTrap 0x1F 0x20 = true := by decide +kernel

/-- SHFL.up by 1, VOTE.ballot of bit 0 of the thread number, BCAST of thread 5, GSCAN.add; v1 holds the thread number. -/
def gangT : Gang := withV (fun t => [(1, BitVec.ofNat 32 t)]) (fun t => [(2, BitVec.ofNat 32 (t % 2))]) (gangMode 0 0)
def ctl (func arg mask : Nat) : Src := .imm64 (BitVec.ofNat 64 (2 ^ 40 * arg + 2 ^ 32 * func + mask))
def v9 (i : Instr) (t : Nat) : W32 := ((run i gangT).thread (t / 4) (t % 4)).vreg 9

theorem test_gang_wide :
    v9 (.shfl (.v 9) (.v 1) (ctl 1 1 0xFFFFFFFF)) 0 = 0 ∧ v9 (.shfl (.v 9) (.v 1) (ctl 1 1 0xFFFFFFFF)) 31 = 30 ∧
    v9 (.shfl (.v 9) (.v 1) (ctl 3 16 0xFFFFFFFF)) 5 = 21 ∧ v9 (.vote (.v 9) (.x 2) (ctl 2 0 0xFFFFFFFF)) 0 = 0xAAAAAAAA ∧
    v9 (.vote (.v 9) (.x 2) (ctl 3 0 0xFFFFFFFF)) 7 = 16 ∧ v9 (.bcast (.v 9) (.v 1) (ctl 0 5 0xFFFFFFFF)) 31 = 5 ∧
    v9 (.gscan (.v 9) (.v 1) (ctl 0 0 0xFFFFFFFF)) 31 = 496 ∧ v9 (.gscan (.v 9) (.v 1) (ctl 16 0 0xFFFFFFFF)) 31 = 465 := by decide +kernel

/-! ### 17: a trap, its handler, a double trap -/

/-- FPTRAP enables DZ; v2 holds 0.0 in thread 9. -/
def gangDiv : Gang :=
  let g := withV (fun t => [(1, 0x3F800000), (2, if t = 9 then 0 else 0x40000000)]) (fun _ => []) (gangMode 2 0)
  { g with fptrap := 8, trap := { g.trap with tvec := 0x10409 } }

theorem test_fp_trap :
    let g := run (.fdiv (.v 3) (.v 1) (.v 2)) gangDiv
    (g.thread 0 0).vreg 3 = 0x3F000000 ∧ (g.thread 2 1).vreg 3 = 0 ∧ g.fpflags = 8 ∧ g.trap.tcause = 0x8000000000000002 ∧ g.trap.tmask = 0x200 ∧
    g.trap.taddr = 8 ∧ g.trap.tpc = 0x10008 ∧ g.strands.map (fun st => (st.pc, st.mode)) = [(0x10408, 0x007000)] := by decide +kernel

/-- In the handler, with the trapped word in TWORD: TWR writes v3 of thread 9 only, RESUME.skip goes on behind the FDIV, which
is its line's only instruction, so at word 2 of the next line (02 R25). -/
theorem test_handler :
    let g := run (.fdiv (.v 3) (.v 1) (.v 2)) gangDiv
    let g := { g with trap := { g.trap with tword := 0x4E030102 } }
    ((run (.twr (.imm 5) 0) g).thread 2 1).vreg 3 = 5 ∧ ((run (.twr (.imm 5) 0) g).thread 0 0).vreg 3 = 0x3F000000 ∧
    (let h := ((ran (.resume 0) { on g with mem := (State.reset.placeMemory [0x4E030102]).mem }).gang? 0).getD gang0
     h.strands.map (fun st => (st.pc, st.mode)) = [(0x10088, 0x207000)] ∧ h.trap.tcause.getLsbD 63 = false) ∧
    (run (.resume 1) g).strands.map (fun st => st.pc) = [0x10008] := by decide +kernel

/-- The same FDIV in the handler: DOUBLE_TRAP with REASON 2, and the grid ends. -/
theorem test_double_trap :
    let g := run (.fdiv (.v 3) (.v 1) (.v 2)) gangDiv
    let t := ran (.fdiv (.v 4) (.v 1) (.v 2)) (on { g with strands := g.strands.map fun st => { st with mode := 0x207000 } })
    (t.reports.map fun r => (r.info.kind, r.info.reason)) = [(7, 2)] ∧ (t.gangs.all fun g => !g.isLive) = true := by decide +kernel

/-! ### 13, 14: chunks, NB4, ASOFT, trees -/

def f32v (w : W32) : FV := (f32val w, 0)

/-- 2^24 with the chunk 1.0 + 0.5 gives 16777218; one product at a time it stays. -/
theorem test_chunks :
    (addChunk false 0x4B800000 (chunkSum false [(f32v 0x3F800000, f32v 0x3F800000), (f32v 0x3F000000, f32v 0x3F800000)])).1 = 0x4B800001 ∧
    (addChunk false 0x4B800000 (chunkSum false [(f32v 0x3F800000, f32v 0x3F800000)])).1 = 0x4B800000 ∧
    (addChunk false 0x4B800000 (chunkSum false [(f32v 0x3F000000, f32v 0x3F800000)])).1 = 0x4B800000 := by decide +kernel

/-- The worked NB4 block: words of 0.625, 1.875, 7.5, −7.5 and 0. -/
def nb4Byte (b : Nat) : Nat := [0x31, 0xF7, 0, 0].getD b (if b = 16 then 0x48 else if b = 33 then 0x40 else 0)
def nb4Shape : Shape := { bn := 32, bs := 16, est := 1, fmt := 8, cols := 0, rows := 7, rstride := 4, sbase := 0, t := true }
theorem test_nb4 : ((List.range 8).map fun (r : Nat) => rne (Fp.exAdd 0 (nb4Shape.val nb4Byte 8 (r : Int) 0).1 (f32val 0)).1) =
    [0x3F200000, 0x3FF00000, 0x40F00000, 0xC0F00000, 0, 0, 0, 0] := by decide +kernel

/-- Two steps on row 0: T holds 4.0 and 1.875, P 1.0 and 0.25, O is halved by the second. -/
def softOp (first : Nat) : TileOp := { TileOp.of ctx0 .asoft [2, 7, 5] [first, 3] [] [] false with id := 0 }
def scores (a b : W32) : Sparse W32 := mapI (fun i w => (i, w)) 0 ([a, b] ++ List.replicate 14 0xFF800000)
def soft (first : Nat) (s t o : Sparse W32) : Gang :=
  let g : Gang := { gang0 with tiles := [(2, s), (5, o), (7, t)], tileOps := [softOp first] }
  ((on g).tileOp g (softOp first)).2
theorem test_asoft :
    let a := soft 1 (scores 0x40400000 0x3F800000) [] [(0, 0x41000000)]
    let b := soft 0 (scores 0x40800000 0x40000000) (a.tile 7) (a.tile 5)
    [tileWord (a.tile 7) 0, tileWord (a.tile 7) 1, tileWord (a.tile 5) 0] = [0x40400000, 0x3FA00000, 0x41000000] ∧
    (List.range 3).map (tileWord (b.tile 2)) = [0x3F800000, 0x3E800000, 0] ∧
    [tileWord (b.tile 7) 0, tileWord (b.tile 7) 1, tileWord (b.tile 5) 0] = [0x40800000, 0x3FF00000, 0x40800000] := by decide +kernel

/-- The worked tree: parents 0, 0, 0, 1, 1, 3 of nodes 0 to 5. -/
def gangBuild (w4 : W32) : Gang :=
  let g := withV (fun t => [(10, row [0, 0, 0, 1, w4, 3] t + (if 6 ≤ t then 0x80000000 else 0))]) (fun t => [(1, BitVec.ofNat 32 t)]) gang0
  { g with s := [(5, 512), (9, 100)], trap := { g.trap with tvec := 0x10409 } }
def gangTree6 : Gang := { run (.ttset 0 (.v 10) 0) (gangBuild 1) with strands := [st0] }

theorem test_tree :
    ((List.range 17).map fun t => ((run (.ttmask (.v 13) 8 0) gangTree6).thread (t / 4) (t % 4)).vreg 13) =
      [1, 3, 5, 0xB, 0x13, 0x2B, 0, 0, 0, 0, 0, 0, 0, 0, 0, 0, 1] ∧
    ((List.range 7).map fun t => ((run (.ttpos (.v 12) (.x 1) 9 0) gangTree6).thread (t / 4) (t % 4)).vreg 12) =
      [100, 101, 101, 102, 102, 103, 0xFFFFFFFF] := by decide +kernel

theorem test_prune :
    let t := ran (.prune (.s 7) (.imm 3) 0 5) (on gangTree6)
    let g := (t.gang? 0).getD gang0
    g.sreg 7 = 0x0000000200000003 ∧ (g.tree 0 0).present 1 = true ∧ (g.tree 0 0).parent 1 = 0 ∧ (g.tree 0 0).present 2 = false ∧
    (List.range 16).map (fun i => t.byteAt (.scratch 7 (512 + i))) = [0, 0, 0, 0, 1, 0, 0, 0, 3, 0, 0, 0, 5, 0, 0, 0] := by decide +kernel

/-- Thread 4 supplies 4: TREE, cause 15, TMASK 0x10, TADDR 4; nothing is set. -/
theorem test_tree_trap :
    let g := run (.ttset 0 (.v 10) 0) (gangBuild 4)
    g.trap.tcause = 0x800000000000000F ∧ g.trap.tmask = 0x10 ∧ g.trap.taddr = 4 ∧ g.trees = [] := by decide +kernel
/-! ### 02: a fetch line -/

/-- The worked line, with STARTS `starts` and word 9 `w9`. -/
def fetchLine (starts w9 : W32) : List W32 :=
  [0x40000000 + starts, 0, 0x01207000, 0x40030102, 0x400403F0, 0x3F800000, 0x0C000000, 0x00000081, 0, w9] ++ List.replicate 22 0

/-- It is well formed; not where word 5 is marked too, or word 9 is not zero; only word 2 is a target. -/
theorem test_fetch_line : lineOk (fetchLine 0x17 0) = true ∧ lineOk (fetchLine 0x37 0) = false ∧ lineOk (fetchLine 0x17 1) = false ∧
    targeted (fetchLine 0x17 0) 2 = true ∧ targeted (fetchLine 0x17 0) 3 = false := by decide +kernel

/-! ### 04: control flow and barriers -/

/-- JOIN: PEND becomes RECONV with the pending lanes on, which leave for the other path; RECONV at its address is popped and
the slice goes on with every lane. -/
def gangJoin (m : BitVec 4) (e : MaskEntry) : Gang :=
  { gang0 with slices := [{ gang0.slice 0 with mask := m, stack := [e] }], strands := [{ st0 with slices := [0] }] }

theorem test_join :
    (let g := run .join (gangJoin 0x9 { reconv := false, pc := 0x10018, pm := 0x6, fm := 0xF, depth := 0 })
     g.strands.map (fun st => st.pc) = [0x10018] ∧ (g.slice 0).mask = 0x6 ∧
       (g.slice 0).stack.map (fun e => (e.reconv, e.pc, e.fm, e.depth)) = [(true, 0x10008, 0xF, 0)]) ∧
    (let g := run .join (gangJoin 0x6 { reconv := true, pc := 0x10008, pm := 0, fm := 0xF, depth := 0 })
     g.strands.map (fun st => st.pc) = [0x1000C] ∧ (g.slice 0).mask = 0xF ∧ (g.slice 0).stack = []) := by decide +kernel

/-- CALL pushes the fall-through address, RET pops it; a RET with nothing to pop ends the threads; BP follows a predicate. -/
theorem test_call_ret :
    (run (.call 0x40) gang0).strands.map (fun st => (st.pc, st.ret)) = [(0x10048, [0x1000C])] ∧
    (run .ret { gang0 with strands := [{ st0 with ret := [0x2000C] }] }).strands.map (fun st => (st.pc, st.ret)) = [(0x2000C, [])] ∧
    (ran .ret (on gang0)).gangs.all (fun g => !g.isLive) = true ∧ (ran .exit (on gang0)).gangs.all (fun g => !g.isLive) = true ∧
    (run (.br 0xFFFFFFF8) gang0).strands.map (fun st => st.pc) = [0x10000] ∧
    (run (.bp 7 0x10) gang0).strands.map (fun st => st.pc) = [0x10018] ∧ (run (.bp 15 0x10) gang0).strands.map (fun st => st.pc) = [0x1000C] := by
  decide +kernel

/-- Two gangs of a team: gang 0 arrives at b1 with count 1, gang 1 waits for its first phase. -/
def onTwo (is : Issue) (b : Sparse Barrier) (w : Wait) : State :=
  { on gang0 with grids := [{ grid0 with tmpl := { placedTemplate with gangs := 2 } }], issue := some is, teams := [{ team0 with barriers := b }]
                  gangs := [gang0, { gang0 with gid := 1, g := 1, part := 1, strands := [{ st0 with wait := w }] }] }
def barrier1 (s : State) : Nat × Nat × Nat × Nat :=
  let b := ((s.teamByKey? 7).getD team0).barrier 1
  (b.c, b.arr, b.k, Sparse.get 1 b.e 1)
def waitOf (s : State) : Option (List (Nat × Wait)) := (s.gang? 1).map fun g => g.strands.map fun st => (st.pc, st.wait)

/-- Either order of the worked handoff: the arrival completes a phase, the wait goes on (where it began first, at its next
issue) with E = 2. -/
theorem test_handoff :
    let first := ran (.bara 1 1) (onTwo is0 [] .none)
    let then1 := ran (.barw 1) { first with issue := some { is0 with gang := 1 } }
    let alone := ran (.barw 1) (onTwo { is0 with gang := 1 } [] .none)
    let after := ran (.barw 1) { ran (.bara 1 1) { alone with issue := some is0 } with issue := some { is0 with gang := 1 } }
    barrier1 first = (1, 0, 0, 1) ∧ waitOf then1 = some [(0x1000C, .none)] ∧ barrier1 then1 = (1, 0, 0, 2) ∧
    barrier1 alone = (0, 0, 0, 1) ∧ waitOf alone = some [(0x10008, .barrier 1)] ∧ barrier1 after = (1, 0, 0, 2) ∧
    waitOf after = some [(0x1000C, .none)] := by decide +kernel

/-! ### 06: images of spilled registers -/

/-- 1000 + 3t is AFFINE, 7 everywhere UNIFORM; their slots are at 0x4680 and 0x4500 of the frame. -/
theorem test_firn :
    firnImage ((List.range 32).map fun t => (t, BitVec.ofNat 32 (1000 + 3 * t))) = (2, mapI (fun i b => (i, b)) 0 [0xE8, 3, 0, 0, 3, 0, 0, 0]) ∧
    firnImage ((List.range 32).map fun t => (t, 7)) = (1, mapI (fun i b => (i, b)) 0 [7, 0, 0, 0]) ∧ slotOff 13 = 0x4680 ∧ slotOff 10 = 0x4500 := by
  decide +kernel

/-! ### 09, 10: memory -/

def arrOfFields (space logsz extent base : Nat) : W128 := BitVec.ofNat 128 (2 ^ 88 * extent + 2 ^ 85 * space + 2 ^ 82 * logsz + 2 ^ 81 + 2 ^ 80 + base)

/-- 0x80 and 0xFF at 0x10100 and 0x10101, a6 an array of bytes there. -/
def byteMem (g : Gang) : State := (onMem g).pokePhys 0x140100 [0x80, 0xFF]
def loaded (w : AccWord) : W32 :=
  ((((ran (.ld (.v 1) .zero 6 w) (byteMem { gangOne with a := [(6, arrOfFields 4 0 64 0x10100)] })).gang? 0).getD gang0).thread 0 0).vreg 1

/-- Loads of one, two and four bytes extend as EXT says. -/
theorem test_load : loaded ⟨0, 0, 0, 0, 0, 0⟩ = 0x80 ∧ loaded ⟨0, 0, 0, 0, 0, 1⟩ = 0xFFFFFF80 ∧ loaded ⟨0, 0, 0, 0, 1, 1⟩ = 0xFFFFFF80 ∧
    loaded ⟨0, 0, 0, 0, 1, 0⟩ = 0xFF80 ∧ loaded ⟨0, 0, 0, 0, 2, 0⟩ = 0xFF80 := by decide +kernel

/-- v1 of the one active thread. -/
def gangV1 (a b : W32) : Gang :=
  let thread (k j : Nat) (t : Thread) : Thread := if k = 0 ∧ j = 0 then { t with v := [(2, a), (3, b)] } else t
  { gangOne with slices := mapI (fun k sl => { sl with threads := mapI (thread k) 0 sl.threads }) 0 gangOne.slices }

/-- ATOM.add returns the old value and stores the sum, .cdec stays at its floor; CAS replaces on a match. -/
theorem test_atomics :
    (let t := ran (.atom (.v 2) 0 .zero 6 word4) (byteMem (gangV1 0x00010002 0))
     (((t.gang? 0).getD gang0).thread 0 0).vreg 2 = 0xFF80 ∧ t.readPhys 0x140100 4 = 0x0001FF82) ∧
    (let t := ran (.atom (.v 2) 10 .zero 6 word4) (byteMem (gangV1 0xFF80 0))
     (((t.gang? 0).getD gang0).thread 0 0).vreg 2 = 0xFF80 ∧ t.readPhys 0x140100 4 = 0xFF80) ∧
    (let t := ran (.cas (.v 2) .zero 6 word4) (byteMem (gangV1 0xFF80 0x12345678))
     (((t.gang? 0).getD gang0).thread 0 0).vreg 2 = 0xFF80 ∧ t.readPhys 0x140100 4 = 0x12345678) := by decide +kernel

/-- FEMARK.arm of scratch line 2 takes its writer in, FEMARK.land takes it out. -/
theorem test_femark :
    let s := ran (.femark 0 (.imm 0x40) 5 byte1) { onEng gangEng with gangs := [{ gangOne with a := [(5, bigArray 1 0)] }] }
    let t := ran (.femark 1 (.imm 0x40) 5 byte1) { s with issue := some is0 }
    s.lineP (.scratch 7 256) = 1 ∧ s.lineP (.scratch 7 128) = 0 ∧ t.lineP (.scratch 7 256) = 0 := by decide +kernel

/-- The worked walk: indices 0, 1, 2, 3 reach the leaf 0x0000_0017_2345_F017 at T3 + 24; a touch by base die 2 sets bit 56. -/
def walkMem : State := (((State.reset.pokePhys (64 * 5) (leBytes 8 0x100000 ++ leBytes 8 0 ++ [1])).pokePhys 0x100000 (leBytes 8 0x110001)).pokePhys
  0x110008 (leBytes 8 0x120001)).pokePhys 0x120010 (leBytes 8 0x130001) |>.pokePhys 0x130018 (leBytes 8 0x000000172345F017)

theorem test_walk : walkMem.walk 5 0x0000040040030580 = some (0x130018, 0x000000172345F017, false) ∧
    (match walkMem.accessWith true 800 5 0x0000040040030580 true false with
      | .ok (t, pa) => decide (pa = 0x1723450580) && decide (t.readPhys 0x130018 8 = 0x010000172345F017)
      | .error _ => false) = true := by decide +kernel

/-! ### 12, 15: engine commands -/

/-- The worked copy: a1 is the scratchpad of 8192 bytes, a4 device memory, s20 = 0x1000, s21 = 0, s22 = 512. -/
def gangCopy : Gang :=
  { gang0 with a := [(1, BitVec.ofNat 128 (2 ^ 88 * 8192 + 2 ^ 85 + 2 ^ 81 + 2 ^ 80)), (4, BitVec.ofNat 128 (2 ^ 88 * 2 ^ 20 + 2 ^ 85 * 4 + 2 ^ 82 * 4 + 2 ^ 81 + 0x10000))]
               s := [(20, 0x1000), (22, 512)], trap := { gang0.trap with tvec := 0x10409 } }
def onCopy : State :=
  { on gangCopy with mem := (State.reset.placeMemory [0]).mem, teams := [{ team0 with blocks := [64, 65] }]
                     grids := [{ grid0 with tmpl := { placedTemplate with scratch := 2 } }] }
def wCopy : CmdWord := ⟨3, 0, 1, 22, 20, 21, 0⟩

/-- Lines 32 to 35 are armed and no other, s22 pends at 512 with rime TOP, CP is 1. -/
theorem test_copy :
    let t := ran (.cpy (.imm 512) 1 4 wCopy) onCopy
    let g := (t.gang? 0).getD gang0
    (List.range 6).map (fun i => t.lineP (.scratch 7 (128 * (31 + i)))) = [0, 1, 1, 1, 1, 0] ∧ g.sreg 22 = 512 ∧ g.srime 22 = .top ∧
    g.counter .cp = 1 ∧ g.strands.map (fun st => st.pc) = [0x1000C] := by decide +kernel

/-- With 4112 bytes the range passes the end: COPY_RANGE, cause 8, with TADDR 0x1000; nothing is armed. -/
theorem test_copy_range :
    let t := ran (.cpy (.imm 4112) 1 4 wCopy) onCopy
    let g := (t.gang? 0).getD gang0
    g.trap.tcause = 0x8000000000000008 ∧ g.trap.taddr = 0x1000 ∧ t.lineP (.scratch 7 4096) = 0 ∧ g.counter .cp = 0 := by decide +kernel

/-- The worked gather: NMAX 4 is accepted and arms line 8; with NMAX 16 the list range passes a7, COPY_RANGE with TADDR 0x200. -/
def gangGather : Gang :=
  { gang0 with a := [(4, arrOfFields 4 2 64 0x10100), (5, arrOfFields 4 2 6 0x10200), (6, arrOfFields 1 4 16 0x400), (7, arrOfFields 1 2 16 0x200)]
               s := [(22, 64)], trap := { gang0.trap with tvec := 0x10409 } }
def wGather : CmdWord := ⟨1, 0, 1, 22, 20, 21, 4⟩
def gathered (n : W32) : State := ran (.gath2 4 5 (.imm n) 6 7 wGather) { onMem gangGather with grids := [gridEng] }

theorem test_gather :
    (let g := ((gathered 4).gang? 0).getD gang0
     (gathered 4).lineP (.scratch 7 0x400) = 1 ∧ g.counter .gx = 1 ∧ g.sreg 22 = 64) ∧
    (let g := ((gathered 16).gang? 0).getD gang0
     g.trap.tcause = 0x8000000000000008 ∧ g.trap.taddr = 0x200 ∧ g.counter .gx = 0) := by decide +kernel

/-! ### 16: one round's counts -/

/-- Weights 1, 0, 3, 0, 2, 0, 1, 1, N = 8 and k = 0x6000_0000. -/
def weights0 : List W32 := [0x3F800000, 0, 0x40400000, 0, 0x40000000, 0, 0x3F800000, 0x3F800000]
theorem test_round :
    let ps := mapI (fun i (w : W32) => ({ gid := 0, t := i, slot := i, w := w.toNat } : Parent)) 0 weights0
    let total := (ps.map fun p => fixedWeight p.w).foldl (· + ·) 0
    (countAll 8 0x60000000 total 0 ps).map (fun x => (x.2.2, x.2.1)) = [(1, 0), (0, 1), (3, 1), (0, 4), (2, 4), (0, 6), (1, 6), (1, 7)] := by
  decide +kernel

/-! ### Moves and the rest -/

/-- MOV to an s register sign-extends an F0 immediate; PGET packs p7 to p0; GETSR of TMASK; SETSR of FPTRAP; p7 is always true. -/
theorem test_moves :
    s0 (.mov (.s 0) (.imm 0x80000000)) 0 = 0xFFFFFFFF80000000 ∧ s0 (.mov (.s 0) (.s 1)) 7 = 7 ∧
    ((run (.pget (.v 0) 0 0) { gang0 with slices := gang0.slices.map fun sl => { sl with threads := sl.threads.map fun t => { t with p := 5 } } }).thread 0 0).vreg 0 = 0x85 ∧
    (run (.getsr (.s 0) 4) { gang0 with trap := { gang0.trap with tmask := 0x200 } }).sreg 0 = 0x200 ∧
    (run (.setsr (.imm 0x3F) 0x0B) gang0).fptrap = 0x1F ∧
    ((run (.pmov 3 0 1 1) gang0).thread 0 0).p = 0x88 ∧
    ((run (.cmp 2 4 (.imm 3) (.imm 5)) gang0).thread 0 0).p = 0x90 := by decide +kernel


end Sys2Proof.Tests
end

section
/-! Predicate logic (06 R168): PAND, POR, PXOR, PNOT and PMOV are one operation, `predOp`, at five functions of a thread's
predicates. What that operation answers is said once here. -/

namespace Sys2Proof.Machine

open Sys2Proof Sys2Proof.Claims

/-! ### The five instructions as predicate operations -/

section Forms

variable (p : BitVec 3) (a b : BitVec 4) (imm value : BitVec 1) (s : State)

theorem exec_pand : exec (.pand p a b) s = predOp s true p fun q => predSel q a.toNat && predSel q b.toNat := rfl
theorem exec_por : exec (.por p a b) s = predOp s true p fun q => predSel q a.toNat || predSel q b.toNat := rfl
theorem exec_pxor : exec (.pxor p a b) s = predOp s true p fun q => predSel q a.toNat != predSel q b.toNat := rfl
theorem exec_pnot : exec (.pnot p a) s = predOp s true p fun q => !predSel q a.toNat := rfl
theorem exec_pmov : exec (.pmov p a imm value) s =
    predOp s (decide (imm = 0) || decide (a = 0)) p fun q => if imm = 1 then decide (value = 1) else predSel q a.toNat := rfl

/-- PMOV of a predicate. -/
theorem exec_pmov_sel : exec (.pmov p a 0 value) s = predOp s true p fun q => predSel q a.toNat := by
  simp [exec_pmov]

/-- PMOV of VALUE. -/
theorem exec_pmov_value : exec (.pmov p 0 1 value) s = predOp s true p fun _ => decide (value = 1) := by
  simp [exec_pmov]

/-- PMOV of VALUE that names a predicate beside it. -/
theorem exec_pmov_both {a : BitVec 4} (ha : a ≠ 0) :
    exec (.pmov p a 1 value) s = predOp s false p fun _ => decide (value = 1) := by
  rw [exec_pmov, decide_eq_false ha]
  simp

end Forms

/-! ### What a predicate operation answers -/

/-- An accepted one: each active thread writes `f` of the predicates that it held before. -/
theorem writesP_predOp {i : Instr} {s : State} {c : Ctx} {p : BitVec 3} {f : BitVec 8 → Bool} (hc : s.ctx = some c)
    (h : exec i s = predOp s true p f) : WritesP i s c p.toNat fun k j => f (c.g.thread k j).p := by
  have hnext : predOp s true p f = .next (s.done c (c.g.mapThreads c.st.slices fun k j t =>
      if c.active k j then t.setP p.toNat (f t.p) else t)) :=
    instr_eq hc rfl ⟨rfl, rfl, rfl⟩
  have hbefore : (c.g.mapThreads c.st.slices fun k j t => if c.active k j then t.setP p.toNat (f t.p) else t) =
      c.g.mapThreads c.st.slices fun k j t => if c.active k j then t.setP p.toNat (f (c.g.thread k j).p) else t :=
    Gang.mapThreads_congr fun _ _ _ => rfl
  exact writesP_done hc (by rw [h, hnext, hbefore])

/-- One that its entry does not accept raises ENCODING (02 R42). -/
theorem predOp_encoding {s : State} {c : Ctx} (p : BitVec 3) (f : BitVec 8 → Bool) (hc : s.ctx = some c) :
    predOp s false p f = .next (s.userTrap c c.g { cause := 1, tmask := c.tmask, taddr := c.is.pc }) := by
  simp [predOp, instr, run, hc, State.encoding, State.trapDefault]

/-- Settles O4: each of the five is a predicate operation, accepted but for PMOV with IMM = 1 and A nonzero. -/
theorem predicateLogic : Obligations.PredicateLogic := by
  intro p a b v s c hc
  refine ⟨?pand, ?por, ?pxor, ?pnot, ?pmovSel, ?pmovValue, fun ha => ?pmovBoth⟩
  case pand => exact writesP_predOp hc (exec_pand p a b s)
  case por => exact writesP_predOp hc (exec_por p a b s)
  case pxor => exact writesP_predOp hc (exec_pxor p a b s)
  case pnot => exact writesP_predOp hc (exec_pnot p a s)
  case pmovSel => exact writesP_predOp hc (exec_pmov_sel p a v s)
  case pmovValue => exact writesP_predOp hc (exec_pmov_value p v s)
  case pmovBoth => rw [exec_pmov_both p v s ha, predOp_encoding p _ hc]

end Sys2Proof.Machine
end

section
/-! TRAP and BRK (17 R422, R423). Both trap where the gate of gang-uniform effects is open and else go on; the gate is open
where some live thread of the strand is active (02 R38). -/

namespace Sys2Proof.Machine

open Sys2Proof Sys2Proof.Claims

/-! ### The gate and the entry of an instruction without register operands -/

/-- The gate as a statement about the lanes of the issuing slices (02 R38). -/
theorem Ctx.gate_iff {c : Ctx} : c.gate = true ↔ ∃ k ∈ c.st.slices, ∃ j, j < 4 ∧ c.active k j = true := by
  rw [Ctx.gate, Bool.not_eq_true', List.isEmpty_eq_false_iff_exists_mem]
  constructor
  · rintro ⟨⟨k, j⟩, hkj⟩
    obtain ⟨hk, hactive⟩ := mem_activeLanes.mp hkj
    exact ⟨k, hk, j, active_lane hactive, hactive⟩
  · rintro ⟨k, hk, j, -, hactive⟩
    exact ⟨(k, j), mem_activeLanes.mpr ⟨hk, hactive⟩⟩

/-- An instruction that names no v register, x register or latch is ready. -/
theorem ready_nil (s : State) (c : Ctx) : Ready s c [] [] := ⟨rfl, rfl, rfl⟩

/-! ### The two instructions -/

/-- An F0 immediate keeps its signed value at 64 bits (02 R33). -/
theorem Ctx.toInt_val64_imm (s : State) (c : Ctx) (w : W32) : (c.val64 s (.imm w)).toInt = w.toInt :=
  BitVec.toInt_signExtend_of_le (by decide)

section Forms

variable {s : State} {c : Ctx}

/-- TRAP: a trap that carries its operand's 64-bit value where the gate is open, else nothing. -/
theorem exec_trap_gated {a : Src} (hc : s.ctx = some c) (ha : Accept.srcSZ64 a = true) :
    exec (.trap a) s = .next (if c.gate then
      s.userTrap c c.g { cause := 10, tmask := c.tmask, taddr := (c.val64 s a).toNat } else s.skip c) :=
  instr_eq hc ha (ready_nil s c)

/-- BRK: a trap that carries its code where the gate is open, else nothing. -/
theorem exec_brk_gated (code : BitVec 16) (hc : s.ctx = some c) :
    exec (.brk code) s = .next (if c.gate then
      s.userTrap c c.g { cause := 9, tmask := c.tmask, taddr := code.toNat } else s.skip c) :=
  instr_eq hc rfl (ready_nil s c)

end Forms

/-- Settles O25, by the two states of the gate; an s register's value is read as it is and an F0 immediate keeps its signed
value. -/
theorem trapInstruction : Obligations.TrapInstruction := by
  intro a s c hc ha _
  refine ⟨fun hsome => ?raised, fun hnone => ?skipped, fun n hn => ?register, fun w hw => ?immediate⟩
  case raised => rw [exec_trap_gated hc ha, if_pos (Ctx.gate_iff.mpr hsome)]
  case skipped => rw [exec_trap_gated hc ha, if_neg (mt Ctx.gate_iff.mp hnone), State.skip_eq, Ctx.onward]
  case register => rw [hn, Ctx.val64]
  case immediate => rw [hw, Ctx.toInt_val64_imm]

/-- Settles O26, by the two states of the gate. -/
theorem breakInstruction : Obligations.BreakInstruction := by
  intro code s c hc
  refine ⟨fun hsome => ?raised, fun hnone => ?skipped⟩
  case raised => rw [exec_brk_gated code hc, if_pos (Ctx.gate_iff.mpr hsome)]
  case skipped => rw [exec_brk_gated code hc, if_neg (mt Ctx.gate_iff.mp hnone), State.skip_eq, Ctx.onward]

end Sys2Proof.Machine
end
